-- ==== Sys2Proof/Word.lean ====
section
/-!
DEFINITION. The values the 8086 works on: bytes, words, physical addresses, and the operand width that
the `w` bit of an instruction selects (00_scope.md R8, 30_encoding.md R105).
-/

namespace Sys2Proof

/-- 8 bits (R8). -/
abbrev Byte := BitVec 8

/-- 16 bits: a register, an offset, a segment value (R5, R8). -/
abbrev Word := BitVec 16

/-- A 20-bit physical memory address (R5, R60). -/
abbrev Addr := BitVec 20

/-- The operand width: `w = 0` byte, `w = 1` word (R105). -/
inductive Width where
  | byte
  | word
  deriving DecidableEq, Repr

/-- `N` of the instruction rules: 8 for a byte operand, 16 for a word operand. -/
abbrev Width.bits : Width → Nat
  | .byte => 8
  | .word => 16

/-- An operand of width `w`. -/
abbrev Operand (w : Width) := BitVec w.bits

end Sys2Proof
end

