-- ==== Sys2Proof/Machine/Bits.lean ====
section
/-!
DEFINITION. Byte order, sign extension and bit-field helpers (00_scope.md R8 to R10, 30_encoding.md R102).
-/

namespace Sys2Proof.Machine

/-- `hi : lo`, the word with the two given bytes (R9). -/
def joinBytes (hi lo : Byte) : Word := hi ++ lo

/-- Bits 7 to 0. -/
def lowByte (v : Word) : Byte := v.extractLsb' 0 8

/-- Bits 15 to 8. -/
def highByte (v : Word) : Byte := v.extractLsb' 8 8

/-- `sext_16` of a byte (R10, R113). -/
def signExtend16 (v : Byte) : Word := v.signExtend 16

/-- `zext_16` of a byte (R10, R115). -/
def zeroExtend16 (v : Byte) : Word := v.setWidth 16

/-- The 3-bit field of a byte whose lowest bit is bit `lo`, as a number (R103, R104). -/
def field3 (b : Byte) (lo : Nat) : Nat := b.toNat / 2 ^ lo % 8

/-- The 2-bit field of a byte whose lowest bit is bit `lo`, as a number (R104, R107). -/
def field2 (b : Byte) (lo : Nat) : Nat := b.toNat / 2 ^ lo % 4

/-- `parity8` (R15): whether the low 8 bits hold an even number of 1 bits. -/
def parity8 (v : Byte) : Bool :=
  !(v.getLsbD 0 ^^ v.getLsbD 1 ^^ v.getLsbD 2 ^^ v.getLsbD 3
    ^^ v.getLsbD 4 ^^ v.getLsbD 5 ^^ v.getLsbD 6 ^^ v.getLsbD 7)

end Sys2Proof.Machine
end

