-- ==== Sys2Proof/Config.lean ====
section
/-!
DEFINITION. What one machine fixes (the named parameters of 00_scope.md R7) and the free values of the model
(00_scope.md R16, 92_eei_decisions.md D23, 93_implementation_defined.md U15).
-/

namespace Sys2Proof

/-- The source of every value the spec leaves open: `freeWord n` is the value of the `n`-th draw. It has no body, so
nothing can be proved of it beyond what holds of every function. DESIGN CHOICE, safe: log 4. -/
opaque Config.freeWord : Nat → Word

/-- The source of every byte the environment supplies without a script (U15): `freeByte n` is the `n`-th. Like
`freeWord` it has no body. DESIGN CHOICE, safe: log 4. -/
opaque Config.freeByte : Nat → Byte

/-- The pin strap MN/MX (R6). No rule of the spec reads it. -/
inductive PinMode where
  | minimum
  | maximum
  deriving DecidableEq, Repr

/-- `QUEUE_VISIBILITY` (R7, D6): whether a store into bytes already prefetched is seen by the fetch. -/
inductive QueueVisibility where
  /-- old or new byte, a free choice per byte: the spec's default -/
  | draw
  /-- a program that executes such a byte is refused -/
  | refuse
  /-- no queue: memory is always fetched as it is now -/
  | alwaysNew
  deriving DecidableEq, Repr

/-- `DIVIDE_ERROR_SAVED_IP` (R7, D18). -/
inductive SavedIp where
  /-- the instruction after the divide: the 8086 -/
  | next
  /-- the divide itself -/
  | current
  deriving DecidableEq, Repr

/-- `PUSH_SP_VALUE` (R7, D22). -/
inductive PushSp where
  /-- the decremented SP: the 8086 -/
  | new
  /-- SP before the decrement -/
  | old
  deriving DecidableEq, Repr

/-- What is present at an address, the platform's business (R60, R74, R78). -/
inductive Presence where
  /-- memory that can be read and written -/
  | ram
  /-- memory that a write does not change (R417) -/
  | rom
  /-- a memory-mapped device, or nothing: a read takes the environment's answer (U15), a write goes to the device
  (D33) -/
  | device
  deriving DecidableEq, Repr

/-- A range of physical addresses and what is present there. -/
structure Region where
  base : Nat
  size : Nat
  kind : Presence
  deriving DecidableEq, Repr

/-- The parameters of R7 that a rule of the CPU reads, as plain data held in the state, so that a statement about
every state is a statement about every value of them. DESIGN CHOICE, safe: log 5. -/
structure Params where
  /-- `FLAGS_X` (R32, D8): what the seven unused FLAGS positions read as; only those seven bits of it count -/
  flagsX : Word
  /-- `QUEUE_VISIBILITY` (D6) -/
  queueVisibility : QueueVisibility
  /-- `INT_INHIBIT_AFTER_SEGLOAD` (D17) -/
  inhibitAfterSegLoad : Bool
  /-- `IDIV_MIN_QUOTIENT_8` (D21) -/
  idivMin8 : Int
  /-- `IDIV_MIN_QUOTIENT_16` (D21) -/
  idivMin16 : Int
  /-- `DIVIDE_ERROR_SAVED_IP` (D18) -/
  divideErrorSavedIp : SavedIp
  /-- `PUSH_SP_VALUE` (D22) -/
  pushSp : PushSp
  /-- the MN/MX strap (R6), which no rule reads -/
  mode : PinMode
  /-- the platform's memory map, the first region that holds an address counting; RAM elsewhere (R60, R78, log 13) -/
  map : List Region
  deriving DecidableEq, Repr

/-- The spec's own defaults (92_eei_decisions.md, "Parameters of the model, collected"); `mode` and the memory map
have none there (log 5). -/
def Params.i8086 : Params where
  flagsX := 0xF002
  queueVisibility := .draw
  inhibitAfterSegLoad := true
  idivMin8 := -127
  idivMin16 := -32767
  divideErrorSavedIp := .next
  pushSp := .new
  mode := .minimum
  map := []

end Sys2Proof
end

