-- ==== Sys2Proof/Syntax.lean ====
section
/-!
DEFINITION. The instructions as syntax: the operand forms of 30_encoding.md and one constructor of `Instr` for each of
the 135 rows of spec/opcode_table.json.
-/

namespace Sys2Proof

/-- The eight 16-bit general registers, in the order of their numbers (R21, R106). -/
inductive Reg16 where
  | ax | cx | dx | bx | sp | bp | si | di
  deriving DecidableEq, Repr

/-- The eight 8-bit registers, halves of AX, CX, DX, BX, in the order of their numbers (R22, R106). -/
inductive Reg8 where
  | al | cl | dl | bl | ah | ch | dh | bh
  deriving DecidableEq, Repr

/-- The four segment registers, in the order of their numbers (R26, R107). -/
inductive SReg where
  | es | cs | ss | ds
  deriving DecidableEq, Repr

/-- A 3-bit `reg` or `r/m` register number (R106): the instruction's width chooses which register it names. -/
inductive RegNum where
  | r000 | r001 | r010 | r011 | r100 | r101 | r110 | r111
  deriving DecidableEq, Repr

/-- The "16-Bit (w = 1)" column of R106. -/
def RegNum.reg16 : RegNum → Reg16
  | .r000 => .ax | .r001 => .cx | .r010 => .dx | .r011 => .bx
  | .r100 => .sp | .r101 => .bp | .r110 => .si | .r111 => .di

/-- The "8-Bit (w = 0)" column of R106. -/
def RegNum.reg8 : RegNum → Reg8
  | .r000 => .al | .r001 => .cl | .r010 => .dl | .r011 => .bl
  | .r100 => .ah | .r101 => .ch | .r110 => .dh | .r111 => .bh

/-- The base and index registers of the EA formulas, `r/m` = 000 to 111 (R108). -/
inductive EaBase where
  | bxSi | bxDi | bpSi | bpDi | si | di | bp | bx
  deriving DecidableEq, Repr

/-- The displacement that `mod` selects: 00 none, 01 one sign-extended byte, 10 a word (R108, R110). -/
inductive Disp where
  | none
  | d8 (v : Byte)
  | d16 (v : Word)
  deriving DecidableEq, Repr

/-- A memory operand named by `mod` and `r/m` (R108). `direct` is the exception `mod = 00`, `r/m = 110`. -/
inductive Mem where
  | based (base : EaBase) (disp : Disp)
  | direct (addr : Word)
  deriving DecidableEq, Repr

/-- The register-or-memory operand (R108, R109). -/
inductive RM where
  | reg (r : RegNum)
  | mem (m : Mem)
  deriving DecidableEq, Repr

/-- The `d` bit (R105): 1 "to" reg, 0 "from" reg. -/
inductive Dir where
  | fromReg
  | toReg
  deriving DecidableEq, Repr

/-- The `v` bit of shifts and rotates (R105): count 1, or the count in CL. -/
inductive Count where
  | one
  | cl
  deriving DecidableEq, Repr

/-- Immediate data of the forms "data, data if w = 1" (R111). -/
inductive Imm where
  | b (v : Byte)
  | w (v : Word)
  deriving DecidableEq, Repr

/-- The width of the operation an immediate belongs to. -/
def Imm.width : Imm → Width
  | .b _ => .byte
  | .w _ => .word

/-- The value of an immediate. -/
def Imm.val : (i : Imm) → Operand i.width
  | .b v => v
  | .w v => v

/-- Immediate data of the forms "data, data if s:w = 01" (R111, D13). -/
inductive SImm where
  /-- `w = 0`: one byte; the `s` bit is 0 (80H) or 1 (82H) and makes no difference -/
  | byte (s : Bool) (v : Byte)
  /-- `s:w = 01`: two bytes -/
  | word (v : Word)
  /-- `s:w = 11`: one byte, sign-extended to 16 bits -/
  | signed (v : Byte)
  deriving DecidableEq, Repr

/-- The width of the operation an `s:w` immediate belongs to. -/
def SImm.width : SImm → Width
  | .byte _ _ => .byte
  | .word _ => .word
  | .signed _ => .word

/-- The operand value of an `s:w` immediate. -/
def SImm.val : (i : SImm) → Operand i.width
  | .byte _ v => v
  | .word v => v
  | .signed v => v.signExtend 16

/-- The instructions: one constructor per row of spec/opcode_table.json, in its order; the rule is the row's. -/
inductive Instr where
  -- data transfer
  /-- MOV r/m, reg or reg, r/m (R150) -/
  | movRmReg (d : Dir) (w : Width) (r : RegNum) (rm : RM)
  /-- MOV r/m, imm (R151) -/
  | movRmImm (rm : RM) (imm : Imm)
  /-- MOV reg, imm (R152) -/
  | movRegImm (r : RegNum) (imm : Imm)
  /-- MOV accumulator, [addr] (R153) -/
  | movAccMem (w : Width) (addr : Word)
  /-- MOV [addr], accumulator (R154) -/
  | movMemAcc (w : Width) (addr : Word)
  /-- MOV sreg, r/m16 (R155) -/
  | movSregRm (sr : SReg) (rm : RM)
  /-- MOV r/m16, sreg (R156) -/
  | movRmSreg (rm : RM) (sr : SReg)
  /-- PUSH r/m16 (R161) -/
  | pushRm (rm : RM)
  /-- PUSH reg16 (R162) -/
  | pushReg (r : Reg16)
  /-- PUSH sreg (R163) -/
  | pushSreg (sr : SReg)
  /-- POP r/m16 (R165) -/
  | popRm (rm : RM)
  /-- POP reg16 (R166) -/
  | popReg (r : Reg16)
  /-- POP sreg (R167) -/
  | popSreg (sr : SReg)
  /-- XCHG r/m, reg (R170) -/
  | xchgRmReg (w : Width) (r : RegNum) (rm : RM)
  /-- XCHG AX, reg16 (R171); `ax` is NOP -/
  | xchgAxReg (r : Reg16)
  /-- IN accumulator, port8 (R172) -/
  | inFixed (w : Width) (port : Byte)
  /-- IN accumulator, DX (R173) -/
  | inVariable (w : Width)
  /-- OUT port8, accumulator (R174) -/
  | outFixed (w : Width) (port : Byte)
  /-- OUT DX, accumulator (R175) -/
  | outVariable (w : Width)
  /-- XLAT (R176) -/
  | xlat
  /-- LEA reg16, mem (R177) -/
  | lea (r : Reg16) (m : Mem)
  /-- LDS reg16, mem32 (R178) -/
  | lds (r : Reg16) (m : Mem)
  /-- LES reg16, mem32 (R179) -/
  | les (r : Reg16) (m : Mem)
  /-- LAHF (R180) -/
  | lahf
  /-- SAHF (R181) -/
  | sahf
  /-- PUSHF (R182) -/
  | pushf
  /-- POPF (R183) -/
  | popf
  -- arithmetic
  /-- ADD, register form (R201) -/
  | addRmReg (d : Dir) (w : Width) (r : RegNum) (rm : RM)
  /-- ADD r/m, imm (R201) -/
  | addRmImm (rm : RM) (imm : SImm)
  /-- ADD accumulator, imm (R201) -/
  | addAccImm (imm : Imm)
  /-- ADC, register form (R202) -/
  | adcRmReg (d : Dir) (w : Width) (r : RegNum) (rm : RM)
  /-- ADC r/m, imm (R202) -/
  | adcRmImm (rm : RM) (imm : SImm)
  /-- ADC accumulator, imm (R202) -/
  | adcAccImm (imm : Imm)
  /-- INC r/m (R203) -/
  | incRm (w : Width) (rm : RM)
  /-- INC reg16 (R203) -/
  | incReg (r : Reg16)
  /-- AAA (R204) -/
  | aaa
  /-- DAA (R205) -/
  | daa
  /-- SUB, register form (R206) -/
  | subRmReg (d : Dir) (w : Width) (r : RegNum) (rm : RM)
  /-- SUB r/m, imm (R206) -/
  | subRmImm (rm : RM) (imm : SImm)
  /-- SUB accumulator, imm (R206) -/
  | subAccImm (imm : Imm)
  /-- SBB, register form (R207) -/
  | sbbRmReg (d : Dir) (w : Width) (r : RegNum) (rm : RM)
  /-- SBB r/m, imm (R207) -/
  | sbbRmImm (rm : RM) (imm : SImm)
  /-- SBB accumulator, imm (R207) -/
  | sbbAccImm (imm : Imm)
  /-- DEC r/m (R208) -/
  | decRm (w : Width) (rm : RM)
  /-- DEC reg16 (R208) -/
  | decReg (r : Reg16)
  /-- NEG r/m (R209) -/
  | negRm (w : Width) (rm : RM)
  /-- CMP reg, r/m: 3AH, 3BH, reg - r/m (R210) -/
  | cmpRegRm (w : Width) (r : RegNum) (rm : RM)
  /-- CMP r/m, reg: 38H, 39H, r/m - reg (R210) -/
  | cmpRmReg (w : Width) (r : RegNum) (rm : RM)
  /-- CMP r/m, imm (R210) -/
  | cmpRmImm (rm : RM) (imm : SImm)
  /-- CMP accumulator, imm (R210) -/
  | cmpAccImm (imm : Imm)
  /-- AAS (R211) -/
  | aas
  /-- DAS (R212) -/
  | das
  /-- MUL r/m (R213) -/
  | mulRm (w : Width) (rm : RM)
  /-- IMUL r/m (R214) -/
  | imulRm (w : Width) (rm : RM)
  /-- AAM (R215) -/
  | aam
  /-- DIV r/m (R216) -/
  | divRm (w : Width) (rm : RM)
  /-- IDIV r/m (R217) -/
  | idivRm (w : Width) (rm : RM)
  /-- AAD (R218) -/
  | aad
  /-- CBW (R219) -/
  | cbw
  /-- CWD (R220) -/
  | cwd
  -- logic
  /-- NOT r/m (R261) -/
  | notRm (w : Width) (rm : RM)
  /-- SHL = SAL (R262) -/
  | shlRm (v : Count) (w : Width) (rm : RM)
  /-- SHR (R263) -/
  | shrRm (v : Count) (w : Width) (rm : RM)
  /-- SAR (R264) -/
  | sarRm (v : Count) (w : Width) (rm : RM)
  /-- ROL (R265) -/
  | rolRm (v : Count) (w : Width) (rm : RM)
  /-- ROR (R266) -/
  | rorRm (v : Count) (w : Width) (rm : RM)
  /-- RCL (R267) -/
  | rclRm (v : Count) (w : Width) (rm : RM)
  /-- RCR (R268) -/
  | rcrRm (v : Count) (w : Width) (rm : RM)
  /-- AND, register form (R269) -/
  | andRmReg (d : Dir) (w : Width) (r : RegNum) (rm : RM)
  /-- AND r/m, imm (R269) -/
  | andRmImm (rm : RM) (imm : Imm)
  /-- AND accumulator, imm (R269) -/
  | andAccImm (imm : Imm)
  /-- TEST r/m, reg (R270) -/
  | testRmReg (w : Width) (r : RegNum) (rm : RM)
  /-- TEST r/m, imm (R270) -/
  | testRmImm (rm : RM) (imm : Imm)
  /-- TEST accumulator, imm (R270) -/
  | testAccImm (imm : Imm)
  /-- OR, register form (R271) -/
  | orRmReg (d : Dir) (w : Width) (r : RegNum) (rm : RM)
  /-- OR r/m, imm (R271) -/
  | orRmImm (rm : RM) (imm : Imm)
  /-- OR accumulator, imm (R271) -/
  | orAccImm (imm : Imm)
  /-- XOR, register form (R272) -/
  | xorRmReg (d : Dir) (w : Width) (r : RegNum) (rm : RM)
  /-- XOR r/m, imm (R272) -/
  | xorRmImm (rm : RM) (imm : Imm)
  /-- XOR accumulator, imm (R272) -/
  | xorAccImm (imm : Imm)
  -- strings
  /-- REP/REPE (z = 1) and REPNE (z = 0), the prefix byte (R301) -/
  | rep (z : Bool)
  /-- MOVS (R302) -/
  | movs (w : Width)
  /-- CMPS (R303) -/
  | cmps (w : Width)
  /-- SCAS (R304) -/
  | scas (w : Width)
  /-- LODS (R305) -/
  | lods (w : Width)
  /-- STOS (R306) -/
  | stos (w : Width)
  -- control transfer
  /-- CALL direct within segment (R321) -/
  | callNear (disp : Word)
  /-- CALL indirect within segment (R322) -/
  | callRm (rm : RM)
  /-- CALL direct intersegment (R323) -/
  | callFar (off sel : Word)
  /-- CALL indirect intersegment (R324) -/
  | callMem (m : Mem)
  /-- JMP direct within segment (R325) -/
  | jmpNear (disp : Word)
  /-- JMP direct within segment-short (R326) -/
  | jmpShort (disp : Byte)
  /-- JMP indirect within segment (R327) -/
  | jmpRm (rm : RM)
  /-- JMP direct intersegment (R328) -/
  | jmpFar (off sel : Word)
  /-- JMP indirect intersegment (R329) -/
  | jmpMem (m : Mem)
  /-- RET within segment (R330) -/
  | ret
  /-- RET within segment adding immediate to SP (R331) -/
  | retImm (n : Word)
  /-- RET intersegment (R332) -/
  | retf
  /-- RET intersegment adding immediate to SP (R333) -/
  | retfImm (n : Word)
  /-- JO (R335) -/
  | jo (disp : Byte)
  /-- JNO (R336) -/
  | jno (disp : Byte)
  /-- JB (R337) -/
  | jb (disp : Byte)
  /-- JNB (R338) -/
  | jnb (disp : Byte)
  /-- JE (R339) -/
  | je (disp : Byte)
  /-- JNE (R340) -/
  | jne (disp : Byte)
  /-- JBE (R341) -/
  | jbe (disp : Byte)
  /-- JNBE (R342) -/
  | jnbe (disp : Byte)
  /-- JS (R343) -/
  | js (disp : Byte)
  /-- JNS (R344) -/
  | jns (disp : Byte)
  /-- JP (R345) -/
  | jp (disp : Byte)
  /-- JNP (R346) -/
  | jnp (disp : Byte)
  /-- JL (R347) -/
  | jl (disp : Byte)
  /-- JNL (R348) -/
  | jnl (disp : Byte)
  /-- JLE (R349) -/
  | jle (disp : Byte)
  /-- JNLE (R350) -/
  | jnle (disp : Byte)
  /-- LOOP (R351) -/
  | loop (disp : Byte)
  /-- LOOPZ (R352) -/
  | loopz (disp : Byte)
  /-- LOOPNZ (R353) -/
  | loopnz (disp : Byte)
  /-- JCXZ (R354) -/
  | jcxz (disp : Byte)
  /-- INT type specified (R355) -/
  | intType (t : Byte)
  /-- INT type 3, one byte (R356) -/
  | int3
  /-- INTO (R357) -/
  | into
  /-- IRET (R358) -/
  | iret
  -- processor control
  /-- CLC (R380) -/
  | clc
  /-- CMC (R381) -/
  | cmc
  /-- STC (R382) -/
  | stc
  /-- CLD (R383) -/
  | cld
  /-- STD (R384) -/
  | std
  /-- CLI (R385) -/
  | cli
  /-- STI (R386) -/
  | sti
  /-- HLT (R387) -/
  | hlt
  /-- WAIT (R388) -/
  | wait
  /-- ESC: `op` is the six don't-care bits, first byte's bits 2:0 high, second byte's bits 5:3 low (R392) -/
  | esc (hi lo : RegNum) (rm : RM)
  /-- LOCK, the prefix byte (R393) -/
  | lock
  /-- Segment override, the prefix byte (R394) -/
  | seg (sr : SReg)
  deriving DecidableEq, Repr

/-- The prefix bytes, each a row of the table (R116). -/
def Instr.isPrefixByte : Instr → Bool
  | .rep _ | .lock | .seg _ => true
  | _ => false

/-- The string primitives, the only instructions a REP prefix may stand before (R300, R308). -/
inductive StringOp where
  | movs | cmps | scas | lods | stos
  deriving DecidableEq, Repr

/-- The instruction of a string primitive at a width. -/
def StringOp.instr : StringOp → Width → Instr
  | .movs, w => .movs w
  | .cmps, w => .cmps w
  | .scas, w => .scas w
  | .lods, w => .lods w
  | .stos, w => .stos w

/-- Whether an instruction is a string primitive. -/
def Instr.isString : Instr → Bool
  | .movs _ | .cmps _ | .scas _ | .lods _ | .stos _ => true
  | _ => false

end Sys2Proof
end

