-- ==== Sys2Proof/WellFormed.lean ====
section
/-!
DEFINITION. Which terms of `Instr` are instructions of the spec: those that an encoding of 30_encoding.md stands for.
-/

namespace Sys2Proof

/-- `mod = 00` with `r/m = 110` is the direct address, so (BP) never stands without a displacement (R108). -/
def Mem.wf : Mem → Bool
  | .based .bp .none => false
  | _ => true

/-- A register-or-memory operand is well formed when its memory operand is. -/
def RM.wf : RM → Bool
  | .reg _ => true
  | .mem m => m.wf

/-- CS is no destination of `MOV sreg, r/m` and `POP sreg` (R121, D10). -/
def SReg.loadable : SReg → Bool
  | .cs => false
  | _ => true

/-- The instructions the spec gives a meaning (R118 to R121). -/
def Instr.wf : Instr → Bool
  | .movSregRm sr rm => sr.loadable && rm.wf
  | .popSreg sr => sr.loadable
  | .lea _ m | .lds _ m | .les _ m | .callMem m | .jmpMem m => m.wf
  | .movRmReg _ _ _ rm | .addRmReg _ _ _ rm | .adcRmReg _ _ _ rm | .subRmReg _ _ _ rm | .sbbRmReg _ _ _ rm
  | .andRmReg _ _ _ rm | .orRmReg _ _ _ rm | .xorRmReg _ _ _ rm => rm.wf
  | .movRmImm rm _ | .movRmSreg rm _ | .andRmImm rm _ | .testRmImm rm _ | .orRmImm rm _ | .xorRmImm rm _ => rm.wf
  | .addRmImm rm _ | .adcRmImm rm _ | .subRmImm rm _ | .sbbRmImm rm _ | .cmpRmImm rm _ => rm.wf
  | .pushRm rm | .popRm rm | .callRm rm | .jmpRm rm => rm.wf
  | .xchgRmReg _ _ rm | .cmpRegRm _ _ rm | .cmpRmReg _ _ rm | .testRmReg _ _ rm | .esc _ _ rm => rm.wf
  | .incRm _ rm | .decRm _ rm | .negRm _ rm | .mulRm _ rm | .imulRm _ rm | .divRm _ rm | .idivRm _ rm
  | .notRm _ rm => rm.wf
  | .shlRm _ _ rm | .shrRm _ _ rm | .sarRm _ _ rm | .rolRm _ _ rm | .rorRm _ _ rm | .rclRm _ _ rm
  | .rcrRm _ _ rm => rm.wf
  | .movRegImm _ _ | .movAccMem _ _ | .movMemAcc _ _ | .pushReg _ | .pushSreg _ | .popReg _ | .xchgAxReg _
  | .inFixed _ _ | .inVariable _ | .outFixed _ _ | .outVariable _ | .xlat | .lahf | .sahf | .pushf | .popf => true
  | .addAccImm _ | .adcAccImm _ | .incReg _ | .aaa | .daa | .subAccImm _ | .sbbAccImm _ | .decReg _ | .cmpAccImm _
  | .aas | .das | .aam | .aad | .cbw | .cwd | .andAccImm _ | .testAccImm _ | .orAccImm _ | .xorAccImm _ => true
  | .rep _ | .movs _ | .cmps _ | .scas _ | .lods _ | .stos _ => true
  | .callNear _ | .callFar _ _ | .jmpNear _ | .jmpShort _ | .jmpFar _ _ | .ret | .retImm _ | .retf | .retfImm _ => true
  | .jo _ | .jno _ | .jb _ | .jnb _ | .je _ | .jne _ | .jbe _ | .jnbe _ | .js _ | .jns _ | .jp _ | .jnp _ | .jl _
  | .jnl _ | .jle _ | .jnle _ | .loop _ | .loopz _ | .loopnz _ | .jcxz _ => true
  | .intType _ | .int3 | .into | .iret => true
  | .clc | .cmc | .stc | .cld | .std | .cli | .sti | .hlt | .wait | .lock | .seg _ => true

end Sys2Proof
end

