-- ==== Sys2Proof/Decode.lean ====
section
/-!
DEFINITION. The decoder of 30_encoding.md, total on any bytes and rejecting by name, and after it the encoder. The
opcode map of R118 is a table of rows, each a mask and a value over the first byte; the grouped opcodes of R119 are
rows that look at bits 5:3 of the second byte.
-/

namespace Sys2Proof

open Sys2Proof.Machine (joinBytes lowByte highByte field2 field3)

/-- Why a byte sequence is no instruction of the spec. Each is the model's `UNDEF_ENCODING = refuse` (D9). -/
inductive DecodeError where
  /-- the bytes end inside an instruction (the fetch then fetches the next one) -/
  | truncated
  /-- a first byte with no row (R120) -/
  | undefinedOpcode (b0 : Byte)
  /-- a cell of R119 with no row, 82H and 83H with a logic extension among them (R121, D9, D13) -/
  | undefinedExtension (b0 : Byte) (ext : RegNum)
  /-- 0FH, `POP CS` (R121, D10) -/
  | popCs
  /-- 8EH with `reg` = 01, `MOV CS, r/m` (R121, D10) -/
  | movCs
  /-- 8CH or 8EH with bit 5 of the second byte set (R121, D12) -/
  | segmentBit5 (b0 : Byte)
  /-- `LEA`, `LDS`, `LES` or an indirect intersegment `CALL` or `JMP` with `mod` = 11 (R109, R121, D11) -/
  | memoryRequired (b0 : Byte)
  /-- `AAM` or `AAD` with a second byte other than 0AH (R121, D14) -/
  | adjustBase (b0 b1 : Byte)
  deriving DecidableEq, Repr

/-- What decoding answers: an instruction and the bytes after it, or a named rejection. -/
inductive Decoded where
  | ok (i : Instr) (rest : List Byte)
  | reject (e : DecodeError)
  deriving DecidableEq, Repr

/-! ## Fields -/

/-- Register number of a 3-bit field (R106). -/
def RegNum.ofField : Nat → RegNum
  | 0 => .r000 | 1 => .r001 | 2 => .r010 | 3 => .r011
  | 4 => .r100 | 5 => .r101 | 6 => .r110 | _ => .r111

/-- The 3-bit field of a register number (R106). -/
def RegNum.code : RegNum → Nat
  | .r000 => 0 | .r001 => 1 | .r010 => 2 | .r011 => 3
  | .r100 => 4 | .r101 => 5 | .r110 => 6 | .r111 => 7

/-- The number of a 16-bit register (R106). -/
def Reg16.num : Reg16 → RegNum
  | .ax => .r000 | .cx => .r001 | .dx => .r010 | .bx => .r011
  | .sp => .r100 | .bp => .r101 | .si => .r110 | .di => .r111

/-- Segment register of a 2-bit field (R107). -/
def SReg.ofField : Nat → SReg
  | 0 => .es | 1 => .cs | 2 => .ss | _ => .ds

/-- The 2-bit field of a segment register (R107). -/
def SReg.code : SReg → Nat
  | .es => 0 | .cs => 1 | .ss => 2 | .ds => 3

/-- The base registers that `r/m` selects when `mod` is not 11 (R108). -/
def EaBase.ofField : Nat → EaBase
  | 0 => .bxSi | 1 => .bxDi | 2 => .bpSi | 3 => .bpDi
  | 4 => .si | 5 => .di | 6 => .bp | _ => .bx

/-- The `r/m` field of the base registers (R108). -/
def EaBase.code : EaBase → Nat
  | .bxSi => 0 | .bxDi => 1 | .bpSi => 2 | .bpDi => 3
  | .si => 4 | .di => 5 | .bp => 6 | .bx => 7

/-- The `w` bit (R105). -/
def Width.ofBit : Bool → Width
  | false => .byte
  | true => .word

/-- The `w` bit of a width (R105). -/
def Width.bit : Width → Nat
  | .byte => 0
  | .word => 1

/-- The `d` bit (R105). -/
def Dir.ofBit : Bool → Dir
  | false => .fromReg
  | true => .toReg

/-- The `d` bit of a direction (R105). -/
def Dir.bit : Dir → Nat
  | .fromReg => 0
  | .toReg => 1

/-- The `v` bit (R105). -/
def Count.ofBit : Bool → Count
  | false => .one
  | true => .cl

/-- The `v` bit of a count (R105). -/
def Count.bit : Count → Nat
  | .one => 0
  | .cl => 1

/-! ## Taking bytes -/

/-- One byte, then the rest. -/
def takeByte (bs : List Byte) (k : Byte → List Byte → Decoded) : Decoded :=
  match bs with
  | [] => .reject .truncated
  | b :: bs => k b bs

/-- A 16-bit field, low byte first (R102). -/
def takeWord (bs : List Byte) (k : Word → List Byte → Decoded) : Decoded :=
  takeByte bs fun lo bs => takeByte bs fun hi bs => k (joinBytes hi lo) bs

/-- The second byte `mod reg r/m` and its displacement (R104, R108, R110). -/
def takeRM (bs : List Byte) (k : RegNum → RM → List Byte → Decoded) : Decoded :=
  takeByte bs fun b1 bs =>
    let reg := RegNum.ofField (field3 b1 3)
    let rm := field3 b1 0
    match field2 b1 6 with
    | 0 =>
      if rm = 6 then takeWord bs fun a bs => k reg (.mem (.direct a)) bs
      else k reg (.mem (.based (EaBase.ofField rm) .none)) bs
    | 1 => takeByte bs fun d bs => k reg (.mem (.based (EaBase.ofField rm) (.d8 d))) bs
    | 2 => takeWord bs fun d bs => k reg (.mem (.based (EaBase.ofField rm) (.d16 d))) bs
    | _ => k reg (.reg (RegNum.ofField rm)) bs

/-- An operand that must be in memory: `mod` = 11 is rejected (R109, D11). -/
def needMem (b0 : Byte) (rm : RM) (k : Mem → Decoded) : Decoded :=
  match rm with
  | .mem m => k m
  | .reg _ => .reject (.memoryRequired b0)

/-- "data, data if w = 1" (R111). -/
def takeImm (w : Width) (bs : List Byte) (k : Imm → List Byte → Decoded) : Decoded :=
  match w with
  | .byte => takeByte bs fun v bs => k (.b v) bs
  | .word => takeWord bs fun v bs => k (.w v) bs

/-- "data, data if s:w = 01" (R111, D13). -/
def takeSImm (s : Bool) (w : Width) (bs : List Byte) (k : SImm → List Byte → Decoded) : Decoded :=
  match w, s with
  | .byte, s => takeByte bs fun v bs => k (.byte s v) bs
  | .word, false => takeWord bs fun v bs => k (.word v) bs
  | .word, true => takeByte bs fun v bs => k (.signed v) bs

/-! ## The opcode map -/

/-- The one-bit fields of the first byte: bit 0 as `w`, bit 1 as `d` (R105). -/
def wBit (b0 : Byte) : Width := Width.ofBit (b0.getLsbD 0)

/-- Bit 1 as `d` (R105). -/
def dBit (b0 : Byte) : Dir := Dir.ofBit (b0.getLsbD 1)

/-- A row of the opcode map: the first bytes `b0` with `b0 and mask = value`, and how the rest is read. -/
structure Row where
  mask : Byte
  value : Byte
  read : Byte → List Byte → Decoded

/-- Whether a first byte selects a row. -/
def Row.selects (r : Row) (b0 : Byte) : Bool := b0 &&& r.mask == r.value

/-- The form `RM_R` with a `d` bit (R127). -/
def readRmReg (mk : Dir → Width → RegNum → RM → Instr) (b0 : Byte) (bs : List Byte) : Decoded :=
  takeRM bs fun r rm bs => .ok (mk (dBit b0) (wBit b0) r rm) bs

/-- A register and a register-or-memory operand with no `d` bit. -/
def readRegRm (mk : Width → RegNum → RM → Instr) (b0 : Byte) (bs : List Byte) : Decoded :=
  takeRM bs fun r rm bs => .ok (mk (wBit b0) r rm) bs

/-- The form `ACC_IMM` (R127). -/
def readAccImm (mk : Imm → Instr) (b0 : Byte) (bs : List Byte) : Decoded :=
  takeImm (wBit b0) bs fun v bs => .ok (mk v) bs

/-- One first byte and a signed 8-bit displacement (R113). -/
def readDisp8 (mk : Byte → Instr) (_ : Byte) (bs : List Byte) : Decoded :=
  takeByte bs fun d bs => .ok (mk d) bs

/-- One first byte and a 16-bit field (R102). -/
def readWord (mk : Word → Instr) (_ : Byte) (bs : List Byte) : Decoded :=
  takeWord bs fun d bs => .ok (mk d) bs

/-- One first byte and a far pointer (R114). -/
def readFar (mk : Word → Word → Instr) (_ : Byte) (bs : List Byte) : Decoded :=
  takeWord bs fun off bs => takeWord bs fun sel bs => .ok (mk off sel) bs

/-- One first byte with a 3-bit register number in bits 2:0 (R103, R106). -/
def readReg16 (mk : Reg16 → Instr) (b0 : Byte) (bs : List Byte) : Decoded :=
  .ok (mk (RegNum.ofField (field3 b0 0)).reg16) bs

/-- One first byte and nothing else. -/
def readPlain (i : Instr) (_ : Byte) (bs : List Byte) : Decoded := .ok i bs

/-- One first byte whose bit 0 is `w`, and nothing else. -/
def readWidth (mk : Width → Instr) (b0 : Byte) (bs : List Byte) : Decoded := .ok (mk (wBit b0)) bs

/-- `1 0 0 0 0 0 s w`: bits 5:3 of the second byte select the operation; the logic operations exist with `s` = 0
only (R119, R121, C2, D13). -/
def readImmGroup (b0 : Byte) (bs : List Byte) : Decoded :=
  takeRM bs fun ext rm bs =>
    let s := b0.getLsbD 1
    let arith (mk : RM → SImm → Instr) := takeSImm s (wBit b0) bs fun v bs => .ok (mk rm v) bs
    let logic (mk : RM → Imm → Instr) :=
      if s then .reject (.undefinedExtension b0 ext) else takeImm (wBit b0) bs fun v bs => .ok (mk rm v) bs
    match ext with
    | .r000 => arith .addRmImm
    | .r001 => logic .orRmImm
    | .r010 => arith .adcRmImm
    | .r011 => arith .sbbRmImm
    | .r100 => logic .andRmImm
    | .r101 => arith .subRmImm
    | .r110 => logic .xorRmImm
    | .r111 => arith .cmpRmImm

/-- 8FH (R119). -/
def readPopGroup (b0 : Byte) (bs : List Byte) : Decoded :=
  takeRM bs fun ext rm bs =>
    match ext with
    | .r000 => .ok (.popRm rm) bs
    | ext => .reject (.undefinedExtension b0 ext)

/-- C6H, C7H (R119). -/
def readMovGroup (b0 : Byte) (bs : List Byte) : Decoded :=
  takeRM bs fun ext rm bs =>
    match ext with
    | .r000 => takeImm (wBit b0) bs fun v bs => .ok (.movRmImm rm v) bs
    | ext => .reject (.undefinedExtension b0 ext)

/-- D0H to D3H (R119). -/
def readShiftGroup (b0 : Byte) (bs : List Byte) : Decoded :=
  takeRM bs fun ext rm bs =>
    let v := Count.ofBit (b0.getLsbD 1)
    let w := wBit b0
    match ext with
    | .r000 => .ok (.rolRm v w rm) bs
    | .r001 => .ok (.rorRm v w rm) bs
    | .r010 => .ok (.rclRm v w rm) bs
    | .r011 => .ok (.rcrRm v w rm) bs
    | .r100 => .ok (.shlRm v w rm) bs
    | .r101 => .ok (.shrRm v w rm) bs
    | .r110 => .reject (.undefinedExtension b0 .r110)
    | .r111 => .ok (.sarRm v w rm) bs

/-- F6H, F7H (R119); only TEST has data (R117 step 3). -/
def readUnaryGroup (b0 : Byte) (bs : List Byte) : Decoded :=
  takeRM bs fun ext rm bs =>
    let w := wBit b0
    match ext with
    | .r000 => takeImm w bs fun v bs => .ok (.testRmImm rm v) bs
    | .r001 => .reject (.undefinedExtension b0 .r001)
    | .r010 => .ok (.notRm w rm) bs
    | .r011 => .ok (.negRm w rm) bs
    | .r100 => .ok (.mulRm w rm) bs
    | .r101 => .ok (.imulRm w rm) bs
    | .r110 => .ok (.divRm w rm) bs
    | .r111 => .ok (.idivRm w rm) bs

/-- FEH (R119). -/
def readIncGroup8 (b0 : Byte) (bs : List Byte) : Decoded :=
  takeRM bs fun ext rm bs =>
    match ext with
    | .r000 => .ok (.incRm .byte rm) bs
    | .r001 => .ok (.decRm .byte rm) bs
    | ext => .reject (.undefinedExtension b0 ext)

/-- FFH (R119). -/
def readIncGroup16 (b0 : Byte) (bs : List Byte) : Decoded :=
  takeRM bs fun ext rm bs =>
    match ext with
    | .r000 => .ok (.incRm .word rm) bs
    | .r001 => .ok (.decRm .word rm) bs
    | .r010 => .ok (.callRm rm) bs
    | .r011 => needMem b0 rm fun m => .ok (.callMem m) bs
    | .r100 => .ok (.jmpRm rm) bs
    | .r101 => needMem b0 rm fun m => .ok (.jmpMem m) bs
    | .r110 => .ok (.pushRm rm) bs
    | .r111 => .reject (.undefinedExtension b0 .r111)

/-- 8CH: `mod 0 reg r/m` (R107, R121, D12). -/
def readMovFromSreg (b0 : Byte) (bs : List Byte) : Decoded :=
  takeRM bs fun ext rm bs =>
    match ext with
    | .r000 => .ok (.movRmSreg rm .es) bs
    | .r001 => .ok (.movRmSreg rm .cs) bs
    | .r010 => .ok (.movRmSreg rm .ss) bs
    | .r011 => .ok (.movRmSreg rm .ds) bs
    | .r100 | .r101 | .r110 | .r111 => .reject (.segmentBit5 b0)

/-- 8EH: `mod 0 reg r/m` (R107, R121, D10, D12). -/
def readMovToSreg (b0 : Byte) (bs : List Byte) : Decoded :=
  takeRM bs fun ext rm bs =>
    match ext with
    | .r000 => .ok (.movSregRm .es rm) bs
    | .r001 => .reject .movCs
    | .r010 => .ok (.movSregRm .ss rm) bs
    | .r011 => .ok (.movSregRm .ds rm) bs
    | .r100 | .r101 | .r110 | .r111 => .reject (.segmentBit5 b0)

/-- `0 0 0 reg 1 1 1`: 0FH is rejected (R121, D10). -/
def readPopSreg (b0 : Byte) (bs : List Byte) : Decoded :=
  match SReg.ofField (field2 b0 3) with
  | .cs => .reject .popCs
  | sr => .ok (.popSreg sr) bs

/-- A 16-bit register and an operand that must be in memory. -/
def readRegMem (mk : Reg16 → Mem → Instr) (b0 : Byte) (bs : List Byte) : Decoded :=
  takeRM bs fun r rm bs => needMem b0 rm fun m => .ok (mk r.reg16 m) bs

/-- D4H, D5H: the second byte is the constant 0AH (R121, D14). -/
def readAdjust (i : Instr) (b0 : Byte) (bs : List Byte) : Decoded :=
  takeByte bs fun b1 bs => if b1 = 0x0A then .ok i bs else .reject (.adjustBase b0 b1)

/-- First bytes 00H to 3FH: the two-operand operations, segment pushes and pops, decimal adjusts, overrides (R118). -/
def rows00 : List Row :=
  [ ⟨0b11111100, 0b00000000, readRmReg .addRmReg⟩,
    ⟨0b11111110, 0b00000100, readAccImm .addAccImm⟩,
    ⟨0b11111100, 0b00001000, readRmReg .orRmReg⟩,
    ⟨0b11111110, 0b00001100, readAccImm .orAccImm⟩,
    ⟨0b11111100, 0b00010000, readRmReg .adcRmReg⟩,
    ⟨0b11111110, 0b00010100, readAccImm .adcAccImm⟩,
    ⟨0b11111100, 0b00011000, readRmReg .sbbRmReg⟩,
    ⟨0b11111110, 0b00011100, readAccImm .sbbAccImm⟩,
    ⟨0b11111100, 0b00100000, readRmReg .andRmReg⟩,
    ⟨0b11111110, 0b00100100, readAccImm .andAccImm⟩,
    ⟨0b11111100, 0b00101000, readRmReg .subRmReg⟩,
    ⟨0b11111110, 0b00101100, readAccImm .subAccImm⟩,
    ⟨0b11111100, 0b00110000, readRmReg .xorRmReg⟩,
    ⟨0b11111110, 0b00110100, readAccImm .xorAccImm⟩,
    ⟨0b11111110, 0b00111000, readRegRm .cmpRmReg⟩,
    ⟨0b11111110, 0b00111010, readRegRm .cmpRegRm⟩,
    ⟨0b11111110, 0b00111100, readAccImm .cmpAccImm⟩,
    ⟨0b11100111, 0b00000110, fun b0 bs => .ok (.pushSreg (SReg.ofField (field2 b0 3))) bs⟩,
    ⟨0b11100111, 0b00000111, readPopSreg⟩,
    ⟨0b11100111, 0b00100110, fun b0 bs => .ok (.seg (SReg.ofField (field2 b0 3))) bs⟩,
    ⟨0b11111111, 0b00100111, readPlain .daa⟩,
    ⟨0b11111111, 0b00101111, readPlain .das⟩,
    ⟨0b11111111, 0b00110111, readPlain .aaa⟩,
    ⟨0b11111111, 0b00111111, readPlain .aas⟩ ]

/-- First bytes 40H to 7FH: register increments, pushes and pops, conditional jumps (R118). -/
def rows40 : List Row :=
  [ ⟨0b11111000, 0b01000000, readReg16 .incReg⟩,
    ⟨0b11111000, 0b01001000, readReg16 .decReg⟩,
    ⟨0b11111000, 0b01010000, readReg16 .pushReg⟩,
    ⟨0b11111000, 0b01011000, readReg16 .popReg⟩,
    ⟨0b11111111, 0b01110000, readDisp8 .jo⟩,
    ⟨0b11111111, 0b01110001, readDisp8 .jno⟩,
    ⟨0b11111111, 0b01110010, readDisp8 .jb⟩,
    ⟨0b11111111, 0b01110011, readDisp8 .jnb⟩,
    ⟨0b11111111, 0b01110100, readDisp8 .je⟩,
    ⟨0b11111111, 0b01110101, readDisp8 .jne⟩,
    ⟨0b11111111, 0b01110110, readDisp8 .jbe⟩,
    ⟨0b11111111, 0b01110111, readDisp8 .jnbe⟩,
    ⟨0b11111111, 0b01111000, readDisp8 .js⟩,
    ⟨0b11111111, 0b01111001, readDisp8 .jns⟩,
    ⟨0b11111111, 0b01111010, readDisp8 .jp⟩,
    ⟨0b11111111, 0b01111011, readDisp8 .jnp⟩,
    ⟨0b11111111, 0b01111100, readDisp8 .jl⟩,
    ⟨0b11111111, 0b01111101, readDisp8 .jnl⟩,
    ⟨0b11111111, 0b01111110, readDisp8 .jle⟩,
    ⟨0b11111111, 0b01111111, readDisp8 .jnle⟩ ]

/-- First bytes 80H to BFH (R118). -/
def rows80 : List Row :=
  [ ⟨0b11111100, 0b10000000, readImmGroup⟩,
    ⟨0b11111110, 0b10000100, readRegRm .testRmReg⟩,
    ⟨0b11111110, 0b10000110, readRegRm .xchgRmReg⟩,
    ⟨0b11111100, 0b10001000, readRmReg .movRmReg⟩,
    ⟨0b11111111, 0b10001100, readMovFromSreg⟩,
    ⟨0b11111111, 0b10001101, readRegMem .lea⟩,
    ⟨0b11111111, 0b10001110, readMovToSreg⟩,
    ⟨0b11111111, 0b10001111, readPopGroup⟩,
    ⟨0b11111000, 0b10010000, readReg16 .xchgAxReg⟩,
    ⟨0b11111111, 0b10011000, readPlain .cbw⟩,
    ⟨0b11111111, 0b10011001, readPlain .cwd⟩,
    ⟨0b11111111, 0b10011010, readFar .callFar⟩,
    ⟨0b11111111, 0b10011011, readPlain .wait⟩,
    ⟨0b11111111, 0b10011100, readPlain .pushf⟩,
    ⟨0b11111111, 0b10011101, readPlain .popf⟩,
    ⟨0b11111111, 0b10011110, readPlain .sahf⟩,
    ⟨0b11111111, 0b10011111, readPlain .lahf⟩,
    ⟨0b11111110, 0b10100000, fun b0 bs => takeWord bs fun a bs => .ok (.movAccMem (wBit b0) a) bs⟩,
    ⟨0b11111110, 0b10100010, fun b0 bs => takeWord bs fun a bs => .ok (.movMemAcc (wBit b0) a) bs⟩,
    ⟨0b11111110, 0b10100100, readWidth .movs⟩,
    ⟨0b11111110, 0b10100110, readWidth .cmps⟩,
    ⟨0b11111110, 0b10101000, readAccImm .testAccImm⟩,
    ⟨0b11111110, 0b10101010, readWidth .stos⟩,
    ⟨0b11111110, 0b10101100, readWidth .lods⟩,
    ⟨0b11111110, 0b10101110, readWidth .scas⟩,
    ⟨0b11110000, 0b10110000, fun b0 bs =>
      takeImm (Width.ofBit (b0.getLsbD 3)) bs fun v bs => .ok (.movRegImm (RegNum.ofField (field3 b0 0)) v) bs⟩ ]

/-- First bytes C0H to FFH (R118). -/
def rowsC0 : List Row :=
  [ ⟨0b11111111, 0b11000010, readWord .retImm⟩,
    ⟨0b11111111, 0b11000011, readPlain .ret⟩,
    ⟨0b11111111, 0b11000100, readRegMem .les⟩,
    ⟨0b11111111, 0b11000101, readRegMem .lds⟩,
    ⟨0b11111110, 0b11000110, readMovGroup⟩,
    ⟨0b11111111, 0b11001010, readWord .retfImm⟩,
    ⟨0b11111111, 0b11001011, readPlain .retf⟩,
    ⟨0b11111111, 0b11001100, readPlain .int3⟩,
    ⟨0b11111111, 0b11001101, readDisp8 .intType⟩,
    ⟨0b11111111, 0b11001110, readPlain .into⟩,
    ⟨0b11111111, 0b11001111, readPlain .iret⟩,
    ⟨0b11111100, 0b11010000, readShiftGroup⟩,
    ⟨0b11111111, 0b11010100, readAdjust .aam⟩,
    ⟨0b11111111, 0b11010101, readAdjust .aad⟩,
    ⟨0b11111111, 0b11010111, readPlain .xlat⟩,
    ⟨0b11111000, 0b11011000, fun b0 bs => takeRM bs fun lo rm bs => .ok (.esc (RegNum.ofField (field3 b0 0)) lo rm) bs⟩,
    ⟨0b11111111, 0b11100000, readDisp8 .loopnz⟩,
    ⟨0b11111111, 0b11100001, readDisp8 .loopz⟩,
    ⟨0b11111111, 0b11100010, readDisp8 .loop⟩,
    ⟨0b11111111, 0b11100011, readDisp8 .jcxz⟩,
    ⟨0b11111110, 0b11100100, fun b0 bs => takeByte bs fun p bs => .ok (.inFixed (wBit b0) p) bs⟩,
    ⟨0b11111110, 0b11100110, fun b0 bs => takeByte bs fun p bs => .ok (.outFixed (wBit b0) p) bs⟩,
    ⟨0b11111111, 0b11101000, readWord .callNear⟩,
    ⟨0b11111111, 0b11101001, readWord .jmpNear⟩,
    ⟨0b11111111, 0b11101010, readFar .jmpFar⟩,
    ⟨0b11111111, 0b11101011, readDisp8 .jmpShort⟩,
    ⟨0b11111110, 0b11101100, readWidth .inVariable⟩,
    ⟨0b11111110, 0b11101110, readWidth .outVariable⟩,
    ⟨0b11111111, 0b11110000, readPlain .lock⟩,
    ⟨0b11111110, 0b11110010, fun b0 bs => .ok (.rep (b0.getLsbD 0)) bs⟩,
    ⟨0b11111111, 0b11110100, readPlain .hlt⟩,
    ⟨0b11111111, 0b11110101, readPlain .cmc⟩,
    ⟨0b11111110, 0b11110110, readUnaryGroup⟩,
    ⟨0b11111111, 0b11111000, readPlain .clc⟩,
    ⟨0b11111111, 0b11111001, readPlain .stc⟩,
    ⟨0b11111111, 0b11111010, readPlain .cli⟩,
    ⟨0b11111111, 0b11111011, readPlain .sti⟩,
    ⟨0b11111111, 0b11111100, readPlain .cld⟩,
    ⟨0b11111111, 0b11111101, readPlain .std⟩,
    ⟨0b11111111, 0b11111110, readIncGroup8⟩,
    ⟨0b11111111, 0b11111111, readIncGroup16⟩ ]

/-- The opcode map (R118): which row a first byte selects, looked for among the rows of its quarter. -/
def opcodeRow (b0 : Byte) : Option Row :=
  match field2 b0 6 with
  | 0 => rows00.find? fun r => r.selects b0
  | 1 => rows40.find? fun r => r.selects b0
  | 2 => rows80.find? fun r => r.selects b0
  | _ => rowsC0.find? fun r => r.selects b0

/-- The decoder (R117, steps 2 to 4): the instruction at the front of the bytes, and the bytes after it. A prefix
byte is an instruction of its own (R116, log 7). -/
def decode (bs : List Byte) : Decoded :=
  takeByte bs fun b0 bs =>
    match opcodeRow b0 with
    | some r => r.read b0 bs
    | none => .reject (.undefinedOpcode b0)

/-! ## The encoder -/

/-- A 16-bit field, low byte first (R102). -/
def encodeWord (v : Word) : List Byte := [lowByte v, highByte v]

/-- The byte of a `mod reg r/m` triple (R104). -/
def modRmByte (mod reg rm : Nat) : Byte := BitVec.ofNat 8 (mod * 64 + reg * 8 + rm)

/-- The second byte and the displacement of an operand, with `reg` in bits 5:3 (R104, R108, R110). -/
def encodeRM (reg : Nat) : RM → List Byte
  | .reg r => [modRmByte 3 reg r.code]
  | .mem (.direct a) => modRmByte 0 reg 6 :: encodeWord a
  | .mem (.based b .none) => [modRmByte 0 reg b.code]
  | .mem (.based b (.d8 d)) => [modRmByte 1 reg b.code, d]
  | .mem (.based b (.d16 d)) => modRmByte 2 reg b.code :: encodeWord d

/-- "data, data if w = 1" (R111). -/
def encodeImm : Imm → List Byte
  | .b v => [v]
  | .w v => encodeWord v

/-- "data, data if s:w = 01" (R111). -/
def encodeSImm : SImm → List Byte
  | .byte _ v => [v]
  | .word v => encodeWord v
  | .signed v => [v]

/-- The `s:w` bits of an immediate, `s` in bit 1 and `w` in bit 0 (R105). -/
def SImm.swBits : SImm → Nat
  | .byte false _ => 0
  | .byte true _ => 2
  | .word _ => 1
  | .signed _ => 3

/-- A first byte written as its fixed bits plus the value of its field bits. -/
def op (fixed : Nat) (field : Nat := 0) : Byte := BitVec.ofNat 8 (fixed + field)

/-- `0 0 x x x 0 d w`, `mod reg r/m` and the like: the form with a `d` bit. -/
def encodeRmReg (fixed : Nat) (d : Dir) (w : Width) (r : RegNum) (rm : RM) : List Byte :=
  op fixed (2 * d.bit + w.bit) :: encodeRM r.code rm

/-- The `1 0 0 0 0 0 s w` rows, `ext` in bits 5:3 of the second byte. -/
def encodeRmSImm (ext : Nat) (rm : RM) (imm : SImm) : List Byte :=
  op 0b10000000 imm.swBits :: (encodeRM ext rm ++ encodeSImm imm)

/-- An operand with `ext` in bits 5:3 of the second byte, then immediate data. -/
def encodeRmImm (fixed ext : Nat) (rm : RM) (imm : Imm) : List Byte :=
  op fixed imm.width.bit :: (encodeRM ext rm ++ encodeImm imm)

/-- An accumulator form with immediate data. -/
def encodeAccImm (fixed : Nat) (imm : Imm) : List Byte :=
  op fixed imm.width.bit :: encodeImm imm

/-- `1 1 0 1 0 0 v w`, `mod ext r/m`. -/
def encodeShift (ext : Nat) (v : Count) (w : Width) (rm : RM) : List Byte :=
  op 0b11010000 (2 * v.bit + w.bit) :: encodeRM ext rm

/-- `1 1 1 1 0 1 1 w`, `mod ext r/m`. -/
def encodeUnary (ext : Nat) (w : Width) (rm : RM) : List Byte :=
  op 0b11110110 w.bit :: encodeRM ext rm

/-- The bytes of a well-formed instruction, from the encodings of spec/opcode_table.json. -/
def encode : Instr → List Byte
  | .movRmReg d w r rm => encodeRmReg 0b10001000 d w r rm
  | .movRmImm rm imm => encodeRmImm 0b11000110 0 rm imm
  | .movRegImm r imm => op 0b10110000 (8 * imm.width.bit + r.code) :: encodeImm imm
  | .movAccMem w a => op 0b10100000 w.bit :: encodeWord a
  | .movMemAcc w a => op 0b10100010 w.bit :: encodeWord a
  | .movSregRm sr rm => op 0b10001110 :: encodeRM sr.code rm
  | .movRmSreg rm sr => op 0b10001100 :: encodeRM sr.code rm
  | .pushRm rm => op 0b11111111 :: encodeRM 6 rm
  | .pushReg r => [op 0b01010000 r.num.code]
  | .pushSreg sr => [op 0b00000110 (8 * sr.code)]
  | .popRm rm => op 0b10001111 :: encodeRM 0 rm
  | .popReg r => [op 0b01011000 r.num.code]
  | .popSreg sr => [op 0b00000111 (8 * sr.code)]
  | .xchgRmReg w r rm => op 0b10000110 w.bit :: encodeRM r.code rm
  | .xchgAxReg r => [op 0b10010000 r.num.code]
  | .inFixed w p => [op 0b11100100 w.bit, p]
  | .inVariable w => [op 0b11101100 w.bit]
  | .outFixed w p => [op 0b11100110 w.bit, p]
  | .outVariable w => [op 0b11101110 w.bit]
  | .xlat => [op 0b11010111]
  | .lea r m => op 0b10001101 :: encodeRM r.num.code (.mem m)
  | .lds r m => op 0b11000101 :: encodeRM r.num.code (.mem m)
  | .les r m => op 0b11000100 :: encodeRM r.num.code (.mem m)
  | .lahf => [op 0b10011111]
  | .sahf => [op 0b10011110]
  | .pushf => [op 0b10011100]
  | .popf => [op 0b10011101]
  | .addRmReg d w r rm => encodeRmReg 0b00000000 d w r rm
  | .addRmImm rm imm => encodeRmSImm 0 rm imm
  | .addAccImm imm => encodeAccImm 0b00000100 imm
  | .adcRmReg d w r rm => encodeRmReg 0b00010000 d w r rm
  | .adcRmImm rm imm => encodeRmSImm 2 rm imm
  | .adcAccImm imm => encodeAccImm 0b00010100 imm
  | .incRm w rm => op 0b11111110 w.bit :: encodeRM 0 rm
  | .incReg r => [op 0b01000000 r.num.code]
  | .aaa => [op 0b00110111]
  | .daa => [op 0b00100111]
  | .subRmReg d w r rm => encodeRmReg 0b00101000 d w r rm
  | .subRmImm rm imm => encodeRmSImm 5 rm imm
  | .subAccImm imm => encodeAccImm 0b00101100 imm
  | .sbbRmReg d w r rm => encodeRmReg 0b00011000 d w r rm
  | .sbbRmImm rm imm => encodeRmSImm 3 rm imm
  | .sbbAccImm imm => encodeAccImm 0b00011100 imm
  | .decRm w rm => op 0b11111110 w.bit :: encodeRM 1 rm
  | .decReg r => [op 0b01001000 r.num.code]
  | .negRm w rm => encodeUnary 3 w rm
  | .cmpRegRm w r rm => op 0b00111010 w.bit :: encodeRM r.code rm
  | .cmpRmReg w r rm => op 0b00111000 w.bit :: encodeRM r.code rm
  | .cmpRmImm rm imm => encodeRmSImm 7 rm imm
  | .cmpAccImm imm => encodeAccImm 0b00111100 imm
  | .aas => [op 0b00111111]
  | .das => [op 0b00101111]
  | .mulRm w rm => encodeUnary 4 w rm
  | .imulRm w rm => encodeUnary 5 w rm
  | .aam => [op 0b11010100, 0b00001010]
  | .divRm w rm => encodeUnary 6 w rm
  | .idivRm w rm => encodeUnary 7 w rm
  | .aad => [op 0b11010101, 0b00001010]
  | .cbw => [op 0b10011000]
  | .cwd => [op 0b10011001]
  | .notRm w rm => encodeUnary 2 w rm
  | .shlRm v w rm => encodeShift 4 v w rm
  | .shrRm v w rm => encodeShift 5 v w rm
  | .sarRm v w rm => encodeShift 7 v w rm
  | .rolRm v w rm => encodeShift 0 v w rm
  | .rorRm v w rm => encodeShift 1 v w rm
  | .rclRm v w rm => encodeShift 2 v w rm
  | .rcrRm v w rm => encodeShift 3 v w rm
  | .andRmReg d w r rm => encodeRmReg 0b00100000 d w r rm
  | .andRmImm rm imm => encodeRmImm 0b10000000 4 rm imm
  | .andAccImm imm => encodeAccImm 0b00100100 imm
  | .testRmReg w r rm => op 0b10000100 w.bit :: encodeRM r.code rm
  | .testRmImm rm imm => encodeRmImm 0b11110110 0 rm imm
  | .testAccImm imm => encodeAccImm 0b10101000 imm
  | .orRmReg d w r rm => encodeRmReg 0b00001000 d w r rm
  | .orRmImm rm imm => encodeRmImm 0b10000000 1 rm imm
  | .orAccImm imm => encodeAccImm 0b00001100 imm
  | .xorRmReg d w r rm => encodeRmReg 0b00110000 d w r rm
  | .xorRmImm rm imm => encodeRmImm 0b10000000 6 rm imm
  | .xorAccImm imm => encodeAccImm 0b00110100 imm
  | .rep z => [op 0b11110010 z.toNat]
  | .movs w => [op 0b10100100 w.bit]
  | .cmps w => [op 0b10100110 w.bit]
  | .scas w => [op 0b10101110 w.bit]
  | .lods w => [op 0b10101100 w.bit]
  | .stos w => [op 0b10101010 w.bit]
  | .callNear d => op 0b11101000 :: encodeWord d
  | .callRm rm => op 0b11111111 :: encodeRM 2 rm
  | .callFar off sel => op 0b10011010 :: (encodeWord off ++ encodeWord sel)
  | .callMem m => op 0b11111111 :: encodeRM 3 (.mem m)
  | .jmpNear d => op 0b11101001 :: encodeWord d
  | .jmpShort d => [op 0b11101011, d]
  | .jmpRm rm => op 0b11111111 :: encodeRM 4 rm
  | .jmpFar off sel => op 0b11101010 :: (encodeWord off ++ encodeWord sel)
  | .jmpMem m => op 0b11111111 :: encodeRM 5 (.mem m)
  | .ret => [op 0b11000011]
  | .retImm n => op 0b11000010 :: encodeWord n
  | .retf => [op 0b11001011]
  | .retfImm n => op 0b11001010 :: encodeWord n
  | .jo d => [op 0b01110000, d]
  | .jno d => [op 0b01110001, d]
  | .jb d => [op 0b01110010, d]
  | .jnb d => [op 0b01110011, d]
  | .je d => [op 0b01110100, d]
  | .jne d => [op 0b01110101, d]
  | .jbe d => [op 0b01110110, d]
  | .jnbe d => [op 0b01110111, d]
  | .js d => [op 0b01111000, d]
  | .jns d => [op 0b01111001, d]
  | .jp d => [op 0b01111010, d]
  | .jnp d => [op 0b01111011, d]
  | .jl d => [op 0b01111100, d]
  | .jnl d => [op 0b01111101, d]
  | .jle d => [op 0b01111110, d]
  | .jnle d => [op 0b01111111, d]
  | .loop d => [op 0b11100010, d]
  | .loopz d => [op 0b11100001, d]
  | .loopnz d => [op 0b11100000, d]
  | .jcxz d => [op 0b11100011, d]
  | .intType t => [op 0b11001101, t]
  | .int3 => [op 0b11001100]
  | .into => [op 0b11001110]
  | .iret => [op 0b11001111]
  | .clc => [op 0b11111000]
  | .cmc => [op 0b11110101]
  | .stc => [op 0b11111001]
  | .cld => [op 0b11111100]
  | .std => [op 0b11111101]
  | .cli => [op 0b11111010]
  | .sti => [op 0b11111011]
  | .hlt => [op 0b11110100]
  | .wait => [op 0b10011011]
  | .esc hi lo rm => op 0b11011000 hi.code :: encodeRM lo.code rm
  | .lock => [op 0b11110000]
  | .seg sr => [op 0b00100110 (8 * sr.code)]

/-! ## The host's way in -/

/-- The six bytes, in memory order, of an instruction whose first `nbits` bits are `w` as spec/opcode_table.json
numbers them: the table's number is `(first byte << 8) | second byte` (R124), so bits 15 to 8 are the first byte; an
8-bit number is the first byte alone, and bits above 15 are the bytes after the second (log 19). -/
def tableBytes (nbits w : Nat) : List Byte :=
  if nbits ≤ 8 then [BitVec.ofNat 8 w, 0, 0, 0, 0, 0]
  else
    [BitVec.ofNat 8 (w / 2 ^ 8), BitVec.ofNat 8 w, BitVec.ofNat 8 (w / 2 ^ 16), BitVec.ofNat 8 (w / 2 ^ 24),
      BitVec.ofNat 8 (w / 2 ^ 32), BitVec.ofNat 8 (w / 2 ^ 40)]

/-- The instruction the decoder reads from an instruction given as the table numbers its bits. -/
def decodeTableWord (nbits w : Nat) : Option Instr :=
  match decode (tableBytes nbits w) with
  | .ok i _ => some i
  | .reject _ => none

end Sys2Proof
end

