-- ==== Sys2Proof/Machine/State.lean ====
section
/-!
DEFINITION. The state of the 8086: everything 10_state.md gives the machine, as plain data, and the state right after
reset (R50). INVENTORY.md lists the fields with their rules.
-/

namespace Sys2Proof.Machine

/-- The eight 16-bit general registers (R21). -/
structure Regs where
  ax : Word
  cx : Word
  dx : Word
  bx : Word
  sp : Word
  bp : Word
  si : Word
  di : Word
  deriving DecidableEq, Repr

/-- The four segment registers (R26). -/
structure SegRegs where
  es : Word
  cs : Word
  ss : Word
  ds : Word
  deriving DecidableEq, Repr

/-- The nine flags (R30, R31). The seven X positions of FLAGS are not state (R32). -/
structure Flags where
  /-- carry, bit 0 -/
  CF : Bool
  /-- parity, bit 2 -/
  PF : Bool
  /-- auxiliary carry, bit 4 -/
  AF : Bool
  /-- zero, bit 6 -/
  ZF : Bool
  /-- sign, bit 7 -/
  SF : Bool
  /-- trap, bit 8 -/
  TF : Bool
  /-- interrupt enable, bit 9 -/
  IF : Bool
  /-- direction, bit 10 -/
  DF : Bool
  /-- overflow, bit 11 -/
  OF : Bool
  deriving DecidableEq, Repr

/-- Memory: addresses strictly rising, no entry equal to what an unlisted address reads as (`Memory.wf`). -/
abbrev Memory := List Host.Cell

/-- The run state (R44). `repeating` is the state between two iterations of a repeated string instruction (R301, R307,
log 8); `waiting` carries the offset of the byte after the WAIT (R388, log 10). `held` is timing only (log 14). -/
inductive RunState where
  | running
  | repeating (op : StringOp) (w : Width)
  | halted
  | waiting (next : Word)
  | inReset
  deriving DecidableEq, Repr

/-- The levels of the input pins the rules read (R46). -/
structure Pins where
  /-- RESET is HIGH (R450) -/
  reset : Bool
  /-- NMI is HIGH (R405: its LOW-to-HIGH edge counts) -/
  nmi : Bool
  /-- TEST is HIGH, so that WAIT waits (R388) -/
  testHigh : Bool
  /-- INTR is HIGH, with the type byte the interrupt system would answer (R408, R409); `none` is LOW -/
  intr : Option Byte
  deriving DecidableEq, Repr

/-- No interrupt asserted, RESET inactive, TEST LOW: the defaults of D25 and D30. -/
def Pins.idle : Pins := ⟨false, false, false, none⟩

/-- One byte a bus cycle can name: of memory, or of the I/O space (R37, R60, R61). -/
inductive Location where
  | mem (a : Addr)
  | port (p : Word)
  deriving DecidableEq, Repr

/-- One bus cycle of another bus master, on one byte (R84, `OTHER_MASTERS`). -/
inductive MasterCycle where
  | read (l : Location)
  | write (l : Location) (v : Byte)
  deriving DecidableEq, Repr

/-- The bus cycles other masters ask for (R71, R84, R431, R432). -/
structure Requests where
  /-- through HOLD, or in maximum mode RQ/GT0, which has priority over RQ/GT1 -/
  rq0 : List MasterCycle
  /-- through RQ/GT1 -/
  rq1 : List MasterCycle
  /-- on the system bus, by masters that need not take the local bus (R71) -/
  system : List MasterCycle
  deriving DecidableEq, Repr

/-- No request: `OTHER_MASTERS` absent, the default of D33. -/
def Requests.none : Requests := ⟨[], [], []⟩

/-- What one sampling point brings (R46): the pin levels, what other bus masters ask for, and whether the processor's
next bus cycle is an instruction fetch ahead of execution, of a byte or of an aligned word (R41, R69, R80, log 9). -/
structure Sample where
  pins : Pins
  requests : Requests
  fetch : Option Width
  deriving DecidableEq, Repr

/-- What one bus cycle moves: a byte, or an aligned word (R68, R72). -/
inductive Transfer where
  | byte (v : Byte)
  | word (v : Word)
  deriving DecidableEq, Repr

/-- One bus cycle, by the kinds of R72; `seg` is the segment register that formed the address, if one did (R79). A
passive bus runs no cycle. -/
inductive BusCycle where
  /-- instruction fetch, in CS (R41, R76) -/
  | fetch (a : Addr) (d : Transfer)
  /-- read data from memory, or read I/O -/
  | read (seg : Option SReg) (l : Location) (d : Transfer)
  /-- write data to memory, or write I/O -/
  | write (seg : Option SReg) (l : Location) (d : Transfer)
  /-- interrupt acknowledge: the first cycle reads nothing, the second the type byte (R87, R409) -/
  | acknowledge (type : Option Byte)
  /-- halt: no transfer (R72, R387) -/
  | halt
  /-- a cycle of another master (R80, R84) -/
  | master (c : MasterCycle)
  deriving DecidableEq, Repr

/-- Everything bus cycles and input pins act on: memory, the processor's prefetch queue and NMI latch, the pins and
what is to come from outside, and the record of the bus cycles done. -/
structure Bus where
  /-- the 1-megabyte memory (R60) -/
  mem : Memory
  /-- the instruction queue: the code bytes fetched and not yet executed, with their addresses (R41, R85, log 9) -/
  queue : List Host.Cell
  /-- under `QUEUE_VISIBILITY = refuse`, the addresses of code bytes that may be stale (D6, log 9) -/
  stale : List Addr
  /-- the NMI latch (R42) -/
  nmiLatch : Bool
  /-- the present pin levels (R46, log 6) -/
  pins : Pins
  /-- the samples of the outside world to come, one per sampling point (log 6) -/
  env : List Sample
  /-- bus cycles of other masters recorded and not yet granted (R82, R84, log 14) -/
  requests : Requests
  /-- what the devices will answer: to each read of a location, the first entry for it (R46, R78, D33, log 13) -/
  answers : List (Location × Byte)
  /-- the bus cycles done, newest first: one total order for all masters (R80) -/
  log : List BusCycle
  /-- how many bytes without a script the environment has supplied (U15, log 4) -/
  draws : Nat
  deriving DecidableEq, Repr

/-- Why a step stops with a fault. The 8086 has none: every cause of R400 enters an interrupt routine, and nothing of
R417 interrupts or stops the machine. -/
inductive Fault where
  deriving DecidableEq, Repr

/-- Why a step is refused: the encodings and combinations for which the spec gives no meaning. -/
inductive Refusal where
  /-- No meaning yet; raised by an arm of `exec`. Safe: nothing is claimed of the instruction. -/
  | notModelled (mnemonic : String)
  /-- An encoding the spec gives no meaning (R120, R121, D9 to D14); raised by the fetch when the bytes decode to
  nothing, and by the two meanings whose CS form is no instruction (R121, D10). Safe: the chip goes on in a way no
  source gives. -/
  | undefinedEncoding (e : DecodeError)
  /-- REP or REPNE before an instruction that is no string primitive (R308, D29); raised by the fetch. Safe. -/
  | repBeforeNonString
  /-- Under `QUEUE_VISIBILITY = refuse` only: an instruction byte that may be a stale copy (D6); raised by the fetch.
  Safe. -/
  | staleCode
  deriving DecidableEq, Repr

/-- The state of the machine. -/
structure State where
  /-- general registers (R21) -/
  regs : Regs
  /-- segment registers (R26) -/
  segs : SegRegs
  /-- instruction pointer (R28); during an instruction it is `IPnext` (R29) -/
  ip : Word
  /-- the nine flags (R31) -/
  flags : Flags
  /-- memory, the queue, the pins and the other bus masters -/
  bus : Bus
  /-- the interrupt-recognition inhibit (R43) -/
  inhibit : Bool
  /-- the run state (R44) -/
  run : RunState
  /-- the bus lock, behind a LOCK prefix and between the two acknowledge cycles (R45) -/
  locked : Bool
  /-- the segment override in force for the instruction to come (R77) -/
  segOverride : Option SReg
  /-- the repeat prefix in force, with its `z` bit (R301) -/
  rep : Option Bool
  /-- `IPstart` of the instruction in progress, prefixes included (R14) -/
  ipStart : Word
  /-- TF at the start of the instruction in progress, until an interrupt entry has taken it into account (R404, R413) -/
  trap : Bool
  /-- how many free values have been drawn (R16, log 4) -/
  draws : Nat
  /-- the parameters of R7, which no step changes (log 5) -/
  params : Params
  deriving DecidableEq, Repr

/-- The machine right after reset (R50, R452): CS = FFFFH, IP = 0, the other segment registers, all flags and the
hidden state clear. The general registers are 0 by DESIGN CHOICE, log 1. -/
def State.reset : State where
  regs := ⟨0, 0, 0, 0, 0, 0, 0, 0⟩
  segs := { es := 0, cs := 0xFFFF, ss := 0, ds := 0 }
  ip := 0
  flags := ⟨false, false, false, false, false, false, false, false, false⟩
  bus :=
    { mem := [], queue := [], stale := [], nmiLatch := false, pins := Pins.idle, env := [], requests := Requests.none,
      answers := [], log := [], draws := 0 }
  inhibit := false
  run := .running
  locked := false
  segOverride := none
  rep := none
  ipStart := 0
  trap := false
  draws := 0
  params := Params.i8086

/-- What a meaning and a step answer. -/
abbrev Result := Host.Outcome State Fault Refusal

end Sys2Proof.Machine
end

