-- ==== Sys2Proof/Machine/Bus.lean ====
section
/-!
DEFINITION. Memory, the devices, the other bus masters, and the bus cycles of the processor, one at a time
(20_memory.md). Everything here acts on a `Bus`; what it needs to know of the processor is a `View`.
-/

namespace Sys2Proof.Machine

/-! ## Memory (R60, R63 to R68) -/

/-- The physical address of an offset in a segment (R63, R64). -/
def phys (seg off : Word) : Addr := BitVec.ofNat 20 (seg.toNat * 16 + off.toNat)

/-- What an address that memory does not list reads as. The spec gives no contents at power-up (R50, R78): DESIGN
CHOICE, unsafe, log 2. -/
def unlistedByte : Byte := 0

/-- The byte at an address. -/
def Memory.read : Memory → Nat → Byte
  | [], _ => unlistedByte
  | (b, u) :: m, a => if a = b then u else Memory.read m a

/-- The memory without an entry at an address. -/
def Memory.remove : Memory → Nat → Memory
  | [], _ => []
  | (b, u) :: m, a => if a = b then Memory.remove m a else (b, u) :: Memory.remove m a

/-- The memory with an entry put before the first one at a higher address. -/
def Memory.place : Memory → Nat → Byte → Memory
  | [], a, v => [(a, v)]
  | (b, u) :: m, a, v => if a < b then (a, v) :: (b, u) :: m else (b, u) :: Memory.place m a v

/-- The memory with one byte written, in canonical form again. -/
def Memory.write (m : Memory) (a : Nat) (v : Byte) : Memory :=
  if v = unlistedByte then m.remove a else (m.remove a).place a v

/-- The canonical form above an address: rising, in the address space, nothing listed that reads so unlisted. -/
def Memory.wfFrom : Nat → Memory → Bool
  | _, [] => true
  | lo, (a, v) :: m => decide (lo ≤ a) && decide (a < 2 ^ 20) && decide (v ≠ unlistedByte) && Memory.wfFrom (a + 1) m

/-- The canonical form of memory: addresses strictly rising and below 2^20, no entry equal to `unlistedByte`. -/
def Memory.wf (m : Memory) : Bool := Memory.wfFrom 0 m

/-- `MemRead(addr, 1)` where memory is present (R13): the byte memory holds. -/
def Bus.readByte (b : Bus) (a : Addr) : Byte := b.mem.read a.toNat

/-! ## What a bus cycle needs to know of the processor -/

/-- What of the processor the bus and the queue depend on. -/
structure View where
  /-- the bus lock (R45) -/
  locked : Bool
  /-- CS -/
  codeSegment : Word
  /-- the offset of the first byte the queue may hold -/
  nextOffset : Word
  /-- whether instructions are fetched at all: not while halted or in reset (R387, R451) -/
  fetching : Bool
  params : Params

/-- What is present at an address (R60, R78). -/
def View.presence (v : View) (a : Addr) : Presence :=
  match v.params.map.find? fun r => decide (r.base ≤ a.toNat) && decide (a.toNat < r.base + r.size) with
  | some r => r.kind
  | none => .ram

/-! ## The instruction queue and stores (R41, R85, R460) -/

/-- The address of the `k`-th byte that follows the instruction in progress. -/
def View.codeAt (v : View) (k : Nat) : Addr := phys v.codeSegment (v.nextOffset + BitVec.ofNat 16 k)

/-- Whether an address holds one of the six bytes that follow the instruction in progress (R85, R460). -/
def View.mayBeQueued (v : View) (a : Addr) : Bool := (List.range 6).any fun k => v.codeAt k == a

/-- The queued copy of the byte at an address, if one is held. -/
def Bus.copyAt (b : Bus) (a : Addr) : Option Byte := (b.queue.find? fun c => c.1 == a.toNat).map fun c => c.2

/-- Whether one is held. -/
def Bus.isQueued (b : Bus) (a : Addr) : Bool := (b.copyAt a).isSome

/-- The queue without its contents (R41, R359). -/
def Bus.flush (b : Bus) : Bus := { b with queue := [], stale := [] }

/-- What a store of `x` to `a` finds out of the queue (R41, R85, D6): if it changes one of the six bytes and no copy
is held, it is a free choice whether the old byte has been fetched by now. Under `refuse` the byte is marked, under
`alwaysNew` it has not been fetched. Log 9. -/
def Bus.noteStore (v : View) (a : Addr) (x : Byte) (b : Bus) : Bus :=
  if v.fetching && !b.pins.reset && v.mayBeQueued a && b.readByte a != x then
    match v.params.queueVisibility with
    | .alwaysNew => b
    | .refuse => { b with stale := b.stale.insert a }
    | .draw =>
      if b.isQueued a then b
      else
        let fetched := (Config.freeByte b.draws).getLsbD 0
        { b with
          queue := if fetched then b.queue ++ [(a.toNat, b.readByte a)] else b.queue
          log := if fetched then .fetch a (.byte (b.readByte a)) :: b.log else b.log
          draws := b.draws + 1 }
  else b

/-- A byte stored in memory (`MemWrite(addr, 1, x)` of R13). -/
def Bus.storeByte (v : View) (a : Addr) (x : Byte) (b : Bus) : Bus :=
  { b.noteStore v a x with mem := b.mem.write a.toNat x }

/-! ## Memory and devices at a location (R60, R78, D33) -/

/-- What the device at a location answers: its next scripted answer, or any value (U15, log 13). -/
def Bus.answer (l : Location) (b : Bus) : Byte :=
  match b.answers.find? fun c => decide (c.1 = l) with
  | some c => c.2
  | none => Config.freeByte b.draws

/-- The answer given. -/
def Bus.answered (l : Location) (b : Bus) : Bus :=
  match b.answers.find? fun c => decide (c.1 = l) with
  | some _ => { b with answers := b.answers.eraseP fun c => decide (c.1 = l) }
  | none => { b with draws := b.draws + 1 }

/-- What a read of a location finds now: the byte in memory, or the device's answer. -/
def Bus.find (v : View) (l : Location) (b : Bus) : Byte :=
  match l with
  | .mem a =>
    match v.presence a with
    | .ram | .rom => b.readByte a
    | .device => b.answer l
  | .port _ => b.answer l

/-- After that read: memory is as it was, a device has answered (R73). -/
def Bus.found (v : View) (l : Location) (b : Bus) : Bus :=
  match l with
  | .mem a =>
    match v.presence a with
    | .ram | .rom => b
    | .device => b.answered l
  | .port _ => b.answered l

/-- A byte put at a location: only RAM keeps it. What a device does with it shows in its later answers. -/
def Bus.keep (v : View) (l : Location) (x : Byte) (b : Bus) : Bus :=
  match l with
  | .mem a =>
    match v.presence a with
    | .ram => { b with mem := b.mem.write a.toNat x }
    | .rom | .device => b
  | .port _ => b

/-- The same by the processor, whose fetches may come before it up to the last moment. -/
def Bus.put (v : View) (l : Location) (x : Byte) (b : Bus) : Bus :=
  match l with
  | .mem a =>
    match v.presence a with
    | .ram => b.storeByte v a x
    | .rom | .device => b
  | .port _ => b

/-! ## The outside world between two bus cycles (R46, R71, R80, R84) -/

/-- What a store of another master will find out of the queue. -/
def Bus.noteMaster (v : View) (c : MasterCycle) (b : Bus) : Bus :=
  match c with
  | .write (.mem a) x =>
    match v.presence a with
    | .ram => b.noteStore v a x
    | .rom | .device => b
  | .write (.port _) _ | .read _ => b

/-- The same of several. -/
def Bus.noteMasters (v : View) : List MasterCycle → Bus → Bus
  | [], b => b
  | c :: more, b => (b.noteMaster v c).noteMasters v more

/-- One bus cycle of another master. -/
def Bus.doMaster (v : View) (c : MasterCycle) (b : Bus) : Bus :=
  let b1 := match c with
    | .read l => b.found v l
    | .write l x => b.keep v l x
  { b1 with log := .master c :: b1.log }

/-- Bus cycles of other masters, one after the other. -/
def Bus.doMasters (v : View) : List MasterCycle → Bus → Bus
  | [], b => b
  | c :: more, b => (b.doMaster v c).doMasters v more

/-- Other masters have the bus. The processor makes no bus cycle until they are done, so it has fetched before the
first of their cycles what it fetches before their stores (R84, log 9). -/
def Bus.serve (v : View) (l : List MasterCycle) (b : Bus) : Bus := (b.noteMasters v l).doMasters v l

/-- Two lots of requests, the second after the first in each queue. -/
def Requests.append (r q : Requests) : Requests := ⟨r.rq0 ++ q.rq0, r.rq1 ++ q.rq1, r.system ++ q.system⟩

/-- One sample: the pin levels; a rising NMI edge sets the latch (R42, R405); what other masters ask for is
recorded. With no samples left the levels stay. -/
def Bus.sample (b : Bus) : Bus :=
  match b.env with
  | [] => b
  | x :: rest =>
    { b with
      pins := x.pins
      env := rest
      nmiLatch := b.nmiLatch || (x.pins.nmi && !b.pins.nmi)
      requests := b.requests.append x.requests }

/-- The recorded cycles of other masters are done, RQ/GT0 before RQ/GT1, unless the bus is locked: then they wait
(R82, R84, R432). -/
def Bus.grant (v : View) (b : Bus) : Bus :=
  if v.locked then b
  else { b.serve v (b.requests.rq0 ++ b.requests.rq1 ++ b.requests.system) with requests := Requests.none }

/-- Between the two cycles of a word at an odd address the local bus is not released, so only masters of the system
bus come in, and under the lock none (R71). -/
def Bus.grantSystem (v : View) (b : Bus) : Bus :=
  if v.locked then b
  else { b.serve v b.requests.system with requests := { b.requests with system := [] } }

/-- A sampling point at which the bus may be released. -/
def Bus.release (v : View) (b : Bus) : Bus := b.sample.grant v

/-! ## Instruction fetch (R41, R69, R72, R73, R80) -/

/-- A code byte read into the queue, from memory or from a device. -/
def Bus.fetchByte (v : View) (a : Addr) (b : Bus) : Bus :=
  { b.found v (.mem a) with queue := b.queue ++ [(a.toNat, b.find v (.mem a))] }

/-- An instruction fetch cycle for the `k`-th byte: it alone, or with the next one as an aligned word, if that is
asked for, the byte is at an even address, and the queue has room for both. -/
def Bus.fetch (v : View) (w : Width) (k : Nat) (b : Bus) : Bus :=
  let lo := v.codeAt k
  let hi := v.codeAt (k + 1)
  let b1 := b.fetchByte v lo
  if w == .word && !lo.getLsbD 0 && decide (k < 5) && !b.isQueued hi then
    let b2 := b1.fetchByte v hi
    { b2 with log := .fetch lo (.word (joinBytes (b1.find v (.mem hi)) (b.find v (.mem lo)))) :: b2.log }
  else { b1 with log := .fetch lo (.byte (b.find v (.mem lo))) :: b1.log }

/-- The fetch ahead that the coming sample asks for, if the queue has room for it; none once RESET has come, nor where
the parameter says that there is no queue. -/
def Bus.fetchAhead (v : View) (asked : Option Width) (b : Bus) : Option Bus :=
  if v.fetching && !b.pins.reset && v.params.queueVisibility != .alwaysNew then
    match asked, (List.range 6).find? fun k => !b.isQueued (v.codeAt k) with
    | some w, some k => some (b.fetch v w k)
    | _, _ => none
  else none

/-- A sampling point, and after each fetch ahead the next one; the number bounds the fetches. -/
def Bus.tickWithin (v : View) : Nat → Bus → Bus
  | 0, b => b.release v
  | n + 1, b =>
    match (b.release v).fetchAhead v (b.env.head?.bind fun x => x.fetch) with
    | some c => c.tickWithin v n
    | none => b.release v

/-- What comes between two bus cycles of an instruction: other masters, and instruction fetches, as far as there are
samples. -/
def Bus.tick (v : View) (b : Bus) : Bus := b.tickWithin v b.env.length

/-- What comes before a bus cycle of the EU: other masters may have the bus, and instructions be fetched (R80), unless
RESET has ended the instruction (R450). -/
def Bus.start (v : View) (b : Bus) : Bus := if b.pins.reset then b else b.tick v

/-- What comes between the two cycles of one access (R71, R409). -/
def Bus.between (v : View) (b : Bus) : Bus := if b.pins.reset then b else b.sample.grantSystem v

/-- The `k`-th code byte is needed: unless it has been fetched by now, it is fetched. -/
def Bus.demand (v : View) (k : Nat) (b : Bus) : Bus :=
  let b1 := b.start v
  if b1.pins.reset || b1.isQueued (v.codeAt k) then b1 else b1.fetch v .byte k

/-- Code bytes fetched once more and not queued, the first `n` of those at the addresses given: what a waiting
processor does with its WAIT when it is interrupted (R388). -/
def Bus.refetch (v : View) (code : Nat → Addr) : Nat → Bus → Bus
  | 0, b => b
  | n + 1, b =>
    let b1 := (b.refetch v code n).start v
    if b1.pins.reset then b1
    else { b1.found v (.mem (code n)) with log := .fetch (code n) (.byte (b1.find v (.mem (code n)))) :: b1.log }

/-! ## The bus cycles of the processor (R68, R72)

Once RESET is HIGH the instruction in progress runs no further bus cycle (R451): what it still reads is any value, and
what it was still to write is any value (R456, U17; log 12). -/

/-- A bus cycle recorded. -/
def Bus.record (c : BusCycle) (b : Bus) : Bus := if b.pins.reset then b else { b with log := c :: b.log }

/-- The byte the processor reads at a location in the cycle under way. -/
def Bus.take (v : View) (l : Location) (b : Bus) : Byte :=
  if b.pins.reset then Config.freeByte b.draws else b.find v l

/-- After that read. -/
def Bus.taken (v : View) (l : Location) (b : Bus) : Bus :=
  if b.pins.reset then { b with draws := b.draws + 1 } else b.found v l

/-- The byte the processor writes at a location in the cycle under way. -/
def Bus.give (v : View) (l : Location) (x : Byte) (b : Bus) : Bus :=
  if b.pins.reset then ({ b with draws := b.draws + 1 } : Bus).put v l (Config.freeByte b.draws) else b.put v l x

/-- An odd address: a word there takes two byte cycles (R68, D28). -/
def Location.isOdd : Location → Bool
  | .mem a => a.getLsbD 0
  | .port p => p.getLsbD 0

/-- The locations of an operand, low byte first, and the segment register that formed the address. -/
structure Access where
  seg : Option SReg
  lo : Location
  hi : Location

/-- After the low byte of a word has been read: at an odd address its cycle is over. -/
def Bus.takenLow (v : View) (x : Access) (b : Bus) : Bus :=
  let b1 := b.taken v x.lo
  if x.lo.isOdd then (b1.record (.read x.seg x.lo (.byte (b.take v x.lo)))).between v else b1

/-- The operand a read answers: one cycle, or two byte cycles, low byte first, for a word at an odd address. -/
def Bus.read (v : View) (w : Width) (x : Access) (b : Bus) : Operand w :=
  let b1 := b.start v
  match w with
  | .byte => b1.take v x.lo
  | .word => joinBytes ((b1.takenLow v x).take v x.hi) (b1.take v x.lo)

/-- After that read. -/
def Bus.afterRead (v : View) (w : Width) (x : Access) (b : Bus) : Bus :=
  let b1 := b.start v
  match w with
  | .byte => (b1.taken v x.lo).record (.read x.seg x.lo (.byte (b1.take v x.lo)))
  | .word =>
    let b2 := b1.takenLow v x
    (b2.taken v x.hi).record
      (if x.lo.isOdd then .read x.seg x.hi (.byte (b2.take v x.hi))
        else .read x.seg x.lo (.word (joinBytes (b2.take v x.hi) (b1.take v x.lo))))

/-- An operand written: one cycle, or two byte cycles, low byte first, for a word at an odd address. -/
def Bus.write (v : View) (w : Width) (x : Access) (u : Operand w) (b : Bus) : Bus :=
  let b1 := b.start v
  match w, u with
  | .byte, u => (b1.give v x.lo u).record (.write x.seg x.lo (.byte u))
  | .word, u =>
    let b2 := b1.give v x.lo (lowByte u)
    if x.lo.isOdd then
      (((b2.record (.write x.seg x.lo (.byte (lowByte u)))).between v).give v x.hi (highByte u)).record
        (.write x.seg x.hi (.byte (highByte u)))
    else (b2.give v x.hi (highByte u)).record (.write x.seg x.lo (.word u))

/-- The halt cycle (R72, R387). -/
def Bus.haltCycle (v : View) (b : Bus) : Bus := (b.start v).record .halt

/-- The interrupt acknowledge sequence: two cycles with the bus locked between them; the second reads the type
(R409). -/
def Bus.acknowledge (v : View) (t : Byte) (b : Bus) : Bus :=
  let b1 := (b.start v).record (.acknowledge none)
  (b1.between { v with locked := true }).record (.acknowledge (some t))

/-! ## The status lines of a cycle (R34, R61, R79) -/

/-- The address lines A19 to A0 of a cycle: zeros above a port (R61). -/
def Location.lines : Location → Addr
  | .mem a => a
  | .port p => p.setWidth 20

/-- The code on S4 and S3, S4 the high bit: the segment register that formed the address, or 10 for none (R79, C10).
-/
def segmentStatus : Option SReg → BitVec 2
  | some .es => 0b00
  | some .ss => 0b01
  | some .cs | none => 0b10
  | some .ds => 0b11

/-- S4 and S3 in a cycle of the processor; it drives no line in a cycle of another master (R79, R432). -/
def BusCycle.s4s3 : BusCycle → Option (BitVec 2)
  | .fetch _ _ => some (segmentStatus (some .cs))
  | .read seg _ _ | .write seg _ _ => some (segmentStatus seg)
  | .acknowledge _ | .halt => some (segmentStatus none)
  | .master _ => none

/-- S6 is always 0 (R34). -/
def BusCycle.s6 (_ : BusCycle) : Bool := false

end Sys2Proof.Machine
end

