-- ==== Sys2Proof/Machine/Flags.lean ====
section
/-!
DEFINITION. The FLAGS word (10_state.md R30 to R32) and every flag computation of the spec: the helpers of
00_scope.md R15, the shifts and rotates of 42_logic.md, and the flag conditions of 44_control_transfer.md.
-/

namespace Sys2Proof.Machine

/-! ## The FLAGS word -/

/-- The seven X positions of FLAGS: bits 15 to 12, 5, 3 and 1 (R30, R32). -/
def flagsXMask : Word := 0xF02A

/-- The 16-bit FLAGS image (R30), its X positions read from `x` (R32). -/
def Flags.toWord (x : Word) (f : Flags) : Word :=
  (x &&& flagsXMask) |||
    BitVec.ofNat 16 (f.CF.toNat + 4 * f.PF.toNat + 16 * f.AF.toNat + 64 * f.ZF.toNat + 128 * f.SF.toNat
      + 256 * f.TF.toNat + 512 * f.IF.toNat + 1024 * f.DF.toNat + 2048 * f.OF.toNat)

/-- The nine flags of a FLAGS image; the X positions are discarded (R32, R183). -/
def Flags.ofWord (v : Word) : Flags where
  CF := v.getLsbD 0
  PF := v.getLsbD 2
  AF := v.getLsbD 4
  ZF := v.getLsbD 6
  SF := v.getLsbD 7
  TF := v.getLsbD 8
  IF := v.getLsbD 9
  DF := v.getLsbD 10
  OF := v.getLsbD 11

/-! ## Arithmetic (R15) -/

/-- The result and the three computed flags of `ADD_N` and `SUB_N`. -/
structure ArithOut (n : Nat) where
  r : BitVec n
  cf : Bool
  af : Bool
  of : Bool
  deriving DecidableEq, Repr

/-- `ADD_N(a, b, c)`. -/
def addN {n : Nat} (a b : BitVec n) (c : Bool) : ArithOut n :=
  let t := a.toNat + b.toNat + c.toNat
  let r := BitVec.ofNat n t
  { r := r
    cf := decide (2 ^ n ≤ t)
    af := decide (16 ≤ a.toNat % 16 + b.toNat % 16 + c.toNat)
    of := ((a ^^^ r) &&& (b ^^^ r)).msb }

/-- `SUB_N(a, b, c)`. -/
def subN {n : Nat} (a b : BitVec n) (c : Bool) : ArithOut n :=
  let r := a - b - BitVec.ofNat n c.toNat
  { r := r
    cf := decide (a.toNat < b.toNat + c.toNat)
    af := decide (a.toNat % 16 < b.toNat % 16 + c.toNat)
    of := ((a ^^^ b) &&& (a ^^^ r)).msb }

/-- `SZP_N(r)`: SF, ZF and PF from a result; PF looks at its low 8 bits only. -/
def Flags.szp {n : Nat} (r : BitVec n) (f : Flags) : Flags :=
  { f with SF := r.msb, ZF := r == 0, PF := parity8 (r.setWidth 8) }

/-- All six status flags from an addition or subtraction. -/
def Flags.arith {n : Nat} (o : ArithOut n) (f : Flags) : Flags :=
  { f.szp o.r with CF := o.cf, AF := o.af, OF := o.of }

/-- The same with CF unchanged: INC and DEC (R203, R208). -/
def Flags.arithKeepCF {n : Nat} (o : ArithOut n) (f : Flags) : Flags :=
  { f.szp o.r with AF := o.af, OF := o.of }

/-- `LOGIC_N(r)`; AF is any value (R15, R16), taken from `free`. -/
def Flags.logic {n : Nat} (r : BitVec n) (f free : Flags) : Flags :=
  { f.szp r with CF := false, OF := false, AF := free.AF }

/-- All six status flags are any value (R216, R217). -/
def Flags.allFree (f free : Flags) : Flags :=
  { f with OF := free.OF, SF := free.SF, ZF := free.ZF, AF := free.AF, PF := free.PF, CF := free.CF }

/-- CF = OF = `c`; SF, ZF, AF and PF are any value (R213, R214). -/
def Flags.multiply (c : Bool) (f free : Flags) : Flags :=
  { f with CF := c, OF := c, SF := free.SF, ZF := free.ZF, AF := free.AF, PF := free.PF }

/-- AF = CF = `c`; OF, SF, ZF and PF are any value (R204, R211). -/
def Flags.asciiAdjust (c : Bool) (f free : Flags) : Flags :=
  { f with AF := c, CF := c, OF := free.OF, SF := free.SF, ZF := free.ZF, PF := free.PF }

/-- CF and AF given, SF, ZF, PF from the result, OF any value (R205, R212). -/
def Flags.decimalAdjust (r : Byte) (cf af : Bool) (f free : Flags) : Flags :=
  { f.szp r with CF := cf, AF := af, OF := free.OF }

/-- SF, ZF, PF from the result; OF, AF and CF any value (R215, R218). -/
def Flags.digits (r : Byte) (f free : Flags) : Flags :=
  { f.szp r with OF := free.OF, AF := free.AF, CF := free.CF }

/-! ## The two-operand operations (R127) -/

/-- The operations `x x x` of R127, in its order, and TEST. -/
inductive AluOp where
  | add | or | adc | sbb | and | sub | xor | cmp | test
  deriving DecidableEq, Repr

/-- Whether AF is any value after the operation (R15 `LOGIC_N`). -/
def AluOp.isLogic : AluOp → Bool
  | .or | .and | .xor | .test => true
  | .add | .adc | .sbb | .sub | .cmp => false

/-- Whether the result is written to `dst`: all but CMP and TEST (R200, R210, R270). -/
def AluOp.writes : AluOp → Bool
  | .cmp | .test => false
  | .add | .or | .adc | .sbb | .and | .sub | .xor => true

/-- Result and flags of `dst op src`, with CF read before it is written (R201, R202, R206, R207, R210, R269 to
R272). -/
def AluOp.eval {n : Nat} (o : AluOp) (dst src : BitVec n) (f free : Flags) : BitVec n × Flags :=
  match o with
  | .add => let t := addN dst src false; (t.r, f.arith t)
  | .adc => let t := addN dst src f.CF; (t.r, f.arith t)
  | .sub | .cmp => let t := subN dst src false; (t.r, f.arith t)
  | .sbb => let t := subN dst src f.CF; (t.r, f.arith t)
  | .and | .test => let r := dst &&& src; (r, f.logic r free)
  | .or => let r := dst ||| src; (r, f.logic r free)
  | .xor => let r := dst ^^^ src; (r, f.logic r free)

/-! ## Shifts and rotates (R262 to R268, R273) -/

/-- The seven operations. -/
inductive ShiftOp where
  | rol | ror | rcl | rcr | shl | shr | sar
  deriving DecidableEq, Repr

/-- The rotates leave SF, ZF, AF and PF alone (R265 to R268). -/
def ShiftOp.isRotate : ShiftOp → Bool
  | .rol | .ror | .rcl | .rcr => true
  | .shl | .shr | .sar => false

/-- One single-bit step: the new operand and the new CF. -/
def ShiftOp.step {n : Nat} (o : ShiftOp) (x : BitVec n) (cf : Bool) : BitVec n × Bool :=
  match o with
  | .shl => (x <<< 1, x.msb)
  | .shr => (x >>> 1, x.getLsbD 0)
  | .sar => (x.sshiftRight 1, x.getLsbD 0)
  | .rol => (x.rotateLeft 1, x.msb)
  | .ror => (x.rotateRight 1, x.getLsbD 0)
  | .rcl => (x <<< 1 ||| BitVec.ofNat n cf.toNat, x.msb)
  | .rcr => (x >>> 1 ||| BitVec.ofNat n (cf.toNat * 2 ^ (n - 1)), x.getLsbD 0)

/-- `c` single-bit steps, not reduced modulo anything (R273, D20). -/
def ShiftOp.iterate {n : Nat} (o : ShiftOp) : Nat → BitVec n → Bool → BitVec n × Bool
  | 0, x, cf => (x, cf)
  | c + 1, x, cf =>
    let (x', cf') := o.step x cf
    o.iterate c x' cf'

/-- OF for a count of 1, from the operand before, the result and the new CF. -/
def ShiftOp.overflow {n : Nat} (o : ShiftOp) (x0 x : BitVec n) (cf : Bool) : Bool :=
  match o with
  | .shl | .rol | .rcl => x.msb ^^ cf
  | .shr => x0.msb
  | .sar => false
  | .ror | .rcr => x.msb ^^ x.getLsbD (n - 2)

/-- The flags after `c ≥ 1` steps: CF; OF for a count of 1, any value above; for the shifts also SF, ZF, PF from the
result and AF any value. -/
def ShiftOp.flags {n : Nat} (o : ShiftOp) (c : Nat) (x0 x : BitVec n) (cf : Bool) (f free : Flags) : Flags :=
  let f1 := { f with CF := cf, OF := if c = 1 then o.overflow x0 x cf else free.OF }
  if o.isRotate then f1 else { f1.szp x with AF := free.AF }

/-! ## Conditions of the conditional jumps (R335 to R350) -/

/-- The sixteen conditions, in the order of the opcodes 70H to 7FH. -/
inductive Cond where
  | o | no | b | nb | e | ne | be | nbe | s | ns | p | np | l | nl | le | nle
  deriving DecidableEq, Repr

/-- The flag expression of each condition. -/
def Cond.holds (c : Cond) (f : Flags) : Bool :=
  match c with
  | .o => f.OF
  | .no => !f.OF
  | .b => f.CF
  | .nb => !f.CF
  | .e => f.ZF
  | .ne => !f.ZF
  | .be => f.CF || f.ZF
  | .nbe => !f.CF && !f.ZF
  | .s => f.SF
  | .ns => !f.SF
  | .p => f.PF
  | .np => !f.PF
  | .l => f.SF != f.OF
  | .nl => f.SF == f.OF
  | .le => f.ZF || (f.SF != f.OF)
  | .nle => !f.ZF && (f.SF == f.OF)

end Sys2Proof.Machine
end

