-- ==== Sys2Proof/Machine/Ops.lean ====
section
/-!
DEFINITION. The named operations every meaning is built from: registers, memory and the prefetch queue, the stack,
I/O, free values, control transfers, and taking an interrupt and returning from one.
-/

namespace Sys2Proof.Machine

/-! ## Free values (R16) -/

/-- The next free word. -/
def State.freeWord (s : State) : Word := Config.freeWord s.draws

/-- The next free word read as flags: what an instruction leaves undefined takes its bits from here. -/
def State.freeFlags (s : State) : Flags := Flags.ofWord s.freeWord

/-- `n` free values have been used. -/
def State.drawn (n : Nat) (s : State) : State := { s with draws := s.draws + n }

/-! ## Registers (R12, R21, R22, R26) -/

/-- The contents of a 16-bit register. -/
def Regs.get (g : Regs) : Reg16 → Word
  | .ax => g.ax | .cx => g.cx | .dx => g.dx | .bx => g.bx
  | .sp => g.sp | .bp => g.bp | .si => g.si | .di => g.di

/-- A 16-bit register written. -/
def Regs.set (g : Regs) (r : Reg16) (v : Word) : Regs :=
  match r with
  | .ax => { g with ax := v } | .cx => { g with cx := v } | .dx => { g with dx := v } | .bx => { g with bx := v }
  | .sp => { g with sp := v } | .bp => { g with bp := v } | .si => { g with si := v } | .di => { g with di := v }

/-- The 16-bit register that holds an 8-bit one (R22). -/
def byteHolder : Reg8 → Reg16
  | .al | .ah => .ax
  | .cl | .ch => .cx
  | .dl | .dh => .dx
  | .bl | .bh => .bx

/-- Whether an 8-bit register is the high half of its holder (R22). -/
def byteIsHigh : Reg8 → Bool
  | .al | .cl | .dl | .bl => false
  | .ah | .ch | .dh | .bh => true

/-- `reg16[i]` (R12). -/
def State.reg16 (s : State) (r : Reg16) : Word := s.regs.get r

/-- `reg16[i] <- v` (R12). -/
def State.setReg16 (r : Reg16) (v : Word) (s : State) : State := { s with regs := s.regs.set r v }

/-- `reg8[i]` (R12, R22). -/
def State.reg8 (s : State) (r : Reg8) : Byte :=
  if byteIsHigh r then highByte (s.reg16 (byteHolder r)) else lowByte (s.reg16 (byteHolder r))

/-- `reg8[i] <- v`: only that half of the holder changes (R12, R22). -/
def State.setReg8 (r : Reg8) (v : Byte) (s : State) : State :=
  let old := s.reg16 (byteHolder r)
  s.setReg16 (byteHolder r) (if byteIsHigh r then joinBytes v (lowByte old) else joinBytes (highByte old) v)

/-- `reg_w[i]` (R12). -/
def State.reg (s : State) (w : Width) (r : RegNum) : Operand w :=
  match w with
  | .byte => s.reg8 r.reg8
  | .word => s.reg16 r.reg16

/-- `reg_w[i] <- v` (R12). -/
def State.setReg (w : Width) (r : RegNum) (v : Operand w) (s : State) : State :=
  match w, v with
  | .byte, v => s.setReg8 r.reg8 v
  | .word, v => s.setReg16 r.reg16 v

/-- The accumulator: AL or AX by the width (R21). -/
def State.acc (s : State) (w : Width) : Operand w := s.reg w .r000

/-- The accumulator written. -/
def State.setAcc (w : Width) (v : Operand w) (s : State) : State := s.setReg w .r000 v

/-- The contents of a segment register (R26). -/
def SegRegs.get (g : SegRegs) : SReg → Word
  | .es => g.es | .cs => g.cs | .ss => g.ss | .ds => g.ds

/-- A segment register written. -/
def SegRegs.set (g : SegRegs) (r : SReg) (v : Word) : SegRegs :=
  match r with
  | .es => { g with es := v } | .cs => { g with cs := v } | .ss => { g with ss := v } | .ds => { g with ds := v }

/-- `sreg[i]` (R12). -/
def State.sreg (s : State) (r : SReg) : Word := s.segs.get r

/-- `sreg[i] <- v` (R12). -/
def State.setSreg (r : SReg) (v : Word) (s : State) : State := { s with segs := s.segs.set r v }

/-- The flags written. -/
def State.setFlags (f : Flags) (s : State) : State := { s with flags := f }

/-- The 16-bit FLAGS word, X positions as `FLAGS_X` (R30, R32). -/
def State.flagsWord (s : State) : Word := s.flags.toWord s.params.flagsX

/-! ## Memory operands (R13, R65, R68) -/

/-- The offset of the first byte the queue may hold: IP, but the byte after the WAIT for a waiting processor (R388).
-/
def State.queueStart (s : State) : Word :=
  match s.run with
  | .waiting next => next
  | .running | .repeating _ _ | .halted | .inReset => s.ip

/-- Whether the processor fetches instructions: not while halted (R387) or in reset (R451). -/
def State.fetching (s : State) : Bool :=
  match s.run with
  | .running | .repeating _ _ | .waiting _ => true
  | .halted | .inReset => false

/-- What of the processor the bus depends on. -/
def State.view (s : State) : View := ⟨s.locked, s.segs.cs, s.queueStart, s.fetching, s.params⟩

/-- The state with the bus as given. -/
def State.setBus (b : Bus) (s : State) : State := { s with bus := b }

/-- The byte memory holds at an address. -/
def State.readByte (s : State) (a : Addr) : Byte := s.bus.readByte a

/-- The word memory holds at a physical address: the high byte at `(addr + 1) mod 2^20` (R13). -/
def State.readPhysWord (s : State) (a : Addr) : Word := joinBytes (s.readByte (a + 1)) (s.readByte a)

/-- The operand at an offset of a segment: the high byte of a word at `(off + 1) mod 2^16` of the same segment
(R65). -/
def State.operandAt (s : State) (sr : SReg) (off : Word) : Access :=
  ⟨some sr, .mem (phys (s.sreg sr) off), .mem (phys (s.sreg sr) (off + 1))⟩

/-- `ReadSeg(seg, off, n)` (R13): what the read answers. -/
def State.readSeg (s : State) (w : Width) (sr : SReg) (off : Word) : Operand w :=
  s.bus.read s.view w (s.operandAt sr off)

/-- The state after that read. -/
def State.afterRead (w : Width) (sr : SReg) (off : Word) (s : State) : State :=
  s.setBus (s.bus.afterRead s.view w (s.operandAt sr off))

/-- `WriteSeg(seg, off, n, v)` (R13), low byte first (R68). -/
def State.writeSeg (w : Width) (sr : SReg) (off : Word) (v : Operand w) (s : State) : State :=
  s.setBus (s.bus.write s.view w (s.operandAt sr off) v)

/-- The word at a physical address, reached without a segment (R13, R76). -/
def wordAt (a : Addr) : Access := ⟨none, .mem a, .mem (a + 1)⟩

/-- `MemRead(addr, 2)` (R13): what the read answers. -/
def State.readVector (s : State) (a : Addr) : Word := s.bus.read s.view .word (wordAt a)

/-- The state after that read. -/
def State.afterVector (a : Addr) (s : State) : State := s.setBus (s.bus.afterRead s.view .word (wordAt a))

/-! ## The stack (R160, R164) -/

/-- `Push16(v)`: SP is decremented, then the word is stored at SS:SP. -/
def State.push16 (v : Word) (s : State) : State :=
  let s1 := s.setReg16 .sp (s.reg16 .sp - 2)
  s1.writeSeg .word .ss (s1.reg16 .sp) v

/-- The word a pop reads at SS:SP. -/
def State.top16 (s : State) : Word := s.readSeg .word .ss (s.reg16 .sp)

/-- The state after a pop: the read done, SP incremented. -/
def State.dropTop (s : State) : State := (s.afterRead .word .ss (s.reg16 .sp)).setReg16 .sp (s.reg16 .sp + 2)

/-! ## Input and output (R61, R172 to R175, D28) -/

/-- The bytes of an operand in the I/O space: the high byte at `(port + 1) mod 2^16`; no segment (R61, D28). -/
def portAt (port : Word) : Access := ⟨none, .port port, .port (port + 1)⟩

/-- `IoRead(port, n)` (R13): what the device at the port answers. -/
def State.readPort (s : State) (w : Width) (port : Word) : Operand w := s.bus.read s.view w (portAt port)

/-- The state after that read. -/
def State.afterPort (w : Width) (port : Word) (s : State) : State :=
  s.setBus (s.bus.afterRead s.view w (portAt port))

/-- `IoWrite(port, n, v)` (R13): one cycle for a byte or an aligned word, two byte cycles, low byte first, for a
word at an odd port (R68, D28). -/
def State.writePort (w : Width) (port : Word) (v : Operand w) (s : State) : State :=
  s.setBus (s.bus.write s.view w (portAt port) v)

/-! ## Control transfers (R14, R359) -/

/-- The instructions that follow are given up. Until then they may be fetched ahead (R73, R80), so this is a sampling
point (log 6); then the queue is emptied (R359). -/
def State.leave (s : State) : State := s.setBus (s.bus.start s.view).flush

/-- `IP <- off`, a transfer within the code segment. -/
def State.jump (off : Word) (s : State) : State := { s.leave with ip := off }

/-- `CS:IP <- seg:off`. -/
def State.jumpFar (sel off : Word) (s : State) : State := (s.jump off).setSreg .cs sel

/-- The target of a relative transfer (R320). -/
def State.target (s : State) (disp : Word) : Word := s.ip + disp

/-- The prefixes and the bus lock end with the instruction they belong to (R45, R77, R116, R301). -/
def State.endPrefixes (s : State) : State := { s with segOverride := none, rep := none, locked := false }

/-! ## Taking an interrupt and returning from one (R410, R358) -/

/-- Physical address of the vector table entry of a type (R401). -/
def vectorAddr (t : Byte) : Addr := BitVec.ofNat 20 (4 * t.toNat)

/-- Whether the six bytes the entry pushes touch the vector entry it reads, a case the spec leaves open (R410, U13).
-/
def State.stackMeetsVector (t : Byte) (s : State) : Bool :=
  (List.range 6).any fun k =>
    let a := (phys s.segs.ss (s.reg16 .sp - BitVec.ofNat 16 (k + 1))).toNat
    decide ((vectorAddr t).toNat ≤ a) && decide (a < (vectorAddr t).toNat + 4)

/-- Steps 1 to 4 of R410: FLAGS, CS and the saved IP are pushed, IF and TF cleared. -/
def State.pushFrame (savedIp : Word) (s : State) : State :=
  let s1 := s.push16 s.flagsWord
  let s2 := s1.setFlags { s1.flags with IF := false, TF := false }
  (s2.push16 s2.segs.cs).push16 savedIp

/-- Step 5 of R410: the new IP, then the new CS, read from the vector table; any values where the stack meets the
entry, since the order of these reads and the pushes is open (U13, log 16). -/
def State.loadVector (t : Byte) (open_ : Bool) (s : State) : State :=
  let s1 := s.afterVector (vectorAddr t)
  let s2 := s1.afterVector (vectorAddr t + 2)
  if open_ then (s2.drawn 2).jumpFar (Config.freeWord (s.draws + 1)) (Config.freeWord s.draws)
  else s2.jumpFar (s1.readVector (vectorAddr t + 2)) (s.readVector (vectorAddr t))

/-- Steps 1 to 6 of R410. The processor runs; the prefixes and the lock of the interrupted instruction are gone
(R411), and TF at its start has been taken into account (R413). -/
def State.enterOnce (t : Byte) (savedIp : Word) (s : State) : State :=
  { ((s.pushFrame savedIp).loadVector t (s.stackMeetsVector t)).endPrefixes with run := .running, trap := false }

/-- The NMI latch taken (R405). -/
def State.takeNmi (s : State) : State := s.setBus { s.bus with nmiLatch := false }

/-- `InterruptEntry(t, savedIP)` (R410): after steps 1 to 6, a latched NMI, or else TF as it was, preempts before
the routine's first instruction. The number bounds the entries that may follow; `State.interruptEntry` gives enough
of it. -/
def State.enterWithin : Nat → Byte → Word → State → State
  | 0, t, savedIp, s => s.enterOnce t savedIp
  | n + 1, t, savedIp, s =>
    let s1 := s.enterOnce t savedIp
    if s1.bus.nmiLatch then s1.takeNmi.enterWithin n 2 s1.ip
    else if s.flags.TF then s1.enterWithin n 1 s1.ip
    else s1

/-- How many entries can follow one: one for a latched NMI, one for TF, and one for each NMI edge still to come. -/
def State.entryBound (s : State) : Nat := s.bus.env.length + 2

/-- `InterruptEntry(t, savedIP)` with its step 7 (R410). -/
def State.interruptEntry (t : Byte) (savedIp : Word) (s : State) : State := s.enterWithin s.entryBound t savedIp

/-- The single-step entry of R413, to which the TF clause of step 7 does not apply (R410). -/
def State.singleStepEntry (savedIp : Word) (s : State) : State :=
  let s1 := s.enterOnce 1 savedIp
  if s1.bus.nmiLatch then s1.takeNmi.interruptEntry 2 s1.ip else s1

/-- Interrupt return (R358, R415): IP, CS and the nine flags are popped. -/
def State.interruptReturn (s : State) : State :=
  let newIp := s.top16
  let s1 := s.dropTop
  let newCs := s1.top16
  let s2 := s1.dropTop
  let image := s2.top16
  ((s2.dropTop).setFlags (Flags.ofWord image)).jumpFar newCs newIp

/-! ## Pins that mirror state -/

/-- The output pin S5 reflects IF (R34). -/
def State.pinS5 (s : State) : Bool := s.flags.IF

/-- The LOCK output is active while the bus is locked (R45, R82). -/
def State.pinLock (s : State) : Bool := s.locked

end Sys2Proof.Machine
end

