-- ==== Sys2Proof/Machine/Operands.lean ====
section
/-!
DEFINITION. The operands of 30_encoding.md: effective addresses and their segments (R108, R129), the
register-or-memory operand (R109, R128), and the operand forms shared by the instruction families (R127, R273,
R300).
-/

namespace Sys2Proof.Machine

/-! ## Memory operands -/

/-- The registers of an EA formula, summed modulo 2^16 (R108). -/
def State.eaBase (s : State) : EaBase → Word
  | .bxSi => s.reg16 .bx + s.reg16 .si
  | .bxDi => s.reg16 .bx + s.reg16 .di
  | .bpSi => s.reg16 .bp + s.reg16 .si
  | .bpDi => s.reg16 .bp + s.reg16 .di
  | .si => s.reg16 .si
  | .di => s.reg16 .di
  | .bp => s.reg16 .bp
  | .bx => s.reg16 .bx

/-- `DISP` of R108. -/
def dispValue : Disp → Word
  | .none => 0
  | .d8 v => signExtend16 v
  | .d16 v => v

/-- The effective address, a 16-bit offset (R108). -/
def State.ea (s : State) : Mem → Word
  | .based b d => s.eaBase b + dispValue d
  | .direct a => a

/-- SS when the formula contains (BP), DS otherwise (R129). -/
def defaultSegment : Mem → SReg
  | .based .bpSi _ | .based .bpDi _ | .based .bp _ => .ss
  | .based .bxSi _ | .based .bxDi _ | .based .si _ | .based .di _ | .based .bx _ => .ds
  | .direct _ => .ds

/-- The segment register of an overridable access: the override's if there is one, else the default (R77, R394). -/
def State.dataSegment (s : State) (default : SReg) : SReg := s.segOverride.getD default

/-- `seg_rm` (R128). -/
def State.segRm (s : State) (m : Mem) : SReg := s.dataSegment (defaultSegment m)

/-- The memory operand read at a width. -/
def State.readMem (s : State) (w : Width) (m : Mem) : Operand w := s.readSeg w (s.segRm m) (s.ea m)

/-- The state after that read. -/
def State.afterMem (w : Width) (m : Mem) (s : State) : State := s.afterRead w (s.segRm m) (s.ea m)

/-- The segment word of a 32-bit pointer operand, at EA + 2, read after the offset word (R66, R178). -/
def State.readMemHigh (s : State) (m : Mem) : Word := (s.afterMem .word m).readSeg .word (s.segRm m) (s.ea m + 2)

/-- The state after both reads. -/
def State.afterPointer (m : Mem) (s : State) : State := (s.afterMem .word m).afterRead .word (s.segRm m) (s.ea m + 2)

/-- `ReadRM()` (R128). -/
def State.readRM (s : State) (w : Width) : RM → Operand w
  | .reg r => s.reg w r
  | .mem m => s.readMem w m

/-- The state after that read. -/
def State.afterRM (w : Width) (rm : RM) (s : State) : State :=
  match rm with
  | .reg _ => s
  | .mem m => s.afterMem w m

/-- `WriteRM(v)` (R128). -/
def State.writeRM (w : Width) (rm : RM) (v : Operand w) (s : State) : State :=
  match rm with
  | .reg r => s.setReg w r v
  | .mem m => s.writeSeg w (s.segRm m) (s.ea m) v

/-! ## The two-operand forms (R127) -/

/-- The flags of an operation on two values, with the free value the logic operations use for AF. -/
def State.aluFlags {n : Nat} (o : AluOp) (dst src : BitVec n) (s : State) : State :=
  (s.setFlags (o.eval dst src s.flags s.freeFlags).2).drawn (if o.isLogic then 1 else 0)

/-- The result of an operation on two values. -/
def State.aluResult {n : Nat} (o : AluOp) (dst src : BitVec n) (s : State) : BitVec n :=
  (o.eval dst src s.flags s.freeFlags).1

/-- An operation whose `dst` is the register-or-memory operand. -/
def aluToRM (o : AluOp) (w : Width) (rm : RM) (src : Operand w) (s : State) : State :=
  let dst := s.readRM w rm
  let r := s.aluResult o dst src
  let s1 := (s.afterRM w rm).aluFlags o dst src
  if o.writes then s1.writeRM w rm r else s1

/-- An operation whose `dst` is a register. -/
def aluToReg (o : AluOp) (w : Width) (reg : RegNum) (src : Operand w) (s : State) : State :=
  let dst := s.reg w reg
  let r := s.aluResult o dst src
  let s1 := s.aluFlags o dst src
  if o.writes then s1.setReg w reg r else s1

/-- The form `RM_R` (R127). -/
def aluRmReg (o : AluOp) (d : Dir) (w : Width) (reg : RegNum) (rm : RM) (s : State) : State :=
  match d with
  | .fromReg => aluToRM o w rm (s.reg w reg) s
  | .toReg => aluToReg o w reg (s.readRM w rm) (s.afterRM w rm)

/-- The form `RM_IMM` with an `s` bit (R127, R200). -/
def aluRmSImm (o : AluOp) (rm : RM) (imm : SImm) (s : State) : State := aluToRM o imm.width rm imm.val s

/-- The form `RM_IMM` without an `s` bit (R260). -/
def aluRmImm (o : AluOp) (rm : RM) (imm : Imm) (s : State) : State := aluToRM o imm.width rm imm.val s

/-- The form `ACC_IMM` (R127). -/
def aluAccImm (o : AluOp) (imm : Imm) (s : State) : State := aluToReg o imm.width .r000 imm.val s

/-! ## Shifts and rotates (R273) -/

/-- The count: 1, or all 8 bits of CL. -/
def State.shiftCount (s : State) : Count → Nat
  | .one => 1
  | .cl => (s.reg8 .cl).toNat

/-- A shift or rotate (R262 to R268): the operand is read whatever the count; with count 0 it is not written, and no
flag changes (R273). -/
def shiftRM (o : ShiftOp) (v : Count) (w : Width) (rm : RM) (s : State) : State :=
  let c := s.shiftCount v
  let x0 := s.readRM w rm
  let s1 := s.afterRM w rm
  if c = 0 then s1
  else
    let out := o.iterate c x0 s.flags.CF
    ((s1.setFlags (o.flags c x0 out.1 out.2 s.flags s.freeFlags)).drawn 1).writeRM w rm out.1

/-! ## String elements (R300) -/

/-- The segment register of the source side of a string primitive. -/
def State.srcSegment (s : State) : SReg := s.dataSegment .ds

/-- `delta`: plus or minus the element size by DF. -/
def State.stringDelta (s : State) (w : Width) : Word :=
  let n : Word := match w with | .byte => 1 | .word => 2
  if s.flags.DF then -n else n

/-- `step(R)`. -/
def State.stepIndex (w : Width) (r : Reg16) (s : State) : State := s.setReg16 r (s.reg16 r + s.stringDelta w)

end Sys2Proof.Machine
end

