-- ==== Sys2Proof/Machine/Arithmetic.lean ====
section
/-!
DEFINITION. The arithmetic instructions (41_arithmetic.md). Only DIV and IDIV raise an interrupt.
-/

namespace Sys2Proof.Machine

/-! ## Shared parts -/

/-- INC and DEC: a result and the flags but CF (R203, R208). -/
def State.countFlags {n : Nat} (o : ArithOut n) (s : State) : State := s.setFlags (s.flags.arithKeepCF o)

/-- The byte or word 1. -/
def one (w : Width) : Operand w := BitVec.ofNat w.bits 1

/-- The flags an instruction takes from a free value (R16), and the draw. -/
def State.setFreeFlags (f : Flags) (s : State) : State := (s.setFlags f).drawn 1

/-- The ASCII adjustment test: the low digit is above 9 or AF is set (R204, R205, R211, R212). -/
def adjustLow (al : Byte) (af : Bool) : Bool := decide (9 < (al &&& 0x0F).toNat) || af

/-- The high half of the decimal adjustment: AL was above 99H or CF was set (R205, R212). -/
def adjustHigh (al : Byte) (cf : Bool) : Bool := decide (0x99 < al.toNat) || cf

/-- The divide error (R216, R217, R403): type 0, the saved IP as `DIVIDE_ERROR_SAVED_IP` says (D18). -/
def State.divideError (s : State) : State :=
  match s.params.divideErrorSavedIp with
  | .next => s.interruptEntry 0 s.ip
  | .current => s.interruptEntry 0 s.ipStart

/-- A division: quotient and remainder, or nothing for a divide error. -/
abbrev Division (w : Width) := Option (Operand w × Operand w)

/-- `n / d` and `n mod d`, unsigned, if the quotient fits (R216). -/
def divideUnsigned (w : Width) (n : Nat) (d : Operand w) : Division w :=
  if d.toNat = 0 ∨ 2 ^ w.bits ≤ n / d.toNat then none
  else some (BitVec.ofNat w.bits (n / d.toNat), BitVec.ofNat w.bits (n % d.toNat))

/-- The quotient truncated towards zero and the remainder with the sign of the dividend, if the quotient is within
`least` to 2^(N-1) - 1 (R217, R221). -/
def divideSigned (w : Width) (least : Int) (n : Int) (d : Operand w) : Division w :=
  if d.toInt = 0 then none
  else
    let q := n.tdiv d.toInt
    if (2 : Int) ^ (w.bits - 1) ≤ q ∨ q < least then none
    else some (BitVec.ofInt w.bits q, BitVec.ofInt w.bits (n - q * d.toInt))

/-- The dividend: AX for a byte divisor, DX:AX for a word divisor (R216, R217). -/
def State.dividend (s : State) : (w : Width) → BitVec (2 * w.bits)
  | .byte => s.reg16 .ax
  | .word => s.reg16 .dx ++ s.reg16 .ax

/-- A double-width result: AX for byte operands, DX:AX for word operands (R213, R214). -/
def State.setProduct (w : Width) (p : BitVec (2 * w.bits)) (s : State) : State :=
  match w, p with
  | .byte, p => s.setReg16 .ax p
  | .word, p => (s.setReg16 .dx (p.extractLsb' 16 16)).setReg16 .ax (p.extractLsb' 0 16)

/-- Quotient and remainder into their registers: AL and AH, or AX and DX (R216, R217). -/
def State.setQuotient (w : Width) (q r : Operand w) (s : State) : State :=
  match w, q, r with
  | .byte, q, r => (s.setReg8 .al q).setReg8 .ah r
  | .word, q, r => (s.setReg16 .ax q).setReg16 .dx r

/-- The end of DIV and IDIV: all six status flags are any value, then the registers are written or type 0 is raised.
-/
def State.finishDivision (w : Width) (out : Division w) (s : State) : State :=
  let s1 := s.setFreeFlags (s.flags.allFree s.freeFlags)
  match out with
  | some (q, r) => s1.setQuotient w q r
  | none => s1.divideError

/-- The least quotient IDIV accepts (D21). -/
def State.idivMin (s : State) : Width → Int
  | .byte => s.params.idivMin8
  | .word => s.params.idivMin16

/-! ## Addition -/

/-- ADD, register form (R201). -/
def execAddRmReg (d : Dir) (w : Width) (r : RegNum) (rm : RM) (s : State) : Result := .next (aluRmReg .add d w r rm s)

/-- ADD r/m, imm (R201). -/
def execAddRmImm (rm : RM) (imm : SImm) (s : State) : Result := .next (aluRmSImm .add rm imm s)

/-- ADD accumulator, imm (R201). -/
def execAddAccImm (imm : Imm) (s : State) : Result := .next (aluAccImm .add imm s)

/-- ADC, register form (R202). -/
def execAdcRmReg (d : Dir) (w : Width) (r : RegNum) (rm : RM) (s : State) : Result := .next (aluRmReg .adc d w r rm s)

/-- ADC r/m, imm (R202). -/
def execAdcRmImm (rm : RM) (imm : SImm) (s : State) : Result := .next (aluRmSImm .adc rm imm s)

/-- ADC accumulator, imm (R202). -/
def execAdcAccImm (imm : Imm) (s : State) : Result := .next (aluAccImm .adc imm s)

/-- INC r/m (R203). -/
def execIncRm (w : Width) (rm : RM) (s : State) : Result :=
  let o := addN (s.readRM w rm) (one w) false
  .next (((s.afterRM w rm).countFlags o).writeRM w rm o.r)

/-- INC reg16 (R203). -/
def execIncReg (r : Reg16) (s : State) : Result :=
  let o := addN (s.reg16 r) 1 false
  .next ((s.countFlags o).setReg16 r o.r)

/-- AAA (R204): two separate byte additions. -/
def execAaa (s : State) : Result :=
  let c := adjustLow (s.reg8 .al) s.flags.AF
  let s1 := if c then (s.setReg8 .al (s.reg8 .al + 6)).setReg8 .ah (s.reg8 .ah + 1) else s
  .next ((s1.setReg8 .al (s1.reg8 .al &&& 0x0F)).setFreeFlags (s.flags.asciiAdjust c s.freeFlags))

/-- DAA (R205); on inputs that are no sum of packed decimals as the pseudocode says (U21, log 18). -/
def execDaa (s : State) : Result :=
  let al := s.reg8 .al
  let lo := adjustLow al s.flags.AF
  let hi := adjustHigh al s.flags.CF
  let r := al + (if lo then 0x06 else 0) + (if hi then 0x60 else 0)
  .next ((s.setReg8 .al r).setFreeFlags (s.flags.decimalAdjust r hi lo s.freeFlags))

/-! ## Subtraction -/

/-- SUB, register form (R206). -/
def execSubRmReg (d : Dir) (w : Width) (r : RegNum) (rm : RM) (s : State) : Result := .next (aluRmReg .sub d w r rm s)

/-- SUB r/m, imm (R206). -/
def execSubRmImm (rm : RM) (imm : SImm) (s : State) : Result := .next (aluRmSImm .sub rm imm s)

/-- SUB accumulator, imm (R206). -/
def execSubAccImm (imm : Imm) (s : State) : Result := .next (aluAccImm .sub imm s)

/-- SBB, register form (R207). -/
def execSbbRmReg (d : Dir) (w : Width) (r : RegNum) (rm : RM) (s : State) : Result := .next (aluRmReg .sbb d w r rm s)

/-- SBB r/m, imm (R207). -/
def execSbbRmImm (rm : RM) (imm : SImm) (s : State) : Result := .next (aluRmSImm .sbb rm imm s)

/-- SBB accumulator, imm (R207). -/
def execSbbAccImm (imm : Imm) (s : State) : Result := .next (aluAccImm .sbb imm s)

/-- DEC r/m (R208). -/
def execDecRm (w : Width) (rm : RM) (s : State) : Result :=
  let o := subN (s.readRM w rm) (one w) false
  .next (((s.afterRM w rm).countFlags o).writeRM w rm o.r)

/-- DEC reg16 (R208). -/
def execDecReg (r : Reg16) (s : State) : Result :=
  let o := subN (s.reg16 r) 1 false
  .next ((s.countFlags o).setReg16 r o.r)

/-- NEG r/m (R209). -/
def execNegRm (w : Width) (rm : RM) (s : State) : Result :=
  let o := subN 0 (s.readRM w rm) false
  .next (((s.afterRM w rm).setFlags (s.flags.arith o)).writeRM w rm o.r)

/-- CMP reg, r/m: reg - r/m (R210, C11). -/
def execCmpRegRm (w : Width) (r : RegNum) (rm : RM) (s : State) : Result := .next (aluRmReg .cmp .toReg w r rm s)

/-- CMP r/m, reg: r/m - reg (R210, C11). -/
def execCmpRmReg (w : Width) (r : RegNum) (rm : RM) (s : State) : Result := .next (aluRmReg .cmp .fromReg w r rm s)

/-- CMP r/m, imm (R210). -/
def execCmpRmImm (rm : RM) (imm : SImm) (s : State) : Result := .next (aluRmSImm .cmp rm imm s)

/-- CMP accumulator, imm (R210). -/
def execCmpAccImm (imm : Imm) (s : State) : Result := .next (aluAccImm .cmp imm s)

/-- AAS (R211): two separate byte subtractions. -/
def execAas (s : State) : Result :=
  let c := adjustLow (s.reg8 .al) s.flags.AF
  let s1 := if c then (s.setReg8 .al (s.reg8 .al - 6)).setReg8 .ah (s.reg8 .ah - 1) else s
  .next ((s1.setReg8 .al (s1.reg8 .al &&& 0x0F)).setFreeFlags (s.flags.asciiAdjust c s.freeFlags))

/-- DAS (R212); on inputs that are no difference of packed decimals as the pseudocode says (U21, log 18). -/
def execDas (s : State) : Result :=
  let al := s.reg8 .al
  let lo := adjustLow al s.flags.AF
  let hi := adjustHigh al s.flags.CF
  let r := al - (if lo then 0x06 else 0) - (if hi then 0x60 else 0)
  .next ((s.setReg8 .al r).setFreeFlags (s.flags.decimalAdjust r hi lo s.freeFlags))

/-! ## Multiplication and division -/

/-- MUL r/m (R213). -/
def execMulRm (w : Width) (rm : RM) (s : State) : Result :=
  let p := (s.acc w).toNat * (s.readRM w rm).toNat
  let f := s.flags.multiply (decide (2 ^ w.bits ≤ p)) s.freeFlags
  .next (((s.afterRM w rm).setProduct w (BitVec.ofNat _ p)).setFreeFlags f)

/-- IMUL r/m (R214): CF and OF say that the product is not the sign extension of its lower half. -/
def execImulRm (w : Width) (rm : RM) (s : State) : Result :=
  let p : BitVec (2 * w.bits) := BitVec.ofInt _ ((s.acc w).toInt * (s.readRM w rm).toInt)
  let c := p != (p.setWidth w.bits).signExtend (2 * w.bits)
  .next (((s.afterRM w rm).setProduct w p).setFreeFlags (s.flags.multiply c s.freeFlags))

/-- AAM (R215). -/
def execAam (s : State) : Result :=
  let al := (s.reg8 .al).toNat
  let r : Byte := BitVec.ofNat 8 (al % 10)
  .next (((s.setReg8 .ah (BitVec.ofNat 8 (al / 10))).setReg8 .al r).setFreeFlags (s.flags.digits r s.freeFlags))

/-- DIV r/m (R216). -/
def execDivRm (w : Width) (rm : RM) (s : State) : Result :=
  .next ((s.afterRM w rm).finishDivision w (divideUnsigned w (s.dividend w).toNat (s.readRM w rm)))

/-- IDIV r/m (R217). -/
def execIdivRm (w : Width) (rm : RM) (s : State) : Result :=
  .next ((s.afterRM w rm).finishDivision w (divideSigned w (s.idivMin w) (s.dividend w).toInt (s.readRM w rm)))

/-- AAD (R218). -/
def execAad (s : State) : Result :=
  let r : Byte := BitVec.ofNat 8 ((s.reg8 .ah).toNat * 10 + (s.reg8 .al).toNat)
  .next (((s.setReg8 .al r).setReg8 .ah 0).setFreeFlags (s.flags.digits r s.freeFlags))

/-! ## Conversions -/

/-- CBW (R219). -/
def execCbw (s : State) : Result := .next (s.setReg16 .ax (signExtend16 (s.reg8 .al)))

/-- CWD (R220). -/
def execCwd (s : State) : Result := .next (s.setReg16 .dx (if (s.reg16 .ax).msb then 0xFFFF else 0))

end Sys2Proof.Machine
end

