-- ==== Sys2Proof/Machine/ControlTransfer.lean ====
section
/-!
DEFINITION. The control transfer instructions (44_control_transfer.md). No flag changes but by INT, INTO and IRET.
-/

namespace Sys2Proof.Machine

/-! ## Shared parts -/

/-- A jump by a signed byte displacement, or nothing (R334): a jump not taken leaves the queue alone (R359). -/
def State.jumpIf (taken : Bool) (disp : Byte) (s : State) : State :=
  if taken then s.jump (s.target (signExtend16 disp)) else s

/-- CX decremented (R351 to R353). -/
def State.countCx (s : State) : State := s.setReg16 .cx (s.reg16 .cx - 1)

/-- CS, then the return offset, pushed (R323, R324). -/
def State.pushFar (s : State) : State := (s.push16 s.segs.cs).push16 s.ip

/-- The intersegment return: IP, then CS popped (R332). -/
def State.farReturn (s : State) : State :=
  let newIp := s.top16
  let s1 := s.dropTop
  (s1.dropTop).jumpFar s1.top16 newIp

/-- SP raised by an immediate (R331, R333). -/
def State.release (n : Word) (s : State) : State := s.setReg16 .sp (s.reg16 .sp + n)

/-! ## CALL -/

/-- CALL direct within segment (R321). -/
def execCallNear (disp : Word) (s : State) : Result := .next ((s.push16 s.ip).jump (s.target disp))

/-- CALL indirect within segment (R322): the target is read before the push. -/
def execCallRm (rm : RM) (s : State) : Result :=
  .next (((s.afterRM .word rm).push16 s.ip).jump (s.readRM .word rm))

/-- CALL direct intersegment (R323). -/
def execCallFar (off sel : Word) (s : State) : Result := .next (s.pushFar.jumpFar sel off)

/-- CALL indirect intersegment (R324): the pointer is read before the pushes. -/
def execCallMem (m : Mem) (s : State) : Result :=
  .next ((s.afterPointer m).pushFar.jumpFar (s.readMemHigh m) (s.readMem .word m))

/-! ## JMP -/

/-- JMP direct within segment (R325). -/
def execJmpNear (disp : Word) (s : State) : Result := .next (s.jump (s.target disp))

/-- JMP direct within segment-short (R326). -/
def execJmpShort (disp : Byte) (s : State) : Result := .next (s.jump (s.target (signExtend16 disp)))

/-- JMP indirect within segment (R327). -/
def execJmpRm (rm : RM) (s : State) : Result := .next ((s.afterRM .word rm).jump (s.readRM .word rm))

/-- JMP direct intersegment (R328). -/
def execJmpFar (off sel : Word) (s : State) : Result := .next (s.jumpFar sel off)

/-- JMP indirect intersegment (R329). -/
def execJmpMem (m : Mem) (s : State) : Result :=
  .next ((s.afterPointer m).jumpFar (s.readMemHigh m) (s.readMem .word m))

/-! ## RET -/

/-- RET within segment (R330). -/
def execRet (s : State) : Result := .next (s.dropTop.jump s.top16)

/-- RET within segment adding immediate to SP (R331). -/
def execRetImm (n : Word) (s : State) : Result := .next ((s.dropTop.jump s.top16).release n)

/-- RET intersegment (R332). -/
def execRetf (s : State) : Result := .next s.farReturn

/-- RET intersegment adding immediate to SP (R333). -/
def execRetfImm (n : Word) (s : State) : Result := .next (s.farReturn.release n)

/-! ## Conditional jumps -/

/-- JO (R335). -/
def execJo (disp : Byte) (s : State) : Result := .next (s.jumpIf (Cond.o.holds s.flags) disp)

/-- JNO (R336). -/
def execJno (disp : Byte) (s : State) : Result := .next (s.jumpIf (Cond.no.holds s.flags) disp)

/-- JB (R337). -/
def execJb (disp : Byte) (s : State) : Result := .next (s.jumpIf (Cond.b.holds s.flags) disp)

/-- JNB (R338). -/
def execJnb (disp : Byte) (s : State) : Result := .next (s.jumpIf (Cond.nb.holds s.flags) disp)

/-- JE (R339). -/
def execJe (disp : Byte) (s : State) : Result := .next (s.jumpIf (Cond.e.holds s.flags) disp)

/-- JNE (R340). -/
def execJne (disp : Byte) (s : State) : Result := .next (s.jumpIf (Cond.ne.holds s.flags) disp)

/-- JBE (R341). -/
def execJbe (disp : Byte) (s : State) : Result := .next (s.jumpIf (Cond.be.holds s.flags) disp)

/-- JNBE (R342). -/
def execJnbe (disp : Byte) (s : State) : Result := .next (s.jumpIf (Cond.nbe.holds s.flags) disp)

/-- JS (R343). -/
def execJs (disp : Byte) (s : State) : Result := .next (s.jumpIf (Cond.s.holds s.flags) disp)

/-- JNS (R344). -/
def execJns (disp : Byte) (s : State) : Result := .next (s.jumpIf (Cond.ns.holds s.flags) disp)

/-- JP (R345). -/
def execJp (disp : Byte) (s : State) : Result := .next (s.jumpIf (Cond.p.holds s.flags) disp)

/-- JNP (R346). -/
def execJnp (disp : Byte) (s : State) : Result := .next (s.jumpIf (Cond.np.holds s.flags) disp)

/-- JL (R347). -/
def execJl (disp : Byte) (s : State) : Result := .next (s.jumpIf (Cond.l.holds s.flags) disp)

/-- JNL (R348). -/
def execJnl (disp : Byte) (s : State) : Result := .next (s.jumpIf (Cond.nl.holds s.flags) disp)

/-- JLE (R349). -/
def execJle (disp : Byte) (s : State) : Result := .next (s.jumpIf (Cond.le.holds s.flags) disp)

/-- JNLE (R350). -/
def execJnle (disp : Byte) (s : State) : Result := .next (s.jumpIf (Cond.nle.holds s.flags) disp)

/-! ## Loops -/

/-- LOOP (R351). -/
def execLoop (disp : Byte) (s : State) : Result :=
  .next (s.countCx.jumpIf (s.countCx.reg16 .cx != 0) disp)

/-- LOOPZ (R352). -/
def execLoopz (disp : Byte) (s : State) : Result :=
  .next (s.countCx.jumpIf (s.countCx.reg16 .cx != 0 && s.flags.ZF) disp)

/-- LOOPNZ (R353). -/
def execLoopnz (disp : Byte) (s : State) : Result :=
  .next (s.countCx.jumpIf (s.countCx.reg16 .cx != 0 && !s.flags.ZF) disp)

/-- JCXZ (R354). -/
def execJcxz (disp : Byte) (s : State) : Result := .next (s.jumpIf (s.reg16 .cx == 0) disp)

/-! ## Software interrupts and return -/

/-- INT type (R355). -/
def execIntType (t : Byte) (s : State) : Result := .next (s.interruptEntry t s.ip)

/-- INT 3, the breakpoint (R356, R406). -/
def execInt3 (s : State) : Result := .next (s.interruptEntry 3 s.ip)

/-- INTO (R357, R407). -/
def execInto (s : State) : Result := .next (if s.flags.OF then s.interruptEntry 4 s.ip else s)

/-- IRET (R358). -/
def execIret (s : State) : Result := .next s.interruptReturn

end Sys2Proof.Machine
end

