-- ==== Sys2Proof/Machine/DataTransfer.lean ====
section
/-!
DEFINITION. The data transfer instructions (40_data_transfer.md). None changes a flag but SAHF and POPF, none raises
an interrupt.
-/

namespace Sys2Proof.Machine

/-! ## Shared parts -/

/-- The value `PUSH SP` stores, `PUSH_SP_VALUE` (R162, D22). -/
def State.pushSpValue (s : State) : Word :=
  match s.params.pushSp with
  | .new => s.reg16 .sp - 2
  | .old => s.reg16 .sp

/-- The value a push of a 16-bit register stores (R161, R162). -/
def State.pushValue (s : State) : Reg16 → Word
  | .sp => s.pushSpValue
  | .ax => s.reg16 .ax
  | .cx => s.reg16 .cx
  | .dx => s.reg16 .dx
  | .bx => s.reg16 .bx
  | .bp => s.reg16 .bp
  | .si => s.reg16 .si
  | .di => s.reg16 .di

/-- A segment register load: the inhibit follows if the part has it (R155, R167, R461, D17). -/
def State.loadSreg (sr : SReg) (v : Word) (s : State) : State :=
  { s.setSreg sr v with inhibit := s.inhibit || s.params.inhibitAfterSegLoad }

/-- The flags SAHF writes from AH (R181). -/
def Flags.storeAh (ah : Byte) (f : Flags) : Flags :=
  { f with SF := ah.getLsbD 7, ZF := ah.getLsbD 6, AF := ah.getLsbD 4, PF := ah.getLsbD 2, CF := ah.getLsbD 0 }

/-! ## MOV -/

/-- MOV r/m, reg or reg, r/m (R150). -/
def execMovRmReg (d : Dir) (w : Width) (r : RegNum) (rm : RM) (s : State) : Result :=
  match d with
  | .fromReg => .next (s.writeRM w rm (s.reg w r))
  | .toReg => .next ((s.afterRM w rm).setReg w r (s.readRM w rm))

/-- MOV r/m, imm (R151). -/
def execMovRmImm (rm : RM) (imm : Imm) (s : State) : Result := .next (s.writeRM imm.width rm imm.val)

/-- MOV reg, imm (R152). -/
def execMovRegImm (r : RegNum) (imm : Imm) (s : State) : Result := .next (s.setReg imm.width r imm.val)

/-- MOV accumulator, [addr] (R153). -/
def execMovAccMem (w : Width) (addr : Word) (s : State) : Result :=
  .next ((s.afterRead w (s.dataSegment .ds) addr).setAcc w (s.readSeg w (s.dataSegment .ds) addr))

/-- MOV [addr], accumulator (R154). -/
def execMovMemAcc (w : Width) (addr : Word) (s : State) : Result :=
  .next (s.writeSeg w (s.dataSegment .ds) addr (s.acc w))

/-- MOV sreg, r/m16 (R155); `MOV CS, r/m` is no instruction (R121, D10). -/
def execMovSregRm (sr : SReg) (rm : RM) (s : State) : Result :=
  match sr with
  | .cs => .refused (.undefinedEncoding .movCs)
  | .es => .next ((s.afterRM .word rm).loadSreg .es (s.readRM .word rm))
  | .ss => .next ((s.afterRM .word rm).loadSreg .ss (s.readRM .word rm))
  | .ds => .next ((s.afterRM .word rm).loadSreg .ds (s.readRM .word rm))

/-- MOV r/m16, sreg (R156). -/
def execMovRmSreg (rm : RM) (sr : SReg) (s : State) : Result := .next (s.writeRM .word rm (s.sreg sr))

/-! ## PUSH, POP -/

/-- PUSH r/m16 (R161). -/
def execPushRm (rm : RM) (s : State) : Result :=
  match rm with
  | .reg r => .next (s.push16 (s.pushValue r.reg16))
  | .mem m => .next ((s.afterMem .word m).push16 (s.readMem .word m))

/-- PUSH reg16 (R162). -/
def execPushReg (r : Reg16) (s : State) : Result := .next (s.push16 (s.pushValue r))

/-- PUSH sreg (R163). -/
def execPushSreg (sr : SReg) (s : State) : Result := .next (s.push16 (s.sreg sr))

/-- POP r/m16 (R165): the operand is written after SP is incremented. -/
def execPopRm (rm : RM) (s : State) : Result := .next (s.dropTop.writeRM .word rm s.top16)

/-- POP reg16 (R166): `POP SP` leaves the word popped. -/
def execPopReg (r : Reg16) (s : State) : Result := .next (s.dropTop.setReg16 r s.top16)

/-- POP sreg (R167); `POP CS` is no instruction (R121, D10). -/
def execPopSreg (sr : SReg) (s : State) : Result :=
  match sr with
  | .cs => .refused (.undefinedEncoding .popCs)
  | .es => .next (s.dropTop.loadSreg .es s.top16)
  | .ss => .next (s.dropTop.loadSreg .ss s.top16)
  | .ds => .next (s.dropTop.loadSreg .ds s.top16)

/-! ## XCHG -/

/-- XCHG r/m, reg (R170). -/
def execXchgRmReg (w : Width) (r : RegNum) (rm : RM) (s : State) : Result :=
  .next (((s.afterRM w rm).writeRM w rm (s.reg w r)).setReg w r (s.readRM w rm))

/-- XCHG AX, reg16 (R171); with AX itself it is NOP (R122). -/
def execXchgAxReg (r : Reg16) (s : State) : Result :=
  .next ((s.setReg16 .ax (s.reg16 r)).setReg16 r (s.reg16 .ax))

/-! ## IN, OUT -/

/-- IN accumulator, port8 (R172). -/
def execInFixed (w : Width) (port : Byte) (s : State) : Result :=
  .next ((s.afterPort w (zeroExtend16 port)).setAcc w (s.readPort w (zeroExtend16 port)))

/-- IN accumulator, DX (R173). -/
def execInVariable (w : Width) (s : State) : Result :=
  .next ((s.afterPort w (s.reg16 .dx)).setAcc w (s.readPort w (s.reg16 .dx)))

/-- OUT port8, accumulator (R174). -/
def execOutFixed (w : Width) (port : Byte) (s : State) : Result :=
  .next (s.writePort w (zeroExtend16 port) (s.acc w))

/-- OUT DX, accumulator (R175). -/
def execOutVariable (w : Width) (s : State) : Result := .next (s.writePort w (s.reg16 .dx) (s.acc w))

/-! ## XLAT, LEA, LDS, LES -/

/-- XLAT (R176). -/
def execXlat (s : State) : Result :=
  let off := s.reg16 .bx + zeroExtend16 (s.reg8 .al)
  .next ((s.afterRead .byte (s.dataSegment .ds) off).setReg8 .al (s.readSeg .byte (s.dataSegment .ds) off))

/-- LEA reg16, mem (R177). -/
def execLea (r : Reg16) (m : Mem) (s : State) : Result := .next (s.setReg16 r (s.ea m))

/-- LDS reg16, mem32 (R178). -/
def execLds (r : Reg16) (m : Mem) (s : State) : Result :=
  .next (((s.afterPointer m).setReg16 r (s.readMem .word m)).setSreg .ds (s.readMemHigh m))

/-- LES reg16, mem32 (R179). -/
def execLes (r : Reg16) (m : Mem) (s : State) : Result :=
  .next (((s.afterPointer m).setReg16 r (s.readMem .word m)).setSreg .es (s.readMemHigh m))

/-! ## Flag transfers -/

/-- LAHF (R180). -/
def execLahf (s : State) : Result := .next (s.setReg8 .ah (lowByte s.flagsWord))

/-- SAHF (R181). -/
def execSahf (s : State) : Result := .next (s.setFlags (s.flags.storeAh (s.reg8 .ah)))

/-- PUSHF (R182). -/
def execPushf (s : State) : Result := .next (s.push16 s.flagsWord)

/-- POPF (R183). -/
def execPopf (s : State) : Result := .next (s.dropTop.setFlags (Flags.ofWord s.top16))

end Sys2Proof.Machine
end

