-- ==== Sys2Proof/Machine/Logic.lean ====
section
/-!
DEFINITION. The logic, shift and rotate instructions (42_logic.md). None raises an interrupt.
-/

namespace Sys2Proof.Machine

/-- NOT r/m (R261): no flag changes. -/
def execNotRm (w : Width) (rm : RM) (s : State) : Result :=
  .next ((s.afterRM w rm).writeRM w rm (~~~(s.readRM w rm)))

/-- SHL = SAL (R262). -/
def execShlRm (v : Count) (w : Width) (rm : RM) (s : State) : Result := .next (shiftRM .shl v w rm s)

/-- SHR (R263). -/
def execShrRm (v : Count) (w : Width) (rm : RM) (s : State) : Result := .next (shiftRM .shr v w rm s)

/-- SAR (R264). -/
def execSarRm (v : Count) (w : Width) (rm : RM) (s : State) : Result := .next (shiftRM .sar v w rm s)

/-- ROL (R265). -/
def execRolRm (v : Count) (w : Width) (rm : RM) (s : State) : Result := .next (shiftRM .rol v w rm s)

/-- ROR (R266). -/
def execRorRm (v : Count) (w : Width) (rm : RM) (s : State) : Result := .next (shiftRM .ror v w rm s)

/-- RCL (R267). -/
def execRclRm (v : Count) (w : Width) (rm : RM) (s : State) : Result := .next (shiftRM .rcl v w rm s)

/-- RCR (R268). -/
def execRcrRm (v : Count) (w : Width) (rm : RM) (s : State) : Result := .next (shiftRM .rcr v w rm s)

/-- AND, register form (R269). -/
def execAndRmReg (d : Dir) (w : Width) (r : RegNum) (rm : RM) (s : State) : Result := .next (aluRmReg .and d w r rm s)

/-- AND r/m, imm (R269). -/
def execAndRmImm (rm : RM) (imm : Imm) (s : State) : Result := .next (aluRmImm .and rm imm s)

/-- AND accumulator, imm (R269). -/
def execAndAccImm (imm : Imm) (s : State) : Result := .next (aluAccImm .and imm s)

/-- TEST r/m, reg (R270): nothing is written. -/
def execTestRmReg (w : Width) (r : RegNum) (rm : RM) (s : State) : Result := .next (aluRmReg .test .fromReg w r rm s)

/-- TEST r/m, imm (R270). -/
def execTestRmImm (rm : RM) (imm : Imm) (s : State) : Result := .next (aluRmImm .test rm imm s)

/-- TEST accumulator, imm (R270). -/
def execTestAccImm (imm : Imm) (s : State) : Result := .next (aluAccImm .test imm s)

/-- OR, register form (R271). -/
def execOrRmReg (d : Dir) (w : Width) (r : RegNum) (rm : RM) (s : State) : Result := .next (aluRmReg .or d w r rm s)

/-- OR r/m, imm (R271). -/
def execOrRmImm (rm : RM) (imm : Imm) (s : State) : Result := .next (aluRmImm .or rm imm s)

/-- OR accumulator, imm (R271). -/
def execOrAccImm (imm : Imm) (s : State) : Result := .next (aluAccImm .or imm s)

/-- XOR, register form (R272). -/
def execXorRmReg (d : Dir) (w : Width) (r : RegNum) (rm : RM) (s : State) : Result := .next (aluRmReg .xor d w r rm s)

/-- XOR r/m, imm (R272). -/
def execXorRmImm (rm : RM) (imm : Imm) (s : State) : Result := .next (aluRmImm .xor rm imm s)

/-- XOR accumulator, imm (R272). -/
def execXorAccImm (imm : Imm) (s : State) : Result := .next (aluAccImm .xor imm s)

end Sys2Proof.Machine
end

