-- ==== Sys2Proof/Machine/ProcessorControl.lean ====
section
/-!
DEFINITION. The processor control instructions and the LOCK and segment override prefixes (45_processor_control.md).
There is no privilege: every program may execute them (R420).
-/

namespace Sys2Proof.Machine

/-- CLC (R380). -/
def execClc (s : State) : Result := .next (s.setFlags { s.flags with CF := false })

/-- CMC (R381). -/
def execCmc (s : State) : Result := .next (s.setFlags { s.flags with CF := !s.flags.CF })

/-- STC (R382). -/
def execStc (s : State) : Result := .next (s.setFlags { s.flags with CF := true })

/-- CLD (R383). -/
def execCld (s : State) : Result := .next (s.setFlags { s.flags with DF := false })

/-- STD (R384). -/
def execStd (s : State) : Result := .next (s.setFlags { s.flags with DF := true })

/-- CLI (R385). -/
def execCli (s : State) : Result := .next (s.setFlags { s.flags with IF := false })

/-- STI (R386): the inhibit follows if IF was 0. -/
def execSti (s : State) : Result :=
  .next { s.setFlags { s.flags with IF := true } with inhibit := s.inhibit || !s.flags.IF }

/-- HLT (R387): the halt cycle is issued. -/
def execHlt (s : State) : Result := .next { s.setBus (s.bus.haltCycle s.view) with run := .halted }

/-- WAIT (R388): with TEST LOW it goes on; with TEST HIGH the processor waits and IP stays at the WAIT. -/
def execWait (s : State) : Result :=
  if s.bus.pins.testHigh then .next { s with run := .waiting s.ip, ip := s.ipStart } else .next s

/-- ESC (R392, D24): the operand word is read and discarded; the six opcode bits are the processor extension's. -/
def execEsc (_hi _lo : RegNum) (rm : RM) (s : State) : Result := .next (s.afterRM .word rm)

/-- LOCK prefix (R393). -/
def execLock (s : State) : Result := .next { s with locked := true }

/-- Segment override prefix (R394); of several the last counts. -/
def execSeg (sr : SReg) (s : State) : Result := .next { s with segOverride := some sr }

end Sys2Proof.Machine
end

