-- ==== Sys2Proof/Machine/Strings.lean ====
section
/-!
DEFINITION. The string instructions and the repeat prefix (43_string.md). One call of a meaning is one element:
under a repeat prefix the machine comes back for the next element without fetching again (R301, R307, log 8).
-/

namespace Sys2Proof.Machine

/-! ## One element -/

/-- MOVS on one element (R302). -/
def movsOnce (w : Width) (s : State) : State :=
  let v := s.readSeg w s.srcSegment (s.reg16 .si)
  let s1 := s.afterRead w s.srcSegment (s.reg16 .si)
  ((s1.writeSeg w .es (s.reg16 .di) v).stepIndex w .si).stepIndex w .di

/-- CMPS on one element: source minus destination (R303). -/
def cmpsOnce (w : Width) (s : State) : State :=
  let a := s.readSeg w s.srcSegment (s.reg16 .si)
  let s1 := s.afterRead w s.srcSegment (s.reg16 .si)
  let b := s1.readSeg w .es (s.reg16 .di)
  let s2 := s1.afterRead w .es (s.reg16 .di)
  ((s2.setFlags (s.flags.arith (subN a b false))).stepIndex w .si).stepIndex w .di

/-- SCAS on one element: accumulator minus destination (R304). -/
def scasOnce (w : Width) (s : State) : State :=
  let b := s.readSeg w .es (s.reg16 .di)
  ((s.afterRead w .es (s.reg16 .di)).setFlags (s.flags.arith (subN (s.acc w) b false))).stepIndex w .di

/-- LODS on one element (R305). -/
def lodsOnce (w : Width) (s : State) : State :=
  let s1 := s.afterRead w s.srcSegment (s.reg16 .si)
  (s1.setAcc w (s.readSeg w s.srcSegment (s.reg16 .si))).stepIndex w .si

/-- STOS on one element (R306). -/
def stosOnce (w : Width) (s : State) : State :=
  (s.writeSeg w .es (s.reg16 .di) (s.acc w)).stepIndex w .di

/-! ## The repeat loop -/

/-- Whether the `z` bit is compared with ZF: CMPS and SCAS only (R301). -/
def comparesZF : StringOp → Bool
  | .cmps | .scas => true
  | .movs | .lods | .stos => false

/-- The loop of R301, one turn: without a repeat prefix the element alone; with one, nothing if CX is 0, else the
element and `CX - 1`. The instruction is done when CX is 0 or, for a comparison, ZF differs from `z`. -/
def repeatString (op : StringOp) (w : Width) (once : State → State) (s : State) : State :=
  match s.rep with
  | none => { once s with run := .running }
  | some z =>
    if s.reg16 .cx = 0 then { s with run := .running }
    else
      let s1 := once s
      let s2 := s1.setReg16 .cx (s1.reg16 .cx - 1)
      if s2.reg16 .cx = 0 ∨ (comparesZF op = true ∧ s2.flags.ZF ≠ z) then { s2 with run := .running }
      else { s2 with run := .repeating op w }

/-- REP, REPE (z = 1), REPNE (z = 0): the prefix byte (R301); of several the last counts. -/
def execRep (z : Bool) (s : State) : Result := .next { s with rep := some z }

/-- MOVS (R302). -/
def execMovs (w : Width) (s : State) : Result := .next (repeatString .movs w (movsOnce w) s)

/-- CMPS (R303). -/
def execCmps (w : Width) (s : State) : Result := .next (repeatString .cmps w (cmpsOnce w) s)

/-- SCAS (R304). -/
def execScas (w : Width) (s : State) : Result := .next (repeatString .scas w (scasOnce w) s)

/-- LODS (R305). -/
def execLods (w : Width) (s : State) : Result := .next (repeatString .lods w (lodsOnce w) s)

/-- STOS (R306). -/
def execStos (w : Width) (s : State) : Result := .next (repeatString .stos w (stosOnce w) s)

end Sys2Proof.Machine
end

