-- ==== Sys2Proof/Machine/Dispatch.lean ====
section
/-!
DEFINITION. The meaning of every instruction: one arm per constructor of `Instr`, each one direct call. `s` is the
state after the fetch, its `ip` at the byte after the instruction (R14, R29).
-/

namespace Sys2Proof.Machine

def exec (i : Instr) (s : State) : Host.Outcome State Fault Refusal :=
  match i with
  | .movRmReg d w r rm => Sys2Proof.Machine.execMovRmReg d w r rm s
  | .movRmImm rm imm => Sys2Proof.Machine.execMovRmImm rm imm s
  | .movRegImm r imm => Sys2Proof.Machine.execMovRegImm r imm s
  | .movAccMem w addr => Sys2Proof.Machine.execMovAccMem w addr s
  | .movMemAcc w addr => Sys2Proof.Machine.execMovMemAcc w addr s
  | .movSregRm sr rm => Sys2Proof.Machine.execMovSregRm sr rm s
  | .movRmSreg rm sr => Sys2Proof.Machine.execMovRmSreg rm sr s
  | .pushRm rm => Sys2Proof.Machine.execPushRm rm s
  | .pushReg r => Sys2Proof.Machine.execPushReg r s
  | .pushSreg sr => Sys2Proof.Machine.execPushSreg sr s
  | .popRm rm => Sys2Proof.Machine.execPopRm rm s
  | .popReg r => Sys2Proof.Machine.execPopReg r s
  | .popSreg sr => Sys2Proof.Machine.execPopSreg sr s
  | .xchgRmReg w r rm => Sys2Proof.Machine.execXchgRmReg w r rm s
  | .xchgAxReg r => Sys2Proof.Machine.execXchgAxReg r s
  | .inFixed w port => Sys2Proof.Machine.execInFixed w port s
  | .inVariable w => Sys2Proof.Machine.execInVariable w s
  | .outFixed w port => Sys2Proof.Machine.execOutFixed w port s
  | .outVariable w => Sys2Proof.Machine.execOutVariable w s
  | .xlat => Sys2Proof.Machine.execXlat s
  | .lea r m => Sys2Proof.Machine.execLea r m s
  | .lds r m => Sys2Proof.Machine.execLds r m s
  | .les r m => Sys2Proof.Machine.execLes r m s
  | .lahf => Sys2Proof.Machine.execLahf s
  | .sahf => Sys2Proof.Machine.execSahf s
  | .pushf => Sys2Proof.Machine.execPushf s
  | .popf => Sys2Proof.Machine.execPopf s
  | .addRmReg d w r rm => Sys2Proof.Machine.execAddRmReg d w r rm s
  | .addRmImm rm imm => Sys2Proof.Machine.execAddRmImm rm imm s
  | .addAccImm imm => Sys2Proof.Machine.execAddAccImm imm s
  | .adcRmReg d w r rm => Sys2Proof.Machine.execAdcRmReg d w r rm s
  | .adcRmImm rm imm => Sys2Proof.Machine.execAdcRmImm rm imm s
  | .adcAccImm imm => Sys2Proof.Machine.execAdcAccImm imm s
  | .incRm w rm => Sys2Proof.Machine.execIncRm w rm s
  | .incReg r => Sys2Proof.Machine.execIncReg r s
  | .aaa => Sys2Proof.Machine.execAaa s
  | .daa => Sys2Proof.Machine.execDaa s
  | .subRmReg d w r rm => Sys2Proof.Machine.execSubRmReg d w r rm s
  | .subRmImm rm imm => Sys2Proof.Machine.execSubRmImm rm imm s
  | .subAccImm imm => Sys2Proof.Machine.execSubAccImm imm s
  | .sbbRmReg d w r rm => Sys2Proof.Machine.execSbbRmReg d w r rm s
  | .sbbRmImm rm imm => Sys2Proof.Machine.execSbbRmImm rm imm s
  | .sbbAccImm imm => Sys2Proof.Machine.execSbbAccImm imm s
  | .decRm w rm => Sys2Proof.Machine.execDecRm w rm s
  | .decReg r => Sys2Proof.Machine.execDecReg r s
  | .negRm w rm => Sys2Proof.Machine.execNegRm w rm s
  | .cmpRegRm w r rm => Sys2Proof.Machine.execCmpRegRm w r rm s
  | .cmpRmReg w r rm => Sys2Proof.Machine.execCmpRmReg w r rm s
  | .cmpRmImm rm imm => Sys2Proof.Machine.execCmpRmImm rm imm s
  | .cmpAccImm imm => Sys2Proof.Machine.execCmpAccImm imm s
  | .aas => Sys2Proof.Machine.execAas s
  | .das => Sys2Proof.Machine.execDas s
  | .mulRm w rm => Sys2Proof.Machine.execMulRm w rm s
  | .imulRm w rm => Sys2Proof.Machine.execImulRm w rm s
  | .aam => Sys2Proof.Machine.execAam s
  | .divRm w rm => Sys2Proof.Machine.execDivRm w rm s
  | .idivRm w rm => Sys2Proof.Machine.execIdivRm w rm s
  | .aad => Sys2Proof.Machine.execAad s
  | .cbw => Sys2Proof.Machine.execCbw s
  | .cwd => Sys2Proof.Machine.execCwd s
  | .notRm w rm => Sys2Proof.Machine.execNotRm w rm s
  | .shlRm v w rm => Sys2Proof.Machine.execShlRm v w rm s
  | .shrRm v w rm => Sys2Proof.Machine.execShrRm v w rm s
  | .sarRm v w rm => Sys2Proof.Machine.execSarRm v w rm s
  | .rolRm v w rm => Sys2Proof.Machine.execRolRm v w rm s
  | .rorRm v w rm => Sys2Proof.Machine.execRorRm v w rm s
  | .rclRm v w rm => Sys2Proof.Machine.execRclRm v w rm s
  | .rcrRm v w rm => Sys2Proof.Machine.execRcrRm v w rm s
  | .andRmReg d w r rm => Sys2Proof.Machine.execAndRmReg d w r rm s
  | .andRmImm rm imm => Sys2Proof.Machine.execAndRmImm rm imm s
  | .andAccImm imm => Sys2Proof.Machine.execAndAccImm imm s
  | .testRmReg w r rm => Sys2Proof.Machine.execTestRmReg w r rm s
  | .testRmImm rm imm => Sys2Proof.Machine.execTestRmImm rm imm s
  | .testAccImm imm => Sys2Proof.Machine.execTestAccImm imm s
  | .orRmReg d w r rm => Sys2Proof.Machine.execOrRmReg d w r rm s
  | .orRmImm rm imm => Sys2Proof.Machine.execOrRmImm rm imm s
  | .orAccImm imm => Sys2Proof.Machine.execOrAccImm imm s
  | .xorRmReg d w r rm => Sys2Proof.Machine.execXorRmReg d w r rm s
  | .xorRmImm rm imm => Sys2Proof.Machine.execXorRmImm rm imm s
  | .xorAccImm imm => Sys2Proof.Machine.execXorAccImm imm s
  | .rep z => Sys2Proof.Machine.execRep z s
  | .movs w => Sys2Proof.Machine.execMovs w s
  | .cmps w => Sys2Proof.Machine.execCmps w s
  | .scas w => Sys2Proof.Machine.execScas w s
  | .lods w => Sys2Proof.Machine.execLods w s
  | .stos w => Sys2Proof.Machine.execStos w s
  | .callNear disp => Sys2Proof.Machine.execCallNear disp s
  | .callRm rm => Sys2Proof.Machine.execCallRm rm s
  | .callFar off sel => Sys2Proof.Machine.execCallFar off sel s
  | .callMem m => Sys2Proof.Machine.execCallMem m s
  | .jmpNear disp => Sys2Proof.Machine.execJmpNear disp s
  | .jmpShort disp => Sys2Proof.Machine.execJmpShort disp s
  | .jmpRm rm => Sys2Proof.Machine.execJmpRm rm s
  | .jmpFar off sel => Sys2Proof.Machine.execJmpFar off sel s
  | .jmpMem m => Sys2Proof.Machine.execJmpMem m s
  | .ret => Sys2Proof.Machine.execRet s
  | .retImm n => Sys2Proof.Machine.execRetImm n s
  | .retf => Sys2Proof.Machine.execRetf s
  | .retfImm n => Sys2Proof.Machine.execRetfImm n s
  | .jo disp => Sys2Proof.Machine.execJo disp s
  | .jno disp => Sys2Proof.Machine.execJno disp s
  | .jb disp => Sys2Proof.Machine.execJb disp s
  | .jnb disp => Sys2Proof.Machine.execJnb disp s
  | .je disp => Sys2Proof.Machine.execJe disp s
  | .jne disp => Sys2Proof.Machine.execJne disp s
  | .jbe disp => Sys2Proof.Machine.execJbe disp s
  | .jnbe disp => Sys2Proof.Machine.execJnbe disp s
  | .js disp => Sys2Proof.Machine.execJs disp s
  | .jns disp => Sys2Proof.Machine.execJns disp s
  | .jp disp => Sys2Proof.Machine.execJp disp s
  | .jnp disp => Sys2Proof.Machine.execJnp disp s
  | .jl disp => Sys2Proof.Machine.execJl disp s
  | .jnl disp => Sys2Proof.Machine.execJnl disp s
  | .jle disp => Sys2Proof.Machine.execJle disp s
  | .jnle disp => Sys2Proof.Machine.execJnle disp s
  | .loop disp => Sys2Proof.Machine.execLoop disp s
  | .loopz disp => Sys2Proof.Machine.execLoopz disp s
  | .loopnz disp => Sys2Proof.Machine.execLoopnz disp s
  | .jcxz disp => Sys2Proof.Machine.execJcxz disp s
  | .intType t => Sys2Proof.Machine.execIntType t s
  | .int3 => Sys2Proof.Machine.execInt3 s
  | .into => Sys2Proof.Machine.execInto s
  | .iret => Sys2Proof.Machine.execIret s
  | .clc => Sys2Proof.Machine.execClc s
  | .cmc => Sys2Proof.Machine.execCmc s
  | .stc => Sys2Proof.Machine.execStc s
  | .cld => Sys2Proof.Machine.execCld s
  | .std => Sys2Proof.Machine.execStd s
  | .cli => Sys2Proof.Machine.execCli s
  | .sti => Sys2Proof.Machine.execSti s
  | .hlt => Sys2Proof.Machine.execHlt s
  | .wait => Sys2Proof.Machine.execWait s
  | .esc hi lo rm => Sys2Proof.Machine.execEsc hi lo rm s
  | .lock => Sys2Proof.Machine.execLock s
  | .seg sr => Sys2Proof.Machine.execSeg sr s

end Sys2Proof.Machine
end

