-- ==== Sys2Proof/Machine/Cycle.lean ====
section
/-!
DEFINITION. What one step does around an instruction: the sample of the outside world, RESET, the fetch through the
prefetch queue, and the interrupt recognition at the end (10_state.md R40 to R50, 60_exceptions.md R413 and R414,
70_reset_and_hazards.md).
-/

namespace Sys2Proof.Machine

/-! ## The outside world (R46, R84, logs 6 and 14) -/

/-- A sampling point between two instructions: the pins, and what other masters do while they have the bus. -/
def State.tick (s : State) : State := s.setBus (s.bus.tick s.view)

/-! ## Reset (R50, R451, R456) -/

/-- The general registers after a RESET pulse: unspecified, so free values (R456, U10, log 12). -/
def State.unspecifiedRegs (s : State) : Regs where
  ax := Config.freeWord s.draws
  cx := Config.freeWord (s.draws + 1)
  dx := Config.freeWord (s.draws + 2)
  bx := Config.freeWord (s.draws + 3)
  sp := Config.freeWord (s.draws + 4)
  bp := Config.freeWord (s.draws + 5)
  si := Config.freeWord (s.draws + 6)
  di := Config.freeWord (s.draws + 7)

/-- The HIGH level of RESET: the instruction in progress is abandoned, the processor is dormant (R451). -/
def State.enterReset (s : State) : State := { s.endPrefixes with run := .inReset, inhibit := false, trap := false }

/-- The end of a step: RESET, if it has come while the step was under way (R450). -/
def State.settle (s : State) : State := if s.bus.pins.reset then s.enterReset else s

/-- The internal reset sequence at the HIGH-to-LOW edge of RESET: the state of R50; memory and the outside world
stay. -/
def State.resetSequence (s : State) : State :=
  { s with
    regs := s.unspecifiedRegs
    segs := { es := 0, cs := 0xFFFF, ss := 0, ds := 0 }
    ip := 0
    flags := ⟨false, false, false, false, false, false, false, false, false⟩
    bus := { s.bus.flush with nmiLatch := false }
    inhibit := false
    run := .running
    locked := false
    segOverride := none
    rep := none
    ipStart := 0
    trap := false
    draws := s.draws + 8 }

/-! ## Recognition (R413, R414) -/

/-- The saved IP of R414: the last prefix byte for a repeated string instruction (`IPop - 1`, R307, D19); otherwise
IP, which while waiting is the WAIT itself (R388). -/
def State.savedIp (s : State) : Word :=
  match s.run with
  | .repeating _ _ => s.ip - 2
  | .running | .halted | .waiting _ | .inReset => s.ip

/-- The physical address of the `k`-th byte at CS:IP. -/
def State.codeAddr (s : State) (k : Nat) : Addr := phys s.segs.cs (s.ip + BitVec.ofNat 16 k)

/-- A waiting processor fetches the WAIT instruction one extra time before it processes an interrupt (R388, log 10).
-/
def State.refetchWait (s : State) : State :=
  match s.run with
  | .waiting next => s.setBus (s.bus.refetch s.view s.codeAddr (next - s.ip).toNat)
  | .running | .repeating _ _ | .halted | .inReset => s

/-- What an interrupt between two instructions begins with: the prefixes of an interrupted string instruction, and its
lock, end (R411), and a WAIT is fetched once more. -/
def State.interrupted (s : State) : State := s.endPrefixes.refetchWait

/-- The acknowledge sequence of INTR (R408, R409). -/
def State.acknowledge (t : Byte) (s : State) : State := s.setBus (s.bus.acknowledge s.view t)

/-- The decision procedure of R413 at a recognition point: an inhibit skips it once (R43); then NMI, INTR,
single-step. -/
def State.recognise (s : State) : State :=
  if s.inhibit then { s with inhibit := false, trap := false }
  else if s.bus.nmiLatch then s.takeNmi.interrupted.interruptEntry 2 s.savedIp
  else
    match s.flags.IF, s.bus.pins.intr with
    | true, some t => (s.interrupted.acknowledge t).interruptEntry t s.savedIp
    | _, _ => if s.trap then s.interrupted.singleStepEntry s.savedIp else { s with trap := false }

/-- Recognition at a sampling point, unless RESET is HIGH. -/
def State.recogniseUnlessReset (s : State) : State := (if s.bus.pins.reset then s else s.recognise).settle

/-- The prefixes and the bus lock end with a finished instruction; between two iterations of a repeated string
instruction and while waiting they stay (R45, R77, R116, R301). -/
def State.endInstruction (s : State) : State :=
  match s.run with
  | .repeating _ _ | .waiting _ => s
  | .running | .halted | .inReset => s.endPrefixes

/-- A halted processor that gives the local bus away, to the masters that have asked for it, issues its halt cycle
again after that (R387, R431). -/
def State.reissueHalt (asked : Requests) (s : State) : State :=
  match s.run with
  | .halted => if s.locked || (asked.rq0.isEmpty && asked.rq1.isEmpty) then s else s.setBus (s.bus.record .halt)
  | .running | .repeating _ _ | .waiting _ | .inReset => s

/-- The end of an instruction or of an element: the pins are sampled once more, in its last clock (R408), and
interrupts are recognised. If RESET has come, it takes effect. -/
def State.finish (s : State) : State :=
  let s1 := s.endInstruction
  ((s1.setBus (s1.bus.start s1.view)).reissueHalt s1.bus.sample.requests).recogniseUnlessReset

/-! ## Fetch (R41, R63, R72, R85, R100, R117) -/

/-- The queued bytes from the `k`-th at CS:IP on, up to the first that is not queued. -/
def State.codeFrom (s : State) : Nat → Nat → List Byte
  | 0, _ => []
  | n + 1, k =>
    match s.bus.copyAt (s.codeAddr k) with
    | some x => x :: s.codeFrom n (k + 1)
    | none => []

/-- The bytes the EU can extract from the queue, at most six (R41). -/
def State.codeBytes (s : State) : List Byte := s.codeFrom 6 0

/-- The bytes of the next instruction are fetched into the queue one after the other, as far as they are not there,
until they are an instruction or none; six are enough (R100). RESET ends this (R450). -/
def State.fetchCode : Nat → State → State
  | 0, s => s
  | n + 1, s =>
    if s.bus.pins.reset then s
    else
      match decode s.codeBytes with
      | .reject .truncated => (s.setBus (s.bus.demand s.view s.codeBytes.length)).fetchCode n
      | _ => s

/-- The state with the next instruction fetched. -/
def State.fetched (s : State) : State := s.fetchCode 6

/-- Whether one of the next `len` code bytes may be stale (D6). -/
def State.isStale (s : State) (len : Nat) : Bool := (List.range len).any fun k => s.bus.stale.contains (s.codeAddr k)

/-- Whether a prefix is in force, so that the next byte continues an instruction already begun. -/
def State.prefixPending (s : State) : Bool := s.locked || s.segOverride.isSome || s.rep.isSome

/-- IP moved past the `len` bytes of an instruction, which leave the queue, `IPstart` and TF noted. -/
def State.advance (len : Nat) (s : State) : State :=
  let passed := fun a => (List.range len).any fun k => a == (s.codeAddr k).toNat
  { s with
    ip := s.ip + BitVec.ofNat 16 len
    ipStart := if s.prefixPending then s.ipStart else s.ip
    bus :=
      { s.bus with
        queue := s.bus.queue.filter fun c => !passed c.1
        stale := s.bus.stale.filter fun a => !passed a.toNat }
    trap := s.flags.TF }

/-- What follows the meaning of an instruction: nothing after a prefix byte (R414), else the end of the instruction.
-/
def afterExec (i : Instr) (s : State) : State := if i.isPrefixByte then s else s.finish

/-- A state change after a step that goes on. -/
def thenState (f : State → State) : Result → Result
  | .next s => .next (f s)
  | .fault r => .fault r
  | .refused r => .refused r

/-- Decode and execute the prefix byte or the instruction that has been fetched. Undefined encodings (R120, R121), a
repeat prefix before no string primitive (R308) and, if the parameter says so, bytes that may be stale (D6) are
refused. -/
def State.runFetched (s : State) : Result :=
  match decode s.codeBytes with
  | .reject e => .refused (.undefinedEncoding e)
  | .ok i rest =>
    let len := s.codeBytes.length - rest.length
    if s.params.queueVisibility = .refuse ∧ s.isStale len = true then .refused .staleCode
    else if s.rep.isSome = true ∧ i.isPrefixByte = false ∧ i.isString = false then .refused .repBeforeNonString
    else thenState (afterExec i) (exec i (s.advance len))

/-- Fetch, decode and execute one prefix byte or one instruction, unless RESET comes during the fetch. -/
def State.runNext (s : State) : Result :=
  if s.fetched.bus.pins.reset then .next s.fetched.enterReset else s.fetched.runFetched

/-! ## One step -/

/-- One step of the processor: a sampling point first. RESET ends everything in progress (R450); a halted or waiting
processor only looks at its pins (R387, R388). A WAIT is executed again while TEST is HIGH, with TF as it is then
(R388, R414). -/
def cycle (s0 : State) : Result :=
  let s := s0.tick
  if s.bus.pins.reset then .next s.enterReset
  else
    match s.run with
    | .inReset => .next s.resetSequence
    | .halted => .next ({ s.reissueHalt s0.bus.sample.requests with trap := false } : State).recogniseUnlessReset
    | .waiting next =>
      if s.bus.pins.testHigh then .next ({ s with trap := s.flags.TF } : State).recogniseUnlessReset
      else .next ({ s with ip := next, run := .running, trap := s.flags.TF } : State).finish
    | .repeating op w => thenState State.finish (exec (op.instr w) { s with trap := s.flags.TF })
    | .running => s.runNext

end Sys2Proof.Machine
end

