-- ==== Sys2Proof/Machine/Step.lean ====
section
/-!
DEFINITION. The step function, and the host's way to place one instruction under it.
-/

namespace Sys2Proof.Machine

/-- One step (`cycle`). -/
def step (s : State) : Host.Outcome State Fault Refusal := cycle s

/-- The state with bytes stored from CS:IP on, in the code segment (R63, R65). -/
def State.storeCode : List Byte → Nat → State → State
  | [], _, s => s
  | b :: bs, k, s =>
    State.storeCode bs (k + 1) (s.setBus { s.bus with mem := s.bus.mem.write (s.codeAddr k).toNat b })

/-- The instruction whose bits the table numbers `w`, stored where the next step fetches: at CS:IP. The step fetches
it if the processor runs, RESET is LOW in the sample it takes, nothing is queued, no prefix is in force, no other
master stores first, and memory is present there (log 20). -/
def State.withFetchWord (s : State) (nbits w : Nat) : State :=
  State.storeCode (tableBytes nbits w) 0
    { s with
      run := .running
      rep := none
      segOverride := none
      locked := false
      params := { s.params with map := [] }
      bus :=
        { s.bus with
          queue := []
          stale := []
          env := []
          requests := Requests.none
          pins := { s.bus.pins with reset := false } } }

end Sys2Proof.Machine
end

