-- ==== Sys2Proof/Safety.lean ====
section
/-!
DEFINITION. What a good state and a good run are, and the terms the statements compare states in.
-/

namespace Sys2Proof.Machine

/-! ## The invariant between steps -/

/-- The run states in which no prefix can be in force: a prefix belongs to the instruction after it (R116), and a
processor that is halted or in reset has none in progress. -/
def RunState.idle : RunState → Bool
  | .halted | .inReset => true
  | .running | .repeating _ _ | .waiting _ => false

/-- Whether a run state is between two iterations of a repeated string instruction (R301). -/
def RunState.isRepeating : RunState → Bool
  | .repeating _ _ => true
  | .running | .waiting _ | .halted | .inReset => false

/-- What holds between two steps: memory is in its canonical form within the 2^20 addresses of R60; the inhibit,
which is valid for one boundary (R43), has been consumed; TF of an instruction in progress is kept only behind a
prefix (R404, R414); a repeated string instruction has its repeat prefix (R301); a halted or resetting processor has
no prefix in force (R116); the processor is in reset exactly while RESET is HIGH (R450, R451). -/
structure State.Inv (s : State) : Prop where
  memory : s.bus.mem.wf = true
  inhibit : s.inhibit = false
  trap : s.trap = true → s.prefixPending = true
  repeated : s.run.isRepeating = true → s.rep.isSome = true
  idle : s.run.idle = true → s.prefixPending = false
  reset : s.bus.pins.reset = true ↔ s.run = .inReset

/-! ## Safe runs -/

/-- A run of `k` steps meets no refusal (there are no faults). -/
def SafeFor : Nat → State → Prop
  | 0, _ => True
  | k + 1, s => ∃ t, step s = .next t ∧ SafeFor k t

/-! ## Comparing states -/

/-- The hidden state of the processor no instruction rule mentions unless it says so, with the parameters. -/
structure Control where
  inhibit : Bool
  run : RunState
  locked : Bool
  segOverride : Option SReg
  rep : Option Bool
  ipStart : Word
  trap : Bool
  params : Params
  deriving DecidableEq, Repr

/-- That part of a state. -/
def State.control (s : State) : Control where
  inhibit := s.inhibit
  run := s.run
  locked := s.locked
  segOverride := s.segOverride
  rep := s.rep
  ipStart := s.ipStart
  trap := s.trap
  params := s.params

/-- Segment registers, IP and the hidden state as before. -/
def SameFlow (s t : State) : Prop := t.segs = s.segs ∧ t.ip = s.ip ∧ t.control = s.control

/-- The prefixes and the bus lock of the instruction in progress are over (R45, R77, R116). -/
def unprefixed (s : State) : State := { s with segOverride := none, rep := none, locked := false }

/-- The processor is in reset: what was in progress is abandoned, the registers are still as they were (R451). -/
def intoReset (s : State) : State := { unprefixed s with run := .inReset, inhibit := false, trap := false }

/-- Whether the local bus is given away at a sampling point: it is asked for and not locked (R84). -/
def givesBusAway (s : State) : Bool :=
  !s.locked && (!s.bus.sample.requests.rq0.isEmpty || !s.bus.sample.requests.rq1.isEmpty)

/-! ## The bus, and what comes from outside

What an instruction does to memory depends on what other masters and RESET do while it runs. The statements say it twice: for
every environment, by the bus cycles the instruction runs, in order (`t.bus` is the bus after them); and, when nothing comes from
outside while it runs, byte by byte. -/

/-- Nothing comes from outside while an instruction runs: no sample, no request of another master, RESET LOW. -/
structure Still (s : State) : Prop where
  env : s.bus.env = []
  requests : s.bus.requests = Requests.none
  reset : s.bus.pins.reset = false

/-- Nothing comes from outside, and all memory is RAM. -/
structure Quiet (s : State) : Prop extends Still s where
  map : s.params.map = []

/-- All that other masters ask for at a sampling point, in the order in which it is granted: RQ/GT0 first (R84). -/
def asked (x : Sample) : List MasterCycle := x.requests.rq0 ++ x.requests.rq1 ++ x.requests.system

/-- What a byte of memory that held `old` holds after cycles of other masters: the last store to it counts. -/
def afterMasters (l : List MasterCycle) (a : Addr) (old : Byte) : Byte :=
  l.foldl (fun x c => match c with | .write (.mem b) v => if b = a then v else x | _ => x) old

/-- The same cycles in the record, the last first. -/
def masterLog (l : List MasterCycle) : List BusCycle := (l.map BusCycle.master).reverse

/-- The record without the instruction fetches, which come among the other cycles at times no rule fixes (R80). -/
def withoutFetches (l : List BusCycle) : List BusCycle :=
  l.filter fun c => match c with | .fetch _ _ => false | _ => true

/-- The bus after the first `n` bytes at CS:IP have been fetched once more, each at a sampling point of its own, none
once RESET has come, and not queued (R388). -/
def refetched (s : State) : Nat → Bus
  | 0 => s.bus
  | n + 1 =>
    let b := (refetched s n).start s.view
    let a := phys s.segs.cs (s.ip + BitVec.ofNat 16 n)
    if b.pins.reset then b
    else { b.found s.view (.mem a) with log := .fetch a (.byte (b.find s.view (.mem a))) :: b.log }

/-- What is interrupted between two instructions gives up its prefixes and its lock (R411); a waiting processor
fetches the WAIT instruction, its prefixes included, one extra time (R388, log 10). -/
def interruptedAt (s : State) : State :=
  match s.run with
  | .waiting next => { unprefixed s with bus := refetched (unprefixed s) (next - s.ip).toNat }
  | .running | .repeating _ _ | .halted | .inReset => unprefixed s

/-- The bus where the processor leaves the instructions that follow: until then they may be fetched ahead, and other
masters come in (R73, R80, log 6); then the queue is empty (R359). -/
def leaving (s : State) : Bus := { s.bus.start s.view with queue := [], stale := [] }

/-- The physical addresses of the `w` bytes at an offset of a segment (R63, R65). -/
def storeAddrs (seg off : Word) : Width → List Addr
  | .byte => [phys seg off]
  | .word => [phys seg off, phys seg (off + 1)]

/-- The operand memory holds at an offset of a segment, its high byte at the next offset modulo 2^16 (R65, R66). -/
def heldAt (s : State) (w : Width) (seg off : Word) : Operand w :=
  match w with
  | .byte => s.readByte (phys seg off)
  | .word => joinBytes (s.readByte (phys seg (off + 1))) (s.readByte (phys seg off))

/-- The cycles of an access to `v` at an offset of a segment, the last first: one, or for a word at an odd address
two on one byte each, the low byte first (R68). -/
def cyclesOf (mk : Option SReg → Location → Transfer → BusCycle) (s : State) (w : Width) (sr : SReg) (off : Word)
    (v : Operand w) : List BusCycle :=
  let lo := phys (s.sreg sr) off
  match w, v with
  | .byte, v => [mk (some sr) (.mem lo) (.byte v)]
  | .word, v =>
    if lo.toNat % 2 = 0 then [mk (some sr) (.mem lo) (.word v)]
    else [mk (some sr) (.mem (phys (s.sreg sr) (off + 1))) (.byte (highByte v)), mk (some sr) (.mem lo) (.byte (lowByte v))]

/-- From `s` to `t` the bus has only read: it is the bus of `u`, the state after the reads; in quiet, every byte of
memory reads as before and nothing else of the bus has changed but the record of cycles. -/
def OnlyRead (u s t : State) : Prop :=
  t.bus = u.bus ∧
  (Quiet s → (∀ a, t.readByte a = s.readByte a) ∧ t.bus = { s.bus with log := t.bus.log })

/-- From `s`, after the reads that lead to `u`, an operand has been stored: in quiet, the operand at the offset of
the segment is `v`, and every byte outside it reads as in `s`. -/
def Stored (w : Width) (sr : SReg) (off : Word) (v : Operand w) (u s t : State) : Prop :=
  t.bus = (u.writeSeg w sr off v).bus ∧
  (Quiet s → heldAt t w (s.sreg sr) off = v ∧ ∀ a, a ∉ storeAddrs (s.sreg sr) off w → t.readByte a = s.readByte a)

/-- Every 16-bit register but one as before. -/
def OtherReg16 (r : Reg16) (s t : State) : Prop := ∀ q, q ≠ r → t.reg16 q = s.reg16 q

/-- Every register but one 8-bit register as before: the other seven 8-bit ones, and SP, BP, SI, DI (R22). -/
def OtherReg8 (r : Reg8) (s t : State) : Prop :=
  (∀ q, q ≠ r → t.reg8 q = s.reg8 q) ∧
  t.reg16 .sp = s.reg16 .sp ∧ t.reg16 .bp = s.reg16 .bp ∧ t.reg16 .si = s.reg16 .si ∧ t.reg16 .di = s.reg16 .di

/-- Every register outside `reg_w[r]` as before. -/
def OtherReg (w : Width) (r : RegNum) (s t : State) : Prop :=
  match w with
  | .byte => OtherReg8 r.reg8 s t
  | .word => OtherReg16 r.reg16 s t

/-- The register `reg_w[r]` holds `v`, no other general register has changed, and the bus has only read. -/
def WroteReg (w : Width) (r : RegNum) (v : Operand w) (u s t : State) : Prop :=
  t.reg w r = v ∧ OtherReg w r s t ∧ OnlyRead u s t

/-- The register-or-memory operand holds `v`, and of the general registers and memory nothing else has changed since
`s`; the address is the one computed in `s` (R108, R128, R129); `u` is the state after the operand was read, or `s`
itself. -/
def WroteRM (w : Width) (rm : RM) (v : Operand w) (u s t : State) : Prop :=
  match rm with
  | .reg r => WroteReg w r v u s t
  | .mem m => t.regs = s.regs ∧ Stored w (s.segRm m) (s.ea m) v u s t

/-- General registers as before, and the bus has only read. -/
def Untouched (u s t : State) : Prop := t.regs = s.regs ∧ OnlyRead u s t

/-- TF, IF and DF as before (R31). -/
def SameControlFlags (f g : Flags) : Prop := g.TF = f.TF ∧ g.IF = f.IF ∧ g.DF = f.DF

/-- SF, ZF and PF of a result (R15). -/
def ResultFlags {n : Nat} (r : BitVec n) (g : Flags) : Prop :=
  g.SF = r.msb ∧ g.ZF = decide (r = 0) ∧ g.PF = parity8 (r.setWidth 8)

/-! ## Arithmetic in the integers (R15, R221) -/

/-- Whether an integer is no signed `n`-bit number. -/
def outOfRange (n : Nat) (x : Int) : Bool := decide (x < -2 ^ (n - 1) ∨ 2 ^ (n - 1) ≤ x)

/-- `r` and the flags but CF are those of `a + b + c`. -/
def IsSum {n : Nat} (a b : BitVec n) (c : Bool) (r : BitVec n) (g : Flags) : Prop :=
  r.toNat = (a.toNat + b.toNat + c.toNat) % 2 ^ n ∧
  g.AF = decide (16 ≤ a.toNat % 16 + b.toNat % 16 + c.toNat) ∧
  g.OF = outOfRange n (a.toInt + b.toInt + c.toNat) ∧ ResultFlags r g

/-- `r` and the flags but CF are those of `a - b - c`. -/
def IsDiff {n : Nat} (a b : BitVec n) (c : Bool) (r : BitVec n) (g : Flags) : Prop :=
  (r.toNat : Int) = ((a.toNat : Int) - b.toNat - c.toNat) % 2 ^ n ∧
  g.AF = decide (a.toNat % 16 < b.toNat % 16 + c.toNat) ∧
  g.OF = outOfRange n (a.toInt - b.toInt - c.toNat) ∧ ResultFlags r g

/-- A relation between `dst`, `src`, the flags before, the result and the flags after. -/
abbrev AluRel := (w : Width) → Operand w → Operand w → Flags → Operand w → Flags → Prop

/-- ADD and ADC, by the carry they add (R201, R202). -/
def SumRel (carry : Flags → Bool) : AluRel := fun w a b f r g =>
  IsSum a b (carry f) r g ∧ g.CF = decide (2 ^ w.bits ≤ a.toNat + b.toNat + (carry f).toNat) ∧ SameControlFlags f g

/-- SUB, SBB and CMP, by the borrow they subtract (R206, R207, R210). -/
def DiffRel (borrow : Flags → Bool) : AluRel := fun _ a b f r g =>
  IsDiff a b (borrow f) r g ∧ g.CF = decide (a.toNat < b.toNat + (borrow f).toNat) ∧ SameControlFlags f g

/-- AND, OR, XOR and TEST, by the operation on each bit (R269 to R272); nothing is said of AF. -/
def LogicRel (bit : Bool → Bool → Bool) : AluRel := fun _ a b f r g =>
  (∀ i, i < 16 → r.getLsbD i = (bit (a.getLsbD i) (b.getLsbD i))) ∧ g.CF = false ∧ g.OF = false ∧ ResultFlags r g ∧
    SameControlFlags f g

/-- The form `RM_R` completes with the result of `rel` in `dst`; nothing else changes but the flags (R127, R200). -/
def RmRegForm (mk : Dir → Width → RegNum → RM → Instr) (rel : AluRel) : Prop :=
  ∀ d w r rm s, ∃ t v, exec (mk d w r rm) s = .next t ∧ SameFlow s t ∧
    match d with
    | .fromReg => rel w (s.readRM w rm) (s.reg w r) s.flags v t.flags ∧ WroteRM w rm v (s.afterRM w rm) s t
    | .toReg => rel w (s.reg w r) (s.readRM w rm) s.flags v t.flags ∧ WroteReg w r v (s.afterRM w rm) s t

/-- The form `RM_IMM` with an `s` bit. -/
def RmSImmForm (mk : RM → SImm → Instr) (rel : AluRel) : Prop :=
  ∀ rm imm s, ∃ t v, exec (mk rm imm) s = .next t ∧ SameFlow s t ∧
    rel imm.width (s.readRM imm.width rm) imm.val s.flags v t.flags ∧
      WroteRM imm.width rm v (s.afterRM imm.width rm) s t

/-- The form `RM_IMM` without an `s` bit. -/
def RmImmForm (mk : RM → Imm → Instr) (rel : AluRel) : Prop :=
  ∀ rm imm s, ∃ t v, exec (mk rm imm) s = .next t ∧ SameFlow s t ∧
    rel imm.width (s.readRM imm.width rm) imm.val s.flags v t.flags ∧
      WroteRM imm.width rm v (s.afterRM imm.width rm) s t

/-- The form `ACC_IMM`: `dst` is AL or AX. -/
def AccImmForm (mk : Imm → Instr) (rel : AluRel) : Prop :=
  ∀ imm s, ∃ t v, exec (mk imm) s = .next t ∧ SameFlow s t ∧
    rel imm.width (s.reg imm.width .r000) imm.val s.flags v t.flags ∧ WroteReg imm.width .r000 v s s t

/-- An instruction that only sets flags from two values: it completes, and writes no register and no memory; `u` is
the state after its operand was read. -/
def FlagsOnly (i : Instr) (rel : AluRel) (w : Width) (a b : Operand w) (u s : State) : Prop :=
  ∃ t v, exec i s = .next t ∧ SameFlow s t ∧ Untouched u s t ∧ rel w a b s.flags v t.flags

/-- AAA with `sign` 1 and AAS with `sign` -1 (R204, R211): AL corrected to a digit and AH moved by one where the low
digit is above 9 or AF is set, in two separate byte operations; AF and CF say whether; nothing is said of OF, SF, ZF
and PF. -/
def AsciiAdjusted (sign : Int) (s t : State) : Prop :=
  SameFlow s t ∧ t.bus = s.bus ∧ OtherReg16 .ax s t ∧ SameControlFlags s.flags t.flags ∧
  if 9 < (s.reg8 .al).toNat % 16 ∨ s.flags.AF = true then
    ((t.reg8 .al).toNat : Int) = ((s.reg8 .al).toNat + sign * 6) % 16 ∧
    ((t.reg8 .ah).toNat : Int) = ((s.reg8 .ah).toNat + sign) % 256 ∧ t.flags.AF = true ∧ t.flags.CF = true
  else
    (t.reg8 .al).toNat = (s.reg8 .al).toNat % 16 ∧ t.reg8 .ah = s.reg8 .ah ∧ t.flags.AF = false ∧ t.flags.CF = false

/-- DAA with `sign` 1 and DAS with `sign` -1 (R205, R212): AL moved by 6 where the low digit is above 9 or AF is
set, and by 60H where AL was above 99H or CF was set; nothing is said of OF. -/
def DecimalAdjusted (sign : Int) (s t : State) : Prop :=
  let lo := decide (9 < (s.reg8 .al).toNat % 16) || s.flags.AF
  let hi := decide (0x99 < (s.reg8 .al).toNat) || s.flags.CF
  SameFlow s t ∧ t.bus = s.bus ∧ OtherReg8 .al s t ∧ SameControlFlags s.flags t.flags ∧
  ((t.reg8 .al).toNat : Int) =
    ((s.reg8 .al).toNat + sign * ((if lo then 0x06 else 0) + (if hi then 0x60 else 0))) % 256 ∧
  t.flags.AF = lo ∧ t.flags.CF = hi ∧ ResultFlags (t.reg8 .al) t.flags

/-- A byte that holds two decimal digits. -/
def IsPacked (b : Byte) : Prop := b.toNat / 16 ≤ 9 ∧ b.toNat % 16 ≤ 9

/-- The number two packed digits stand for. -/
def packedValue (b : Byte) : Nat := b.toNat / 16 * 10 + b.toNat % 16

/-! ## Input and output (R172 to R175) -/

/-- The bytes the devices answer at a port and the next, as far as they are scripted (log 13). -/
def Answers (w : Width) (port : Word) (s : State) (v : Operand w) : Prop :=
  match w, v with
  | .byte, v => ∀ x rest, s.bus.answers = (.port port, x) :: rest → v = x
  | .word, v => ∀ lo hi rest, s.bus.answers = (.port port, lo) :: (.port (port + 1), hi) :: rest → v = joinBytes hi lo

/-- The cycles of an access to a port, the last first (R61, R68, D28). -/
def portCyclesOf (mk : Option SReg → Location → Transfer → BusCycle) (w : Width) (port : Word) (v : Operand w) :
    List BusCycle :=
  match w, v with
  | .byte, v => [mk none (.port port) (.byte v)]
  | .word, v =>
    if port.toNat % 2 = 0 then [mk none (.port port) (.word v)]
    else [mk none (.port (port + 1)) (.byte (highByte v)), mk none (.port port) (.byte (lowByte v))]

/-- The accumulator has taken what the devices at the port answer, low byte first; memory has not changed; nothing
is said of an answer that is not scripted. -/
def InputDone (w : Width) (port : Word) (s t : State) : Prop :=
  SameFlow s t ∧ t.flags = s.flags ∧ t.reg w .r000 = s.readPort w port ∧ OtherReg w .r000 s t ∧
  t.bus = (s.afterPort w port).bus ∧
  (Still s → Answers w port s (s.readPort w port) ∧ (∀ a, t.readByte a = s.readByte a) ∧
    t.bus = { s.bus with
      answers := t.bus.answers
      draws := t.bus.draws
      log := portCyclesOf .read w port (s.readPort w port) ++ s.bus.log })

/-- The accumulator has been written to a port; nothing else has changed but the record of cycles. -/
def OutputDone (w : Width) (port : Word) (s t : State) : Prop :=
  SameFlow s t ∧ t.flags = s.flags ∧ t.regs = s.regs ∧ t.bus = (s.writePort w port (s.reg w .r000)).bus ∧
  (Still s → t.bus = { s.bus with log := portCyclesOf .write w port (s.reg w .r000) ++ s.bus.log })

/-! ## The stack (R160, R164) -/

/-- A word has been pushed: SP is 2 lower and the word is stored at the new SS:SP; nothing else has changed. -/
def Pushed (v : Word) (u s t : State) : Prop :=
  t.reg16 .sp = s.reg16 .sp - 2 ∧ OtherReg16 .sp s t ∧ Stored .word .ss (s.reg16 .sp - 2) v u s t

/-- The state after `k` pops, one word at a time. -/
def afterPops (s : State) : Nat → State
  | 0 => s
  | k + 1 =>
    let u := afterPops s k
    { u with regs := { u.regs with sp := u.regs.sp + 2 }, bus := (u.afterRead .word .ss u.regs.sp).bus }

/-- The word the pop after `k` pops reads. -/
def stackWord (s : State) (k : Nat) : Word := (afterPops s k).readSeg .word .ss (afterPops s k).regs.sp

/-- Two words have been pushed, `first` and below it `second`; nothing else has changed. -/
def PushedTwo (first second : Word) (u s t : State) : Prop :=
  t.reg16 .sp = s.reg16 .sp - 4 ∧ OtherReg16 .sp s t ∧ t.bus = ((u.push16 first).push16 second).bus ∧
  (Quiet s → heldAt t .word s.segs.ss (s.reg16 .sp - 2) = first ∧ heldAt t .word s.segs.ss (s.reg16 .sp - 4) = second ∧
    ∀ a, a ∉ storeAddrs s.segs.ss (s.reg16 .sp - 2) .word → a ∉ storeAddrs s.segs.ss (s.reg16 .sp - 4) .word →
      t.readByte a = s.readByte a)

/-- `k` words have been popped and SP moved up by `by_`; nothing else of the general registers and memory has
changed. -/
def Popped (k : Nat) (by_ : Word) (s t : State) : Prop :=
  t.reg16 .sp = s.reg16 .sp + by_ ∧ OtherReg16 .sp s t ∧ OnlyRead (afterPops s k) s t

/-! ## Interrupts (R410) -/

/-- The addresses of the six bytes an interrupt entry pushes. -/
def frameAddrs (s : State) : List Addr :=
  storeAddrs s.segs.ss (s.reg16 .sp - 2) .word ++ storeAddrs s.segs.ss (s.reg16 .sp - 4) .word ++
    storeAddrs s.segs.ss (s.reg16 .sp - 6) .word

/-- The state after the three pushes of an entry, for what the bus does next. -/
def afterFrame (saved : Word) (s : State) : State := ((s.push16 s.flagsWord).push16 s.segs.cs).push16 saved

/-- Steps 1 to 6 of R410, from the state before to the state after: the frame pushed, IF and TF cleared, IP and then
CS read from the vector entry (any values where the stack meets the entry, U13), the queue emptied after a last moment
for fetches ahead (R73); nothing else. -/
def InterruptTaken (ty : Byte) (saved : Word) (s t : State) : Prop :=
  let f := afterFrame saved s
  let g := f.afterVector (vectorAddr ty)
  (t.reg16 .sp = s.reg16 .sp - 6 ∧ OtherReg16 .sp s t) ∧
  (s.stackMeetsVector ty = false →
    t.ip = f.readVector (vectorAddr ty) ∧ t.segs.cs = g.readVector (vectorAddr ty + 2)) ∧
  (t.segs.es = s.segs.es ∧ t.segs.ss = s.segs.ss ∧ t.segs.ds = s.segs.ds) ∧
  t.flags = { s.flags with IF := false, TF := false } ∧
  t.control = { s.control with run := .running, locked := false, segOverride := none, rep := none, trap := false } ∧
  t.bus = leaving (g.afterVector (vectorAddr ty + 2)) ∧
  (Quiet s →
    (heldAt t .word s.segs.ss (s.reg16 .sp - 2) = s.flagsWord ∧ heldAt t .word s.segs.ss (s.reg16 .sp - 4) = s.segs.cs ∧
      heldAt t .word s.segs.ss (s.reg16 .sp - 6) = saved ∧ ∀ a, a ∉ frameAddrs s → t.readByte a = s.readByte a) ∧
    (s.stackMeetsVector ty = false →
      t.ip = s.readPhysWord (vectorAddr ty) ∧ t.segs.cs = s.readPhysWord (vectorAddr ty + 2)))

/-- All of R410: after steps 1 to 6 a latched NMI, or else TF as it was, preempts the routine before its first
instruction, by an entry of its own. -/
inductive InterruptSequence : Byte → Word → State → State → Prop where
  | nmi {ty : Byte} {saved : Word} {s m t : State} : InterruptTaken ty saved s m → m.bus.nmiLatch = true →
      InterruptSequence 2 m.ip { m with bus := { m.bus with nmiLatch := false } } t → InterruptSequence ty saved s t
  | step {ty : Byte} {saved : Word} {s m t : State} : InterruptTaken ty saved s m → m.bus.nmiLatch = false →
      s.flags.TF = true → InterruptSequence 1 m.ip m t → InterruptSequence ty saved s t
  | done {ty : Byte} {saved : Word} {s t : State} : InterruptTaken ty saved s t → t.bus.nmiLatch = false →
      s.flags.TF = false → InterruptSequence ty saved s t

/-- The single-step entry of R413: its own TF calls for no second one, an NMI does. -/
def SingleStepTaken (saved : Word) (s t : State) : Prop :=
  ∃ m, InterruptTaken 1 saved s m ∧
    if m.bus.nmiLatch then InterruptSequence 2 m.ip { m with bus := { m.bus with nmiLatch := false } } t else t = m

/-- The divide error (R216, R217, R403, D18), after the operand has been read, which leads to `u`: the registers are
unchanged, the six status flags are any value. That `current` names the first prefix byte is log 17. -/
def DivideErrorTaken (u s t : State) : Prop :=
  ∃ f, SameControlFlags s.flags f ∧
    InterruptSequence 0 (match s.params.divideErrorSavedIp with | .next => s.ip | .current => s.ipStart)
      { u with flags := f } t

/-! ## Shifts and strings (R273, R300) -/

/-- The count of a shift or rotate: 1, or CL unreduced. -/
def countOf (s : State) : Count → Nat
  | .one => 1
  | .cl => (s.reg8 .cl).toNat

/-- What is common to the shifts (R262 to R264): the operand is read, and with count 0 nothing else is done; else it
becomes `x`, CF is `cf`, SF, ZF and PF are those of `x`, and for count 1 OF is `ov`. -/
def Shifted (i : Instr) (v : Count) (w : Width) (rm : RM) (s : State) (x : Operand w) (cf ov : Bool) : Prop :=
  ∃ t, exec i s = .next t ∧ SameFlow s t ∧
    if countOf s v = 0 then t.flags = s.flags ∧ Untouched (s.afterRM w rm) s t
    else WroteRM w rm x (s.afterRM w rm) s t ∧ t.flags.CF = cf ∧ ResultFlags x t.flags ∧
      SameControlFlags s.flags t.flags ∧ (countOf s v = 1 → t.flags.OF = ov)

/-- What is common to the rotates (R265 to R268): as for the shifts, but SF, ZF, AF and PF are unchanged. -/
def Rotated (i : Instr) (v : Count) (w : Width) (rm : RM) (s : State) (x : Operand w) (cf ov : Bool) : Prop :=
  ∃ t, exec i s = .next t ∧ SameFlow s t ∧
    if countOf s v = 0 then t.flags = s.flags ∧ Untouched (s.afterRM w rm) s t
    else WroteRM w rm x (s.afterRM w rm) s t ∧ t.flags = { s.flags with CF := cf, OF := t.flags.OF } ∧
      (countOf s v = 1 → t.flags.OF = ov)

/-- `+n` or `-n` by DF (R300). -/
def elementStep (s : State) (w : Width) : Word :=
  if s.flags.DF then -BitVec.ofNat 16 (w.bits / 8) else BitVec.ofNat 16 (w.bits / 8)

/-- The segment register of the source side: DS, or the override's (R300). -/
def sourceSegment (s : State) : SReg := s.segOverride.getD .ds

/-- The element at SI that a string instruction reads first (R300). -/
def sourceElement (s : State) (w : Width) : Operand w := s.readSeg w (sourceSegment s) (s.reg16 .si)

/-- The state after that read. -/
def afterSource (s : State) (w : Width) : State := s.afterRead w (sourceSegment s) (s.reg16 .si)

/-- Segment registers, IP and all hidden state but the run state as before: a string instruction that is done. -/
def StringDone (s t : State) : Prop := t.segs = s.segs ∧ t.ip = s.ip ∧ t.control = { s.control with run := .running }

/-! ## Control transfers (R320, R359) -/

/-- Only CS and IP have changed since `s`, but for the reads that lead to `u` and what comes before the queue is
emptied. -/
def WentFar (sel off : Word) (u s t : State) : Prop :=
  t.ip = off ∧ t.segs = { s.segs with cs := sel } ∧ t.regs = s.regs ∧ t.flags = s.flags ∧ t.control = s.control ∧
  t.bus = leaving u ∧ (Quiet s → ∀ a, t.readByte a = s.readByte a)

/-- Only IP has changed. -/
def WentTo (off : Word) (u s t : State) : Prop := WentFar s.segs.cs off u s t

/-- A conditional jump: to the target if `taken`, with the queue emptied, else to the next instruction. -/
def Branched (taken : Bool) (disp : Byte) (s t : State) : Prop :=
  if taken then WentTo (s.ip + disp.signExtend 16) s s t else t = s

/-- After the stack traffic that leads to `m`, IP and CS are those given and the queue is empty; nothing else has
changed. -/
def LeftFor (sel off : Word) (m t : State) : Prop :=
  t = { m with ip := off, segs := { m.segs with cs := sel }, bus := leaving m }

/-! ## Which instructions may change what (R222) -/

/-- The last row of R222: the instructions that change no flag. -/
def changesNoFlag : Instr → Bool
  | .movRmReg .. | .movRmImm .. | .movRegImm .. | .movAccMem .. | .movMemAcc .. | .movSregRm .. | .movRmSreg .. => true
  | .pushRm .. | .pushReg .. | .pushSreg .. | .popRm .. | .popReg .. | .popSreg .. | .pushf => true
  | .xchgRmReg .. | .xchgAxReg .. | .inFixed .. | .inVariable .. | .outFixed .. | .outVariable .. => true
  | .xlat | .lea .. | .lds .. | .les .. | .lahf | .cbw | .cwd | .notRm .. => true
  | .rep .. | .movs .. | .lods .. | .stos .. => true
  | .callNear .. | .callRm .. | .callFar .. | .callMem .. => true
  | .jmpNear .. | .jmpShort .. | .jmpRm .. | .jmpFar .. | .jmpMem .. => true
  | .ret | .retImm .. | .retf | .retfImm .. => true
  | .jo .. | .jno .. | .jb .. | .jnb .. | .je .. | .jne .. | .jbe .. | .jnbe .. => true
  | .js .. | .jns .. | .jp .. | .jnp .. | .jl .. | .jnl .. | .jle .. | .jnle .. => true
  | .loop .. | .loopz .. | .loopnz .. | .jcxz .. => true
  | .hlt | .wait | .esc .. | .lock | .seg .. => true
  | _ => false

/-- The instructions that load all nine flags from memory (R183, R358). -/
def loadsFlags : Instr → Bool
  | .popf | .iret => true
  | _ => false

/-- The instructions that may enter an interrupt (R400). -/
def mayInterrupt : Instr → Bool
  | .intType .. | .int3 | .into | .divRm .. | .idivRm .. => true
  | _ => false

/-- The instructions that set or clear IF by name (R385, R386). -/
def setsIF : Instr → Bool
  | .cli | .sti => true
  | _ => false

/-- The instructions that set or clear DF by name (R383, R384). -/
def setsDF : Instr → Bool
  | .cld | .std => true
  | _ => false

/-- The instructions that load CS (R26): intersegment transfers, interrupts and their return. -/
def loadsCs : Instr → Bool
  | .callFar .. | .callMem .. | .jmpFar .. | .jmpMem .. | .retf | .retfImm .. | .iret => true
  | i => mayInterrupt i

/-- The instructions that load SS (R155, R167). -/
def loadsSs : Instr → Bool
  | .movSregRm .ss _ | .popSreg .ss => true
  | _ => false

/-- Whether an operand is in memory. -/
def inMemory : RM → Bool
  | .reg _ => false
  | .mem _ => true

/-- The instructions that reach the I/O space (R37, R61). -/
def reachesPorts : Instr → Bool
  | .inFixed .. | .inVariable .. | .outFixed .. | .outVariable .. => true
  | _ => false

/-- The instructions that may run a bus cycle: those with an operand in memory, at a port or on the stack, the string
instructions, interrupts, HLT, and the control transfers, before which instructions may be fetched ahead. -/
def usesBus : Instr → Bool
  | .movRmReg _ _ _ rm | .movRmImm rm _ | .movSregRm _ rm | .movRmSreg rm _ | .xchgRmReg _ _ rm => inMemory rm
  | .addRmReg _ _ _ rm | .adcRmReg _ _ _ rm | .subRmReg _ _ _ rm | .sbbRmReg _ _ _ rm => inMemory rm
  | .andRmReg _ _ _ rm | .orRmReg _ _ _ rm | .xorRmReg _ _ _ rm | .testRmReg _ _ rm => inMemory rm
  | .addRmImm rm _ | .adcRmImm rm _ | .subRmImm rm _ | .sbbRmImm rm _ | .cmpRmImm rm _ => inMemory rm
  | .andRmImm rm _ | .orRmImm rm _ | .xorRmImm rm _ | .testRmImm rm _ => inMemory rm
  | .cmpRegRm _ _ rm | .cmpRmReg _ _ rm | .incRm _ rm | .decRm _ rm | .negRm _ rm | .notRm _ rm => inMemory rm
  | .mulRm _ rm | .imulRm _ rm | .esc _ _ rm => inMemory rm
  | .shlRm _ _ rm | .shrRm _ _ rm | .sarRm _ _ rm => inMemory rm
  | .rolRm _ _ rm | .rorRm _ _ rm | .rclRm _ _ rm | .rcrRm _ _ rm => inMemory rm
  | .movAccMem .. | .movMemAcc .. | .xlat | .lds .. | .les .. => true
  | .pushRm .. | .pushReg .. | .pushSreg .. | .pushf | .popRm .. | .popReg .. | .popSreg .. | .popf => true
  | .movs .. | .cmps .. | .scas .. | .lods .. | .stos .. => true
  | .callNear .. | .callRm .. | .callFar .. | .callMem .. => true
  | .jmpNear .. | .jmpShort .. | .jmpRm .. | .jmpFar .. | .jmpMem .. => true
  | .jo .. | .jno .. | .jb .. | .jnb .. | .je .. | .jne .. | .jbe .. | .jnbe .. => true
  | .js .. | .jns .. | .jp .. | .jnp .. | .jl .. | .jnl .. | .jle .. | .jnle .. => true
  | .loop .. | .loopz .. | .loopnz .. | .jcxz .. => true
  | .ret | .retImm .. | .retf | .retfImm .. | .iret | .hlt => true
  | i => mayInterrupt i || reachesPorts i

/-- Whether a cycle is one of the processor's on a port. -/
def BusCycle.onPort : BusCycle → Bool
  | .read _ (.port _) _ | .write _ (.port _) _ => true
  | .read _ (.mem _) _ | .write _ (.mem _) _ | .acknowledge _ | .halt | .master _ | .fetch _ _ => false

end Sys2Proof.Machine
end

