-- ==== Sys2Proof/Certificates/Slice0/Obligations.lean ====
section
/-!
DEFINITION. The statements for the provers, from the numbered rules of spec/. The terms they use (`SameFlow`,
`WroteRM`, `Stored`, `InterruptSequence` and so on) are in Safety.lean. Every statement about an instruction says
that it completes, what it writes, and that nothing else changes. What an instruction does to memory is said twice:
by the bus after the cycles it runs, in any environment, and byte by byte when nothing comes from outside (`Quiet`).
-/

open Sys2Proof Sys2Proof.Machine

/-! ## Reset, the step, and the invariant -/

/-- After reset execution begins at physical FFFF0H (R452). That CS is FFFFH and IP 0000H there is the spec's own
decision (D7), not its source's. -/
def Obligations.ResetEntryPoint : Prop :=
  State.reset.segs.cs = 0xFFFF ∧ State.reset.ip = 0x0000 ∧ State.reset.codeAddr 0 = 0xFFFF0 ∧
  ∀ s : State, s.resetSequence.segs.cs = 0xFFFF ∧ s.resetSequence.ip = 0x0000 ∧ s.resetSequence.codeAddr 0 = 0xFFFF0

/-- The invariant holds after reset. -/
def Obligations.ResetSatisfiesInvariant : Prop := State.reset.Inv

/-- Every step keeps the invariant `State.Inv`: the canonical form of memory, the inhibit consumed at its boundary,
TF of an instruction kept only behind a prefix, a repeat prefix in force while a string instruction repeats, none in
force in a halted or resetting processor, and the processor in reset exactly while RESET is HIGH; and no step
changes a parameter of R7. -/
def Obligations.StepKeepsInvariant : Prop :=
  ∀ s t : State, step s = .next t → (s.Inv → t.Inv) ∧ t.params = s.params

/-- RESET (R450, R451): while it is HIGH the processor is dormant, nothing but its run state and what was in
progress changes; when it is LOW again, the state of R50. The sample of RESET that opens a step, and what other
masters do first, is log 6. -/
def Obligations.ResetPulse : Prop :=
  ∀ s : State,
    let u := s.tick
    (u.bus.pins.reset = true → step s = .next (intoReset u)) ∧
    (u.bus.pins.reset = false → s.run = .inReset → ∃ t, step s = .next t ∧ t.run = .running ∧
      t.segs = { es := 0, cs := 0xFFFF, ss := 0, ds := 0 } ∧ t.ip = 0 ∧
      t.flags = ⟨false, false, false, false, false, false, false, false, false⟩ ∧
      t.inhibit = false ∧ t.locked = false ∧ t.segOverride = none ∧ t.rep = none ∧ t.trap = false ∧
      t.bus = { u.bus with queue := [], stale := [], nmiLatch := false })

/-- RESET takes effect at once, not at an instruction boundary (R450, R451, R456, U17). A step in which RESET comes
ends in reset, with nothing in progress left. From then on the processor runs no cycle: its reads change nothing,
its writes change no byte but those they were to write, and nothing is recorded. An instruction cut between the two
cycles of a word at an odd address has written its low byte, and only that cycle is in the record, among instruction
fetches. That the rest of the word is then any value is log 12. -/
def Obligations.ResetDuringInstruction : Prop :=
  (∀ s t : State, step s = .next t → t.bus.pins.reset = true → t.run = .inReset ∧ t = intoReset t) ∧
  (∀ (b : Bus) (v : View) (w : Width) (x : Access) (u : Operand w), b.pins.reset = true →
    b.afterRead v w x = { b with draws := (b.afterRead v w x).draws } ∧
    let c := b.write v w x u
    c = { b with mem := c.mem, draws := c.draws } ∧
      ∀ a, .mem a ≠ x.lo → (w = .word → .mem a ≠ x.hi) → c.readByte a = b.readByte a) ∧
  ∀ (s : State) (off : Word) (x y : Sample),
    let lo := phys (s.sreg (s.segOverride.getD .ds)) off
    let hi := phys (s.sreg (s.segOverride.getD .ds)) (off + 1)
    s.bus.pins.reset = false → s.bus.requests = Requests.none → s.params.map = [] → s.bus.env = [x, y] →
    x.requests = Requests.none → y.requests = Requests.none → x.fetch = none → x.pins.reset = false →
    y.pins.reset = true → lo.toNat % 2 = 1 →
    ∃ t, exec (.movMemAcc .word off) s = .next t ∧ t.bus.pins.reset = true ∧ t.readByte lo = s.reg8 .al ∧
      (∀ a, a ≠ lo → a ≠ hi → t.readByte a = s.readByte a) ∧
      withoutFetches t.bus.log =
        .write (some (s.segOverride.getD .ds)) (.mem lo) (.byte (s.reg8 .al)) :: withoutFetches s.bus.log

/-- A running processor fetches the next instruction; RESET, if it has come by then, takes effect (R450). When the
bytes fetched are those of `i`, the step is the meaning of `i` after IP has moved past them, with `IPstart` at the
first prefix byte (R14) and TF at the start noted (R404), followed by nothing for a prefix byte (R414) and by the
end of the instruction otherwise. There the prefixes and the lock end, but for a repeating or waiting instruction
(R45, R77, R116, R393); the outside world is sampled once more; interrupts are recognised (R414); and RESET, if it
has come, takes effect (R450). The fetch of R117; what it fetches is the statement FetchAndStoredCode. That a prefix
byte is a step of its own is log 7; the sampling at the start and the end of a step, and the cycles other masters
then run, are logs 6 and 14. -/
def Obligations.StepRunsDecodedInstruction : Prop :=
  (∀ s : State, s.run = .running → s.tick.fetched.bus.pins.reset = true → step s = .next (intoReset s.tick.fetched)) ∧
  (∀ (s : State) (i : Instr) (rest : List Byte),
    let u := s.tick.fetched
    let len := u.codeBytes.length - rest.length
    let v := u.advance len
    u.bus.pins.reset = false → s.run = .running → decode u.codeBytes = .ok i rest →
    (u.params.queueVisibility = .refuse → u.isStale len = false) →
    (u.rep.isSome = true → i.isPrefixByte = true ∨ i.isString = true) →
    step s = thenState (fun t => if i.isPrefixByte then t else t.finish) (exec i v) ∧
    u = { s with bus := u.bus } ∧ v.ip = s.ip + BitVec.ofNat 16 len ∧ v.regs = s.regs ∧ v.segs = s.segs ∧
    v.flags = s.flags ∧
    v.control = { s.control with ipStart := if s.prefixPending then s.ipStart else s.ip, trap := s.flags.TF } ∧
    v.bus = { u.bus with queue := v.bus.queue, stale := v.bus.stale } ∧
    (∀ c, c ∈ v.bus.queue ↔ c ∈ u.bus.queue ∧ ∀ k, k < len → c.1 ≠ (s.codeAddr k).toNat) ∧
    ∀ a, a ∈ v.bus.stale ↔ a ∈ u.bus.stale ∧ ∀ k, k < len → a ≠ s.codeAddr k) ∧
  ∀ s : State,
    let e := match s.run with
      | .repeating _ _ | .waiting _ => s
      | .running | .halted | .inReset => unprefixed s
    let a : State := { e with bus := e.bus.start e.view }
    let h : State :=
      if s.run = .halted ∧ givesBusAway e = true ∧ a.bus.pins.reset = false then
        { a with bus := { a.bus with log := .halt :: a.bus.log } }
      else a
    (h.bus.pins.reset = true → s.finish = intoReset h) ∧
    (h.bus.pins.reset = false →
      s.finish = if h.recognise.bus.pins.reset then intoReset h.recognise else h.recognise)

/-- Bytes that are no instruction are refused, by the decoder's reason: among them each of the 22 first bytes with
no row, and 0FH, whatever follows (R120, R121). A repeat prefix before an instruction that is no string primitive is
refused (R308), and so, under `QUEUE_VISIBILITY = refuse`, is an instruction a byte of which may be a stale copy
(D6). -/
def Obligations.StepRefusesUndefined : Prop :=
  ((∀ b : Byte, b ∈ ([0x60, 0x61, 0x62, 0x63, 0x64, 0x65, 0x66, 0x67, 0x68, 0x69, 0x6A, 0x6B, 0x6C, 0x6D, 0x6E, 0x6F,
      0xC0, 0xC1, 0xC8, 0xC9, 0xD6, 0xF1] : List Byte) →
    ∀ rest, decode (b :: rest) = .reject (.undefinedOpcode b)) ∧
    ∀ rest, decode (0x0F :: rest) = .reject .popCs) ∧
  ∀ s : State,
    let u := s.tick.fetched
    u.bus.pins.reset = false → s.run = .running →
    (∀ e, decode u.codeBytes = .reject e → step s = .refused (.undefinedEncoding e)) ∧
    ∀ i rest, decode u.codeBytes = .ok i rest →
      let stale := ∃ k, k < u.codeBytes.length - rest.length ∧ s.codeAddr k ∈ u.bus.stale
      (u.params.queueVisibility = .refuse → stale → step s = .refused .staleCode) ∧
      ((u.params.queueVisibility = .refuse → ¬stale) → u.rep.isSome = true → i.isPrefixByte = false →
        i.isString = false → step s = .refused .repBeforeNonString)

/-- Instruction fetch and the queue (R41, R72, R73, R80, R85, R460). A fetch is a bus cycle that reads one code byte,
or an aligned word where the queue has room for both bytes, into the queue, from memory or from a device, whose answer
it uses up. When nothing comes from outside and nothing is queued, the step fetches exactly the bytes of the
instruction at CS:IP, each in a cycle of its own, and these are the bytes it decodes; a byte already queued it
decodes as it was fetched. A store changes no queued copy; to a byte not queued, the old byte may turn out to have
been fetched before the store if it is one of the next six and there is a queue, and is seen as new otherwise; where
a program that executes such a byte is refused, the byte is marked (D6). A store of another master does the same; of
several, served together, all fetches come before the first (R84). That fetches come byte by byte unless the environment
says otherwise, and that old or new is chosen at the store, is log 9. -/
def Obligations.FetchAndStoredCode : Prop :=
  (∀ (b : Bus) (v : View) (w : Width) (k : Nat),
    let lo := v.codeAt k
    let hi := v.codeAt (k + 1)
    let c := b.fetch v w k
    c = { b with queue := c.queue, answers := c.answers, draws := c.draws, log := c.log } ∧
    (w = .byte ∨ lo.toNat % 2 = 1 ∨ 5 ≤ k ∨ b.isQueued hi = true →
      ∃ x, c.queue = b.queue ++ [(lo.toNat, x)] ∧ c.log = .fetch lo (.byte x) :: b.log ∧
        match v.presence lo with
        | .ram | .rom => x = b.readByte lo ∧ c.answers = b.answers
        | .device => ∀ y rest, b.answers = (.mem lo, y) :: rest → x = y ∧ c.answers = rest) ∧
    (w = .word → lo.toNat % 2 = 0 → k < 5 → b.isQueued hi = false →
      ∃ x y, c.queue = b.queue ++ [(lo.toNat, x), (hi.toNat, y)] ∧
        c.log = .fetch lo (.word (joinBytes y x)) :: b.log ∧
        (v.params.map = [] → x = b.readByte lo ∧ y = b.readByte hi ∧ c.answers = b.answers))) ∧
  (∀ (s : State) (i : Instr), Quiet s → s.run = .running → s.bus.queue = [] → i.wf = true →
    (∀ k x, (encode i)[k]? = some x → s.readByte (s.codeAddr k) = x) →
    let held := fun k => s.readByte (s.codeAddr k)
    let places := List.range (encode i).length
    s.fetched.codeBytes = encode i ∧
    s.fetched = { s with bus := { s.bus with
      queue := places.map fun k => ((s.codeAddr k).toNat, held k)
      log := (places.map fun k => BusCycle.fetch (s.codeAddr k) (.byte (held k))).reverse ++ s.bus.log } }) ∧
  (∀ (s : State) (k : Nat) (x : Byte), s.codeBytes[k]? = some x → s.bus.copyAt (s.codeAddr k) = some x) ∧
  (∀ (b : Bus) (v : View) (a : Addr) (x : Byte), v.presence a = .ram →
    b.serve v [.write (.mem a) x] =
      { b.storeByte v a x with log := .master (.write (.mem a) x) :: (b.storeByte v a x).log }) ∧
  (∀ (b : Bus) (v : View) (l : List MasterCycle) (a : Addr),
    let t := b.serve v l
    (∀ y, b.copyAt a = some y → t.copyAt a = some y) ∧
    (b.copyAt a = none → t.copyAt a = none ∨ t.copyAt a = some (b.readByte a)) ∧
    ∃ f, t.log = masterLog l ++ (f ++ b.log) ∧ ∀ c, c ∈ f → ∃ a x, c = .fetch a (.byte x)) ∧
  ∀ (s : State) (a : Addr) (x : Byte),
    let t := s.setBus (s.bus.storeByte s.view a x)
    t.readByte a = x ∧ (∀ c y, s.bus.copyAt c = some y → t.bus.copyAt c = some y) ∧
    (∀ c, c ≠ a → t.bus.copyAt c = s.bus.copyAt c) ∧
    (s.bus.copyAt a = none →
      (t.bus.copyAt a = none ∨
        t.bus.copyAt a = some (s.readByte a) ∧ t.bus.log = .fetch a (.byte (s.readByte a)) :: s.bus.log) ∧
      ((∀ k, k < 6 → s.view.codeAt k ≠ a) ∨ s.params.queueVisibility = .alwaysNew → t.bus.copyAt a = none)) ∧
    (s.params.queueVisibility = .refuse → s.fetching = true → s.bus.pins.reset = false →
      (∃ k, k < 6 ∧ s.view.codeAt k = a) → x ≠ s.readByte a → a ∈ t.bus.stale)

/-! ## The outside world -/

/-- What comes from outside (R42, R46, R405), and when. A sample gives the pin levels and adds to the requests of other
masters; NMI is latched by its LOW-to-HIGH edge, so that a level held HIGH does not latch it again, and stays
latched; without samples the levels stay. A step begins with a sample, and so does every bus cycle inside an
instruction until RESET has come; a word at an odd address and the acknowledge sequence take a second one between
their two cycles. A transfer of control takes one before it empties the queue, with the instructions that follow it
still ahead. Where a sample asks for an instruction fetch and the queue has room, the fetch is run and the next
sample taken. That these are the sampling points is log 6, that the bus may be released at each is R84 and log 14,
and that the samples say when instructions are fetched ahead is log 9. -/
def Obligations.Sampling : Prop :=
  (∀ (b : Bus) (x : Sample) (rest : List Sample),
    (b.env = x :: rest → b.sample =
      { b with
        pins := x.pins
        env := rest
        nmiLatch := b.nmiLatch || (x.pins.nmi && !b.pins.nmi)
        requests :=
          ⟨b.requests.rq0 ++ x.requests.rq0, b.requests.rq1 ++ x.requests.rq1, b.requests.system ++ x.requests.system⟩ }) ∧
    (b.env = [] → b.sample = b)) ∧
  (∀ (b : Bus) (v : View),
    let r := b.sample.grant v
    let room := fun k => k < 6 ∧ r.isQueued (v.codeAt k) = false ∧ ∀ j, j < k → r.isQueued (v.codeAt j) = true
    (∀ x rest w k, b.env = x :: rest → x.fetch = some w → v.fetching = true → r.pins.reset = false →
      v.params.queueVisibility ≠ .alwaysNew → room k → b.tick v = (r.fetch v w k).tick v) ∧
    ((∀ x rest, b.env = x :: rest → x.fetch = none) ∨ v.fetching = false ∨ r.pins.reset = true ∨
      v.params.queueVisibility = .alwaysNew ∨ (∀ k, ¬room k) → b.tick v = r)) ∧
  (∀ (b : Bus) (v : View),
    (b.pins.reset = false → b.start v = b.tick v ∧ b.between v = b.sample.grantSystem v) ∧
    (b.pins.reset = true → b.start v = b ∧ b.between v = b)) ∧
  (∀ (b : Bus) (v : View) (x : Access) (u : Byte) (k : Nat),
    let b1 := b.start v
    b.read v .byte x = b1.take v x.lo ∧
    b.afterRead v .byte x = (b1.taken v x.lo).record (.read x.seg x.lo (.byte (b1.take v x.lo))) ∧
    b.write v .byte x u = (b1.give v x.lo u).record (.write x.seg x.lo (.byte u)) ∧
    b.demand v k = if b1.pins.reset = true ∨ b1.isQueued (v.codeAt k) = true then b1 else b1.fetch v .byte k) ∧
  (∀ (b : Bus) (v : View) (x : Access) (u : Word),
    let b1 := b.start v
    let lo := b1.take v x.lo
    let r := b1.taken v x.lo
    let r2 := (r.record (.read x.seg x.lo (.byte lo))).between v
    let g := b1.give v x.lo (lowByte u)
    let g2 := (g.record (.write x.seg x.lo (.byte (lowByte u)))).between v
    (x.lo.isOdd = false →
      b.read v .word x = joinBytes (r.take v x.hi) lo ∧
      b.afterRead v .word x = (r.taken v x.hi).record (.read x.seg x.lo (.word (joinBytes (r.take v x.hi) lo))) ∧
      b.write v .word x u = (g.give v x.hi (highByte u)).record (.write x.seg x.lo (.word u))) ∧
    (x.lo.isOdd = true →
      b.read v .word x = joinBytes (r2.take v x.hi) lo ∧
      b.afterRead v .word x = (r2.taken v x.hi).record (.read x.seg x.hi (.byte (r2.take v x.hi))) ∧
      b.write v .word x u = (g2.give v x.hi (highByte u)).record (.write x.seg x.hi (.byte (highByte u))))) ∧
  (∀ (b : Bus) (v : View) (w : Width) (x : Access) (u : Operand w) (ty : Byte), b.pins.reset = false →
    (∀ y, y ∈ b.env → y.fetch = none ∧ y.pins.reset = false) →
    let n := if w = .word ∧ x.lo.isOdd = true then 2 else 1
    (b.afterRead v w x).env = b.env.drop n ∧ (b.write v w x u).env = b.env.drop n ∧
      (b.haltCycle v).env = b.env.drop 1 ∧ (b.acknowledge v ty).env = b.env.drop 2) ∧
  (∀ (s : State) (off sel : Word),
    (s.jump off).bus = { s.bus.start s.view with queue := [], stale := [] } ∧ (s.jumpFar sel off).bus = (s.jump off).bus) ∧
  ∀ s : State,
    let t := s.tick
    t = { s with bus := s.bus.tick s.view } ∧
    (t.bus.pins.reset = true → step s = .next (intoReset t)) ∧
    (t.bus.pins.reset = false →
      (s.run = .inReset → step s = .next t.resetSequence) ∧
      (s.run = .halted → step s =
        .next ({ t.reissueHalt s.bus.sample.requests with trap := false } : State).recogniseUnlessReset) ∧
      (∀ next, s.run = .waiting next → step s = .next (if t.bus.pins.testHigh
        then ({ t with trap := s.flags.TF } : State).recogniseUnlessReset
        else ({ t with ip := next, run := .running, trap := s.flags.TF } : State).finish)) ∧
      (∀ op w, s.run = .repeating op w → step s =
        thenState State.finish (exec (op.instr w) { t with trap := s.flags.TF })) ∧
      (s.run = .running → step s = t.runNext)) ∧
    ∀ n, s.bus.pins.reset = false → decode s.codeBytes = .reject .truncated → s.fetchCode (n + 1) =
      ({ s with bus := s.bus.demand s.view s.codeBytes.length } : State).fetchCode n

/-- The bus cycles of other masters (R82, R84, R393): under the lock they wait, recorded; without it they are done,
those asked for through RQ/GT0 first; where memory is all RAM, each store changes its byte, the later one to a byte
counting, and every other byte stays; the pins, the samples and the latch stay; the record has them in order, with no
cycle of the processor between them, only instruction fetches before the first (R84, log 9). Between the two cycles of
one access only masters of the system bus come in (R71). Nothing is said here of answers and draws, which reads use up,
or of the queue and its marks, which stores may add to. That a request is served whole, and the processor then goes
on, is log 14. -/
def Obligations.LockHoldsOffOtherMasters : Prop :=
  ∀ (b : Bus) (v : View),
    (v.locked = true → b.grant v = b ∧ b.grantSystem v = b) ∧
    (v.locked = false →
      let all := b.requests.rq0 ++ b.requests.rq1 ++ b.requests.system
      let t := b.grant v
      (∃ f, t.log = masterLog all ++ (f ++ b.log) ∧ withoutFetches f = []) ∧ t.requests = Requests.none ∧
        t.pins = b.pins ∧ t.env = b.env ∧ t.nmiLatch = b.nmiLatch ∧ (v.params.map = [] → ∀ a, t.readByte a = afterMasters all a (b.readByte a))) ∧
    (v.locked = false →
      let t := b.grantSystem v
      (∃ f, t.log = masterLog b.requests.system ++ (f ++ b.log) ∧ withoutFetches f = []) ∧
        t.requests = { b.requests with system := [] } ∧ t.pins = b.pins ∧ t.env = b.env ∧ t.nmiLatch = b.nmiLatch ∧
        (v.params.map = [] → ∀ a, t.readByte a = afterMasters b.requests.system a (b.readByte a)))

/-- No instruction is atomic by itself (R71, R80, R83, R84, D33). Other masters come in between the read and the
write of an unlocked XCHG, and between the two words LDS reads, and the record has all cycles in one order; under
the lock they wait and the exchange is whole. An aligned word is read at one moment; a word at an odd address in two
cycles, between which only masters of the system bus come in. -/
def Obligations.Interleaving : Prop :=
  ∀ (s : State) (x y : Sample), s.bus.pins.reset = false → s.bus.requests = Requests.none → s.params.map = [] →
    s.bus.env = [x, y] → x.pins.reset = false → y.pins.reset = false → x.fetch = none → y.fetch = none →
    (∀ r m, ∃ t, exec (.xchgRmReg .byte r (.mem m)) s = .next t ∧
      let a := phys (s.sreg (s.segRm m)) (s.ea m)
      t.readByte a = s.reg8 r.reg8 ∧
      if s.locked = true then
        t.reg8 r.reg8 = s.readByte a ∧ (∀ c, c ≠ a → t.readByte c = s.readByte c) ∧
        t.bus.requests = ⟨x.requests.rq0 ++ y.requests.rq0, x.requests.rq1 ++ y.requests.rq1,
          x.requests.system ++ y.requests.system⟩ ∧
        withoutFetches t.bus.log = .write (some (s.segRm m)) (.mem a) (.byte (s.reg8 r.reg8)) ::
          .read (some (s.segRm m)) (.mem a) (.byte (s.readByte a)) :: withoutFetches s.bus.log
      else
        let old := afterMasters (asked x) a (s.readByte a)
        t.reg8 r.reg8 = old ∧
        (∀ c, c ≠ a → t.readByte c = afterMasters (asked y) c (afterMasters (asked x) c (s.readByte c))) ∧
        withoutFetches t.bus.log = .write (some (s.segRm m)) (.mem a) (.byte (s.reg8 r.reg8)) :: (masterLog (asked y) ++
          .read (some (s.segRm m)) (.mem a) (.byte old) :: (masterLog (asked x) ++ withoutFetches s.bus.log))) ∧
    (s.locked = false → ∀ r m,
      let at_ := fun d : Word => phys (s.sreg (s.segRm m)) (s.ea m + d)
      (at_ 0).toNat % 2 = 0 → (at_ 2).toNat % 2 = 0 →
      ∃ t, exec (.lds r m) s = .next t ∧
        let first := fun a => afterMasters (asked x) a (s.readByte a)
        let second := fun a => afterMasters (asked y) a (first a)
        t.reg16 r = joinBytes (first (at_ 1)) (first (at_ 0)) ∧ t.segs.ds = joinBytes (second (at_ 3)) (second (at_ 2))) ∧
    (s.locked = false → ∀ sr off,
      let lo := phys (s.sreg sr) off
      let hi := phys (s.sreg sr) (off + 1)
      let first := fun a => afterMasters (asked x) a (s.readByte a)
      (lo.toNat % 2 = 0 → s.readSeg .word sr off = joinBytes (first hi) (first lo) ∧
        (s.afterRead .word sr off).bus.env = [y]) ∧
      (lo.toNat % 2 = 1 →
        s.readSeg .word sr off = joinBytes (afterMasters y.requests.system hi (first hi)) (first lo) ∧
        (s.afterRead .word sr off).bus.requests = { y.requests with system := [] }))

/-- What is present at an address (R60, R78, R417, U15): the first region of the platform's map that holds it, RAM
if none does (log 13). No access raises an interrupt. A write to a ROM, to a device or to nothing leaves memory as
it was; a read there of a device takes the device's answer, where one is scripted, and leaves memory alone; where
none is, nothing is said of the value. -/
def Obligations.Platform : Prop :=
  (∀ (v : View) (a : Addr), (v.params.map = [] → v.presence a = .ram) ∧
    ∀ r rest, v.params.map = r :: rest → v.presence a =
      if r.base ≤ a.toNat ∧ a.toNat < r.base + r.size then r.kind
      else View.presence { v with params := { v.params with map := rest } } a) ∧
  ∀ (s : State) (sr : SReg) (off : Word) (u : Byte), Still s →
    let a := phys (s.sreg sr) off
    let r := s.afterRead .byte sr off
    let t := s.writeSeg .byte sr off u
    (∀ c, r.readByte c = s.readByte c) ∧
    r.bus.log = .read (some sr) (.mem a) (.byte (s.readSeg .byte sr off)) :: s.bus.log ∧
    withoutFetches t.bus.log = .write (some sr) (.mem a) (.byte u) :: withoutFetches s.bus.log ∧
    t.bus.answers = s.bus.answers ∧
    (∀ c, c ≠ a → t.readByte c = s.readByte c) ∧
    match s.view.presence a with
    | .ram => s.readSeg .byte sr off = s.readByte a ∧ r.bus.answers = s.bus.answers ∧ t.readByte a = u
    | .rom => s.readSeg .byte sr off = s.readByte a ∧ r.bus.answers = s.bus.answers ∧ t.bus.mem = s.bus.mem
    | .device => t.bus.mem = s.bus.mem ∧ ∀ v rest, s.bus.answers = (.mem a, v) :: rest →
        s.readSeg .byte sr off = v ∧ r.bus.answers = rest

/-- The status lines in the cycles the model records (R34, R76, R79): S4 and S3 are the code of the segment register
that formed the address, 00 ES, 01 SS, 10 CS or none, 11 DS. In a read or a write through a segment register it is
that one's; in one of an I/O port or an interrupt vector, in an acknowledge or halt cycle, 10; in an instruction fetch,
which may come before any of them, CS's; in a cycle of another master the processor drives nothing. S6 is 0. Where
fetches come among the other cycles is log 9. -/
def Obligations.StatusLines : Prop :=
  (segmentStatus (some .es) = 0b00 ∧ segmentStatus (some .ss) = 0b01 ∧ segmentStatus (some .cs) = 0b10 ∧
    segmentStatus none = 0b10 ∧ segmentStatus (some .ds) = 0b11) ∧
  (∀ c : BusCycle, c.s6 = false) ∧
  (∀ a d, (BusCycle.fetch a d).s4s3 = some (segmentStatus (some .cs))) ∧
  (∀ c, (BusCycle.master c).s4s3 = none) ∧
  ∀ s : State,
    let marked := fun (seg : Option SReg) (t : State) => ∃ l, t.bus.log = l ++ s.bus.log ∧
      ∀ c, c ∈ l → (∃ d, c = .master d) ∨ (∃ a d, c = .fetch a d) ∨ c.s4s3 = some (segmentStatus seg)
    (∀ w sr off v, marked (some sr) (s.afterRead w sr off) ∧ marked (some sr) (s.writeSeg w sr off v)) ∧
    (∀ w p v, marked none (s.afterPort w p) ∧ marked none (s.writePort w p v)) ∧
    (∀ a, marked none (s.afterVector a)) ∧ (∀ ty, marked none (s.acknowledge ty)) ∧
    marked none { s with bus := s.bus.haltCycle s.view }

/-! ## Encoding -/

/-- Decoding the encoding of a well-formed instruction gives it back, whatever bytes follow. -/
def Obligations.DecodeOfEncode : Prop :=
  ∀ (i : Instr) (rest : List Byte), i.wf = true → decode (encode i ++ rest) = .ok i rest

/-- What the decoder accepts is well formed and is exactly the encoding of what it answers: no two byte sequences
are one instruction. -/
def Obligations.EncodeOfDecode : Prop :=
  ∀ (bs rest : List Byte) (i : Instr), decode bs = .ok i rest → i.wf = true ∧ encode i ++ rest = bs

/-- A few words of the spec's encodings, one or more per family, decode to the instructions they stand for. -/
def Obligations.SpecWordsDecode : Prop :=
  decode [0x8B, 0x47, 0x02] = .ok (.movRmReg .toReg .word .r000 (.mem (.based .bx (.d8 0x02)))) [] ∧
  decode [0xC7, 0x06, 0x34, 0x12, 0x78, 0x56] = .ok (.movRmImm (.mem (.direct 0x1234)) (.w 0x5678)) [] ∧
  decode [0x83, 0xC0, 0xFF] = .ok (.addRmImm (.reg .r000) (.signed 0xFF)) [] ∧
  decode [0x3B, 0xC3] = .ok (.cmpRegRm .word .r000 (.reg .r011)) [] ∧
  decode [0xD3, 0xE0] = .ok (.shlRm .cl .word (.reg .r000)) [] ∧
  decode [0xF7, 0x06, 0x00, 0x10, 0x01, 0x00] = .ok (.testRmImm (.mem (.direct 0x1000)) (.w 0x0001)) [] ∧
  decode [0xF3, 0xA4] = .ok (.rep true) [0xA4] ∧
  decode [0x9A, 0x00, 0x01, 0x00, 0x20] = .ok (.callFar 0x0100 0x2000) [] ∧
  decode [0xCD, 0x21] = .ok (.intType 0x21) [] ∧
  decode [0x26, 0x8A, 0x07] = .ok (.seg .es) [0x8A, 0x07]

/-! ## Addresses, memory and registers -/

/-- R63, R64: the physical address is the segment value times 16 plus the offset, modulo 2^20. -/
def Obligations.PhysicalAddress : Prop :=
  (∀ seg off : Word, (phys seg off).toNat = (seg.toNat * 16 + off.toNat) % 2 ^ 20) ∧ phys 0xFFFF 0x0010 = 0x00000

/-- Reads and stores when nothing comes from outside (R63, R65, R66, R68): a word lies low byte first, its high byte
at the next offset of the segment modulo 2^16, so that a word at FFFFH wraps to 0000H; a read answers what memory
holds and leaves it; an operand stored is held under every segment and offset that name its bytes; an operand none
of whose bytes is stored to is held as before; each access is one cycle, but two for a word at an odd address. -/
def Obligations.StoresAndReads : Prop :=
  ∀ (s : State) (w : Width) (sr : SReg) (off : Word) (v : Operand w) (x : Word) (seg' off' : Word),
    (heldAt s .word seg' off' = joinBytes (s.readByte (phys seg' (off' + 1))) (s.readByte (phys seg' off')) ∧
      heldAt s .word seg' 0xFFFF = joinBytes (s.readByte (phys seg' 0x0000)) (s.readByte (phys seg' 0xFFFF))) ∧
    (Quiet s →
      let seg := s.sreg sr
      let t := s.writeSeg w sr off v
      (s.readSeg w sr off = heldAt s w seg off ∧
        (s.afterRead w sr off).bus =
          { s.bus with log := cyclesOf .read s w sr off (heldAt s w seg off) ++ s.bus.log }) ∧
      ((s.writeSeg .word sr off x).readByte (phys seg off) = lowByte x ∧
        (s.writeSeg .word sr off x).readByte (phys seg (off + 1)) = highByte x) ∧
      (phys seg' off' = phys seg off → phys seg' (off' + 1) = phys seg (off + 1) → heldAt t w seg' off' = v) ∧
      (∀ w', (∀ a ∈ storeAddrs seg' off' w', a ∉ storeAddrs seg off w) → heldAt t w' seg' off' = heldAt s w' seg' off') ∧
      withoutFetches t.bus.log = cyclesOf .write s w sr off v ++ withoutFetches s.bus.log ∧ t.bus.pins = s.bus.pins ∧
      t.bus.nmiLatch = s.bus.nmiLatch ∧ t.bus.answers = s.bus.answers)

/-- R22: an 8-bit register is a half of AX, CX, DX or BX; a write to it changes that half only, and a write to the
16-bit register changes both. -/
def Obligations.ByteRegistersAreHalves : Prop :=
  ∀ s : State,
    (s.reg16 .ax = joinBytes (s.reg8 .ah) (s.reg8 .al) ∧ s.reg16 .cx = joinBytes (s.reg8 .ch) (s.reg8 .cl) ∧
      s.reg16 .dx = joinBytes (s.reg8 .dh) (s.reg8 .dl) ∧ s.reg16 .bx = joinBytes (s.reg8 .bh) (s.reg8 .bl)) ∧
    (∀ (r : Reg8) (v : Byte), (s.setReg8 r v).reg8 r = v ∧ OtherReg8 r s (s.setReg8 r v)) ∧
    ∀ (r : Reg16) (v : Word), (s.setReg16 r v).reg16 r = v ∧ OtherReg16 r s (s.setReg16 r v)

/-- R108, R110, R129, R77, D3: the eight EA formulas, the sign extension of a byte displacement, the sum modulo
2^16, and the default segment, which an override replaces. -/
def Obligations.EffectiveAddresses : Prop :=
  ∀ (s : State) (d : Byte) (a : Word) (x : Disp) (sr : SReg),
    (s.ea (.based .bxSi (.d16 a)) = s.reg16 .bx + s.reg16 .si + a ∧
      s.ea (.based .bxDi (.d16 a)) = s.reg16 .bx + s.reg16 .di + a ∧
      s.ea (.based .bpSi (.d16 a)) = s.reg16 .bp + s.reg16 .si + a ∧
      s.ea (.based .bpDi (.d16 a)) = s.reg16 .bp + s.reg16 .di + a ∧
      s.ea (.based .si (.d16 a)) = s.reg16 .si + a ∧ s.ea (.based .di (.d16 a)) = s.reg16 .di + a ∧
      s.ea (.based .bp (.d16 a)) = s.reg16 .bp + a ∧ s.ea (.based .bx (.d16 a)) = s.reg16 .bx + a ∧
      s.ea (.direct a) = a) ∧
    (∀ b, s.ea (.based b (.d8 d)) = s.ea (.based b (.d16 (d.signExtend 16))) ∧
      s.ea (.based b .none) = s.ea (.based b (.d16 0))) ∧
    (s.segOverride = none →
      (∀ b, b ∈ [EaBase.bpSi, .bpDi, .bp] → s.segRm (.based b x) = .ss) ∧
      (∀ b, b ∈ [EaBase.bxSi, .bxDi, .si, .di, .bx] → s.segRm (.based b x) = .ds) ∧
      s.segRm (.direct a) = .ds) ∧
    ∀ m, s.segOverride = some sr → s.segRm m = sr

/-- R129: without an override the segment of an operand is SS when its formula contains (BP), which are the `r/m`
codes 010, 011 and 110, and DS in every other case, the direct address included; an override replaces either. -/
def Obligations.DefaultSegment : Prop :=
  (EaBase.bpSi.code = 0b010 ∧ EaBase.bpDi.code = 0b011 ∧ EaBase.bp.code = 0b110) ∧
  ∀ s : State,
    (s.segOverride = none →
      (∀ b x, s.segRm (.based b x) = if b = .bpSi ∨ b = .bpDi ∨ b = .bp then .ss else .ds) ∧
      ∀ a, s.segRm (.direct a) = .ds) ∧
    (∀ m sr, s.segOverride = some sr → s.segRm m = sr) ∧
    ∀ w m, s.readRM w (.mem m) = s.readSeg w (s.segRm m) (s.ea m) ∧
      ∀ v, s.writeRM w (.mem m) v = s.writeSeg w (s.segRm m) (s.ea m) v

/-- R30, R32, R183: a FLAGS image gives back the nine flags it was made from, in the bits of R30; its X positions
are those of `FLAGS_X`, whatever was written there. -/
def Obligations.FlagsImage : Prop :=
  ∀ (f : Flags) (x : Word),
    Flags.ofWord (f.toWord x) = f ∧ f.toWord x &&& flagsXMask = x &&& flagsXMask ∧
    (f.toWord x).getLsbD 0 = f.CF ∧ (f.toWord x).getLsbD 2 = f.PF ∧ (f.toWord x).getLsbD 4 = f.AF ∧
    (f.toWord x).getLsbD 6 = f.ZF ∧ (f.toWord x).getLsbD 7 = f.SF ∧ (f.toWord x).getLsbD 8 = f.TF ∧
    (f.toWord x).getLsbD 9 = f.IF ∧ (f.toWord x).getLsbD 10 = f.DF ∧ (f.toWord x).getLsbD 11 = f.OF

/-! ## The whole instruction set -/

/-- There is no privilege and no illegal-instruction, alignment or memory interrupt: every well-formed instruction
completes in every state (R78, R417, R420). -/
def Obligations.EveryInstructionCompletes : Prop :=
  ∀ (i : Instr) (s : State), i.wf = true → ∃ t, exec i s = .next t

/-- What only certain instructions may change (R26, R61, R222): the flags, TF, IF, DF, CS and SS, the bus, the I/O
space; and what none changes: the parameters (log 5), the samples still to come, the pins where no sample was taken
(log 6), and the record of cycles done, which only grows. Other masters run their cycles only while an instruction
uses the bus (log 14). -/
def Obligations.WhoMayChangeWhat : Prop :=
  ∀ (i : Instr) (s t : State), exec i s = .next t →
    (changesNoFlag i = true → t.flags = s.flags) ∧
    (loadsFlags i = false → mayInterrupt i = false → t.flags.TF = s.flags.TF) ∧
    (loadsFlags i = false → mayInterrupt i = false → setsIF i = false → t.flags.IF = s.flags.IF) ∧
    (loadsFlags i = false → setsDF i = false → t.flags.DF = s.flags.DF) ∧
    (loadsCs i = false → t.segs.cs = s.segs.cs) ∧
    (loadsSs i = false → t.segs.ss = s.segs.ss) ∧
    (usesBus i = false → t.bus = { s.bus with queue := t.bus.queue, stale := t.bus.stale }) ∧
    (∃ l, t.bus.log = l ++ s.bus.log ∧ (reachesPorts i = false → ∀ c, c ∈ l → c.onPort = false)) ∧
    (∃ l, s.bus.env = l ++ t.bus.env ∧ (l = [] → t.bus.pins = s.bus.pins)) ∧ t.params = s.params

/-! ## Data transfer -/

/-- MOV between a register and a register or memory, of an immediate, and between the accumulator and a direct
address in DS or the overriding segment (R150 to R154): the destination holds the source, nothing else changes, no
flag does. -/
def Obligations.MovGeneral : Prop :=
  (∀ d w r rm s, ∃ t, exec (.movRmReg d w r rm) s = .next t ∧ SameFlow s t ∧ t.flags = s.flags ∧
    match d with
    | .fromReg => WroteRM w rm (s.reg w r) s s t
    | .toReg => WroteReg w r (s.readRM w rm) (s.afterRM w rm) s t) ∧
  (∀ rm imm s, ∃ t, exec (.movRmImm rm imm) s = .next t ∧ SameFlow s t ∧ t.flags = s.flags ∧
    WroteRM imm.width rm imm.val s s t) ∧
  (∀ r imm s, ∃ t, exec (.movRegImm r imm) s = .next t ∧ SameFlow s t ∧ t.flags = s.flags ∧
    WroteReg imm.width r imm.val s s t) ∧
  ∀ w addr s,
    let sr := s.segOverride.getD .ds
    (∃ t, exec (.movAccMem w addr) s = .next t ∧ SameFlow s t ∧ t.flags = s.flags ∧
      WroteReg w .r000 (s.readSeg w sr addr) (s.afterRead w sr addr) s t) ∧
    ∃ t, exec (.movMemAcc w addr) s = .next t ∧ SameFlow s t ∧ t.flags = s.flags ∧ t.regs = s.regs ∧
      Stored w sr addr (s.reg w .r000) s s t

/-- MOV to and from a segment register (R155, R156): the load is followed by the inhibit if the part has it (D17);
CS cannot be loaded so, nor by POP: both are refused (R121, D10). -/
def Obligations.SegmentRegisterMoves : Prop :=
  (∀ sr rm s, sr ≠ SReg.cs → ∃ t, exec (.movSregRm sr rm) s = .next t ∧ t.sreg sr = s.readRM .word rm ∧
    (∀ q, q ≠ sr → t.sreg q = s.sreg q) ∧ t.ip = s.ip ∧ t.flags = s.flags ∧ Untouched (s.afterRM .word rm) s t ∧
    t.control = { s.control with inhibit := s.inhibit || s.params.inhibitAfterSegLoad }) ∧
  (∀ rm sr s, ∃ t, exec (.movRmSreg rm sr) s = .next t ∧ SameFlow s t ∧ t.flags = s.flags ∧
    WroteRM .word rm (s.sreg sr) s s t) ∧
  ∀ rm s, exec (.movSregRm .cs rm) s = .refused (.undefinedEncoding .movCs) ∧
    exec (.popSreg .cs) s = .refused (.undefinedEncoding .popCs)

/-- PUSH and PUSHF (R160 to R163, R182): SP drops by 2 and the word lies at SS:SP; PUSH SP stores what
`PUSH_SP_VALUE` says (D22). -/
def Obligations.Pushes : Prop :=
  (∀ m s, ∃ t, exec (.pushRm (.mem m)) s = .next t ∧ SameFlow s t ∧ t.flags = s.flags ∧
    Pushed (s.readMem .word m) (s.afterMem .word m) s t) ∧
  (∀ r s, ∃ t, exec (.pushRm (.reg r)) s = .next t ∧ exec (.pushReg r.reg16) s = .next t ∧ SameFlow s t ∧
    t.flags = s.flags ∧
    Pushed (if r = .r100 then (match s.params.pushSp with | .new => s.reg16 .sp - 2 | .old => s.reg16 .sp)
      else s.reg16 r.reg16) s s t) ∧
  (∀ sr s, ∃ t, exec (.pushSreg sr) s = .next t ∧ SameFlow s t ∧ t.flags = s.flags ∧ Pushed (s.sreg sr) s s t) ∧
  ∀ s, ∃ t, exec .pushf s = .next t ∧ SameFlow s t ∧ t.flags = s.flags ∧ Pushed (s.flags.toWord s.params.flagsX) s s t

/-- POP and POPF (R164 to R167, R183): the word at SS:SP goes to the destination, which is written after SP has
risen by 2, so that POP SP leaves the word itself; memory is only read but for a memory destination. -/
def Obligations.Pops : Prop :=
  (∀ r s, ∃ t, exec (.popReg r) s = .next t ∧ SameFlow s t ∧ t.flags = s.flags ∧ OnlyRead (afterPops s 1) s t ∧
    t.reg16 r = stackWord s 0 ∧ (r ≠ .sp → t.reg16 .sp = s.reg16 .sp + 2) ∧
    ∀ q, q ≠ r → q ≠ .sp → t.reg16 q = s.reg16 q) ∧
  (∀ r s, exec (.popRm (.reg r)) s = exec (.popReg r.reg16) s) ∧
  (∀ m s, ∃ t, exec (.popRm (.mem m)) s = .next t ∧ SameFlow s t ∧ t.flags = s.flags ∧
    t.reg16 .sp = s.reg16 .sp + 2 ∧ OtherReg16 .sp s t ∧
    Stored .word (s.segRm m) (s.ea m) (stackWord s 0) (afterPops s 1) s t) ∧
  (∀ sr s, sr ≠ SReg.cs → ∃ t, exec (.popSreg sr) s = .next t ∧ t.sreg sr = stackWord s 0 ∧
    (∀ q, q ≠ sr → t.sreg q = s.sreg q) ∧ t.ip = s.ip ∧ t.flags = s.flags ∧ Popped 1 2 s t ∧
    t.control = { s.control with inhibit := s.inhibit || s.params.inhibitAfterSegLoad }) ∧
  ∀ s, ∃ t, exec .popf s = .next t ∧ SameFlow s t ∧ t.flags = Flags.ofWord (stackWord s 0) ∧ Popped 1 2 s t

/-- XCHG (R170, R171): the two operands are exchanged, nothing else changes; with AX itself nothing does (NOP). -/
def Obligations.Exchanges : Prop :=
  (∀ w r m s, ∃ t, exec (.xchgRmReg w r (.mem m)) s = .next t ∧ SameFlow s t ∧ t.flags = s.flags ∧
    t.reg w r = s.readMem w m ∧ OtherReg w r s t ∧ Stored w (s.segRm m) (s.ea m) (s.reg w r) (s.afterMem w m) s t) ∧
  (∀ w r q s, ∃ t, exec (.xchgRmReg w r (.reg q)) s = .next t ∧ SameFlow s t ∧ t.flags = s.flags ∧ t.bus = s.bus ∧
    t.reg w r = s.reg w q ∧ t.reg w q = s.reg w r ∧ (∀ p, p ≠ r → p ≠ q → t.reg w p = s.reg w p) ∧
    (w = .byte → t.reg16 .sp = s.reg16 .sp ∧ t.reg16 .bp = s.reg16 .bp ∧ t.reg16 .si = s.reg16 .si ∧
      t.reg16 .di = s.reg16 .di)) ∧
  (∀ r s, ∃ t, exec (.xchgAxReg r) s = .next t ∧ SameFlow s t ∧ t.flags = s.flags ∧ t.bus = s.bus ∧
    t.reg16 .ax = s.reg16 r ∧ t.reg16 r = s.reg16 .ax ∧ ∀ p, p ≠ .ax → p ≠ r → t.reg16 p = s.reg16 p) ∧
  ∀ s, ∃ t, exec (.xchgAxReg .ax) s = .next t ∧ SameFlow s t ∧ t.flags = s.flags ∧ Untouched s s t

/-- IN and OUT (R172 to R175, R61, R68, D28): the accumulator takes what the devices answer at the port named, in
the instruction or by DX, and the next port for the high byte; the accumulator is written there; one cycle, or two
byte cycles, low byte first, for a word at an odd port. That the answers come from a script in the state, by
location, is log 13. -/
def Obligations.InputOutput : Prop :=
  ∀ w (port : Byte) s,
    (∃ t, exec (.inFixed w port) s = .next t ∧ InputDone w (port.setWidth 16) s t) ∧
    (∃ t, exec (.inVariable w) s = .next t ∧ InputDone w (s.reg16 .dx) s t) ∧
    (∃ t, exec (.outFixed w port) s = .next t ∧ OutputDone w (port.setWidth 16) s t) ∧
    ∃ t, exec (.outVariable w) s = .next t ∧ OutputDone w (s.reg16 .dx) s t

/-- XLAT, LEA, LDS and LES (R176 to R179): the offset word of a pointer first, then the segment word at EA + 2. -/
def Obligations.AddressInstructions : Prop :=
  (∀ s, ∃ t, exec .xlat s = .next t ∧ SameFlow s t ∧ t.flags = s.flags ∧ OtherReg8 .al s t ∧
    let sr := s.segOverride.getD .ds
    let off := s.reg16 .bx + (s.reg8 .al).setWidth 16
    t.reg8 .al = s.readSeg .byte sr off ∧ OnlyRead (s.afterRead .byte sr off) s t) ∧
  (∀ r m s, ∃ t, exec (.lea r m) s = .next t ∧ SameFlow s t ∧ t.flags = s.flags ∧ t.bus = s.bus ∧
    t.reg16 r = s.ea m ∧ OtherReg16 r s t) ∧
  (∀ m s, Quiet s → s.readMem .word m = heldAt s .word (s.sreg (s.segRm m)) (s.ea m) ∧
    s.readMemHigh m = heldAt s .word (s.sreg (s.segRm m)) (s.ea m + 2)) ∧
  (∀ r m s, ∃ t, exec (.lds r m) s = .next t ∧ t.reg16 r = s.readMem .word m ∧ OtherReg16 r s t ∧
    t.segs = { s.segs with ds := s.readMemHigh m } ∧ t.ip = s.ip ∧ t.flags = s.flags ∧ t.control = s.control ∧
    OnlyRead (s.afterPointer m) s t) ∧
  ∀ r m s, ∃ t, exec (.les r m) s = .next t ∧ t.reg16 r = s.readMem .word m ∧ OtherReg16 r s t ∧
    t.segs = { s.segs with es := s.readMemHigh m } ∧ t.ip = s.ip ∧ t.flags = s.flags ∧ t.control = s.control ∧
    OnlyRead (s.afterPointer m) s t

/-- LAHF and SAHF (R180, R181): AH and the low half of FLAGS, the X positions as `FLAGS_X`; SAHF leaves OF, DF, IF,
TF. -/
def Obligations.FlagTransfers : Prop :=
  (∀ s, ∃ t, exec .lahf s = .next t ∧ SameFlow s t ∧ t.flags = s.flags ∧ t.bus = s.bus ∧ OtherReg8 .ah s t ∧
    let ah := t.reg8 .ah
    let x := s.params.flagsX
    ah.getLsbD 7 = s.flags.SF ∧ ah.getLsbD 6 = s.flags.ZF ∧ ah.getLsbD 5 = x.getLsbD 5 ∧ ah.getLsbD 4 = s.flags.AF ∧
    ah.getLsbD 3 = x.getLsbD 3 ∧ ah.getLsbD 2 = s.flags.PF ∧ ah.getLsbD 1 = x.getLsbD 1 ∧
    ah.getLsbD 0 = s.flags.CF) ∧
  ∀ s, ∃ t, exec .sahf s = .next t ∧ SameFlow s t ∧ Untouched s s t ∧
    t.flags = { s.flags with
      SF := (s.reg8 .ah).getLsbD 7, ZF := (s.reg8 .ah).getLsbD 6, AF := (s.reg8 .ah).getLsbD 4,
      PF := (s.reg8 .ah).getLsbD 2, CF := (s.reg8 .ah).getLsbD 0 }

/-! ## Arithmetic -/

/-- ADD and ADC in their three forms (R200 to R202, R15): the sum modulo 2^N, CF the unsigned carry, OF the signed
overflow, AF the carry out of bit 3, SF, ZF and PF from the result. -/
def Obligations.AddAdc : Prop :=
  (RmRegForm .addRmReg (SumRel fun _ => false) ∧ RmSImmForm .addRmImm (SumRel fun _ => false) ∧
    AccImmForm .addAccImm (SumRel fun _ => false)) ∧
  RmRegForm .adcRmReg (SumRel (·.CF)) ∧ RmSImmForm .adcRmImm (SumRel (·.CF)) ∧ AccImmForm .adcAccImm (SumRel (·.CF))

/-- SUB and SBB in their three forms (R200, R206, R207, R15, R221). -/
def Obligations.SubSbb : Prop :=
  (RmRegForm .subRmReg (DiffRel fun _ => false) ∧ RmSImmForm .subRmImm (DiffRel fun _ => false) ∧
    AccImmForm .subAccImm (DiffRel fun _ => false)) ∧
  RmRegForm .sbbRmReg (DiffRel (·.CF)) ∧ RmSImmForm .sbbRmImm (DiffRel (·.CF)) ∧ AccImmForm .sbbAccImm (DiffRel (·.CF))

/-- CMP in its four forms (R210, C11): the flags of SUB, `reg - r/m` for 3AH and 3BH and `r/m - reg` for 38H and
39H; nothing is written. And so ZF says that the operands are equal, CF that the left one is below, SF xor OF that
it is less. -/
def Obligations.Compares : Prop :=
  (∀ w r rm s, FlagsOnly (.cmpRegRm w r rm) (DiffRel fun _ => false) w (s.reg w r) (s.readRM w rm) (s.afterRM w rm) s) ∧
  (∀ w r rm s, FlagsOnly (.cmpRmReg w r rm) (DiffRel fun _ => false) w (s.readRM w rm) (s.reg w r) (s.afterRM w rm) s) ∧
  (∀ rm imm s, FlagsOnly (.cmpRmImm rm imm) (DiffRel fun _ => false) imm.width (s.readRM imm.width rm) imm.val
    (s.afterRM imm.width rm) s) ∧
  (∀ imm s, FlagsOnly (.cmpAccImm imm) (DiffRel fun _ => false) imm.width (s.reg imm.width .r000) imm.val s s) ∧
  ∀ w r rm s, ∃ t, exec (.cmpRegRm w r rm) s = .next t ∧
    t.flags.ZF = decide (s.reg w r = s.readRM w rm) ∧ t.flags.CF = decide ((s.reg w r).toNat < (s.readRM w rm).toNat) ∧
    (t.flags.SF != t.flags.OF) = decide ((s.reg w r).toInt < (s.readRM w rm).toInt)

/-- INC, DEC and NEG (R203, R208, R209): INC and DEC leave CF; NEG sets CF exactly when the operand was not 0, and
OF exactly when it was the most negative number. -/
def Obligations.IncDecNeg : Prop :=
  (∀ w rm s, ∃ t v, exec (.incRm w rm) s = .next t ∧ SameFlow s t ∧ WroteRM w rm v (s.afterRM w rm) s t ∧
    IsSum (s.readRM w rm) (BitVec.ofNat w.bits 1) false v t.flags ∧ t.flags.CF = s.flags.CF ∧
    SameControlFlags s.flags t.flags) ∧
  (∀ r s, ∃ t v, exec (.incReg r) s = .next t ∧ SameFlow s t ∧ t.bus = s.bus ∧ t.reg16 r = v ∧ OtherReg16 r s t ∧
    IsSum (s.reg16 r) 1 false v t.flags ∧ t.flags.CF = s.flags.CF ∧ SameControlFlags s.flags t.flags) ∧
  (∀ w rm s, ∃ t v, exec (.decRm w rm) s = .next t ∧ SameFlow s t ∧ WroteRM w rm v (s.afterRM w rm) s t ∧
    IsDiff (s.readRM w rm) (BitVec.ofNat w.bits 1) false v t.flags ∧ t.flags.CF = s.flags.CF ∧
    SameControlFlags s.flags t.flags) ∧
  (∀ r s, ∃ t v, exec (.decReg r) s = .next t ∧ SameFlow s t ∧ t.bus = s.bus ∧ t.reg16 r = v ∧ OtherReg16 r s t ∧
    IsDiff (s.reg16 r) 1 false v t.flags ∧ t.flags.CF = s.flags.CF ∧ SameControlFlags s.flags t.flags) ∧
  ∀ w rm s, ∃ t v, exec (.negRm w rm) s = .next t ∧ SameFlow s t ∧ WroteRM w rm v (s.afterRM w rm) s t ∧
    IsDiff 0 (s.readRM w rm) false v t.flags ∧ t.flags.CF = decide (s.readRM w rm ≠ 0) ∧
    t.flags.OF = decide ((s.readRM w rm).toInt = -2 ^ (w.bits - 1)) ∧ SameControlFlags s.flags t.flags

/-- AAA, AAS, DAA and DAS (R204, R205, R211, R212), for every AL, AF and CF. On inputs that are no sum or difference
of decimals that the result is the pseudocode's is the model's choice (U21, log 18). -/
def Obligations.DecimalAdjusts : Prop :=
  ∀ s,
    (∃ t, exec .aaa s = .next t ∧ AsciiAdjusted 1 s t) ∧ (∃ t, exec .aas s = .next t ∧ AsciiAdjusted (-1) s t) ∧
    (∃ t, exec .daa s = .next t ∧ DecimalAdjusted 1 s t) ∧ ∃ t, exec .das s = .next t ∧ DecimalAdjusted (-1) s t

/-- DAA after a byte addition of two packed decimals, with or without a carry in, leaves their decimal sum, the
hundred in CF; DAS after a subtraction leaves their decimal difference, the borrow in CF ("exact for every (AL, CF,
AF) that can result from ADD or ADC of two valid packed decimal bytes", R205, R212). -/
def Obligations.DecimalAdjustIsExact : Prop :=
  ∀ (s : State) (a b : Byte) (c : Bool), IsPacked a → IsPacked b →
    ((s.reg8 .al).toNat = (a.toNat + b.toNat + c.toNat) % 256 →
      s.flags.CF = decide (256 ≤ a.toNat + b.toNat + c.toNat) →
      s.flags.AF = decide (16 ≤ a.toNat % 16 + b.toNat % 16 + c.toNat) →
      ∃ t, exec .daa s = .next t ∧ IsPacked (t.reg8 .al) ∧
        packedValue (t.reg8 .al) + 100 * t.flags.CF.toNat = packedValue a + packedValue b + c.toNat) ∧
    (((s.reg8 .al).toNat : Int) = ((a.toNat : Int) - b.toNat - c.toNat) % 256 →
      s.flags.CF = decide (a.toNat < b.toNat + c.toNat) →
      s.flags.AF = decide (a.toNat % 16 < b.toNat % 16 + c.toNat) →
      ∃ t, exec .das s = .next t ∧ IsPacked (t.reg8 .al) ∧
        packedValue (t.reg8 .al) + packedValue b + c.toNat = packedValue a + 100 * t.flags.CF.toNat)

/-- MUL and IMUL (R213, R214): AX, or DX:AX, is the product, unsigned or signed; CF and OF say that its upper half
is not zero, or that it does not fit in its lower half; SF, ZF, AF and PF are any value. -/
def Obligations.Products : Prop :=
  (∀ rm s,
    (∃ t, exec (.mulRm .byte rm) s = .next t ∧ SameFlow s t ∧ OtherReg16 .ax s t ∧ OnlyRead (s.afterRM .byte rm) s t ∧
      (t.reg16 .ax).toNat = (s.reg8 .al).toNat * (s.readRM .byte rm).toNat ∧
      t.flags.CF = decide (t.reg8 .ah ≠ 0) ∧ t.flags.OF = t.flags.CF ∧ SameControlFlags s.flags t.flags) ∧
    ∃ t, exec (.mulRm .word rm) s = .next t ∧ SameFlow s t ∧ OnlyRead (s.afterRM .word rm) s t ∧
      (∀ q, q ≠ .ax → q ≠ .dx → t.reg16 q = s.reg16 q) ∧
      (t.reg16 .dx).toNat * 65536 + (t.reg16 .ax).toNat = (s.reg16 .ax).toNat * (s.readRM .word rm).toNat ∧
      t.flags.CF = decide (t.reg16 .dx ≠ 0) ∧ t.flags.OF = t.flags.CF ∧ SameControlFlags s.flags t.flags) ∧
  ∀ rm s,
    (∃ t, exec (.imulRm .byte rm) s = .next t ∧ SameFlow s t ∧ OtherReg16 .ax s t ∧ OnlyRead (s.afterRM .byte rm) s t ∧
      (t.reg16 .ax).toInt = (s.reg8 .al).toInt * (s.readRM .byte rm).toInt ∧
      t.flags.CF = outOfRange 8 ((s.reg8 .al).toInt * (s.readRM .byte rm).toInt) ∧
      t.flags.OF = t.flags.CF ∧ SameControlFlags s.flags t.flags) ∧
    ∃ t, exec (.imulRm .word rm) s = .next t ∧ SameFlow s t ∧ OnlyRead (s.afterRM .word rm) s t ∧
      (∀ q, q ≠ .ax → q ≠ .dx → t.reg16 q = s.reg16 q) ∧
      (t.reg16 .dx).toInt * 65536 + (t.reg16 .ax).toNat = (s.reg16 .ax).toInt * (s.readRM .word rm).toInt ∧
      t.flags.CF = outOfRange 16 ((s.reg16 .ax).toInt * (s.readRM .word rm).toInt) ∧
      t.flags.OF = t.flags.CF ∧ SameControlFlags s.flags t.flags

/-- DIV (R216): quotient and remainder of the unsigned division, all six status flags any value; or the divide
error, with the registers unchanged, when the divisor is 0 or the quotient does not fit. The divide error is a whole
interrupt entry (logs 16 and 22), and that under `DIVIDE_ERROR_SAVED_IP = current` the saved IP is that of the first
prefix byte is log 17. -/
def Obligations.DivQuotient : Prop :=
  (∀ rm s,
    let n := (s.reg16 .ax).toNat
    let d := (s.readRM .byte rm).toNat
    if d = 0 ∨ 0xFF < n / d then ∃ t, exec (.divRm .byte rm) s = .next t ∧ DivideErrorTaken (s.afterRM .byte rm) s t
    else ∃ t, exec (.divRm .byte rm) s = .next t ∧ SameFlow s t ∧ OnlyRead (s.afterRM .byte rm) s t ∧ OtherReg16 .ax s t ∧
      (t.reg8 .al).toNat = n / d ∧ (t.reg8 .ah).toNat = n % d ∧ SameControlFlags s.flags t.flags) ∧
  ∀ rm s,
    let n := (s.reg16 .dx).toNat * 65536 + (s.reg16 .ax).toNat
    let d := (s.readRM .word rm).toNat
    if d = 0 ∨ 0xFFFF < n / d then ∃ t, exec (.divRm .word rm) s = .next t ∧ DivideErrorTaken (s.afterRM .word rm) s t
    else ∃ t, exec (.divRm .word rm) s = .next t ∧ SameFlow s t ∧ OnlyRead (s.afterRM .word rm) s t ∧
      (∀ q, q ≠ .ax → q ≠ .dx → t.reg16 q = s.reg16 q) ∧
      (t.reg16 .ax).toNat = n / d ∧ (t.reg16 .dx).toNat = n % d ∧ SameControlFlags s.flags t.flags

/-- IDIV (R217, R221): the quotient truncated towards zero and the remainder with the sign of the dividend, or the
divide error when the divisor is 0 or the quotient is above the greatest or below `IDIV_MIN_QUOTIENT`, which is a
number of the operand's width (log 5). The divide error is as for DIV (logs 16, 17 and 22). -/
def Obligations.IdivQuotient : Prop :=
  (∀ rm s, -128 ≤ s.params.idivMin8 →
    let n := (s.reg16 .ax).toInt
    let d := (s.readRM .byte rm).toInt
    if d = 0 ∨ 127 < n.tdiv d ∨ n.tdiv d < s.params.idivMin8 then
      ∃ t, exec (.idivRm .byte rm) s = .next t ∧ DivideErrorTaken (s.afterRM .byte rm) s t
    else ∃ t, exec (.idivRm .byte rm) s = .next t ∧ SameFlow s t ∧ OnlyRead (s.afterRM .byte rm) s t ∧
      OtherReg16 .ax s t ∧
      (t.reg8 .al).toInt = n.tdiv d ∧ (t.reg8 .ah).toInt = n.tmod d ∧ SameControlFlags s.flags t.flags) ∧
  ∀ rm s, -32768 ≤ s.params.idivMin16 →
    let n : Int := (s.reg16 .dx).toInt * 65536 + ((s.reg16 .ax).toNat : Int)
    let d := (s.readRM .word rm).toInt
    if d = 0 ∨ 32767 < n.tdiv d ∨ n.tdiv d < s.params.idivMin16 then
      ∃ t, exec (.idivRm .word rm) s = .next t ∧ DivideErrorTaken (s.afterRM .word rm) s t
    else ∃ t, exec (.idivRm .word rm) s = .next t ∧ SameFlow s t ∧ OnlyRead (s.afterRM .word rm) s t ∧
      (∀ q, q ≠ .ax → q ≠ .dx → t.reg16 q = s.reg16 q) ∧
      (t.reg16 .ax).toInt = n.tdiv d ∧ (t.reg16 .dx).toInt = n.tmod d ∧ SameControlFlags s.flags t.flags

/-- AAM, AAD, CBW and CWD (R215, R218, R219, R220): the two digits of AL and back, and the sign extensions. -/
def Obligations.Conversions : Prop :=
  ∀ s,
    (∃ t, exec .aam s = .next t ∧ SameFlow s t ∧ t.bus = s.bus ∧ OtherReg16 .ax s t ∧
      (t.reg8 .ah).toNat = (s.reg8 .al).toNat / 10 ∧ (t.reg8 .al).toNat = (s.reg8 .al).toNat % 10 ∧
      ResultFlags (t.reg8 .al) t.flags ∧ SameControlFlags s.flags t.flags) ∧
    (∃ t, exec .aad s = .next t ∧ SameFlow s t ∧ t.bus = s.bus ∧ OtherReg16 .ax s t ∧
      (t.reg8 .al).toNat = ((s.reg8 .ah).toNat * 10 + (s.reg8 .al).toNat) % 256 ∧ t.reg8 .ah = 0 ∧
      ResultFlags (t.reg8 .al) t.flags ∧ SameControlFlags s.flags t.flags) ∧
    (∃ t, exec .cbw s = .next t ∧ SameFlow s t ∧ t.bus = s.bus ∧ OtherReg16 .ax s t ∧ t.flags = s.flags ∧
      (t.reg16 .ax).toInt = (s.reg8 .al).toInt) ∧
    ∃ t, exec .cwd s = .next t ∧ SameFlow s t ∧ t.bus = s.bus ∧ OtherReg16 .dx s t ∧ t.flags = s.flags ∧
      (t.reg16 .dx).toInt * 65536 + (t.reg16 .ax).toNat = (s.reg16 .ax).toInt

/-! ## Logic, shifts and rotates -/

/-- AND, OR and XOR in their three forms (R260, R269, R271, R272): bit by bit; CF and OF are cleared, AF is any
value. -/
def Obligations.LogicOperations : Prop :=
  (RmRegForm .andRmReg (LogicRel (· && ·)) ∧ RmImmForm .andRmImm (LogicRel (· && ·)) ∧
    AccImmForm .andAccImm (LogicRel (· && ·))) ∧
  (RmRegForm .orRmReg (LogicRel (· || ·)) ∧ RmImmForm .orRmImm (LogicRel (· || ·)) ∧
    AccImmForm .orAccImm (LogicRel (· || ·))) ∧
  RmRegForm .xorRmReg (LogicRel (· ^^ ·)) ∧ RmImmForm .xorRmImm (LogicRel (· ^^ ·)) ∧
    AccImmForm .xorAccImm (LogicRel (· ^^ ·))

/-- TEST in its three forms (R270) sets the flags of AND and writes nothing; NOT (R261) complements every bit and
sets no flag. -/
def Obligations.TestAndNot : Prop :=
  (∀ w r rm s, FlagsOnly (.testRmReg w r rm) (LogicRel (· && ·)) w (s.readRM w rm) (s.reg w r)
    (s.afterRM w rm) s) ∧
  (∀ rm imm s, FlagsOnly (.testRmImm rm imm) (LogicRel (· && ·)) imm.width (s.readRM imm.width rm) imm.val
    (s.afterRM imm.width rm) s) ∧
  (∀ imm s, FlagsOnly (.testAccImm imm) (LogicRel (· && ·)) imm.width (s.reg imm.width .r000) imm.val s s) ∧
  ∀ w rm s, ∃ t v, exec (.notRm w rm) s = .next t ∧ SameFlow s t ∧ t.flags = s.flags ∧
    WroteRM w rm v (s.afterRM w rm) s t ∧
    ∀ i, i < w.bits → v.getLsbD i = !(s.readRM w rm).getLsbD i

/-- SHL, SHR and SAR in closed form (R262, R263, R264, R273): the count is 1 or the whole of CL, not reduced; with
count 0 the operand is read and nothing else is done. -/
def Obligations.Shifts : Prop :=
  ∀ v w rm s,
    let c := countOf s v
    let x := s.readRM w rm
    Shifted (.shlRm v w rm) v w rm s (x <<< c) (decide (c ≤ w.bits) && x.getLsbD (w.bits - c))
      ((x <<< 1).msb != x.msb) ∧
    Shifted (.shrRm v w rm) v w rm s (x >>> c) (decide (c ≤ w.bits) && x.getLsbD (c - 1)) x.msb ∧
    Shifted (.sarRm v w rm) v w rm s (x.sshiftRight c) (if c ≤ w.bits then x.getLsbD (c - 1) else x.msb) false

/-- ROL, ROR, RCL and RCR in closed form (R265 to R268, R273): the last two rotate the N+1 bits CF:x; with
count 0 the operand is read and nothing else is done. -/
def Obligations.Rotates : Prop :=
  ∀ v w rm s,
    let c := countOf s v
    let x := s.readRM w rm
    let left := (BitVec.ofBool s.flags.CF ++ x).rotateLeft c
    let right := (BitVec.ofBool s.flags.CF ++ x).rotateRight c
    Rotated (.rolRm v w rm) v w rm s (x.rotateLeft c) ((x.rotateLeft c).getLsbD 0)
      ((x.rotateLeft c).msb != (x.rotateLeft c).getLsbD 0) ∧
    Rotated (.rorRm v w rm) v w rm s (x.rotateRight c) (x.rotateRight c).msb
      ((x.rotateRight c).msb != (x.rotateRight c).getLsbD (w.bits - 2)) ∧
    Rotated (.rclRm v w rm) v w rm s (left.setWidth w.bits) left.msb ((left.setWidth w.bits).msb != left.msb) ∧
    Rotated (.rcrRm v w rm) v w rm s (right.setWidth w.bits) right.msb
      ((right.setWidth w.bits).msb != (right.setWidth w.bits).getLsbD (w.bits - 2))

/-! ## Strings -/

/-- MOVS, LODS and STOS on one element, without a repeat prefix (R300, R302, R305, R306): the source is at DS:SI or
in the overriding segment, the destination at ES:DI whatever the override; SI and DI move by the element size, up or
down by DF. -/
def Obligations.StringTransfers : Prop :=
  ∀ w s, s.rep = none →
    (∃ t, exec (.movs w) s = .next t ∧ StringDone s t ∧ t.flags = s.flags ∧
      Stored w .es (s.reg16 .di) (sourceElement s w) (afterSource s w) s t ∧ t.reg16 .si = s.reg16 .si + elementStep s w ∧
      t.reg16 .di = s.reg16 .di + elementStep s w ∧ ∀ q, q ≠ .si → q ≠ .di → t.reg16 q = s.reg16 q) ∧
    (∃ t, exec (.lods w) s = .next t ∧ StringDone s t ∧ t.flags = s.flags ∧ OnlyRead (afterSource s w) s t ∧
      t.reg w .r000 = sourceElement s w ∧ (w = .byte → t.reg8 .ah = s.reg8 .ah) ∧
      t.reg16 .si = s.reg16 .si + elementStep s w ∧ ∀ q, q ≠ .si → q ≠ .ax → t.reg16 q = s.reg16 q) ∧
    ∃ t, exec (.stos w) s = .next t ∧ StringDone s t ∧ t.flags = s.flags ∧
      Stored w .es (s.reg16 .di) (s.reg w .r000) s s t ∧ t.reg16 .di = s.reg16 .di + elementStep s w ∧
      ∀ q, q ≠ .di → t.reg16 q = s.reg16 q

/-- CMPS and SCAS on one element, without a repeat prefix (R300, R303, R304): the flags of the element at SI, or of
the accumulator, minus the element at ES:DI; nothing is stored. -/
def Obligations.StringComparisons : Prop :=
  ∀ w s, s.rep = none →
    (∃ t v, exec (.cmps w) s = .next t ∧ StringDone s t ∧ OnlyRead ((afterSource s w).afterRead w .es (s.reg16 .di)) s t ∧
      DiffRel (fun _ => false) w (sourceElement s w) ((afterSource s w).readSeg w .es (s.reg16 .di)) s.flags v t.flags ∧
      t.reg16 .si = s.reg16 .si + elementStep s w ∧ t.reg16 .di = s.reg16 .di + elementStep s w ∧
      ∀ q, q ≠ .si → q ≠ .di → t.reg16 q = s.reg16 q) ∧
    ∃ t v, exec (.scas w) s = .next t ∧ StringDone s t ∧ OnlyRead (s.afterRead w .es (s.reg16 .di)) s t ∧
      DiffRel (fun _ => false) w (s.reg w .r000) (s.readSeg w .es (s.reg16 .di)) s.flags v t.flags ∧
      t.reg16 .di = s.reg16 .di + elementStep s w ∧ ∀ q, q ≠ .di → t.reg16 q = s.reg16 q

/-- The repeat loop, one turn (R301): with CX = 0 nothing is done; else the element is handled as without the
prefix, CX drops by 1, and the instruction is over when CX is 0 or, for CMPS and SCAS, ZF differs from `z`. The
second and later turns are steps that fetch nothing: the meaning again, with IP where it is, and the end of the
instruction (R307). That each turn is one step of the model is log 8. -/
def Obligations.RepeatedStrings : Prop :=
  ∀ (op : StringOp) w s,
    (∀ z, s.rep = some z →
      (s.reg16 .cx = 0 → exec (op.instr w) s = .next { s with run := .running }) ∧
      (s.reg16 .cx ≠ 0 → ∃ t u, exec (op.instr w) s = .next t ∧ exec (op.instr w) { s with rep := none } = .next u ∧
        t.reg16 .cx = s.reg16 .cx - 1 ∧ OtherReg16 .cx u t ∧ t.flags = u.flags ∧ t.bus = u.bus ∧
        t.segs = s.segs ∧ t.ip = s.ip ∧
        t.control = { s.control with run :=
          if t.regs.cx = 0 ∨ ((op = .cmps ∨ op = .scas) ∧ t.flags.ZF ≠ z) then .running else .repeating op w })) ∧
    (s.run = .repeating op w → s.tick.bus.pins.reset = false →
      step s = thenState State.finish (exec (op.instr w) { s.tick with trap := s.flags.TF }))

/-! ## Control transfer -/

/-- CALL in its four forms (R320 to R324): the return address is pushed, CS first for the intersegment forms; an
indirect target is read before the push; the queue is emptied. -/
def Obligations.Calls : Prop :=
  (∀ disp s, ∃ u t, exec (.callNear disp) s = .next t ∧ Pushed s.ip s s u ∧ SameFlow s u ∧ u.flags = s.flags ∧
    LeftFor s.segs.cs (s.ip + disp) u t) ∧
  (∀ rm s, ∃ u t, exec (.callRm rm) s = .next t ∧ Pushed s.ip (s.afterRM .word rm) s u ∧ SameFlow s u ∧
    u.flags = s.flags ∧ LeftFor s.segs.cs (s.readRM .word rm) u t) ∧
  (∀ off sel s, ∃ u t, exec (.callFar off sel) s = .next t ∧ PushedTwo s.segs.cs s.ip s s u ∧ SameFlow s u ∧
    u.flags = s.flags ∧ LeftFor sel off u t) ∧
  ∀ m s, ∃ u t, exec (.callMem m) s = .next t ∧ PushedTwo s.segs.cs s.ip (s.afterPointer m) s u ∧ SameFlow s u ∧
    u.flags = s.flags ∧ LeftFor (s.readMemHigh m) (s.readMem .word m) u t

/-- JMP in its five forms (R320, R325 to R329, R359): only IP, or CS and IP, change, and the queue is emptied. -/
def Obligations.Jumps : Prop :=
  (∀ disp s, ∃ t, exec (.jmpNear disp) s = .next t ∧ WentTo (s.ip + disp) s s t) ∧
  (∀ disp s, ∃ t, exec (.jmpShort disp) s = .next t ∧ WentTo (s.ip + disp.signExtend 16) s s t) ∧
  (∀ rm s, ∃ t, exec (.jmpRm rm) s = .next t ∧ WentTo (s.readRM .word rm) (s.afterRM .word rm) s t) ∧
  (∀ off sel s, ∃ t, exec (.jmpFar off sel) s = .next t ∧ WentFar sel off s s t) ∧
  ∀ m s, ∃ t, exec (.jmpMem m) s = .next t ∧ WentFar (s.readMemHigh m) (s.readMem .word m) (s.afterPointer m) s t

/-- RET in its four forms (R330 to R333): IP, then CS for the intersegment forms, from the stack; SP rises past them
and past the immediate; the queue is emptied. -/
def Obligations.Returns : Prop :=
  (∀ s, ∃ u t, exec .ret s = .next t ∧ Popped 1 2 s u ∧ SameFlow s u ∧ u.flags = s.flags ∧
    LeftFor s.segs.cs (stackWord s 0) u t) ∧
  (∀ n s, ∃ u t, exec (.retImm n) s = .next t ∧ Popped 1 (2 + n) s u ∧ SameFlow s u ∧ u.flags = s.flags ∧
    LeftFor s.segs.cs (stackWord s 0) u t) ∧
  (∀ s, ∃ u t, exec .retf s = .next t ∧ Popped 2 4 s u ∧ SameFlow s u ∧ u.flags = s.flags ∧
    LeftFor (stackWord s 1) (stackWord s 0) u t) ∧
  ∀ n s, ∃ u t, exec (.retfImm n) s = .next t ∧ Popped 2 (4 + n) s u ∧ SameFlow s u ∧ u.flags = s.flags ∧
    LeftFor (stackWord s 1) (stackWord s 0) u t

/-- The sixteen conditional jumps (R334 to R350): to IPnext plus the sign-extended displacement when the condition
holds, else on to the next instruction; nothing else changes. -/
def Obligations.ConditionalJumps : Prop :=
  ∀ (d : Byte) (s : State),
    let f := s.flags
    (∃ t, exec (.jo d) s = .next t ∧ Branched f.OF d s t) ∧
    (∃ t, exec (.jno d) s = .next t ∧ Branched (!f.OF) d s t) ∧
    (∃ t, exec (.jb d) s = .next t ∧ Branched f.CF d s t) ∧
    (∃ t, exec (.jnb d) s = .next t ∧ Branched (!f.CF) d s t) ∧
    (∃ t, exec (.je d) s = .next t ∧ Branched f.ZF d s t) ∧
    (∃ t, exec (.jne d) s = .next t ∧ Branched (!f.ZF) d s t) ∧
    (∃ t, exec (.jbe d) s = .next t ∧ Branched (f.CF || f.ZF) d s t) ∧
    (∃ t, exec (.jnbe d) s = .next t ∧ Branched (!(f.CF || f.ZF)) d s t) ∧
    (∃ t, exec (.js d) s = .next t ∧ Branched f.SF d s t) ∧
    (∃ t, exec (.jns d) s = .next t ∧ Branched (!f.SF) d s t) ∧
    (∃ t, exec (.jp d) s = .next t ∧ Branched f.PF d s t) ∧
    (∃ t, exec (.jnp d) s = .next t ∧ Branched (!f.PF) d s t) ∧
    (∃ t, exec (.jl d) s = .next t ∧ Branched (f.SF != f.OF) d s t) ∧
    (∃ t, exec (.jnl d) s = .next t ∧ Branched (f.SF == f.OF) d s t) ∧
    (∃ t, exec (.jle d) s = .next t ∧ Branched (f.ZF || (f.SF != f.OF)) d s t) ∧
    ∃ t, exec (.jnle d) s = .next t ∧ Branched (!f.ZF && (f.SF == f.OF)) d s t

/-- LOOP, LOOPZ, LOOPNZ and JCXZ (R351 to R354): CX drops by 1 modulo 2^16 first and is then tested; JCXZ leaves CX
alone; no flag changes. -/
def Obligations.Loops : Prop :=
  ∀ (d : Byte) (s : State),
    let u : State := { s with regs := { s.regs with cx := s.regs.cx - 1 } }
    (∃ t, exec (.loop d) s = .next t ∧ Branched (decide (s.reg16 .cx ≠ 1)) d u t) ∧
    (∃ t, exec (.loopz d) s = .next t ∧ Branched (decide (s.reg16 .cx ≠ 1) && s.flags.ZF) d u t) ∧
    (∃ t, exec (.loopnz d) s = .next t ∧ Branched (decide (s.reg16 .cx ≠ 1) && !s.flags.ZF) d u t) ∧
    ∃ t, exec (.jcxz d) s = .next t ∧ Branched (decide (s.reg16 .cx = 0)) d s t

/-! ## Interrupts -/

/-- INT, INT 3 and INTO (R355, R356, R357, R407, D15): the whole entry sequence of R410 and R411 with the next
instruction as the saved IP, the vector unconstrained where the stack meets it (U13, log 16), and its step 7 with
every further entry (D16, log 22); INTO with OF = 0 does nothing. -/
def Obligations.SoftwareInterrupts : Prop :=
  ∀ (ty : Byte) (s : State),
    (∃ t, exec (.intType ty) s = .next t ∧ InterruptSequence ty s.ip s t) ∧
    (∃ t, exec .int3 s = .next t ∧ InterruptSequence 3 s.ip s t) ∧
    ∃ t, exec .into s = .next t ∧ if s.flags.OF then InterruptSequence 4 s.ip s t else t = s

/-- IRET (R358, R415): IP, CS and the nine flags from the stack, SP up by 6, the queue emptied, nothing else. -/
def Obligations.InterruptReturn : Prop :=
  ∀ s, ∃ u t, exec .iret s = .next t ∧ Popped 3 6 s u ∧ SameFlow s u ∧ u.flags = Flags.ofWord (stackWord s 2) ∧
    LeftFor (stackWord s 1) (stackWord s 0) u t

/-- An IRET right after the entry of an interrupt resumes the interrupted program with its registers and flags, IF
and TF included (R411, R415), where nothing else comes in between. -/
def Obligations.ReturnUndoesEntry : Prop :=
  ∀ (ty : Byte) (s : State), Quiet s → s.bus.nmiLatch = false → s.flags.TF = false →
    ∃ m t, exec (.intType ty) s = .next m ∧ exec .iret m = .next t ∧
      t.ip = s.ip ∧ t.segs = s.segs ∧ t.regs = s.regs ∧ t.flags = s.flags ∧
      ∀ a, a ∉ frameAddrs s → t.readByte a = s.readByte a

/-- The decision procedure at a recognition point (R413, R414, R43): an inhibit skips it once; then a latched NMI,
INTR with IF = 1, after its two acknowledge cycles (R409), and single-step, in this order; the saved IP is the last
prefix byte for a repeated string instruction (R307); the prefixes of what is interrupted end (R411), and a waiting
processor fetches its WAIT once more before anything else (R388, log 10). -/
def Obligations.Recognition : Prop :=
  (∀ s : State,
    let saved := match s.run with | .repeating _ _ => s.ip - 2 | _ => s.ip
    let p := interruptedAt s
    if s.inhibit then s.recognise = { s with inhibit := false, trap := false }
    else if s.bus.nmiLatch then
      InterruptSequence 2 saved (interruptedAt { s with bus := { s.bus with nmiLatch := false } }) s.recognise
    else match s.flags.IF, s.bus.pins.intr with
      | true, some ty => InterruptSequence ty saved { p with bus := p.bus.acknowledge p.view ty } s.recognise
      | _, _ =>
        if s.trap = true then SingleStepTaken saved p s.recognise
        else s.recognise = { s with trap := false }) ∧
  ∀ (s : State) (v : View) (ty : Byte), Still s →
    s.bus.acknowledge v ty = { s.bus with log := .acknowledge (some ty) :: .acknowledge none :: s.bus.log }

/-- A halted processor stays so until an NMI, or INTR with IF = 1, wakes it with the offset after the HLT as the
saved IP (R387); giving the bus away it issues its halt cycle again (R431). A waiting one goes on when TEST is LOW
and otherwise waits, or takes an NMI, INTR with IF = 1, or single-step, after one extra fetch of the WAIT, with the
offset of the WAIT as the saved IP (R388, R414). That waiting is a state that steps, and which bytes the extra fetch
reads, is log 10; RESET that comes during an entry takes effect (R450). -/
def Obligations.HaltedAndWaiting : Prop :=
  (∀ s : State, Still s → s.run = .waiting (s.ip + 1) →
    let p := unprefixed s
    let found := p.bus.found p.view (.mem (s.codeAddr 0))
    interruptedAt s = { p with bus := { found with
      log := .fetch (s.codeAddr 0) (.byte (p.bus.find p.view (.mem (s.codeAddr 0)))) :: s.bus.log } }) ∧
  ∀ s : State,
    let u := s.tick
    let settled := fun t : State => if t.bus.pins.reset then intoReset t else t
    let undisturbed := u.bus.nmiLatch = false ∧ (s.flags.IF = false ∨ u.bus.pins.intr = none)
    let entered := fun (ty : Byte) (h : State) => ∃ t, InterruptSequence ty s.ip h t ∧ step s = .next (settled t)
    u.bus.pins.reset = false → s.inhibit = false →
    (s.run = .halted →
      let h : State := if givesBusAway s then { u with bus := { u.bus with log := .halt :: u.bus.log } } else u
      (undisturbed → step s = .next { h with trap := false }) ∧
      (u.bus.nmiLatch = true → entered 2 { unprefixed h with bus := { h.bus with nmiLatch := false } }) ∧
      ∀ ty, u.bus.nmiLatch = false → s.flags.IF = true → u.bus.pins.intr = some ty →
        entered ty { unprefixed h with bus := h.bus.acknowledge (unprefixed h).view ty }) ∧
    ∀ next, s.run = .waiting next →
      (u.bus.pins.testHigh = true →
        (undisturbed → s.flags.TF = false → step s = .next { u with trap := false }) ∧
        (undisturbed → s.flags.TF = true →
          ∃ t, SingleStepTaken s.ip (interruptedAt u) t ∧ step s = .next (settled t)) ∧
        (u.bus.nmiLatch = true → entered 2 (interruptedAt { u with bus := { u.bus with nmiLatch := false } })) ∧
        ∀ ty, u.bus.nmiLatch = false → s.flags.IF = true → u.bus.pins.intr = some ty →
          let p := interruptedAt u
          entered ty { p with bus := p.bus.acknowledge p.view ty }) ∧
      (u.bus.pins.testHigh = false →
        step s = .next ({ u with ip := next, run := .running, trap := s.flags.TF } : State).finish)

/-! ## Processor control -/

/-- CLC, CMC, STC, CLD, STD, CLI and STI (R380 to R386), HLT, WAIT, ESC and the prefixes (R387, R388, R392 to R394,
R301): a flag instruction changes the flag named and nothing else, STI inhibiting recognition once if IF was 0; HLT
issues its halt cycle, after what other masters do before it, unless RESET has come; WAIT goes on with TEST LOW and
otherwise waits with IP at the WAIT; ESC reads its memory operand and changes nothing. That a prefix is noted for
the next step is log 7; what comes before a cycle is log 6. -/
def Obligations.ProcessorControl : Prop :=
  (decode [0xF8] = .ok .clc [] ∧ decode [0xF5] = .ok .cmc [] ∧ decode [0xF9] = .ok .stc [] ∧
    decode [0xFC] = .ok .cld [] ∧ decode [0xFD] = .ok .std []) ∧
  ∀ s : State,
    (exec .clc s = .next { s with flags := { s.flags with CF := false } } ∧
      exec .cmc s = .next { s with flags := { s.flags with CF := !s.flags.CF } } ∧
      exec .stc s = .next { s with flags := { s.flags with CF := true } } ∧
      exec .cld s = .next { s with flags := { s.flags with DF := false } } ∧
      exec .std s = .next { s with flags := { s.flags with DF := true } } ∧
      exec .cli s = .next { s with flags := { s.flags with IF := false } } ∧
      exec .sti s = .next { s with flags := { s.flags with IF := true }, inhibit := s.inhibit || !s.flags.IF }) ∧
    (∃ t, exec .hlt s = .next t ∧ t = { s with run := .halted, bus := t.bus } ∧
      t.bus = (let b := s.bus.start s.view
        if b.pins.reset then b else { b with log := .halt :: b.log }) ∧
      (Still s → t.bus = { s.bus with log := .halt :: s.bus.log })) ∧
    exec .wait s = .next (if s.bus.pins.testHigh then { s with run := .waiting s.ip, ip := s.ipStart } else s) ∧
    (∀ hi lo rm, ∃ t, exec (.esc hi lo rm) s = .next t ∧ SameFlow s t ∧ t.flags = s.flags ∧
      Untouched (s.afterRM .word rm) s t) ∧
    exec .lock s = .next { s with locked := true } ∧
    (∀ sr, exec (.seg sr) s = .next { s with segOverride := some sr }) ∧
    ∀ z, exec (.rep z) s = .next { s with rep := some z }
end

