-- ==== Sys2Proof/Laws/State.lean ====
section
/-!
SUPPORT. What each named update of the state leaves alone, one lemma per field, so that no later proof unfolds a
record update; and, for the fields it sets, what it sets them to.
-/

namespace Sys2Proof.Machine

variable (s : State)

/-! ## `drawn` -/

@[simp] theorem State.drawn_regs (n : Nat) : (s.drawn n).regs = s.regs := rfl
@[simp] theorem State.drawn_segs (n : Nat) : (s.drawn n).segs = s.segs := rfl
@[simp] theorem State.drawn_ip (n : Nat) : (s.drawn n).ip = s.ip := rfl
@[simp] theorem State.drawn_flags (n : Nat) : (s.drawn n).flags = s.flags := rfl
@[simp] theorem State.drawn_bus (n : Nat) : (s.drawn n).bus = s.bus := rfl
@[simp] theorem State.drawn_inhibit (n : Nat) : (s.drawn n).inhibit = s.inhibit := rfl
@[simp] theorem State.drawn_run (n : Nat) : (s.drawn n).run = s.run := rfl
@[simp] theorem State.drawn_locked (n : Nat) : (s.drawn n).locked = s.locked := rfl
@[simp] theorem State.drawn_segOverride (n : Nat) : (s.drawn n).segOverride = s.segOverride := rfl
@[simp] theorem State.drawn_rep (n : Nat) : (s.drawn n).rep = s.rep := rfl
@[simp] theorem State.drawn_ipStart (n : Nat) : (s.drawn n).ipStart = s.ipStart := rfl
@[simp] theorem State.drawn_trap (n : Nat) : (s.drawn n).trap = s.trap := rfl
@[simp] theorem State.drawn_params (n : Nat) : (s.drawn n).params = s.params := rfl
@[simp] theorem State.drawn_control (n : Nat) : (s.drawn n).control = s.control := rfl
@[simp] theorem State.drawn_view (n : Nat) : (s.drawn n).view = s.view := rfl
@[simp] theorem State.drawn_reg16 (n : Nat) (q : Reg16) : (s.drawn n).reg16 q = s.reg16 q := rfl
@[simp] theorem State.drawn_reg8 (n : Nat) (q : Reg8) : (s.drawn n).reg8 q = s.reg8 q := rfl
@[simp] theorem State.drawn_reg (n : Nat) (w' : Width) (q : RegNum) :
    (s.drawn n).reg w' q = s.reg w' q := by cases w' <;> simp [State.reg]
@[simp] theorem State.drawn_ea (n : Nat) (k : Mem) : (s.drawn n).ea k = s.ea k := by
  cases k with
  | direct a => rfl
  | based e d => cases e <;> simp [State.ea, State.eaBase]
@[simp] theorem State.drawn_sreg (n : Nat) (q : SReg) : (s.drawn n).sreg q = s.sreg q := rfl
@[simp] theorem State.drawn_operandAt (n : Nat) (q : SReg) (o' : Word) :
    (s.drawn n).operandAt q o' = s.operandAt q o' := rfl
@[simp] theorem State.drawn_dataSegment (n : Nat) (q : SReg) : (s.drawn n).dataSegment q = s.dataSegment q := rfl
@[simp] theorem State.drawn_segRm (n : Nat) (k : Mem) : (s.drawn n).segRm k = s.segRm k := rfl
@[simp] theorem State.drawn_readByte (n : Nat) (a' : Addr) : (s.drawn n).readByte a' = s.readByte a' := rfl
@[simp] theorem State.drawn_readSeg (n : Nat) (w' : Width) (q : SReg) (o' : Word) :
    (s.drawn n).readSeg w' q o' = s.readSeg w' q o' := rfl

/-! ## `setBus` -/

@[simp] theorem State.setBus_regs (b : Bus) : (s.setBus b).regs = s.regs := rfl
@[simp] theorem State.setBus_segs (b : Bus) : (s.setBus b).segs = s.segs := rfl
@[simp] theorem State.setBus_ip (b : Bus) : (s.setBus b).ip = s.ip := rfl
@[simp] theorem State.setBus_flags (b : Bus) : (s.setBus b).flags = s.flags := rfl
@[simp] theorem State.setBus_inhibit (b : Bus) : (s.setBus b).inhibit = s.inhibit := rfl
@[simp] theorem State.setBus_run (b : Bus) : (s.setBus b).run = s.run := rfl
@[simp] theorem State.setBus_locked (b : Bus) : (s.setBus b).locked = s.locked := rfl
@[simp] theorem State.setBus_segOverride (b : Bus) : (s.setBus b).segOverride = s.segOverride := rfl
@[simp] theorem State.setBus_rep (b : Bus) : (s.setBus b).rep = s.rep := rfl
@[simp] theorem State.setBus_ipStart (b : Bus) : (s.setBus b).ipStart = s.ipStart := rfl
@[simp] theorem State.setBus_trap (b : Bus) : (s.setBus b).trap = s.trap := rfl
@[simp] theorem State.setBus_draws (b : Bus) : (s.setBus b).draws = s.draws := rfl
@[simp] theorem State.setBus_params (b : Bus) : (s.setBus b).params = s.params := rfl
@[simp] theorem State.setBus_control (b : Bus) : (s.setBus b).control = s.control := rfl
@[simp] theorem State.setBus_view (b : Bus) : (s.setBus b).view = s.view := rfl
@[simp] theorem State.setBus_reg16 (b : Bus) (q : Reg16) : (s.setBus b).reg16 q = s.reg16 q := rfl
@[simp] theorem State.setBus_reg8 (b : Bus) (q : Reg8) : (s.setBus b).reg8 q = s.reg8 q := rfl
@[simp] theorem State.setBus_reg (b : Bus) (w' : Width) (q : RegNum) :
    (s.setBus b).reg w' q = s.reg w' q := by cases w' <;> simp [State.reg]
@[simp] theorem State.setBus_ea (b : Bus) (k : Mem) : (s.setBus b).ea k = s.ea k := by
  cases k with
  | direct a => rfl
  | based e d => cases e <;> simp [State.ea, State.eaBase]
@[simp] theorem State.setBus_sreg (b : Bus) (q : SReg) : (s.setBus b).sreg q = s.sreg q := rfl
@[simp] theorem State.setBus_operandAt (b : Bus) (q : SReg) (o' : Word) :
    (s.setBus b).operandAt q o' = s.operandAt q o' := rfl
@[simp] theorem State.setBus_dataSegment (b : Bus) (q : SReg) : (s.setBus b).dataSegment q = s.dataSegment q := rfl
@[simp] theorem State.setBus_segRm (b : Bus) (k : Mem) : (s.setBus b).segRm k = s.segRm k := rfl

/-! ## `setReg16` -/

@[simp] theorem State.setReg16_segs (r : Reg16) (v : Word) : (s.setReg16 r v).segs = s.segs := rfl
@[simp] theorem State.setReg16_ip (r : Reg16) (v : Word) : (s.setReg16 r v).ip = s.ip := rfl
@[simp] theorem State.setReg16_flags (r : Reg16) (v : Word) : (s.setReg16 r v).flags = s.flags := rfl
@[simp] theorem State.setReg16_bus (r : Reg16) (v : Word) : (s.setReg16 r v).bus = s.bus := rfl
@[simp] theorem State.setReg16_inhibit (r : Reg16) (v : Word) : (s.setReg16 r v).inhibit = s.inhibit := rfl
@[simp] theorem State.setReg16_run (r : Reg16) (v : Word) : (s.setReg16 r v).run = s.run := rfl
@[simp] theorem State.setReg16_locked (r : Reg16) (v : Word) : (s.setReg16 r v).locked = s.locked := rfl
@[simp] theorem State.setReg16_segOverride (r : Reg16) (v : Word) :
    (s.setReg16 r v).segOverride = s.segOverride := rfl
@[simp] theorem State.setReg16_rep (r : Reg16) (v : Word) : (s.setReg16 r v).rep = s.rep := rfl
@[simp] theorem State.setReg16_ipStart (r : Reg16) (v : Word) : (s.setReg16 r v).ipStart = s.ipStart := rfl
@[simp] theorem State.setReg16_trap (r : Reg16) (v : Word) : (s.setReg16 r v).trap = s.trap := rfl
@[simp] theorem State.setReg16_draws (r : Reg16) (v : Word) : (s.setReg16 r v).draws = s.draws := rfl
@[simp] theorem State.setReg16_params (r : Reg16) (v : Word) : (s.setReg16 r v).params = s.params := rfl
@[simp] theorem State.setReg16_control (r : Reg16) (v : Word) : (s.setReg16 r v).control = s.control := rfl
@[simp] theorem State.setReg16_view (r : Reg16) (v : Word) : (s.setReg16 r v).view = s.view := rfl
@[simp] theorem State.setReg16_sreg (r : Reg16) (v : Word) (q : SReg) : (s.setReg16 r v).sreg q = s.sreg q := rfl
@[simp] theorem State.setReg16_operandAt (r : Reg16) (v : Word) (q : SReg) (o' : Word) :
    (s.setReg16 r v).operandAt q o' = s.operandAt q o' := rfl
@[simp] theorem State.setReg16_dataSegment (r : Reg16) (v : Word) (q : SReg) :
    (s.setReg16 r v).dataSegment q = s.dataSegment q := rfl
@[simp] theorem State.setReg16_segRm (r : Reg16) (v : Word) (k : Mem) : (s.setReg16 r v).segRm k = s.segRm k := rfl
@[simp] theorem State.setReg16_readByte (r : Reg16) (v : Word) (a' : Addr) :
    (s.setReg16 r v).readByte a' = s.readByte a' := rfl
@[simp] theorem State.setReg16_readSeg (r : Reg16) (v : Word) (w' : Width) (q : SReg) (o' : Word) :
    (s.setReg16 r v).readSeg w' q o' = s.readSeg w' q o' := rfl

/-! ## `setReg8` -/

@[simp] theorem State.setReg8_segs (r : Reg8) (v : Byte) : (s.setReg8 r v).segs = s.segs := rfl
@[simp] theorem State.setReg8_ip (r : Reg8) (v : Byte) : (s.setReg8 r v).ip = s.ip := rfl
@[simp] theorem State.setReg8_flags (r : Reg8) (v : Byte) : (s.setReg8 r v).flags = s.flags := rfl
@[simp] theorem State.setReg8_bus (r : Reg8) (v : Byte) : (s.setReg8 r v).bus = s.bus := rfl
@[simp] theorem State.setReg8_inhibit (r : Reg8) (v : Byte) : (s.setReg8 r v).inhibit = s.inhibit := rfl
@[simp] theorem State.setReg8_run (r : Reg8) (v : Byte) : (s.setReg8 r v).run = s.run := rfl
@[simp] theorem State.setReg8_locked (r : Reg8) (v : Byte) : (s.setReg8 r v).locked = s.locked := rfl
@[simp] theorem State.setReg8_segOverride (r : Reg8) (v : Byte) : (s.setReg8 r v).segOverride = s.segOverride := rfl
@[simp] theorem State.setReg8_rep (r : Reg8) (v : Byte) : (s.setReg8 r v).rep = s.rep := rfl
@[simp] theorem State.setReg8_ipStart (r : Reg8) (v : Byte) : (s.setReg8 r v).ipStart = s.ipStart := rfl
@[simp] theorem State.setReg8_trap (r : Reg8) (v : Byte) : (s.setReg8 r v).trap = s.trap := rfl
@[simp] theorem State.setReg8_draws (r : Reg8) (v : Byte) : (s.setReg8 r v).draws = s.draws := rfl
@[simp] theorem State.setReg8_params (r : Reg8) (v : Byte) : (s.setReg8 r v).params = s.params := rfl
@[simp] theorem State.setReg8_control (r : Reg8) (v : Byte) : (s.setReg8 r v).control = s.control := rfl
@[simp] theorem State.setReg8_view (r : Reg8) (v : Byte) : (s.setReg8 r v).view = s.view := rfl
@[simp] theorem State.setReg8_sreg (r : Reg8) (v : Byte) (q : SReg) : (s.setReg8 r v).sreg q = s.sreg q := rfl
@[simp] theorem State.setReg8_operandAt (r : Reg8) (v : Byte) (q : SReg) (o' : Word) :
    (s.setReg8 r v).operandAt q o' = s.operandAt q o' := rfl
@[simp] theorem State.setReg8_dataSegment (r : Reg8) (v : Byte) (q : SReg) :
    (s.setReg8 r v).dataSegment q = s.dataSegment q := rfl
@[simp] theorem State.setReg8_segRm (r : Reg8) (v : Byte) (k : Mem) : (s.setReg8 r v).segRm k = s.segRm k := rfl
@[simp] theorem State.setReg8_readByte (r : Reg8) (v : Byte) (a' : Addr) :
    (s.setReg8 r v).readByte a' = s.readByte a' := rfl
@[simp] theorem State.setReg8_readSeg (r : Reg8) (v : Byte) (w' : Width) (q : SReg) (o' : Word) :
    (s.setReg8 r v).readSeg w' q o' = s.readSeg w' q o' := rfl

/-! ## `setReg` -/

@[simp] theorem State.setReg_segs (w : Width) (r : RegNum) (v : Operand w) :
    (s.setReg w r v).segs = s.segs := by cases w <;> rfl
@[simp] theorem State.setReg_ip (w : Width) (r : RegNum) (v : Operand w) :
    (s.setReg w r v).ip = s.ip := by cases w <;> rfl
@[simp] theorem State.setReg_flags (w : Width) (r : RegNum) (v : Operand w) :
    (s.setReg w r v).flags = s.flags := by cases w <;> rfl
@[simp] theorem State.setReg_bus (w : Width) (r : RegNum) (v : Operand w) :
    (s.setReg w r v).bus = s.bus := by cases w <;> rfl
@[simp] theorem State.setReg_inhibit (w : Width) (r : RegNum) (v : Operand w) :
    (s.setReg w r v).inhibit = s.inhibit := by cases w <;> rfl
@[simp] theorem State.setReg_run (w : Width) (r : RegNum) (v : Operand w) :
    (s.setReg w r v).run = s.run := by cases w <;> rfl
@[simp] theorem State.setReg_locked (w : Width) (r : RegNum) (v : Operand w) :
    (s.setReg w r v).locked = s.locked := by cases w <;> rfl
@[simp] theorem State.setReg_segOverride (w : Width) (r : RegNum) (v : Operand w) :
    (s.setReg w r v).segOverride = s.segOverride := by cases w <;> rfl
@[simp] theorem State.setReg_rep (w : Width) (r : RegNum) (v : Operand w) :
    (s.setReg w r v).rep = s.rep := by cases w <;> rfl
@[simp] theorem State.setReg_ipStart (w : Width) (r : RegNum) (v : Operand w) :
    (s.setReg w r v).ipStart = s.ipStart := by cases w <;> rfl
@[simp] theorem State.setReg_trap (w : Width) (r : RegNum) (v : Operand w) :
    (s.setReg w r v).trap = s.trap := by cases w <;> rfl
@[simp] theorem State.setReg_draws (w : Width) (r : RegNum) (v : Operand w) :
    (s.setReg w r v).draws = s.draws := by cases w <;> rfl
@[simp] theorem State.setReg_params (w : Width) (r : RegNum) (v : Operand w) :
    (s.setReg w r v).params = s.params := by cases w <;> rfl
@[simp] theorem State.setReg_control (w : Width) (r : RegNum) (v : Operand w) :
    (s.setReg w r v).control = s.control := by simp [State.control]
@[simp] theorem State.setReg_view (w : Width) (r : RegNum) (v : Operand w) :
    (s.setReg w r v).view = s.view := by simp [State.view, State.queueStart, State.fetching]
@[simp] theorem State.setReg_sreg (w : Width) (r : RegNum) (v : Operand w) (q : SReg) :
    (s.setReg w r v).sreg q = s.sreg q := by simp [State.sreg]
@[simp] theorem State.setReg_operandAt (w : Width) (r : RegNum) (v : Operand w) (q : SReg) (o' : Word) :
    (s.setReg w r v).operandAt q o' = s.operandAt q o' := by simp [State.operandAt]
@[simp] theorem State.setReg_dataSegment (w : Width) (r : RegNum) (v : Operand w) (q : SReg) :
    (s.setReg w r v).dataSegment q = s.dataSegment q := by simp [State.dataSegment]
@[simp] theorem State.setReg_segRm (w : Width) (r : RegNum) (v : Operand w) (k : Mem) :
    (s.setReg w r v).segRm k = s.segRm k := by simp [State.segRm]
@[simp] theorem State.setReg_readByte (w : Width) (r : RegNum) (v : Operand w) (a' : Addr) :
    (s.setReg w r v).readByte a' = s.readByte a' := by simp [State.readByte]
@[simp] theorem State.setReg_readSeg (w : Width) (r : RegNum) (v : Operand w) (w' : Width) (q : SReg) (o' : Word) :
    (s.setReg w r v).readSeg w' q o' = s.readSeg w' q o' := by simp [State.readSeg]

/-! ## `setAcc` -/

@[simp] theorem State.setAcc_segs (w : Width) (v : Operand w) : (s.setAcc w v).segs = s.segs := by cases w <;> rfl
@[simp] theorem State.setAcc_ip (w : Width) (v : Operand w) : (s.setAcc w v).ip = s.ip := by cases w <;> rfl
@[simp] theorem State.setAcc_flags (w : Width) (v : Operand w) : (s.setAcc w v).flags = s.flags := by cases w <;> rfl
@[simp] theorem State.setAcc_bus (w : Width) (v : Operand w) : (s.setAcc w v).bus = s.bus := by cases w <;> rfl
@[simp] theorem State.setAcc_inhibit (w : Width) (v : Operand w) :
    (s.setAcc w v).inhibit = s.inhibit := by cases w <;> rfl
@[simp] theorem State.setAcc_run (w : Width) (v : Operand w) : (s.setAcc w v).run = s.run := by cases w <;> rfl
@[simp] theorem State.setAcc_locked (w : Width) (v : Operand w) :
    (s.setAcc w v).locked = s.locked := by cases w <;> rfl
@[simp] theorem State.setAcc_segOverride (w : Width) (v : Operand w) :
    (s.setAcc w v).segOverride = s.segOverride := by cases w <;> rfl
@[simp] theorem State.setAcc_rep (w : Width) (v : Operand w) : (s.setAcc w v).rep = s.rep := by cases w <;> rfl
@[simp] theorem State.setAcc_ipStart (w : Width) (v : Operand w) :
    (s.setAcc w v).ipStart = s.ipStart := by cases w <;> rfl
@[simp] theorem State.setAcc_trap (w : Width) (v : Operand w) : (s.setAcc w v).trap = s.trap := by cases w <;> rfl
@[simp] theorem State.setAcc_draws (w : Width) (v : Operand w) : (s.setAcc w v).draws = s.draws := by cases w <;> rfl
@[simp] theorem State.setAcc_params (w : Width) (v : Operand w) :
    (s.setAcc w v).params = s.params := by cases w <;> rfl
@[simp] theorem State.setAcc_control (w : Width) (v : Operand w) :
    (s.setAcc w v).control = s.control := by simp [State.control]
@[simp] theorem State.setAcc_view (w : Width) (v : Operand w) :
    (s.setAcc w v).view = s.view := by simp [State.view, State.queueStart, State.fetching]
@[simp] theorem State.setAcc_sreg (w : Width) (v : Operand w) (q : SReg) :
    (s.setAcc w v).sreg q = s.sreg q := by simp [State.sreg]
@[simp] theorem State.setAcc_operandAt (w : Width) (v : Operand w) (q : SReg) (o' : Word) :
    (s.setAcc w v).operandAt q o' = s.operandAt q o' := by simp [State.operandAt]
@[simp] theorem State.setAcc_dataSegment (w : Width) (v : Operand w) (q : SReg) :
    (s.setAcc w v).dataSegment q = s.dataSegment q := by simp [State.dataSegment]
@[simp] theorem State.setAcc_segRm (w : Width) (v : Operand w) (k : Mem) :
    (s.setAcc w v).segRm k = s.segRm k := by simp [State.segRm]
@[simp] theorem State.setAcc_readByte (w : Width) (v : Operand w) (a' : Addr) :
    (s.setAcc w v).readByte a' = s.readByte a' := by simp [State.readByte]
@[simp] theorem State.setAcc_readSeg (w : Width) (v : Operand w) (w' : Width) (q : SReg) (o' : Word) :
    (s.setAcc w v).readSeg w' q o' = s.readSeg w' q o' := by simp [State.readSeg]

/-! ## `setSreg` -/

@[simp] theorem State.setSreg_regs (r : SReg) (v : Word) : (s.setSreg r v).regs = s.regs := rfl
@[simp] theorem State.setSreg_ip (r : SReg) (v : Word) : (s.setSreg r v).ip = s.ip := rfl
@[simp] theorem State.setSreg_flags (r : SReg) (v : Word) : (s.setSreg r v).flags = s.flags := rfl
@[simp] theorem State.setSreg_bus (r : SReg) (v : Word) : (s.setSreg r v).bus = s.bus := rfl
@[simp] theorem State.setSreg_inhibit (r : SReg) (v : Word) : (s.setSreg r v).inhibit = s.inhibit := rfl
@[simp] theorem State.setSreg_run (r : SReg) (v : Word) : (s.setSreg r v).run = s.run := rfl
@[simp] theorem State.setSreg_locked (r : SReg) (v : Word) : (s.setSreg r v).locked = s.locked := rfl
@[simp] theorem State.setSreg_segOverride (r : SReg) (v : Word) : (s.setSreg r v).segOverride = s.segOverride := rfl
@[simp] theorem State.setSreg_rep (r : SReg) (v : Word) : (s.setSreg r v).rep = s.rep := rfl
@[simp] theorem State.setSreg_ipStart (r : SReg) (v : Word) : (s.setSreg r v).ipStart = s.ipStart := rfl
@[simp] theorem State.setSreg_trap (r : SReg) (v : Word) : (s.setSreg r v).trap = s.trap := rfl
@[simp] theorem State.setSreg_draws (r : SReg) (v : Word) : (s.setSreg r v).draws = s.draws := rfl
@[simp] theorem State.setSreg_params (r : SReg) (v : Word) : (s.setSreg r v).params = s.params := rfl
@[simp] theorem State.setSreg_control (r : SReg) (v : Word) : (s.setSreg r v).control = s.control := rfl
@[simp] theorem State.setSreg_reg16 (r : SReg) (v : Word) (q : Reg16) : (s.setSreg r v).reg16 q = s.reg16 q := rfl
@[simp] theorem State.setSreg_reg8 (r : SReg) (v : Word) (q : Reg8) : (s.setSreg r v).reg8 q = s.reg8 q := rfl
@[simp] theorem State.setSreg_reg (r : SReg) (v : Word) (w' : Width) (q : RegNum) :
    (s.setSreg r v).reg w' q = s.reg w' q := by cases w' <;> simp [State.reg]
@[simp] theorem State.setSreg_ea (r : SReg) (v : Word) (k : Mem) : (s.setSreg r v).ea k = s.ea k := by
  cases k with
  | direct a => rfl
  | based e d => cases e <;> simp [State.ea, State.eaBase]
@[simp] theorem State.setSreg_dataSegment (r : SReg) (v : Word) (q : SReg) :
    (s.setSreg r v).dataSegment q = s.dataSegment q := rfl
@[simp] theorem State.setSreg_segRm (r : SReg) (v : Word) (k : Mem) : (s.setSreg r v).segRm k = s.segRm k := rfl
@[simp] theorem State.setSreg_readByte (r : SReg) (v : Word) (a' : Addr) :
    (s.setSreg r v).readByte a' = s.readByte a' := rfl

/-! ## `setFlags` -/

@[simp] theorem State.setFlags_regs (f : Flags) : (s.setFlags f).regs = s.regs := rfl
@[simp] theorem State.setFlags_segs (f : Flags) : (s.setFlags f).segs = s.segs := rfl
@[simp] theorem State.setFlags_ip (f : Flags) : (s.setFlags f).ip = s.ip := rfl
@[simp] theorem State.setFlags_bus (f : Flags) : (s.setFlags f).bus = s.bus := rfl
@[simp] theorem State.setFlags_inhibit (f : Flags) : (s.setFlags f).inhibit = s.inhibit := rfl
@[simp] theorem State.setFlags_run (f : Flags) : (s.setFlags f).run = s.run := rfl
@[simp] theorem State.setFlags_locked (f : Flags) : (s.setFlags f).locked = s.locked := rfl
@[simp] theorem State.setFlags_segOverride (f : Flags) : (s.setFlags f).segOverride = s.segOverride := rfl
@[simp] theorem State.setFlags_rep (f : Flags) : (s.setFlags f).rep = s.rep := rfl
@[simp] theorem State.setFlags_ipStart (f : Flags) : (s.setFlags f).ipStart = s.ipStart := rfl
@[simp] theorem State.setFlags_trap (f : Flags) : (s.setFlags f).trap = s.trap := rfl
@[simp] theorem State.setFlags_draws (f : Flags) : (s.setFlags f).draws = s.draws := rfl
@[simp] theorem State.setFlags_params (f : Flags) : (s.setFlags f).params = s.params := rfl
@[simp] theorem State.setFlags_control (f : Flags) : (s.setFlags f).control = s.control := rfl
@[simp] theorem State.setFlags_view (f : Flags) : (s.setFlags f).view = s.view := rfl
@[simp] theorem State.setFlags_reg16 (f : Flags) (q : Reg16) : (s.setFlags f).reg16 q = s.reg16 q := rfl
@[simp] theorem State.setFlags_reg8 (f : Flags) (q : Reg8) : (s.setFlags f).reg8 q = s.reg8 q := rfl
@[simp] theorem State.setFlags_reg (f : Flags) (w' : Width) (q : RegNum) :
    (s.setFlags f).reg w' q = s.reg w' q := by cases w' <;> simp [State.reg]
@[simp] theorem State.setFlags_ea (f : Flags) (k : Mem) : (s.setFlags f).ea k = s.ea k := by
  cases k with
  | direct a => rfl
  | based e d => cases e <;> simp [State.ea, State.eaBase]
@[simp] theorem State.setFlags_sreg (f : Flags) (q : SReg) : (s.setFlags f).sreg q = s.sreg q := rfl
@[simp] theorem State.setFlags_operandAt (f : Flags) (q : SReg) (o' : Word) :
    (s.setFlags f).operandAt q o' = s.operandAt q o' := rfl
@[simp] theorem State.setFlags_dataSegment (f : Flags) (q : SReg) :
    (s.setFlags f).dataSegment q = s.dataSegment q := rfl
@[simp] theorem State.setFlags_segRm (f : Flags) (k : Mem) : (s.setFlags f).segRm k = s.segRm k := rfl
@[simp] theorem State.setFlags_readByte (f : Flags) (a' : Addr) : (s.setFlags f).readByte a' = s.readByte a' := rfl
@[simp] theorem State.setFlags_readSeg (f : Flags) (w' : Width) (q : SReg) (o' : Word) :
    (s.setFlags f).readSeg w' q o' = s.readSeg w' q o' := rfl

/-! ## `setFreeFlags` -/

@[simp] theorem State.setFreeFlags_regs (f : Flags) : (s.setFreeFlags f).regs = s.regs := rfl
@[simp] theorem State.setFreeFlags_segs (f : Flags) : (s.setFreeFlags f).segs = s.segs := rfl
@[simp] theorem State.setFreeFlags_ip (f : Flags) : (s.setFreeFlags f).ip = s.ip := rfl
@[simp] theorem State.setFreeFlags_bus (f : Flags) : (s.setFreeFlags f).bus = s.bus := rfl
@[simp] theorem State.setFreeFlags_inhibit (f : Flags) : (s.setFreeFlags f).inhibit = s.inhibit := rfl
@[simp] theorem State.setFreeFlags_run (f : Flags) : (s.setFreeFlags f).run = s.run := rfl
@[simp] theorem State.setFreeFlags_locked (f : Flags) : (s.setFreeFlags f).locked = s.locked := rfl
@[simp] theorem State.setFreeFlags_segOverride (f : Flags) : (s.setFreeFlags f).segOverride = s.segOverride := rfl
@[simp] theorem State.setFreeFlags_rep (f : Flags) : (s.setFreeFlags f).rep = s.rep := rfl
@[simp] theorem State.setFreeFlags_ipStart (f : Flags) : (s.setFreeFlags f).ipStart = s.ipStart := rfl
@[simp] theorem State.setFreeFlags_trap (f : Flags) : (s.setFreeFlags f).trap = s.trap := rfl
@[simp] theorem State.setFreeFlags_params (f : Flags) : (s.setFreeFlags f).params = s.params := rfl
@[simp] theorem State.setFreeFlags_control (f : Flags) : (s.setFreeFlags f).control = s.control := rfl
@[simp] theorem State.setFreeFlags_view (f : Flags) : (s.setFreeFlags f).view = s.view := rfl
@[simp] theorem State.setFreeFlags_reg16 (f : Flags) (q : Reg16) : (s.setFreeFlags f).reg16 q = s.reg16 q := rfl
@[simp] theorem State.setFreeFlags_reg8 (f : Flags) (q : Reg8) : (s.setFreeFlags f).reg8 q = s.reg8 q := rfl
@[simp] theorem State.setFreeFlags_reg (f : Flags) (w' : Width) (q : RegNum) :
    (s.setFreeFlags f).reg w' q = s.reg w' q := by cases w' <;> simp [State.reg]
@[simp] theorem State.setFreeFlags_ea (f : Flags) (k : Mem) : (s.setFreeFlags f).ea k = s.ea k := by
  cases k with
  | direct a => rfl
  | based e d => cases e <;> simp [State.ea, State.eaBase]
@[simp] theorem State.setFreeFlags_sreg (f : Flags) (q : SReg) : (s.setFreeFlags f).sreg q = s.sreg q := rfl
@[simp] theorem State.setFreeFlags_operandAt (f : Flags) (q : SReg) (o' : Word) :
    (s.setFreeFlags f).operandAt q o' = s.operandAt q o' := rfl
@[simp] theorem State.setFreeFlags_dataSegment (f : Flags) (q : SReg) :
    (s.setFreeFlags f).dataSegment q = s.dataSegment q := rfl
@[simp] theorem State.setFreeFlags_segRm (f : Flags) (k : Mem) : (s.setFreeFlags f).segRm k = s.segRm k := rfl
@[simp] theorem State.setFreeFlags_readByte (f : Flags) (a' : Addr) :
    (s.setFreeFlags f).readByte a' = s.readByte a' := rfl
@[simp] theorem State.setFreeFlags_readSeg (f : Flags) (w' : Width) (q : SReg) (o' : Word) :
    (s.setFreeFlags f).readSeg w' q o' = s.readSeg w' q o' := rfl

/-! ## `countFlags` -/

@[simp] theorem State.countFlags_regs {n : Nat} (o : ArithOut n) :
    (s.countFlags o).regs = s.regs := by simp [State.countFlags]
@[simp] theorem State.countFlags_segs {n : Nat} (o : ArithOut n) :
    (s.countFlags o).segs = s.segs := by simp [State.countFlags]
@[simp] theorem State.countFlags_ip {n : Nat} (o : ArithOut n) :
    (s.countFlags o).ip = s.ip := by simp [State.countFlags]
@[simp] theorem State.countFlags_bus {n : Nat} (o : ArithOut n) :
    (s.countFlags o).bus = s.bus := by simp [State.countFlags]
@[simp] theorem State.countFlags_inhibit {n : Nat} (o : ArithOut n) :
    (s.countFlags o).inhibit = s.inhibit := by simp [State.countFlags]
@[simp] theorem State.countFlags_run {n : Nat} (o : ArithOut n) :
    (s.countFlags o).run = s.run := by simp [State.countFlags]
@[simp] theorem State.countFlags_locked {n : Nat} (o : ArithOut n) :
    (s.countFlags o).locked = s.locked := by simp [State.countFlags]
@[simp] theorem State.countFlags_segOverride {n : Nat} (o : ArithOut n) :
    (s.countFlags o).segOverride = s.segOverride := by simp [State.countFlags]
@[simp] theorem State.countFlags_rep {n : Nat} (o : ArithOut n) :
    (s.countFlags o).rep = s.rep := by simp [State.countFlags]
@[simp] theorem State.countFlags_ipStart {n : Nat} (o : ArithOut n) :
    (s.countFlags o).ipStart = s.ipStart := by simp [State.countFlags]
@[simp] theorem State.countFlags_trap {n : Nat} (o : ArithOut n) :
    (s.countFlags o).trap = s.trap := by simp [State.countFlags]
@[simp] theorem State.countFlags_draws {n : Nat} (o : ArithOut n) :
    (s.countFlags o).draws = s.draws := by simp [State.countFlags]
@[simp] theorem State.countFlags_params {n : Nat} (o : ArithOut n) :
    (s.countFlags o).params = s.params := by simp [State.countFlags]
@[simp] theorem State.countFlags_control {n : Nat} (o : ArithOut n) :
    (s.countFlags o).control = s.control := by simp [State.control]
@[simp] theorem State.countFlags_view {n : Nat} (o : ArithOut n) :
    (s.countFlags o).view = s.view := by simp [State.view, State.queueStart, State.fetching]
@[simp] theorem State.countFlags_reg16 {n : Nat} (o : ArithOut n) (q : Reg16) :
    (s.countFlags o).reg16 q = s.reg16 q := by simp [State.reg16]
@[simp] theorem State.countFlags_reg8 {n : Nat} (o : ArithOut n) (q : Reg8) :
    (s.countFlags o).reg8 q = s.reg8 q := by simp [State.reg8]
@[simp] theorem State.countFlags_reg {n : Nat} (o : ArithOut n) (w' : Width) (q : RegNum) :
    (s.countFlags o).reg w' q = s.reg w' q := by cases w' <;> simp [State.reg]
@[simp] theorem State.countFlags_ea {n : Nat} (o : ArithOut n) (k : Mem) : (s.countFlags o).ea k = s.ea k := by
  cases k with
  | direct a => rfl
  | based e d => cases e <;> simp [State.ea, State.eaBase]
@[simp] theorem State.countFlags_sreg {n : Nat} (o : ArithOut n) (q : SReg) :
    (s.countFlags o).sreg q = s.sreg q := by simp [State.sreg]
@[simp] theorem State.countFlags_operandAt {n : Nat} (o : ArithOut n) (q : SReg) (o' : Word) :
    (s.countFlags o).operandAt q o' = s.operandAt q o' := by simp [State.operandAt]
@[simp] theorem State.countFlags_dataSegment {n : Nat} (o : ArithOut n) (q : SReg) :
    (s.countFlags o).dataSegment q = s.dataSegment q := by simp [State.dataSegment]
@[simp] theorem State.countFlags_segRm {n : Nat} (o : ArithOut n) (k : Mem) :
    (s.countFlags o).segRm k = s.segRm k := by simp [State.segRm]
@[simp] theorem State.countFlags_readByte {n : Nat} (o : ArithOut n) (a' : Addr) :
    (s.countFlags o).readByte a' = s.readByte a' := by simp [State.readByte]
@[simp] theorem State.countFlags_readSeg {n : Nat} (o : ArithOut n) (w' : Width) (q : SReg) (o' : Word) :
    (s.countFlags o).readSeg w' q o' = s.readSeg w' q o' := by simp [State.readSeg]

/-! ## `aluFlags` -/

@[simp] theorem State.aluFlags_regs {n : Nat} (o : AluOp) (dst src : BitVec n) :
    (s.aluFlags o dst src).regs = s.regs := rfl
@[simp] theorem State.aluFlags_segs {n : Nat} (o : AluOp) (dst src : BitVec n) :
    (s.aluFlags o dst src).segs = s.segs := rfl
@[simp] theorem State.aluFlags_ip {n : Nat} (o : AluOp) (dst src : BitVec n) : (s.aluFlags o dst src).ip = s.ip := rfl
@[simp] theorem State.aluFlags_bus {n : Nat} (o : AluOp) (dst src : BitVec n) :
    (s.aluFlags o dst src).bus = s.bus := rfl
@[simp] theorem State.aluFlags_inhibit {n : Nat} (o : AluOp) (dst src : BitVec n) :
    (s.aluFlags o dst src).inhibit = s.inhibit := rfl
@[simp] theorem State.aluFlags_run {n : Nat} (o : AluOp) (dst src : BitVec n) :
    (s.aluFlags o dst src).run = s.run := rfl
@[simp] theorem State.aluFlags_locked {n : Nat} (o : AluOp) (dst src : BitVec n) :
    (s.aluFlags o dst src).locked = s.locked := rfl
@[simp] theorem State.aluFlags_segOverride {n : Nat} (o : AluOp) (dst src : BitVec n) :
    (s.aluFlags o dst src).segOverride = s.segOverride := rfl
@[simp] theorem State.aluFlags_rep {n : Nat} (o : AluOp) (dst src : BitVec n) :
    (s.aluFlags o dst src).rep = s.rep := rfl
@[simp] theorem State.aluFlags_ipStart {n : Nat} (o : AluOp) (dst src : BitVec n) :
    (s.aluFlags o dst src).ipStart = s.ipStart := rfl
@[simp] theorem State.aluFlags_trap {n : Nat} (o : AluOp) (dst src : BitVec n) :
    (s.aluFlags o dst src).trap = s.trap := rfl
@[simp] theorem State.aluFlags_params {n : Nat} (o : AluOp) (dst src : BitVec n) :
    (s.aluFlags o dst src).params = s.params := rfl
@[simp] theorem State.aluFlags_control {n : Nat} (o : AluOp) (dst src : BitVec n) :
    (s.aluFlags o dst src).control = s.control := rfl
@[simp] theorem State.aluFlags_view {n : Nat} (o : AluOp) (dst src : BitVec n) :
    (s.aluFlags o dst src).view = s.view := rfl
@[simp] theorem State.aluFlags_reg16 {n : Nat} (o : AluOp) (dst src : BitVec n) (q : Reg16) :
    (s.aluFlags o dst src).reg16 q = s.reg16 q := rfl
@[simp] theorem State.aluFlags_reg8 {n : Nat} (o : AluOp) (dst src : BitVec n) (q : Reg8) :
    (s.aluFlags o dst src).reg8 q = s.reg8 q := rfl
@[simp] theorem State.aluFlags_reg {n : Nat} (o : AluOp) (dst src : BitVec n) (w' : Width) (q : RegNum) :
    (s.aluFlags o dst src).reg w' q = s.reg w' q := by cases w' <;> simp [State.reg]
@[simp] theorem State.aluFlags_ea {n : Nat} (o : AluOp) (dst src : BitVec n) (k : Mem) :
    (s.aluFlags o dst src).ea k = s.ea k := by
  cases k with
  | direct a => rfl
  | based e d => cases e <;> simp [State.ea, State.eaBase]
@[simp] theorem State.aluFlags_sreg {n : Nat} (o : AluOp) (dst src : BitVec n) (q : SReg) :
    (s.aluFlags o dst src).sreg q = s.sreg q := rfl
@[simp] theorem State.aluFlags_operandAt {n : Nat} (o : AluOp) (dst src : BitVec n) (q : SReg) (o' : Word) :
    (s.aluFlags o dst src).operandAt q o' = s.operandAt q o' := rfl
@[simp] theorem State.aluFlags_dataSegment {n : Nat} (o : AluOp) (dst src : BitVec n) (q : SReg) :
    (s.aluFlags o dst src).dataSegment q = s.dataSegment q := rfl
@[simp] theorem State.aluFlags_segRm {n : Nat} (o : AluOp) (dst src : BitVec n) (k : Mem) :
    (s.aluFlags o dst src).segRm k = s.segRm k := rfl
@[simp] theorem State.aluFlags_readByte {n : Nat} (o : AluOp) (dst src : BitVec n) (a' : Addr) :
    (s.aluFlags o dst src).readByte a' = s.readByte a' := rfl
@[simp] theorem State.aluFlags_readSeg {n : Nat} (o : AluOp) (dst src : BitVec n) (w' : Width) (q : SReg) (o' : Word) :
    (s.aluFlags o dst src).readSeg w' q o' = s.readSeg w' q o' :=
  rfl

/-! ## `afterRead` -/

@[simp] theorem State.afterRead_regs (w : Width) (sr : SReg) (off : Word) :
    (s.afterRead w sr off).regs = s.regs := rfl
@[simp] theorem State.afterRead_segs (w : Width) (sr : SReg) (off : Word) :
    (s.afterRead w sr off).segs = s.segs := rfl
@[simp] theorem State.afterRead_ip (w : Width) (sr : SReg) (off : Word) : (s.afterRead w sr off).ip = s.ip := rfl
@[simp] theorem State.afterRead_flags (w : Width) (sr : SReg) (off : Word) :
    (s.afterRead w sr off).flags = s.flags := rfl
@[simp] theorem State.afterRead_inhibit (w : Width) (sr : SReg) (off : Word) :
    (s.afterRead w sr off).inhibit = s.inhibit := rfl
@[simp] theorem State.afterRead_run (w : Width) (sr : SReg) (off : Word) : (s.afterRead w sr off).run = s.run := rfl
@[simp] theorem State.afterRead_locked (w : Width) (sr : SReg) (off : Word) :
    (s.afterRead w sr off).locked = s.locked := rfl
@[simp] theorem State.afterRead_segOverride (w : Width) (sr : SReg) (off : Word) :
    (s.afterRead w sr off).segOverride = s.segOverride := rfl
@[simp] theorem State.afterRead_rep (w : Width) (sr : SReg) (off : Word) : (s.afterRead w sr off).rep = s.rep := rfl
@[simp] theorem State.afterRead_ipStart (w : Width) (sr : SReg) (off : Word) :
    (s.afterRead w sr off).ipStart = s.ipStart := rfl
@[simp] theorem State.afterRead_trap (w : Width) (sr : SReg) (off : Word) :
    (s.afterRead w sr off).trap = s.trap := rfl
@[simp] theorem State.afterRead_draws (w : Width) (sr : SReg) (off : Word) :
    (s.afterRead w sr off).draws = s.draws := rfl
@[simp] theorem State.afterRead_params (w : Width) (sr : SReg) (off : Word) :
    (s.afterRead w sr off).params = s.params := rfl
@[simp] theorem State.afterRead_control (w : Width) (sr : SReg) (off : Word) :
    (s.afterRead w sr off).control = s.control := rfl
@[simp] theorem State.afterRead_view (w : Width) (sr : SReg) (off : Word) :
    (s.afterRead w sr off).view = s.view := rfl
@[simp] theorem State.afterRead_reg16 (w : Width) (sr : SReg) (off : Word) (q : Reg16) :
    (s.afterRead w sr off).reg16 q = s.reg16 q := rfl
@[simp] theorem State.afterRead_reg8 (w : Width) (sr : SReg) (off : Word) (q : Reg8) :
    (s.afterRead w sr off).reg8 q = s.reg8 q := rfl
@[simp] theorem State.afterRead_reg (w : Width) (sr : SReg) (off : Word) (w' : Width) (q : RegNum) :
    (s.afterRead w sr off).reg w' q = s.reg w' q := by cases w' <;> simp [State.reg]
@[simp] theorem State.afterRead_ea (w : Width) (sr : SReg) (off : Word) (k : Mem) :
    (s.afterRead w sr off).ea k = s.ea k := by
  cases k with
  | direct a => rfl
  | based e d => cases e <;> simp [State.ea, State.eaBase]
@[simp] theorem State.afterRead_sreg (w : Width) (sr : SReg) (off : Word) (q : SReg) :
    (s.afterRead w sr off).sreg q = s.sreg q := rfl
@[simp] theorem State.afterRead_operandAt (w : Width) (sr : SReg) (off : Word) (q : SReg) (o' : Word) :
    (s.afterRead w sr off).operandAt q o' = s.operandAt q o' := rfl
@[simp] theorem State.afterRead_dataSegment (w : Width) (sr : SReg) (off : Word) (q : SReg) :
    (s.afterRead w sr off).dataSegment q = s.dataSegment q := rfl
@[simp] theorem State.afterRead_segRm (w : Width) (sr : SReg) (off : Word) (k : Mem) :
    (s.afterRead w sr off).segRm k = s.segRm k := rfl

/-! ## `afterMem` -/

@[simp] theorem State.afterMem_regs (w : Width) (m : Mem) : (s.afterMem w m).regs = s.regs := rfl
@[simp] theorem State.afterMem_segs (w : Width) (m : Mem) : (s.afterMem w m).segs = s.segs := rfl
@[simp] theorem State.afterMem_ip (w : Width) (m : Mem) : (s.afterMem w m).ip = s.ip := rfl
@[simp] theorem State.afterMem_flags (w : Width) (m : Mem) : (s.afterMem w m).flags = s.flags := rfl
@[simp] theorem State.afterMem_inhibit (w : Width) (m : Mem) : (s.afterMem w m).inhibit = s.inhibit := rfl
@[simp] theorem State.afterMem_run (w : Width) (m : Mem) : (s.afterMem w m).run = s.run := rfl
@[simp] theorem State.afterMem_locked (w : Width) (m : Mem) : (s.afterMem w m).locked = s.locked := rfl
@[simp] theorem State.afterMem_segOverride (w : Width) (m : Mem) : (s.afterMem w m).segOverride = s.segOverride := rfl
@[simp] theorem State.afterMem_rep (w : Width) (m : Mem) : (s.afterMem w m).rep = s.rep := rfl
@[simp] theorem State.afterMem_ipStart (w : Width) (m : Mem) : (s.afterMem w m).ipStart = s.ipStart := rfl
@[simp] theorem State.afterMem_trap (w : Width) (m : Mem) : (s.afterMem w m).trap = s.trap := rfl
@[simp] theorem State.afterMem_draws (w : Width) (m : Mem) : (s.afterMem w m).draws = s.draws := rfl
@[simp] theorem State.afterMem_params (w : Width) (m : Mem) : (s.afterMem w m).params = s.params := rfl
@[simp] theorem State.afterMem_control (w : Width) (m : Mem) : (s.afterMem w m).control = s.control := rfl
@[simp] theorem State.afterMem_view (w : Width) (m : Mem) : (s.afterMem w m).view = s.view := rfl
@[simp] theorem State.afterMem_reg16 (w : Width) (m : Mem) (q : Reg16) : (s.afterMem w m).reg16 q = s.reg16 q := rfl
@[simp] theorem State.afterMem_reg8 (w : Width) (m : Mem) (q : Reg8) : (s.afterMem w m).reg8 q = s.reg8 q := rfl
@[simp] theorem State.afterMem_reg (w : Width) (m : Mem) (w' : Width) (q : RegNum) :
    (s.afterMem w m).reg w' q = s.reg w' q := by cases w' <;> simp [State.reg]
@[simp] theorem State.afterMem_ea (w : Width) (m : Mem) (k : Mem) : (s.afterMem w m).ea k = s.ea k := by
  cases k with
  | direct a => rfl
  | based e d => cases e <;> simp [State.ea, State.eaBase]
@[simp] theorem State.afterMem_sreg (w : Width) (m : Mem) (q : SReg) : (s.afterMem w m).sreg q = s.sreg q := rfl
@[simp] theorem State.afterMem_operandAt (w : Width) (m : Mem) (q : SReg) (o' : Word) :
    (s.afterMem w m).operandAt q o' = s.operandAt q o' := rfl
@[simp] theorem State.afterMem_dataSegment (w : Width) (m : Mem) (q : SReg) :
    (s.afterMem w m).dataSegment q = s.dataSegment q := rfl
@[simp] theorem State.afterMem_segRm (w : Width) (m : Mem) (k : Mem) : (s.afterMem w m).segRm k = s.segRm k := rfl

/-! ## `afterPointer` -/

@[simp] theorem State.afterPointer_regs (m : Mem) : (s.afterPointer m).regs = s.regs := rfl
@[simp] theorem State.afterPointer_segs (m : Mem) : (s.afterPointer m).segs = s.segs := rfl
@[simp] theorem State.afterPointer_ip (m : Mem) : (s.afterPointer m).ip = s.ip := rfl
@[simp] theorem State.afterPointer_flags (m : Mem) : (s.afterPointer m).flags = s.flags := rfl
@[simp] theorem State.afterPointer_inhibit (m : Mem) : (s.afterPointer m).inhibit = s.inhibit := rfl
@[simp] theorem State.afterPointer_run (m : Mem) : (s.afterPointer m).run = s.run := rfl
@[simp] theorem State.afterPointer_locked (m : Mem) : (s.afterPointer m).locked = s.locked := rfl
@[simp] theorem State.afterPointer_segOverride (m : Mem) : (s.afterPointer m).segOverride = s.segOverride := rfl
@[simp] theorem State.afterPointer_rep (m : Mem) : (s.afterPointer m).rep = s.rep := rfl
@[simp] theorem State.afterPointer_ipStart (m : Mem) : (s.afterPointer m).ipStart = s.ipStart := rfl
@[simp] theorem State.afterPointer_trap (m : Mem) : (s.afterPointer m).trap = s.trap := rfl
@[simp] theorem State.afterPointer_draws (m : Mem) : (s.afterPointer m).draws = s.draws := rfl
@[simp] theorem State.afterPointer_params (m : Mem) : (s.afterPointer m).params = s.params := rfl
@[simp] theorem State.afterPointer_control (m : Mem) : (s.afterPointer m).control = s.control := rfl
@[simp] theorem State.afterPointer_view (m : Mem) : (s.afterPointer m).view = s.view := rfl
@[simp] theorem State.afterPointer_reg16 (m : Mem) (q : Reg16) : (s.afterPointer m).reg16 q = s.reg16 q := rfl
@[simp] theorem State.afterPointer_reg8 (m : Mem) (q : Reg8) : (s.afterPointer m).reg8 q = s.reg8 q := rfl
@[simp] theorem State.afterPointer_reg (m : Mem) (w' : Width) (q : RegNum) :
    (s.afterPointer m).reg w' q = s.reg w' q := by cases w' <;> simp [State.reg]
@[simp] theorem State.afterPointer_ea (m : Mem) (k : Mem) : (s.afterPointer m).ea k = s.ea k := by
  cases k with
  | direct a => rfl
  | based e d => cases e <;> simp [State.ea, State.eaBase]
@[simp] theorem State.afterPointer_sreg (m : Mem) (q : SReg) : (s.afterPointer m).sreg q = s.sreg q := rfl
@[simp] theorem State.afterPointer_operandAt (m : Mem) (q : SReg) (o' : Word) :
    (s.afterPointer m).operandAt q o' = s.operandAt q o' := rfl
@[simp] theorem State.afterPointer_dataSegment (m : Mem) (q : SReg) :
    (s.afterPointer m).dataSegment q = s.dataSegment q := rfl
@[simp] theorem State.afterPointer_segRm (m : Mem) (k : Mem) : (s.afterPointer m).segRm k = s.segRm k := rfl

/-! ## `afterRM` -/

@[simp] theorem State.afterRM_regs (w : Width) (rm : RM) : (s.afterRM w rm).regs = s.regs := by cases rm <;> rfl
@[simp] theorem State.afterRM_segs (w : Width) (rm : RM) : (s.afterRM w rm).segs = s.segs := by cases rm <;> rfl
@[simp] theorem State.afterRM_ip (w : Width) (rm : RM) : (s.afterRM w rm).ip = s.ip := by cases rm <;> rfl
@[simp] theorem State.afterRM_flags (w : Width) (rm : RM) : (s.afterRM w rm).flags = s.flags := by cases rm <;> rfl
@[simp] theorem State.afterRM_inhibit (w : Width) (rm : RM) :
    (s.afterRM w rm).inhibit = s.inhibit := by cases rm <;> rfl
@[simp] theorem State.afterRM_run (w : Width) (rm : RM) : (s.afterRM w rm).run = s.run := by cases rm <;> rfl
@[simp] theorem State.afterRM_locked (w : Width) (rm : RM) : (s.afterRM w rm).locked = s.locked := by cases rm <;> rfl
@[simp] theorem State.afterRM_segOverride (w : Width) (rm : RM) :
    (s.afterRM w rm).segOverride = s.segOverride := by cases rm <;> rfl
@[simp] theorem State.afterRM_rep (w : Width) (rm : RM) : (s.afterRM w rm).rep = s.rep := by cases rm <;> rfl
@[simp] theorem State.afterRM_ipStart (w : Width) (rm : RM) :
    (s.afterRM w rm).ipStart = s.ipStart := by cases rm <;> rfl
@[simp] theorem State.afterRM_trap (w : Width) (rm : RM) : (s.afterRM w rm).trap = s.trap := by cases rm <;> rfl
@[simp] theorem State.afterRM_draws (w : Width) (rm : RM) : (s.afterRM w rm).draws = s.draws := by cases rm <;> rfl
@[simp] theorem State.afterRM_params (w : Width) (rm : RM) : (s.afterRM w rm).params = s.params := by cases rm <;> rfl
@[simp] theorem State.afterRM_control (w : Width) (rm : RM) :
    (s.afterRM w rm).control = s.control := by simp [State.control]
@[simp] theorem State.afterRM_view (w : Width) (rm : RM) :
    (s.afterRM w rm).view = s.view := by simp [State.view, State.queueStart, State.fetching]
@[simp] theorem State.afterRM_reg16 (w : Width) (rm : RM) (q : Reg16) :
    (s.afterRM w rm).reg16 q = s.reg16 q := by simp [State.reg16]
@[simp] theorem State.afterRM_reg8 (w : Width) (rm : RM) (q : Reg8) :
    (s.afterRM w rm).reg8 q = s.reg8 q := by simp [State.reg8]
@[simp] theorem State.afterRM_reg (w : Width) (rm : RM) (w' : Width) (q : RegNum) :
    (s.afterRM w rm).reg w' q = s.reg w' q := by cases w' <;> simp [State.reg]
@[simp] theorem State.afterRM_ea (w : Width) (rm : RM) (k : Mem) : (s.afterRM w rm).ea k = s.ea k := by
  cases k with
  | direct a => rfl
  | based e d => cases e <;> simp [State.ea, State.eaBase]
@[simp] theorem State.afterRM_sreg (w : Width) (rm : RM) (q : SReg) :
    (s.afterRM w rm).sreg q = s.sreg q := by simp [State.sreg]
@[simp] theorem State.afterRM_operandAt (w : Width) (rm : RM) (q : SReg) (o' : Word) :
    (s.afterRM w rm).operandAt q o' = s.operandAt q o' := by simp [State.operandAt]
@[simp] theorem State.afterRM_dataSegment (w : Width) (rm : RM) (q : SReg) :
    (s.afterRM w rm).dataSegment q = s.dataSegment q := by simp [State.dataSegment]
@[simp] theorem State.afterRM_segRm (w : Width) (rm : RM) (k : Mem) :
    (s.afterRM w rm).segRm k = s.segRm k := by simp [State.segRm]

/-! ## `afterVector` -/

@[simp] theorem State.afterVector_regs (a : Addr) : (s.afterVector a).regs = s.regs := rfl
@[simp] theorem State.afterVector_segs (a : Addr) : (s.afterVector a).segs = s.segs := rfl
@[simp] theorem State.afterVector_ip (a : Addr) : (s.afterVector a).ip = s.ip := rfl
@[simp] theorem State.afterVector_flags (a : Addr) : (s.afterVector a).flags = s.flags := rfl
@[simp] theorem State.afterVector_inhibit (a : Addr) : (s.afterVector a).inhibit = s.inhibit := rfl
@[simp] theorem State.afterVector_run (a : Addr) : (s.afterVector a).run = s.run := rfl
@[simp] theorem State.afterVector_locked (a : Addr) : (s.afterVector a).locked = s.locked := rfl
@[simp] theorem State.afterVector_segOverride (a : Addr) : (s.afterVector a).segOverride = s.segOverride := rfl
@[simp] theorem State.afterVector_rep (a : Addr) : (s.afterVector a).rep = s.rep := rfl
@[simp] theorem State.afterVector_ipStart (a : Addr) : (s.afterVector a).ipStart = s.ipStart := rfl
@[simp] theorem State.afterVector_trap (a : Addr) : (s.afterVector a).trap = s.trap := rfl
@[simp] theorem State.afterVector_draws (a : Addr) : (s.afterVector a).draws = s.draws := rfl
@[simp] theorem State.afterVector_params (a : Addr) : (s.afterVector a).params = s.params := rfl
@[simp] theorem State.afterVector_control (a : Addr) : (s.afterVector a).control = s.control := rfl
@[simp] theorem State.afterVector_view (a : Addr) : (s.afterVector a).view = s.view := rfl
@[simp] theorem State.afterVector_reg16 (a : Addr) (q : Reg16) : (s.afterVector a).reg16 q = s.reg16 q := rfl
@[simp] theorem State.afterVector_reg8 (a : Addr) (q : Reg8) : (s.afterVector a).reg8 q = s.reg8 q := rfl
@[simp] theorem State.afterVector_reg (a : Addr) (w' : Width) (q : RegNum) :
    (s.afterVector a).reg w' q = s.reg w' q := by cases w' <;> simp [State.reg]
@[simp] theorem State.afterVector_ea (a : Addr) (k : Mem) : (s.afterVector a).ea k = s.ea k := by
  cases k with
  | direct a => rfl
  | based e d => cases e <;> simp [State.ea, State.eaBase]
@[simp] theorem State.afterVector_sreg (a : Addr) (q : SReg) : (s.afterVector a).sreg q = s.sreg q := rfl
@[simp] theorem State.afterVector_operandAt (a : Addr) (q : SReg) (o' : Word) :
    (s.afterVector a).operandAt q o' = s.operandAt q o' := rfl
@[simp] theorem State.afterVector_dataSegment (a : Addr) (q : SReg) :
    (s.afterVector a).dataSegment q = s.dataSegment q := rfl
@[simp] theorem State.afterVector_segRm (a : Addr) (k : Mem) : (s.afterVector a).segRm k = s.segRm k := rfl

/-! ## `afterPort` -/

@[simp] theorem State.afterPort_regs (w : Width) (p : Word) : (s.afterPort w p).regs = s.regs := rfl
@[simp] theorem State.afterPort_segs (w : Width) (p : Word) : (s.afterPort w p).segs = s.segs := rfl
@[simp] theorem State.afterPort_ip (w : Width) (p : Word) : (s.afterPort w p).ip = s.ip := rfl
@[simp] theorem State.afterPort_flags (w : Width) (p : Word) : (s.afterPort w p).flags = s.flags := rfl
@[simp] theorem State.afterPort_inhibit (w : Width) (p : Word) : (s.afterPort w p).inhibit = s.inhibit := rfl
@[simp] theorem State.afterPort_run (w : Width) (p : Word) : (s.afterPort w p).run = s.run := rfl
@[simp] theorem State.afterPort_locked (w : Width) (p : Word) : (s.afterPort w p).locked = s.locked := rfl
@[simp] theorem State.afterPort_segOverride (w : Width) (p : Word) :
    (s.afterPort w p).segOverride = s.segOverride := rfl
@[simp] theorem State.afterPort_rep (w : Width) (p : Word) : (s.afterPort w p).rep = s.rep := rfl
@[simp] theorem State.afterPort_ipStart (w : Width) (p : Word) : (s.afterPort w p).ipStart = s.ipStart := rfl
@[simp] theorem State.afterPort_trap (w : Width) (p : Word) : (s.afterPort w p).trap = s.trap := rfl
@[simp] theorem State.afterPort_draws (w : Width) (p : Word) : (s.afterPort w p).draws = s.draws := rfl
@[simp] theorem State.afterPort_params (w : Width) (p : Word) : (s.afterPort w p).params = s.params := rfl
@[simp] theorem State.afterPort_control (w : Width) (p : Word) : (s.afterPort w p).control = s.control := rfl
@[simp] theorem State.afterPort_view (w : Width) (p : Word) : (s.afterPort w p).view = s.view := rfl
@[simp] theorem State.afterPort_reg16 (w : Width) (p : Word) (q : Reg16) :
    (s.afterPort w p).reg16 q = s.reg16 q := rfl
@[simp] theorem State.afterPort_reg8 (w : Width) (p : Word) (q : Reg8) : (s.afterPort w p).reg8 q = s.reg8 q := rfl
@[simp] theorem State.afterPort_reg (w : Width) (p : Word) (w' : Width) (q : RegNum) :
    (s.afterPort w p).reg w' q = s.reg w' q := by cases w' <;> simp [State.reg]
@[simp] theorem State.afterPort_ea (w : Width) (p : Word) (k : Mem) : (s.afterPort w p).ea k = s.ea k := by
  cases k with
  | direct a => rfl
  | based e d => cases e <;> simp [State.ea, State.eaBase]
@[simp] theorem State.afterPort_sreg (w : Width) (p : Word) (q : SReg) : (s.afterPort w p).sreg q = s.sreg q := rfl
@[simp] theorem State.afterPort_operandAt (w : Width) (p : Word) (q : SReg) (o' : Word) :
    (s.afterPort w p).operandAt q o' = s.operandAt q o' := rfl
@[simp] theorem State.afterPort_dataSegment (w : Width) (p : Word) (q : SReg) :
    (s.afterPort w p).dataSegment q = s.dataSegment q := rfl
@[simp] theorem State.afterPort_segRm (w : Width) (p : Word) (k : Mem) : (s.afterPort w p).segRm k = s.segRm k := rfl

/-! ## `writeSeg` -/

@[simp] theorem State.writeSeg_regs (w : Width) (sr : SReg) (off : Word) (v : Operand w) :
    (s.writeSeg w sr off v).regs = s.regs := rfl
@[simp] theorem State.writeSeg_segs (w : Width) (sr : SReg) (off : Word) (v : Operand w) :
    (s.writeSeg w sr off v).segs = s.segs := rfl
@[simp] theorem State.writeSeg_ip (w : Width) (sr : SReg) (off : Word) (v : Operand w) :
    (s.writeSeg w sr off v).ip = s.ip := rfl
@[simp] theorem State.writeSeg_flags (w : Width) (sr : SReg) (off : Word) (v : Operand w) :
    (s.writeSeg w sr off v).flags = s.flags := rfl
@[simp] theorem State.writeSeg_inhibit (w : Width) (sr : SReg) (off : Word) (v : Operand w) :
    (s.writeSeg w sr off v).inhibit = s.inhibit := rfl
@[simp] theorem State.writeSeg_run (w : Width) (sr : SReg) (off : Word) (v : Operand w) :
    (s.writeSeg w sr off v).run = s.run := rfl
@[simp] theorem State.writeSeg_locked (w : Width) (sr : SReg) (off : Word) (v : Operand w) :
    (s.writeSeg w sr off v).locked = s.locked := rfl
@[simp] theorem State.writeSeg_segOverride (w : Width) (sr : SReg) (off : Word) (v : Operand w) :
    (s.writeSeg w sr off v).segOverride = s.segOverride := rfl
@[simp] theorem State.writeSeg_rep (w : Width) (sr : SReg) (off : Word) (v : Operand w) :
    (s.writeSeg w sr off v).rep = s.rep := rfl
@[simp] theorem State.writeSeg_ipStart (w : Width) (sr : SReg) (off : Word) (v : Operand w) :
    (s.writeSeg w sr off v).ipStart = s.ipStart := rfl
@[simp] theorem State.writeSeg_trap (w : Width) (sr : SReg) (off : Word) (v : Operand w) :
    (s.writeSeg w sr off v).trap = s.trap := rfl
@[simp] theorem State.writeSeg_draws (w : Width) (sr : SReg) (off : Word) (v : Operand w) :
    (s.writeSeg w sr off v).draws = s.draws := rfl
@[simp] theorem State.writeSeg_params (w : Width) (sr : SReg) (off : Word) (v : Operand w) :
    (s.writeSeg w sr off v).params = s.params := rfl
@[simp] theorem State.writeSeg_control (w : Width) (sr : SReg) (off : Word) (v : Operand w) :
    (s.writeSeg w sr off v).control = s.control := rfl
@[simp] theorem State.writeSeg_view (w : Width) (sr : SReg) (off : Word) (v : Operand w) :
    (s.writeSeg w sr off v).view = s.view := rfl
@[simp] theorem State.writeSeg_reg16 (w : Width) (sr : SReg) (off : Word) (v : Operand w) (q : Reg16) :
    (s.writeSeg w sr off v).reg16 q = s.reg16 q := rfl
@[simp] theorem State.writeSeg_reg8 (w : Width) (sr : SReg) (off : Word) (v : Operand w) (q : Reg8) :
    (s.writeSeg w sr off v).reg8 q = s.reg8 q := rfl
@[simp] theorem State.writeSeg_reg (w : Width) (sr : SReg) (off : Word) (v : Operand w) (w' : Width) (q : RegNum) :
    (s.writeSeg w sr off v).reg w' q = s.reg w' q := by cases w' <;> simp [State.reg]
@[simp] theorem State.writeSeg_ea (w : Width) (sr : SReg) (off : Word) (v : Operand w) (k : Mem) :
    (s.writeSeg w sr off v).ea k = s.ea k := by
  cases k with
  | direct a => rfl
  | based e d => cases e <;> simp [State.ea, State.eaBase]
@[simp] theorem State.writeSeg_sreg (w : Width) (sr : SReg) (off : Word) (v : Operand w) (q : SReg) :
    (s.writeSeg w sr off v).sreg q = s.sreg q := rfl
@[simp] theorem State.writeSeg_operandAt (w : Width) (sr : SReg) (off : Word) (v : Operand w) (q : SReg) (o' : Word) :
    (s.writeSeg w sr off v).operandAt q o' = s.operandAt q o' := rfl
@[simp] theorem State.writeSeg_dataSegment (w : Width) (sr : SReg) (off : Word) (v : Operand w) (q : SReg) :
    (s.writeSeg w sr off v).dataSegment q = s.dataSegment q := rfl
@[simp] theorem State.writeSeg_segRm (w : Width) (sr : SReg) (off : Word) (v : Operand w) (k : Mem) :
    (s.writeSeg w sr off v).segRm k = s.segRm k := rfl

/-! ## `writePort` -/

@[simp] theorem State.writePort_regs (w : Width) (p : Word) (v : Operand w) : (s.writePort w p v).regs = s.regs := rfl
@[simp] theorem State.writePort_segs (w : Width) (p : Word) (v : Operand w) : (s.writePort w p v).segs = s.segs := rfl
@[simp] theorem State.writePort_ip (w : Width) (p : Word) (v : Operand w) : (s.writePort w p v).ip = s.ip := rfl
@[simp] theorem State.writePort_flags (w : Width) (p : Word) (v : Operand w) :
    (s.writePort w p v).flags = s.flags := rfl
@[simp] theorem State.writePort_inhibit (w : Width) (p : Word) (v : Operand w) :
    (s.writePort w p v).inhibit = s.inhibit := rfl
@[simp] theorem State.writePort_run (w : Width) (p : Word) (v : Operand w) : (s.writePort w p v).run = s.run := rfl
@[simp] theorem State.writePort_locked (w : Width) (p : Word) (v : Operand w) :
    (s.writePort w p v).locked = s.locked := rfl
@[simp] theorem State.writePort_segOverride (w : Width) (p : Word) (v : Operand w) :
    (s.writePort w p v).segOverride = s.segOverride := rfl
@[simp] theorem State.writePort_rep (w : Width) (p : Word) (v : Operand w) : (s.writePort w p v).rep = s.rep := rfl
@[simp] theorem State.writePort_ipStart (w : Width) (p : Word) (v : Operand w) :
    (s.writePort w p v).ipStart = s.ipStart := rfl
@[simp] theorem State.writePort_trap (w : Width) (p : Word) (v : Operand w) : (s.writePort w p v).trap = s.trap := rfl
@[simp] theorem State.writePort_draws (w : Width) (p : Word) (v : Operand w) :
    (s.writePort w p v).draws = s.draws := rfl
@[simp] theorem State.writePort_params (w : Width) (p : Word) (v : Operand w) :
    (s.writePort w p v).params = s.params := rfl
@[simp] theorem State.writePort_control (w : Width) (p : Word) (v : Operand w) :
    (s.writePort w p v).control = s.control := rfl
@[simp] theorem State.writePort_view (w : Width) (p : Word) (v : Operand w) : (s.writePort w p v).view = s.view := rfl
@[simp] theorem State.writePort_reg16 (w : Width) (p : Word) (v : Operand w) (q : Reg16) :
    (s.writePort w p v).reg16 q = s.reg16 q := rfl
@[simp] theorem State.writePort_reg8 (w : Width) (p : Word) (v : Operand w) (q : Reg8) :
    (s.writePort w p v).reg8 q = s.reg8 q := rfl
@[simp] theorem State.writePort_reg (w : Width) (p : Word) (v : Operand w) (w' : Width) (q : RegNum) :
    (s.writePort w p v).reg w' q = s.reg w' q := by cases w' <;> simp [State.reg]
@[simp] theorem State.writePort_ea (w : Width) (p : Word) (v : Operand w) (k : Mem) :
    (s.writePort w p v).ea k = s.ea k := by
  cases k with
  | direct a => rfl
  | based e d => cases e <;> simp [State.ea, State.eaBase]
@[simp] theorem State.writePort_sreg (w : Width) (p : Word) (v : Operand w) (q : SReg) :
    (s.writePort w p v).sreg q = s.sreg q := rfl
@[simp] theorem State.writePort_operandAt (w : Width) (p : Word) (v : Operand w) (q : SReg) (o' : Word) :
    (s.writePort w p v).operandAt q o' = s.operandAt q o' := rfl
@[simp] theorem State.writePort_dataSegment (w : Width) (p : Word) (v : Operand w) (q : SReg) :
    (s.writePort w p v).dataSegment q = s.dataSegment q := rfl
@[simp] theorem State.writePort_segRm (w : Width) (p : Word) (v : Operand w) (k : Mem) :
    (s.writePort w p v).segRm k = s.segRm k := rfl

/-! ## `acknowledge` -/

@[simp] theorem State.acknowledge_regs (t : Byte) : (s.acknowledge t).regs = s.regs := rfl
@[simp] theorem State.acknowledge_segs (t : Byte) : (s.acknowledge t).segs = s.segs := rfl
@[simp] theorem State.acknowledge_ip (t : Byte) : (s.acknowledge t).ip = s.ip := rfl
@[simp] theorem State.acknowledge_flags (t : Byte) : (s.acknowledge t).flags = s.flags := rfl
@[simp] theorem State.acknowledge_inhibit (t : Byte) : (s.acknowledge t).inhibit = s.inhibit := rfl
@[simp] theorem State.acknowledge_run (t : Byte) : (s.acknowledge t).run = s.run := rfl
@[simp] theorem State.acknowledge_locked (t : Byte) : (s.acknowledge t).locked = s.locked := rfl
@[simp] theorem State.acknowledge_segOverride (t : Byte) : (s.acknowledge t).segOverride = s.segOverride := rfl
@[simp] theorem State.acknowledge_rep (t : Byte) : (s.acknowledge t).rep = s.rep := rfl
@[simp] theorem State.acknowledge_ipStart (t : Byte) : (s.acknowledge t).ipStart = s.ipStart := rfl
@[simp] theorem State.acknowledge_trap (t : Byte) : (s.acknowledge t).trap = s.trap := rfl
@[simp] theorem State.acknowledge_draws (t : Byte) : (s.acknowledge t).draws = s.draws := rfl
@[simp] theorem State.acknowledge_params (t : Byte) : (s.acknowledge t).params = s.params := rfl
@[simp] theorem State.acknowledge_control (t : Byte) : (s.acknowledge t).control = s.control := rfl
@[simp] theorem State.acknowledge_view (t : Byte) : (s.acknowledge t).view = s.view := rfl
@[simp] theorem State.acknowledge_reg16 (t : Byte) (q : Reg16) : (s.acknowledge t).reg16 q = s.reg16 q := rfl
@[simp] theorem State.acknowledge_reg8 (t : Byte) (q : Reg8) : (s.acknowledge t).reg8 q = s.reg8 q := rfl
@[simp] theorem State.acknowledge_reg (t : Byte) (w' : Width) (q : RegNum) :
    (s.acknowledge t).reg w' q = s.reg w' q := by cases w' <;> simp [State.reg]
@[simp] theorem State.acknowledge_ea (t : Byte) (k : Mem) : (s.acknowledge t).ea k = s.ea k := by
  cases k with
  | direct a => rfl
  | based e d => cases e <;> simp [State.ea, State.eaBase]
@[simp] theorem State.acknowledge_sreg (t : Byte) (q : SReg) : (s.acknowledge t).sreg q = s.sreg q := rfl
@[simp] theorem State.acknowledge_operandAt (t : Byte) (q : SReg) (o' : Word) :
    (s.acknowledge t).operandAt q o' = s.operandAt q o' := rfl
@[simp] theorem State.acknowledge_dataSegment (t : Byte) (q : SReg) :
    (s.acknowledge t).dataSegment q = s.dataSegment q := rfl
@[simp] theorem State.acknowledge_segRm (t : Byte) (k : Mem) : (s.acknowledge t).segRm k = s.segRm k := rfl

/-! ## `takeNmi` -/

@[simp] theorem State.takeNmi_regs : (s.takeNmi).regs = s.regs := rfl
@[simp] theorem State.takeNmi_segs : (s.takeNmi).segs = s.segs := rfl
@[simp] theorem State.takeNmi_ip : (s.takeNmi).ip = s.ip := rfl
@[simp] theorem State.takeNmi_flags : (s.takeNmi).flags = s.flags := rfl
@[simp] theorem State.takeNmi_inhibit : (s.takeNmi).inhibit = s.inhibit := rfl
@[simp] theorem State.takeNmi_run : (s.takeNmi).run = s.run := rfl
@[simp] theorem State.takeNmi_locked : (s.takeNmi).locked = s.locked := rfl
@[simp] theorem State.takeNmi_segOverride : (s.takeNmi).segOverride = s.segOverride := rfl
@[simp] theorem State.takeNmi_rep : (s.takeNmi).rep = s.rep := rfl
@[simp] theorem State.takeNmi_ipStart : (s.takeNmi).ipStart = s.ipStart := rfl
@[simp] theorem State.takeNmi_trap : (s.takeNmi).trap = s.trap := rfl
@[simp] theorem State.takeNmi_draws : (s.takeNmi).draws = s.draws := rfl
@[simp] theorem State.takeNmi_params : (s.takeNmi).params = s.params := rfl
@[simp] theorem State.takeNmi_control : (s.takeNmi).control = s.control := rfl
@[simp] theorem State.takeNmi_view : (s.takeNmi).view = s.view := rfl
@[simp] theorem State.takeNmi_reg16 (q : Reg16) : (s.takeNmi).reg16 q = s.reg16 q := rfl
@[simp] theorem State.takeNmi_reg8 (q : Reg8) : (s.takeNmi).reg8 q = s.reg8 q := rfl
@[simp] theorem State.takeNmi_reg (w' : Width) (q : RegNum) :
    (s.takeNmi).reg w' q = s.reg w' q := by cases w' <;> simp [State.reg]
@[simp] theorem State.takeNmi_ea (k : Mem) : (s.takeNmi).ea k = s.ea k := by
  cases k with
  | direct a => rfl
  | based e d => cases e <;> simp [State.ea, State.eaBase]
@[simp] theorem State.takeNmi_sreg (q : SReg) : (s.takeNmi).sreg q = s.sreg q := rfl
@[simp] theorem State.takeNmi_operandAt (q : SReg) (o' : Word) : (s.takeNmi).operandAt q o' = s.operandAt q o' := rfl
@[simp] theorem State.takeNmi_dataSegment (q : SReg) : (s.takeNmi).dataSegment q = s.dataSegment q := rfl
@[simp] theorem State.takeNmi_segRm (k : Mem) : (s.takeNmi).segRm k = s.segRm k := rfl

/-! ## `tick` -/

@[simp] theorem State.tick_regs : (s.tick).regs = s.regs := rfl
@[simp] theorem State.tick_segs : (s.tick).segs = s.segs := rfl
@[simp] theorem State.tick_ip : (s.tick).ip = s.ip := rfl
@[simp] theorem State.tick_flags : (s.tick).flags = s.flags := rfl
@[simp] theorem State.tick_inhibit : (s.tick).inhibit = s.inhibit := rfl
@[simp] theorem State.tick_run : (s.tick).run = s.run := rfl
@[simp] theorem State.tick_locked : (s.tick).locked = s.locked := rfl
@[simp] theorem State.tick_segOverride : (s.tick).segOverride = s.segOverride := rfl
@[simp] theorem State.tick_rep : (s.tick).rep = s.rep := rfl
@[simp] theorem State.tick_ipStart : (s.tick).ipStart = s.ipStart := rfl
@[simp] theorem State.tick_trap : (s.tick).trap = s.trap := rfl
@[simp] theorem State.tick_draws : (s.tick).draws = s.draws := rfl
@[simp] theorem State.tick_params : (s.tick).params = s.params := rfl
@[simp] theorem State.tick_control : (s.tick).control = s.control := rfl
@[simp] theorem State.tick_view : (s.tick).view = s.view := rfl
@[simp] theorem State.tick_reg16 (q : Reg16) : (s.tick).reg16 q = s.reg16 q := rfl
@[simp] theorem State.tick_reg8 (q : Reg8) : (s.tick).reg8 q = s.reg8 q := rfl
@[simp] theorem State.tick_reg (w' : Width) (q : RegNum) :
    (s.tick).reg w' q = s.reg w' q := by cases w' <;> simp [State.reg]
@[simp] theorem State.tick_ea (k : Mem) : (s.tick).ea k = s.ea k := by
  cases k with
  | direct a => rfl
  | based e d => cases e <;> simp [State.ea, State.eaBase]
@[simp] theorem State.tick_sreg (q : SReg) : (s.tick).sreg q = s.sreg q := rfl
@[simp] theorem State.tick_operandAt (q : SReg) (o' : Word) : (s.tick).operandAt q o' = s.operandAt q o' := rfl
@[simp] theorem State.tick_dataSegment (q : SReg) : (s.tick).dataSegment q = s.dataSegment q := rfl
@[simp] theorem State.tick_segRm (k : Mem) : (s.tick).segRm k = s.segRm k := rfl

/-! ## `fetchCode` -/

/-- A fetch changes the bus only. -/
theorem State.fetchCode_eq (n : Nat) : s.fetchCode n = s.setBus (s.fetchCode n).bus := by
  induction n generalizing s with
  | zero => rfl
  | succ n ih =>
    simp only [State.fetchCode]
    split <;> [rfl; split] <;> first | rfl | exact ih _

@[simp] theorem State.fetchCode_regs (n : Nat) : (s.fetchCode n).regs = s.regs := by rw [s.fetchCode_eq n]; rfl
@[simp] theorem State.fetchCode_segs (n : Nat) : (s.fetchCode n).segs = s.segs := by rw [s.fetchCode_eq n]; rfl
@[simp] theorem State.fetchCode_ip (n : Nat) : (s.fetchCode n).ip = s.ip := by rw [s.fetchCode_eq n]; rfl
@[simp] theorem State.fetchCode_flags (n : Nat) : (s.fetchCode n).flags = s.flags := by rw [s.fetchCode_eq n]; rfl
@[simp] theorem State.fetchCode_inhibit (n : Nat) :
    (s.fetchCode n).inhibit = s.inhibit := by rw [s.fetchCode_eq n]; rfl
@[simp] theorem State.fetchCode_run (n : Nat) : (s.fetchCode n).run = s.run := by rw [s.fetchCode_eq n]; rfl
@[simp] theorem State.fetchCode_locked (n : Nat) : (s.fetchCode n).locked = s.locked := by rw [s.fetchCode_eq n]; rfl
@[simp] theorem State.fetchCode_segOverride (n : Nat) :
    (s.fetchCode n).segOverride = s.segOverride := by rw [s.fetchCode_eq n]; rfl
@[simp] theorem State.fetchCode_rep (n : Nat) : (s.fetchCode n).rep = s.rep := by rw [s.fetchCode_eq n]; rfl
@[simp] theorem State.fetchCode_ipStart (n : Nat) :
    (s.fetchCode n).ipStart = s.ipStart := by rw [s.fetchCode_eq n]; rfl
@[simp] theorem State.fetchCode_trap (n : Nat) : (s.fetchCode n).trap = s.trap := by rw [s.fetchCode_eq n]; rfl
@[simp] theorem State.fetchCode_draws (n : Nat) : (s.fetchCode n).draws = s.draws := by rw [s.fetchCode_eq n]; rfl
@[simp] theorem State.fetchCode_params (n : Nat) : (s.fetchCode n).params = s.params := by rw [s.fetchCode_eq n]; rfl
@[simp] theorem State.fetchCode_control (n : Nat) : (s.fetchCode n).control = s.control := by simp [State.control]
@[simp] theorem State.fetchCode_view (n : Nat) :
    (s.fetchCode n).view = s.view := by simp [State.view, State.queueStart, State.fetching]
@[simp] theorem State.fetchCode_reg16 (n : Nat) (q : Reg16) :
    (s.fetchCode n).reg16 q = s.reg16 q := by simp [State.reg16]
@[simp] theorem State.fetchCode_reg8 (n : Nat) (q : Reg8) : (s.fetchCode n).reg8 q = s.reg8 q := by simp [State.reg8]
@[simp] theorem State.fetchCode_reg (n : Nat) (w' : Width) (q : RegNum) :
    (s.fetchCode n).reg w' q = s.reg w' q := by cases w' <;> simp [State.reg]
@[simp] theorem State.fetchCode_ea (n : Nat) (k : Mem) : (s.fetchCode n).ea k = s.ea k := by
  cases k with
  | direct a => rfl
  | based e d => cases e <;> simp [State.ea, State.eaBase]
@[simp] theorem State.fetchCode_sreg (n : Nat) (q : SReg) : (s.fetchCode n).sreg q = s.sreg q := by simp [State.sreg]
@[simp] theorem State.fetchCode_operandAt (n : Nat) (q : SReg) (o' : Word) :
    (s.fetchCode n).operandAt q o' = s.operandAt q o' := by simp [State.operandAt]
@[simp] theorem State.fetchCode_dataSegment (n : Nat) (q : SReg) :
    (s.fetchCode n).dataSegment q = s.dataSegment q := by simp [State.dataSegment]
@[simp] theorem State.fetchCode_segRm (n : Nat) (k : Mem) :
    (s.fetchCode n).segRm k = s.segRm k := by simp [State.segRm]

/-! ## `fetched` -/

@[simp] theorem State.fetched_regs : (s.fetched).regs = s.regs := by simp [State.fetched]
@[simp] theorem State.fetched_segs : (s.fetched).segs = s.segs := by simp [State.fetched]
@[simp] theorem State.fetched_ip : (s.fetched).ip = s.ip := by simp [State.fetched]
@[simp] theorem State.fetched_flags : (s.fetched).flags = s.flags := by simp [State.fetched]
@[simp] theorem State.fetched_inhibit : (s.fetched).inhibit = s.inhibit := by simp [State.fetched]
@[simp] theorem State.fetched_run : (s.fetched).run = s.run := by simp [State.fetched]
@[simp] theorem State.fetched_locked : (s.fetched).locked = s.locked := by simp [State.fetched]
@[simp] theorem State.fetched_segOverride : (s.fetched).segOverride = s.segOverride := by simp [State.fetched]
@[simp] theorem State.fetched_rep : (s.fetched).rep = s.rep := by simp [State.fetched]
@[simp] theorem State.fetched_ipStart : (s.fetched).ipStart = s.ipStart := by simp [State.fetched]
@[simp] theorem State.fetched_trap : (s.fetched).trap = s.trap := by simp [State.fetched]
@[simp] theorem State.fetched_draws : (s.fetched).draws = s.draws := by simp [State.fetched]
@[simp] theorem State.fetched_params : (s.fetched).params = s.params := by simp [State.fetched]
@[simp] theorem State.fetched_control : (s.fetched).control = s.control := by simp [State.control]
@[simp] theorem State.fetched_view :
    (s.fetched).view = s.view := by simp [State.view, State.queueStart, State.fetching]
@[simp] theorem State.fetched_reg16 (q : Reg16) : (s.fetched).reg16 q = s.reg16 q := by simp [State.reg16]
@[simp] theorem State.fetched_reg8 (q : Reg8) : (s.fetched).reg8 q = s.reg8 q := by simp [State.reg8]
@[simp] theorem State.fetched_reg (w' : Width) (q : RegNum) :
    (s.fetched).reg w' q = s.reg w' q := by cases w' <;> simp [State.reg]
@[simp] theorem State.fetched_ea (k : Mem) : (s.fetched).ea k = s.ea k := by
  cases k with
  | direct a => rfl
  | based e d => cases e <;> simp [State.ea, State.eaBase]
@[simp] theorem State.fetched_sreg (q : SReg) : (s.fetched).sreg q = s.sreg q := by simp [State.sreg]
@[simp] theorem State.fetched_operandAt (q : SReg) (o' : Word) :
    (s.fetched).operandAt q o' = s.operandAt q o' := by simp [State.operandAt]
@[simp] theorem State.fetched_dataSegment (q : SReg) :
    (s.fetched).dataSegment q = s.dataSegment q := by simp [State.dataSegment]
@[simp] theorem State.fetched_segRm (k : Mem) : (s.fetched).segRm k = s.segRm k := by simp [State.segRm]

/-! ## `push16` -/

@[simp] theorem State.push16_segs (v : Word) : (s.push16 v).segs = s.segs := rfl
@[simp] theorem State.push16_ip (v : Word) : (s.push16 v).ip = s.ip := rfl
@[simp] theorem State.push16_flags (v : Word) : (s.push16 v).flags = s.flags := rfl
@[simp] theorem State.push16_inhibit (v : Word) : (s.push16 v).inhibit = s.inhibit := rfl
@[simp] theorem State.push16_run (v : Word) : (s.push16 v).run = s.run := rfl
@[simp] theorem State.push16_locked (v : Word) : (s.push16 v).locked = s.locked := rfl
@[simp] theorem State.push16_segOverride (v : Word) : (s.push16 v).segOverride = s.segOverride := rfl
@[simp] theorem State.push16_rep (v : Word) : (s.push16 v).rep = s.rep := rfl
@[simp] theorem State.push16_ipStart (v : Word) : (s.push16 v).ipStart = s.ipStart := rfl
@[simp] theorem State.push16_trap (v : Word) : (s.push16 v).trap = s.trap := rfl
@[simp] theorem State.push16_draws (v : Word) : (s.push16 v).draws = s.draws := rfl
@[simp] theorem State.push16_params (v : Word) : (s.push16 v).params = s.params := rfl
@[simp] theorem State.push16_control (v : Word) : (s.push16 v).control = s.control := rfl
@[simp] theorem State.push16_view (v : Word) : (s.push16 v).view = s.view := rfl
@[simp] theorem State.push16_sreg (v : Word) (q : SReg) : (s.push16 v).sreg q = s.sreg q := rfl
@[simp] theorem State.push16_operandAt (v : Word) (q : SReg) (o' : Word) :
    (s.push16 v).operandAt q o' = s.operandAt q o' := rfl
@[simp] theorem State.push16_dataSegment (v : Word) (q : SReg) : (s.push16 v).dataSegment q = s.dataSegment q := rfl
@[simp] theorem State.push16_segRm (v : Word) (k : Mem) : (s.push16 v).segRm k = s.segRm k := rfl

/-! ## `dropTop` -/

@[simp] theorem State.dropTop_segs : (s.dropTop).segs = s.segs := rfl
@[simp] theorem State.dropTop_ip : (s.dropTop).ip = s.ip := rfl
@[simp] theorem State.dropTop_flags : (s.dropTop).flags = s.flags := rfl
@[simp] theorem State.dropTop_inhibit : (s.dropTop).inhibit = s.inhibit := rfl
@[simp] theorem State.dropTop_run : (s.dropTop).run = s.run := rfl
@[simp] theorem State.dropTop_locked : (s.dropTop).locked = s.locked := rfl
@[simp] theorem State.dropTop_segOverride : (s.dropTop).segOverride = s.segOverride := rfl
@[simp] theorem State.dropTop_rep : (s.dropTop).rep = s.rep := rfl
@[simp] theorem State.dropTop_ipStart : (s.dropTop).ipStart = s.ipStart := rfl
@[simp] theorem State.dropTop_trap : (s.dropTop).trap = s.trap := rfl
@[simp] theorem State.dropTop_draws : (s.dropTop).draws = s.draws := rfl
@[simp] theorem State.dropTop_params : (s.dropTop).params = s.params := rfl
@[simp] theorem State.dropTop_control : (s.dropTop).control = s.control := rfl
@[simp] theorem State.dropTop_view : (s.dropTop).view = s.view := rfl
@[simp] theorem State.dropTop_sreg (q : SReg) : (s.dropTop).sreg q = s.sreg q := rfl
@[simp] theorem State.dropTop_operandAt (q : SReg) (o' : Word) : (s.dropTop).operandAt q o' = s.operandAt q o' := rfl
@[simp] theorem State.dropTop_dataSegment (q : SReg) : (s.dropTop).dataSegment q = s.dataSegment q := rfl
@[simp] theorem State.dropTop_segRm (k : Mem) : (s.dropTop).segRm k = s.segRm k := rfl

/-! ## `writeRM` -/

@[simp] theorem State.writeRM_segs (w : Width) (rm : RM) (v : Operand w) :
    (s.writeRM w rm v).segs = s.segs := by cases rm <;> simp [State.writeRM]
@[simp] theorem State.writeRM_ip (w : Width) (rm : RM) (v : Operand w) :
    (s.writeRM w rm v).ip = s.ip := by cases rm <;> simp [State.writeRM]
@[simp] theorem State.writeRM_flags (w : Width) (rm : RM) (v : Operand w) :
    (s.writeRM w rm v).flags = s.flags := by cases rm <;> simp [State.writeRM]
@[simp] theorem State.writeRM_inhibit (w : Width) (rm : RM) (v : Operand w) :
    (s.writeRM w rm v).inhibit = s.inhibit := by cases rm <;> simp [State.writeRM]
@[simp] theorem State.writeRM_run (w : Width) (rm : RM) (v : Operand w) :
    (s.writeRM w rm v).run = s.run := by cases rm <;> simp [State.writeRM]
@[simp] theorem State.writeRM_locked (w : Width) (rm : RM) (v : Operand w) :
    (s.writeRM w rm v).locked = s.locked := by cases rm <;> simp [State.writeRM]
@[simp] theorem State.writeRM_segOverride (w : Width) (rm : RM) (v : Operand w) :
    (s.writeRM w rm v).segOverride = s.segOverride := by cases rm <;> simp [State.writeRM]
@[simp] theorem State.writeRM_rep (w : Width) (rm : RM) (v : Operand w) :
    (s.writeRM w rm v).rep = s.rep := by cases rm <;> simp [State.writeRM]
@[simp] theorem State.writeRM_ipStart (w : Width) (rm : RM) (v : Operand w) :
    (s.writeRM w rm v).ipStart = s.ipStart := by cases rm <;> simp [State.writeRM]
@[simp] theorem State.writeRM_trap (w : Width) (rm : RM) (v : Operand w) :
    (s.writeRM w rm v).trap = s.trap := by cases rm <;> simp [State.writeRM]
@[simp] theorem State.writeRM_draws (w : Width) (rm : RM) (v : Operand w) :
    (s.writeRM w rm v).draws = s.draws := by cases rm <;> simp [State.writeRM]
@[simp] theorem State.writeRM_params (w : Width) (rm : RM) (v : Operand w) :
    (s.writeRM w rm v).params = s.params := by cases rm <;> simp [State.writeRM]
@[simp] theorem State.writeRM_control (w : Width) (rm : RM) (v : Operand w) :
    (s.writeRM w rm v).control = s.control := by simp [State.control]
@[simp] theorem State.writeRM_view (w : Width) (rm : RM) (v : Operand w) :
    (s.writeRM w rm v).view = s.view := by simp [State.view, State.queueStart, State.fetching]
@[simp] theorem State.writeRM_sreg (w : Width) (rm : RM) (v : Operand w) (q : SReg) :
    (s.writeRM w rm v).sreg q = s.sreg q := by simp [State.sreg]
@[simp] theorem State.writeRM_operandAt (w : Width) (rm : RM) (v : Operand w) (q : SReg) (o' : Word) :
    (s.writeRM w rm v).operandAt q o' = s.operandAt q o' := by simp [State.operandAt]
@[simp] theorem State.writeRM_dataSegment (w : Width) (rm : RM) (v : Operand w) (q : SReg) :
    (s.writeRM w rm v).dataSegment q = s.dataSegment q := by simp [State.dataSegment]
@[simp] theorem State.writeRM_segRm (w : Width) (rm : RM) (v : Operand w) (k : Mem) :
    (s.writeRM w rm v).segRm k = s.segRm k := by simp [State.segRm]

/-! ## `countCx` -/

@[simp] theorem State.countCx_segs : (s.countCx).segs = s.segs := rfl
@[simp] theorem State.countCx_ip : (s.countCx).ip = s.ip := rfl
@[simp] theorem State.countCx_flags : (s.countCx).flags = s.flags := rfl
@[simp] theorem State.countCx_bus : (s.countCx).bus = s.bus := rfl
@[simp] theorem State.countCx_inhibit : (s.countCx).inhibit = s.inhibit := rfl
@[simp] theorem State.countCx_run : (s.countCx).run = s.run := rfl
@[simp] theorem State.countCx_locked : (s.countCx).locked = s.locked := rfl
@[simp] theorem State.countCx_segOverride : (s.countCx).segOverride = s.segOverride := rfl
@[simp] theorem State.countCx_rep : (s.countCx).rep = s.rep := rfl
@[simp] theorem State.countCx_ipStart : (s.countCx).ipStart = s.ipStart := rfl
@[simp] theorem State.countCx_trap : (s.countCx).trap = s.trap := rfl
@[simp] theorem State.countCx_draws : (s.countCx).draws = s.draws := rfl
@[simp] theorem State.countCx_params : (s.countCx).params = s.params := rfl
@[simp] theorem State.countCx_control : (s.countCx).control = s.control := rfl
@[simp] theorem State.countCx_view : (s.countCx).view = s.view := rfl
@[simp] theorem State.countCx_sreg (q : SReg) : (s.countCx).sreg q = s.sreg q := rfl
@[simp] theorem State.countCx_operandAt (q : SReg) (o' : Word) : (s.countCx).operandAt q o' = s.operandAt q o' := rfl
@[simp] theorem State.countCx_dataSegment (q : SReg) : (s.countCx).dataSegment q = s.dataSegment q := rfl
@[simp] theorem State.countCx_segRm (k : Mem) : (s.countCx).segRm k = s.segRm k := rfl
@[simp] theorem State.countCx_readByte (a' : Addr) : (s.countCx).readByte a' = s.readByte a' := rfl
@[simp] theorem State.countCx_readSeg (w' : Width) (q : SReg) (o' : Word) :
    (s.countCx).readSeg w' q o' = s.readSeg w' q o' := rfl

/-! ## `release` -/

@[simp] theorem State.release_segs (n : Word) : (s.release n).segs = s.segs := rfl
@[simp] theorem State.release_ip (n : Word) : (s.release n).ip = s.ip := rfl
@[simp] theorem State.release_flags (n : Word) : (s.release n).flags = s.flags := rfl
@[simp] theorem State.release_bus (n : Word) : (s.release n).bus = s.bus := rfl
@[simp] theorem State.release_inhibit (n : Word) : (s.release n).inhibit = s.inhibit := rfl
@[simp] theorem State.release_run (n : Word) : (s.release n).run = s.run := rfl
@[simp] theorem State.release_locked (n : Word) : (s.release n).locked = s.locked := rfl
@[simp] theorem State.release_segOverride (n : Word) : (s.release n).segOverride = s.segOverride := rfl
@[simp] theorem State.release_rep (n : Word) : (s.release n).rep = s.rep := rfl
@[simp] theorem State.release_ipStart (n : Word) : (s.release n).ipStart = s.ipStart := rfl
@[simp] theorem State.release_trap (n : Word) : (s.release n).trap = s.trap := rfl
@[simp] theorem State.release_draws (n : Word) : (s.release n).draws = s.draws := rfl
@[simp] theorem State.release_params (n : Word) : (s.release n).params = s.params := rfl
@[simp] theorem State.release_control (n : Word) : (s.release n).control = s.control := rfl
@[simp] theorem State.release_view (n : Word) : (s.release n).view = s.view := rfl
@[simp] theorem State.release_sreg (n : Word) (q : SReg) : (s.release n).sreg q = s.sreg q := rfl
@[simp] theorem State.release_operandAt (n : Word) (q : SReg) (o' : Word) :
    (s.release n).operandAt q o' = s.operandAt q o' := rfl
@[simp] theorem State.release_dataSegment (n : Word) (q : SReg) : (s.release n).dataSegment q = s.dataSegment q := rfl
@[simp] theorem State.release_segRm (n : Word) (k : Mem) : (s.release n).segRm k = s.segRm k := rfl
@[simp] theorem State.release_readByte (n : Word) (a' : Addr) : (s.release n).readByte a' = s.readByte a' := rfl
@[simp] theorem State.release_readSeg (n : Word) (w' : Width) (q : SReg) (o' : Word) :
    (s.release n).readSeg w' q o' = s.readSeg w' q o' := rfl

/-! ## `stepIndex` -/

@[simp] theorem State.stepIndex_segs (w : Width) (r : Reg16) : (s.stepIndex w r).segs = s.segs := rfl
@[simp] theorem State.stepIndex_ip (w : Width) (r : Reg16) : (s.stepIndex w r).ip = s.ip := rfl
@[simp] theorem State.stepIndex_flags (w : Width) (r : Reg16) : (s.stepIndex w r).flags = s.flags := rfl
@[simp] theorem State.stepIndex_bus (w : Width) (r : Reg16) : (s.stepIndex w r).bus = s.bus := rfl
@[simp] theorem State.stepIndex_inhibit (w : Width) (r : Reg16) : (s.stepIndex w r).inhibit = s.inhibit := rfl
@[simp] theorem State.stepIndex_run (w : Width) (r : Reg16) : (s.stepIndex w r).run = s.run := rfl
@[simp] theorem State.stepIndex_locked (w : Width) (r : Reg16) : (s.stepIndex w r).locked = s.locked := rfl
@[simp] theorem State.stepIndex_segOverride (w : Width) (r : Reg16) :
    (s.stepIndex w r).segOverride = s.segOverride := rfl
@[simp] theorem State.stepIndex_rep (w : Width) (r : Reg16) : (s.stepIndex w r).rep = s.rep := rfl
@[simp] theorem State.stepIndex_ipStart (w : Width) (r : Reg16) : (s.stepIndex w r).ipStart = s.ipStart := rfl
@[simp] theorem State.stepIndex_trap (w : Width) (r : Reg16) : (s.stepIndex w r).trap = s.trap := rfl
@[simp] theorem State.stepIndex_draws (w : Width) (r : Reg16) : (s.stepIndex w r).draws = s.draws := rfl
@[simp] theorem State.stepIndex_params (w : Width) (r : Reg16) : (s.stepIndex w r).params = s.params := rfl
@[simp] theorem State.stepIndex_control (w : Width) (r : Reg16) : (s.stepIndex w r).control = s.control := rfl
@[simp] theorem State.stepIndex_view (w : Width) (r : Reg16) : (s.stepIndex w r).view = s.view := rfl
@[simp] theorem State.stepIndex_sreg (w : Width) (r : Reg16) (q : SReg) : (s.stepIndex w r).sreg q = s.sreg q := rfl
@[simp] theorem State.stepIndex_operandAt (w : Width) (r : Reg16) (q : SReg) (o' : Word) :
    (s.stepIndex w r).operandAt q o' = s.operandAt q o' := rfl
@[simp] theorem State.stepIndex_dataSegment (w : Width) (r : Reg16) (q : SReg) :
    (s.stepIndex w r).dataSegment q = s.dataSegment q := rfl
@[simp] theorem State.stepIndex_segRm (w : Width) (r : Reg16) (k : Mem) : (s.stepIndex w r).segRm k = s.segRm k := rfl
@[simp] theorem State.stepIndex_readByte (w : Width) (r : Reg16) (a' : Addr) :
    (s.stepIndex w r).readByte a' = s.readByte a' := rfl
@[simp] theorem State.stepIndex_readSeg (w : Width) (r : Reg16) (w' : Width) (q : SReg) (o' : Word) :
    (s.stepIndex w r).readSeg w' q o' = s.readSeg w' q o' := rfl

/-! ## `setProduct` -/

@[simp] theorem State.setProduct_segs (w : Width) (p : BitVec (2 * w.bits)) :
    (s.setProduct w p).segs = s.segs := by cases w <;> rfl
@[simp] theorem State.setProduct_ip (w : Width) (p : BitVec (2 * w.bits)) :
    (s.setProduct w p).ip = s.ip := by cases w <;> rfl
@[simp] theorem State.setProduct_flags (w : Width) (p : BitVec (2 * w.bits)) :
    (s.setProduct w p).flags = s.flags := by cases w <;> rfl
@[simp] theorem State.setProduct_bus (w : Width) (p : BitVec (2 * w.bits)) :
    (s.setProduct w p).bus = s.bus := by cases w <;> rfl
@[simp] theorem State.setProduct_inhibit (w : Width) (p : BitVec (2 * w.bits)) :
    (s.setProduct w p).inhibit = s.inhibit := by cases w <;> rfl
@[simp] theorem State.setProduct_run (w : Width) (p : BitVec (2 * w.bits)) :
    (s.setProduct w p).run = s.run := by cases w <;> rfl
@[simp] theorem State.setProduct_locked (w : Width) (p : BitVec (2 * w.bits)) :
    (s.setProduct w p).locked = s.locked := by cases w <;> rfl
@[simp] theorem State.setProduct_segOverride (w : Width) (p : BitVec (2 * w.bits)) :
    (s.setProduct w p).segOverride = s.segOverride := by cases w <;> rfl
@[simp] theorem State.setProduct_rep (w : Width) (p : BitVec (2 * w.bits)) :
    (s.setProduct w p).rep = s.rep := by cases w <;> rfl
@[simp] theorem State.setProduct_ipStart (w : Width) (p : BitVec (2 * w.bits)) :
    (s.setProduct w p).ipStart = s.ipStart := by cases w <;> rfl
@[simp] theorem State.setProduct_trap (w : Width) (p : BitVec (2 * w.bits)) :
    (s.setProduct w p).trap = s.trap := by cases w <;> rfl
@[simp] theorem State.setProduct_draws (w : Width) (p : BitVec (2 * w.bits)) :
    (s.setProduct w p).draws = s.draws := by cases w <;> rfl
@[simp] theorem State.setProduct_params (w : Width) (p : BitVec (2 * w.bits)) :
    (s.setProduct w p).params = s.params := by cases w <;> rfl
@[simp] theorem State.setProduct_control (w : Width) (p : BitVec (2 * w.bits)) :
    (s.setProduct w p).control = s.control := by simp [State.control]
@[simp] theorem State.setProduct_view (w : Width) (p : BitVec (2 * w.bits)) :
    (s.setProduct w p).view = s.view := by simp [State.view, State.queueStart, State.fetching]
@[simp] theorem State.setProduct_sreg (w : Width) (p : BitVec (2 * w.bits)) (q : SReg) :
    (s.setProduct w p).sreg q = s.sreg q := by simp [State.sreg]
@[simp] theorem State.setProduct_operandAt (w : Width) (p : BitVec (2 * w.bits)) (q : SReg) (o' : Word) :
    (s.setProduct w p).operandAt q o' = s.operandAt q o' := by simp [State.operandAt]
@[simp] theorem State.setProduct_dataSegment (w : Width) (p : BitVec (2 * w.bits)) (q : SReg) :
    (s.setProduct w p).dataSegment q = s.dataSegment q := by simp [State.dataSegment]
@[simp] theorem State.setProduct_segRm (w : Width) (p : BitVec (2 * w.bits)) (k : Mem) :
    (s.setProduct w p).segRm k = s.segRm k := by simp [State.segRm]
@[simp] theorem State.setProduct_readByte (w : Width) (p : BitVec (2 * w.bits)) (a' : Addr) :
    (s.setProduct w p).readByte a' = s.readByte a' := by simp [State.readByte]
@[simp] theorem State.setProduct_readSeg (w : Width) (p : BitVec (2 * w.bits)) (w' : Width) (q : SReg) (o' : Word) :
    (s.setProduct w p).readSeg w' q o' = s.readSeg w' q o' := by simp [State.readSeg]

/-! ## `setQuotient` -/

@[simp] theorem State.setQuotient_segs (w : Width) (x y : Operand w) :
    (s.setQuotient w x y).segs = s.segs := by cases w <;> rfl
@[simp] theorem State.setQuotient_ip (w : Width) (x y : Operand w) :
    (s.setQuotient w x y).ip = s.ip := by cases w <;> rfl
@[simp] theorem State.setQuotient_flags (w : Width) (x y : Operand w) :
    (s.setQuotient w x y).flags = s.flags := by cases w <;> rfl
@[simp] theorem State.setQuotient_bus (w : Width) (x y : Operand w) :
    (s.setQuotient w x y).bus = s.bus := by cases w <;> rfl
@[simp] theorem State.setQuotient_inhibit (w : Width) (x y : Operand w) :
    (s.setQuotient w x y).inhibit = s.inhibit := by cases w <;> rfl
@[simp] theorem State.setQuotient_run (w : Width) (x y : Operand w) :
    (s.setQuotient w x y).run = s.run := by cases w <;> rfl
@[simp] theorem State.setQuotient_locked (w : Width) (x y : Operand w) :
    (s.setQuotient w x y).locked = s.locked := by cases w <;> rfl
@[simp] theorem State.setQuotient_segOverride (w : Width) (x y : Operand w) :
    (s.setQuotient w x y).segOverride = s.segOverride := by cases w <;> rfl
@[simp] theorem State.setQuotient_rep (w : Width) (x y : Operand w) :
    (s.setQuotient w x y).rep = s.rep := by cases w <;> rfl
@[simp] theorem State.setQuotient_ipStart (w : Width) (x y : Operand w) :
    (s.setQuotient w x y).ipStart = s.ipStart := by cases w <;> rfl
@[simp] theorem State.setQuotient_trap (w : Width) (x y : Operand w) :
    (s.setQuotient w x y).trap = s.trap := by cases w <;> rfl
@[simp] theorem State.setQuotient_draws (w : Width) (x y : Operand w) :
    (s.setQuotient w x y).draws = s.draws := by cases w <;> rfl
@[simp] theorem State.setQuotient_params (w : Width) (x y : Operand w) :
    (s.setQuotient w x y).params = s.params := by cases w <;> rfl
@[simp] theorem State.setQuotient_control (w : Width) (x y : Operand w) :
    (s.setQuotient w x y).control = s.control := by simp [State.control]
@[simp] theorem State.setQuotient_view (w : Width) (x y : Operand w) :
    (s.setQuotient w x y).view = s.view := by simp [State.view, State.queueStart, State.fetching]
@[simp] theorem State.setQuotient_sreg (w : Width) (x y : Operand w) (q : SReg) :
    (s.setQuotient w x y).sreg q = s.sreg q := by simp [State.sreg]
@[simp] theorem State.setQuotient_operandAt (w : Width) (x y : Operand w) (q : SReg) (o' : Word) :
    (s.setQuotient w x y).operandAt q o' = s.operandAt q o' := by simp [State.operandAt]
@[simp] theorem State.setQuotient_dataSegment (w : Width) (x y : Operand w) (q : SReg) :
    (s.setQuotient w x y).dataSegment q = s.dataSegment q := by simp [State.dataSegment]
@[simp] theorem State.setQuotient_segRm (w : Width) (x y : Operand w) (k : Mem) :
    (s.setQuotient w x y).segRm k = s.segRm k := by simp [State.segRm]
@[simp] theorem State.setQuotient_readByte (w : Width) (x y : Operand w) (a' : Addr) :
    (s.setQuotient w x y).readByte a' = s.readByte a' := by simp [State.readByte]
@[simp] theorem State.setQuotient_readSeg (w : Width) (x y : Operand w) (w' : Width) (q : SReg) (o' : Word) :
    (s.setQuotient w x y).readSeg w' q o' = s.readSeg w' q o' := by simp [State.readSeg]

/-! ## `loadSreg` -/

@[simp] theorem State.loadSreg_regs (r : SReg) (v : Word) : (s.loadSreg r v).regs = s.regs := rfl
@[simp] theorem State.loadSreg_ip (r : SReg) (v : Word) : (s.loadSreg r v).ip = s.ip := rfl
@[simp] theorem State.loadSreg_flags (r : SReg) (v : Word) : (s.loadSreg r v).flags = s.flags := rfl
@[simp] theorem State.loadSreg_bus (r : SReg) (v : Word) : (s.loadSreg r v).bus = s.bus := rfl
@[simp] theorem State.loadSreg_run (r : SReg) (v : Word) : (s.loadSreg r v).run = s.run := rfl
@[simp] theorem State.loadSreg_locked (r : SReg) (v : Word) : (s.loadSreg r v).locked = s.locked := rfl
@[simp] theorem State.loadSreg_segOverride (r : SReg) (v : Word) : (s.loadSreg r v).segOverride = s.segOverride := rfl
@[simp] theorem State.loadSreg_rep (r : SReg) (v : Word) : (s.loadSreg r v).rep = s.rep := rfl
@[simp] theorem State.loadSreg_ipStart (r : SReg) (v : Word) : (s.loadSreg r v).ipStart = s.ipStart := rfl
@[simp] theorem State.loadSreg_trap (r : SReg) (v : Word) : (s.loadSreg r v).trap = s.trap := rfl
@[simp] theorem State.loadSreg_draws (r : SReg) (v : Word) : (s.loadSreg r v).draws = s.draws := rfl
@[simp] theorem State.loadSreg_params (r : SReg) (v : Word) : (s.loadSreg r v).params = s.params := rfl
@[simp] theorem State.loadSreg_reg16 (r : SReg) (v : Word) (q : Reg16) : (s.loadSreg r v).reg16 q = s.reg16 q := rfl
@[simp] theorem State.loadSreg_reg8 (r : SReg) (v : Word) (q : Reg8) : (s.loadSreg r v).reg8 q = s.reg8 q := rfl
@[simp] theorem State.loadSreg_reg (r : SReg) (v : Word) (w' : Width) (q : RegNum) :
    (s.loadSreg r v).reg w' q = s.reg w' q := by cases w' <;> simp [State.reg]
@[simp] theorem State.loadSreg_ea (r : SReg) (v : Word) (k : Mem) : (s.loadSreg r v).ea k = s.ea k := by
  cases k with
  | direct a => rfl
  | based e d => cases e <;> simp [State.ea, State.eaBase]
@[simp] theorem State.loadSreg_dataSegment (r : SReg) (v : Word) (q : SReg) :
    (s.loadSreg r v).dataSegment q = s.dataSegment q := rfl
@[simp] theorem State.loadSreg_segRm (r : SReg) (v : Word) (k : Mem) : (s.loadSreg r v).segRm k = s.segRm k := rfl
@[simp] theorem State.loadSreg_readByte (r : SReg) (v : Word) (a' : Addr) :
    (s.loadSreg r v).readByte a' = s.readByte a' := rfl

/-! ## `leave` -/

@[simp] theorem State.leave_regs : (s.leave).regs = s.regs := rfl
@[simp] theorem State.leave_segs : (s.leave).segs = s.segs := rfl
@[simp] theorem State.leave_ip : (s.leave).ip = s.ip := rfl
@[simp] theorem State.leave_flags : (s.leave).flags = s.flags := rfl
@[simp] theorem State.leave_inhibit : (s.leave).inhibit = s.inhibit := rfl
@[simp] theorem State.leave_run : (s.leave).run = s.run := rfl
@[simp] theorem State.leave_locked : (s.leave).locked = s.locked := rfl
@[simp] theorem State.leave_segOverride : (s.leave).segOverride = s.segOverride := rfl
@[simp] theorem State.leave_rep : (s.leave).rep = s.rep := rfl
@[simp] theorem State.leave_ipStart : (s.leave).ipStart = s.ipStart := rfl
@[simp] theorem State.leave_trap : (s.leave).trap = s.trap := rfl
@[simp] theorem State.leave_draws : (s.leave).draws = s.draws := rfl
@[simp] theorem State.leave_params : (s.leave).params = s.params := rfl
@[simp] theorem State.leave_control : (s.leave).control = s.control := rfl
@[simp] theorem State.leave_view : (s.leave).view = s.view := rfl
@[simp] theorem State.leave_reg16 (q : Reg16) : (s.leave).reg16 q = s.reg16 q := rfl
@[simp] theorem State.leave_reg8 (q : Reg8) : (s.leave).reg8 q = s.reg8 q := rfl
@[simp] theorem State.leave_reg (w' : Width) (q : RegNum) :
    (s.leave).reg w' q = s.reg w' q := by cases w' <;> simp [State.reg]
@[simp] theorem State.leave_ea (k : Mem) : (s.leave).ea k = s.ea k := by
  cases k with
  | direct a => rfl
  | based e d => cases e <;> simp [State.ea, State.eaBase]
@[simp] theorem State.leave_sreg (q : SReg) : (s.leave).sreg q = s.sreg q := rfl
@[simp] theorem State.leave_operandAt (q : SReg) (o' : Word) : (s.leave).operandAt q o' = s.operandAt q o' := rfl
@[simp] theorem State.leave_dataSegment (q : SReg) : (s.leave).dataSegment q = s.dataSegment q := rfl
@[simp] theorem State.leave_segRm (k : Mem) : (s.leave).segRm k = s.segRm k := rfl

/-! ## `jump` -/

@[simp] theorem State.jump_regs (off : Word) : (s.jump off).regs = s.regs := rfl
@[simp] theorem State.jump_segs (off : Word) : (s.jump off).segs = s.segs := rfl
@[simp] theorem State.jump_flags (off : Word) : (s.jump off).flags = s.flags := rfl
@[simp] theorem State.jump_inhibit (off : Word) : (s.jump off).inhibit = s.inhibit := rfl
@[simp] theorem State.jump_run (off : Word) : (s.jump off).run = s.run := rfl
@[simp] theorem State.jump_locked (off : Word) : (s.jump off).locked = s.locked := rfl
@[simp] theorem State.jump_segOverride (off : Word) : (s.jump off).segOverride = s.segOverride := rfl
@[simp] theorem State.jump_rep (off : Word) : (s.jump off).rep = s.rep := rfl
@[simp] theorem State.jump_ipStart (off : Word) : (s.jump off).ipStart = s.ipStart := rfl
@[simp] theorem State.jump_trap (off : Word) : (s.jump off).trap = s.trap := rfl
@[simp] theorem State.jump_draws (off : Word) : (s.jump off).draws = s.draws := rfl
@[simp] theorem State.jump_params (off : Word) : (s.jump off).params = s.params := rfl
@[simp] theorem State.jump_control (off : Word) : (s.jump off).control = s.control := rfl
@[simp] theorem State.jump_reg16 (off : Word) (q : Reg16) : (s.jump off).reg16 q = s.reg16 q := rfl
@[simp] theorem State.jump_reg8 (off : Word) (q : Reg8) : (s.jump off).reg8 q = s.reg8 q := rfl
@[simp] theorem State.jump_reg (off : Word) (w' : Width) (q : RegNum) :
    (s.jump off).reg w' q = s.reg w' q := by cases w' <;> simp [State.reg]
@[simp] theorem State.jump_ea (off : Word) (k : Mem) : (s.jump off).ea k = s.ea k := by
  cases k with
  | direct a => rfl
  | based e d => cases e <;> simp [State.ea, State.eaBase]
@[simp] theorem State.jump_sreg (off : Word) (q : SReg) : (s.jump off).sreg q = s.sreg q := rfl
@[simp] theorem State.jump_operandAt (off : Word) (q : SReg) (o' : Word) :
    (s.jump off).operandAt q o' = s.operandAt q o' := rfl
@[simp] theorem State.jump_dataSegment (off : Word) (q : SReg) : (s.jump off).dataSegment q = s.dataSegment q := rfl
@[simp] theorem State.jump_segRm (off : Word) (k : Mem) : (s.jump off).segRm k = s.segRm k := rfl

/-! ## `jumpIf` -/

@[simp] theorem State.jumpIf_regs (c : Bool) (d : Byte) : (s.jumpIf c d).regs = s.regs := by cases c <;> rfl
@[simp] theorem State.jumpIf_segs (c : Bool) (d : Byte) : (s.jumpIf c d).segs = s.segs := by cases c <;> rfl
@[simp] theorem State.jumpIf_flags (c : Bool) (d : Byte) : (s.jumpIf c d).flags = s.flags := by cases c <;> rfl
@[simp] theorem State.jumpIf_inhibit (c : Bool) (d : Byte) : (s.jumpIf c d).inhibit = s.inhibit := by cases c <;> rfl
@[simp] theorem State.jumpIf_run (c : Bool) (d : Byte) : (s.jumpIf c d).run = s.run := by cases c <;> rfl
@[simp] theorem State.jumpIf_locked (c : Bool) (d : Byte) : (s.jumpIf c d).locked = s.locked := by cases c <;> rfl
@[simp] theorem State.jumpIf_segOverride (c : Bool) (d : Byte) :
    (s.jumpIf c d).segOverride = s.segOverride := by cases c <;> rfl
@[simp] theorem State.jumpIf_rep (c : Bool) (d : Byte) : (s.jumpIf c d).rep = s.rep := by cases c <;> rfl
@[simp] theorem State.jumpIf_ipStart (c : Bool) (d : Byte) : (s.jumpIf c d).ipStart = s.ipStart := by cases c <;> rfl
@[simp] theorem State.jumpIf_trap (c : Bool) (d : Byte) : (s.jumpIf c d).trap = s.trap := by cases c <;> rfl
@[simp] theorem State.jumpIf_draws (c : Bool) (d : Byte) : (s.jumpIf c d).draws = s.draws := by cases c <;> rfl
@[simp] theorem State.jumpIf_params (c : Bool) (d : Byte) : (s.jumpIf c d).params = s.params := by cases c <;> rfl
@[simp] theorem State.jumpIf_control (c : Bool) (d : Byte) :
    (s.jumpIf c d).control = s.control := by simp [State.control]
@[simp] theorem State.jumpIf_reg16 (c : Bool) (d : Byte) (q : Reg16) :
    (s.jumpIf c d).reg16 q = s.reg16 q := by simp [State.reg16]
@[simp] theorem State.jumpIf_reg8 (c : Bool) (d : Byte) (q : Reg8) :
    (s.jumpIf c d).reg8 q = s.reg8 q := by simp [State.reg8]
@[simp] theorem State.jumpIf_reg (c : Bool) (d : Byte) (w' : Width) (q : RegNum) :
    (s.jumpIf c d).reg w' q = s.reg w' q := by cases w' <;> simp [State.reg]
@[simp] theorem State.jumpIf_ea (c : Bool) (d : Byte) (k : Mem) : (s.jumpIf c d).ea k = s.ea k := by
  cases k with
  | direct a => rfl
  | based e d => cases e <;> simp [State.ea, State.eaBase]
@[simp] theorem State.jumpIf_sreg (c : Bool) (d : Byte) (q : SReg) :
    (s.jumpIf c d).sreg q = s.sreg q := by simp [State.sreg]
@[simp] theorem State.jumpIf_operandAt (c : Bool) (d : Byte) (q : SReg) (o' : Word) :
    (s.jumpIf c d).operandAt q o' = s.operandAt q o' := by simp [State.operandAt]
@[simp] theorem State.jumpIf_dataSegment (c : Bool) (d : Byte) (q : SReg) :
    (s.jumpIf c d).dataSegment q = s.dataSegment q := by simp [State.dataSegment]
@[simp] theorem State.jumpIf_segRm (c : Bool) (d : Byte) (k : Mem) :
    (s.jumpIf c d).segRm k = s.segRm k := by simp [State.segRm]

/-! ## `jumpFar` -/

@[simp] theorem State.jumpFar_regs (sel off : Word) : (s.jumpFar sel off).regs = s.regs := rfl
@[simp] theorem State.jumpFar_flags (sel off : Word) : (s.jumpFar sel off).flags = s.flags := rfl
@[simp] theorem State.jumpFar_inhibit (sel off : Word) : (s.jumpFar sel off).inhibit = s.inhibit := rfl
@[simp] theorem State.jumpFar_run (sel off : Word) : (s.jumpFar sel off).run = s.run := rfl
@[simp] theorem State.jumpFar_locked (sel off : Word) : (s.jumpFar sel off).locked = s.locked := rfl
@[simp] theorem State.jumpFar_segOverride (sel off : Word) : (s.jumpFar sel off).segOverride = s.segOverride := rfl
@[simp] theorem State.jumpFar_rep (sel off : Word) : (s.jumpFar sel off).rep = s.rep := rfl
@[simp] theorem State.jumpFar_ipStart (sel off : Word) : (s.jumpFar sel off).ipStart = s.ipStart := rfl
@[simp] theorem State.jumpFar_trap (sel off : Word) : (s.jumpFar sel off).trap = s.trap := rfl
@[simp] theorem State.jumpFar_draws (sel off : Word) : (s.jumpFar sel off).draws = s.draws := rfl
@[simp] theorem State.jumpFar_params (sel off : Word) : (s.jumpFar sel off).params = s.params := rfl
@[simp] theorem State.jumpFar_control (sel off : Word) : (s.jumpFar sel off).control = s.control := rfl
@[simp] theorem State.jumpFar_reg16 (sel off : Word) (q : Reg16) : (s.jumpFar sel off).reg16 q = s.reg16 q := rfl
@[simp] theorem State.jumpFar_reg8 (sel off : Word) (q : Reg8) : (s.jumpFar sel off).reg8 q = s.reg8 q := rfl
@[simp] theorem State.jumpFar_reg (sel off : Word) (w' : Width) (q : RegNum) :
    (s.jumpFar sel off).reg w' q = s.reg w' q := by cases w' <;> simp [State.reg]
@[simp] theorem State.jumpFar_ea (sel off : Word) (k : Mem) : (s.jumpFar sel off).ea k = s.ea k := by
  cases k with
  | direct a => rfl
  | based e d => cases e <;> simp [State.ea, State.eaBase]
@[simp] theorem State.jumpFar_dataSegment (sel off : Word) (q : SReg) :
    (s.jumpFar sel off).dataSegment q = s.dataSegment q := rfl
@[simp] theorem State.jumpFar_segRm (sel off : Word) (k : Mem) : (s.jumpFar sel off).segRm k = s.segRm k := rfl

/-! ## `endPrefixes` -/

@[simp] theorem State.endPrefixes_regs : (s.endPrefixes).regs = s.regs := rfl
@[simp] theorem State.endPrefixes_segs : (s.endPrefixes).segs = s.segs := rfl
@[simp] theorem State.endPrefixes_ip : (s.endPrefixes).ip = s.ip := rfl
@[simp] theorem State.endPrefixes_flags : (s.endPrefixes).flags = s.flags := rfl
@[simp] theorem State.endPrefixes_bus : (s.endPrefixes).bus = s.bus := rfl
@[simp] theorem State.endPrefixes_inhibit : (s.endPrefixes).inhibit = s.inhibit := rfl
@[simp] theorem State.endPrefixes_run : (s.endPrefixes).run = s.run := rfl
@[simp] theorem State.endPrefixes_ipStart : (s.endPrefixes).ipStart = s.ipStart := rfl
@[simp] theorem State.endPrefixes_trap : (s.endPrefixes).trap = s.trap := rfl
@[simp] theorem State.endPrefixes_draws : (s.endPrefixes).draws = s.draws := rfl
@[simp] theorem State.endPrefixes_params : (s.endPrefixes).params = s.params := rfl
@[simp] theorem State.endPrefixes_reg16 (q : Reg16) : (s.endPrefixes).reg16 q = s.reg16 q := rfl
@[simp] theorem State.endPrefixes_reg8 (q : Reg8) : (s.endPrefixes).reg8 q = s.reg8 q := rfl
@[simp] theorem State.endPrefixes_reg (w' : Width) (q : RegNum) :
    (s.endPrefixes).reg w' q = s.reg w' q := by cases w' <;> simp [State.reg]
@[simp] theorem State.endPrefixes_ea (k : Mem) : (s.endPrefixes).ea k = s.ea k := by
  cases k with
  | direct a => rfl
  | based e d => cases e <;> simp [State.ea, State.eaBase]
@[simp] theorem State.endPrefixes_sreg (q : SReg) : (s.endPrefixes).sreg q = s.sreg q := rfl
@[simp] theorem State.endPrefixes_operandAt (q : SReg) (o' : Word) :
    (s.endPrefixes).operandAt q o' = s.operandAt q o' := rfl
@[simp] theorem State.endPrefixes_readByte (a' : Addr) : (s.endPrefixes).readByte a' = s.readByte a' := rfl

/-! ## `refetchWait` -/

@[simp] theorem State.refetchWait_regs : (s.refetchWait).regs = s.regs := by unfold State.refetchWait; split <;> rfl
@[simp] theorem State.refetchWait_segs : (s.refetchWait).segs = s.segs := by unfold State.refetchWait; split <;> rfl
@[simp] theorem State.refetchWait_ip : (s.refetchWait).ip = s.ip := by unfold State.refetchWait; split <;> rfl
@[simp] theorem State.refetchWait_flags :
    (s.refetchWait).flags = s.flags := by unfold State.refetchWait; split <;> rfl
@[simp] theorem State.refetchWait_inhibit :
    (s.refetchWait).inhibit = s.inhibit := by unfold State.refetchWait; split <;> rfl
@[simp] theorem State.refetchWait_run : (s.refetchWait).run = s.run := by unfold State.refetchWait; split <;> rfl
@[simp] theorem State.refetchWait_locked :
    (s.refetchWait).locked = s.locked := by unfold State.refetchWait; split <;> rfl
@[simp] theorem State.refetchWait_segOverride :
    (s.refetchWait).segOverride = s.segOverride := by unfold State.refetchWait; split <;> rfl
@[simp] theorem State.refetchWait_rep : (s.refetchWait).rep = s.rep := by unfold State.refetchWait; split <;> rfl
@[simp] theorem State.refetchWait_ipStart :
    (s.refetchWait).ipStart = s.ipStart := by unfold State.refetchWait; split <;> rfl
@[simp] theorem State.refetchWait_trap : (s.refetchWait).trap = s.trap := by unfold State.refetchWait; split <;> rfl
@[simp] theorem State.refetchWait_draws :
    (s.refetchWait).draws = s.draws := by unfold State.refetchWait; split <;> rfl
@[simp] theorem State.refetchWait_params :
    (s.refetchWait).params = s.params := by unfold State.refetchWait; split <;> rfl
@[simp] theorem State.refetchWait_control : (s.refetchWait).control = s.control := by simp [State.control]
@[simp] theorem State.refetchWait_view :
    (s.refetchWait).view = s.view := by simp [State.view, State.queueStart, State.fetching]
@[simp] theorem State.refetchWait_reg16 (q : Reg16) : (s.refetchWait).reg16 q = s.reg16 q := by simp [State.reg16]
@[simp] theorem State.refetchWait_reg8 (q : Reg8) : (s.refetchWait).reg8 q = s.reg8 q := by simp [State.reg8]
@[simp] theorem State.refetchWait_reg (w' : Width) (q : RegNum) :
    (s.refetchWait).reg w' q = s.reg w' q := by cases w' <;> simp [State.reg]
@[simp] theorem State.refetchWait_ea (k : Mem) : (s.refetchWait).ea k = s.ea k := by
  cases k with
  | direct a => rfl
  | based e d => cases e <;> simp [State.ea, State.eaBase]
@[simp] theorem State.refetchWait_sreg (q : SReg) : (s.refetchWait).sreg q = s.sreg q := by simp [State.sreg]
@[simp] theorem State.refetchWait_operandAt (q : SReg) (o' : Word) :
    (s.refetchWait).operandAt q o' = s.operandAt q o' := by simp [State.operandAt]
@[simp] theorem State.refetchWait_dataSegment (q : SReg) :
    (s.refetchWait).dataSegment q = s.dataSegment q := by simp [State.dataSegment]
@[simp] theorem State.refetchWait_segRm (k : Mem) : (s.refetchWait).segRm k = s.segRm k := by simp [State.segRm]

/-! ## `interrupted` -/

@[simp] theorem State.interrupted_regs : (s.interrupted).regs = s.regs := by simp [State.interrupted]
@[simp] theorem State.interrupted_segs : (s.interrupted).segs = s.segs := by simp [State.interrupted]
@[simp] theorem State.interrupted_ip : (s.interrupted).ip = s.ip := by simp [State.interrupted]
@[simp] theorem State.interrupted_flags : (s.interrupted).flags = s.flags := by simp [State.interrupted]
@[simp] theorem State.interrupted_inhibit : (s.interrupted).inhibit = s.inhibit := by simp [State.interrupted]
@[simp] theorem State.interrupted_run : (s.interrupted).run = s.run := by simp [State.interrupted]
@[simp] theorem State.interrupted_ipStart : (s.interrupted).ipStart = s.ipStart := by simp [State.interrupted]
@[simp] theorem State.interrupted_trap : (s.interrupted).trap = s.trap := by simp [State.interrupted]
@[simp] theorem State.interrupted_draws : (s.interrupted).draws = s.draws := by simp [State.interrupted]
@[simp] theorem State.interrupted_params : (s.interrupted).params = s.params := by simp [State.interrupted]
@[simp] theorem State.interrupted_reg16 (q : Reg16) : (s.interrupted).reg16 q = s.reg16 q := by simp [State.reg16]
@[simp] theorem State.interrupted_reg8 (q : Reg8) : (s.interrupted).reg8 q = s.reg8 q := by simp [State.reg8]
@[simp] theorem State.interrupted_reg (w' : Width) (q : RegNum) :
    (s.interrupted).reg w' q = s.reg w' q := by cases w' <;> simp [State.reg]
@[simp] theorem State.interrupted_ea (k : Mem) : (s.interrupted).ea k = s.ea k := by
  cases k with
  | direct a => rfl
  | based e d => cases e <;> simp [State.ea, State.eaBase]
@[simp] theorem State.interrupted_sreg (q : SReg) : (s.interrupted).sreg q = s.sreg q := by simp [State.sreg]
@[simp] theorem State.interrupted_operandAt (q : SReg) (o' : Word) :
    (s.interrupted).operandAt q o' = s.operandAt q o' := by simp [State.operandAt]

/-! ## `pushFar` -/

@[simp] theorem State.pushFar_segs : (s.pushFar).segs = s.segs := rfl
@[simp] theorem State.pushFar_ip : (s.pushFar).ip = s.ip := rfl
@[simp] theorem State.pushFar_flags : (s.pushFar).flags = s.flags := rfl
@[simp] theorem State.pushFar_inhibit : (s.pushFar).inhibit = s.inhibit := rfl
@[simp] theorem State.pushFar_run : (s.pushFar).run = s.run := rfl
@[simp] theorem State.pushFar_locked : (s.pushFar).locked = s.locked := rfl
@[simp] theorem State.pushFar_segOverride : (s.pushFar).segOverride = s.segOverride := rfl
@[simp] theorem State.pushFar_rep : (s.pushFar).rep = s.rep := rfl
@[simp] theorem State.pushFar_ipStart : (s.pushFar).ipStart = s.ipStart := rfl
@[simp] theorem State.pushFar_trap : (s.pushFar).trap = s.trap := rfl
@[simp] theorem State.pushFar_draws : (s.pushFar).draws = s.draws := rfl
@[simp] theorem State.pushFar_params : (s.pushFar).params = s.params := rfl
@[simp] theorem State.pushFar_control : (s.pushFar).control = s.control := rfl
@[simp] theorem State.pushFar_view : (s.pushFar).view = s.view := rfl
@[simp] theorem State.pushFar_sreg (q : SReg) : (s.pushFar).sreg q = s.sreg q := rfl
@[simp] theorem State.pushFar_operandAt (q : SReg) (o' : Word) : (s.pushFar).operandAt q o' = s.operandAt q o' := rfl
@[simp] theorem State.pushFar_dataSegment (q : SReg) : (s.pushFar).dataSegment q = s.dataSegment q := rfl
@[simp] theorem State.pushFar_segRm (k : Mem) : (s.pushFar).segRm k = s.segRm k := rfl

/-! ## `pushFrame` -/

@[simp] theorem State.pushFrame_segs (savedIp : Word) : (s.pushFrame savedIp).segs = s.segs := rfl
@[simp] theorem State.pushFrame_ip (savedIp : Word) : (s.pushFrame savedIp).ip = s.ip := rfl
@[simp] theorem State.pushFrame_inhibit (savedIp : Word) : (s.pushFrame savedIp).inhibit = s.inhibit := rfl
@[simp] theorem State.pushFrame_run (savedIp : Word) : (s.pushFrame savedIp).run = s.run := rfl
@[simp] theorem State.pushFrame_locked (savedIp : Word) : (s.pushFrame savedIp).locked = s.locked := rfl
@[simp] theorem State.pushFrame_segOverride (savedIp : Word) :
    (s.pushFrame savedIp).segOverride = s.segOverride := rfl
@[simp] theorem State.pushFrame_rep (savedIp : Word) : (s.pushFrame savedIp).rep = s.rep := rfl
@[simp] theorem State.pushFrame_ipStart (savedIp : Word) : (s.pushFrame savedIp).ipStart = s.ipStart := rfl
@[simp] theorem State.pushFrame_trap (savedIp : Word) : (s.pushFrame savedIp).trap = s.trap := rfl
@[simp] theorem State.pushFrame_draws (savedIp : Word) : (s.pushFrame savedIp).draws = s.draws := rfl
@[simp] theorem State.pushFrame_params (savedIp : Word) : (s.pushFrame savedIp).params = s.params := rfl
@[simp] theorem State.pushFrame_control (savedIp : Word) : (s.pushFrame savedIp).control = s.control := rfl
@[simp] theorem State.pushFrame_view (savedIp : Word) : (s.pushFrame savedIp).view = s.view := rfl
@[simp] theorem State.pushFrame_sreg (savedIp : Word) (q : SReg) : (s.pushFrame savedIp).sreg q = s.sreg q := rfl
@[simp] theorem State.pushFrame_operandAt (savedIp : Word) (q : SReg) (o' : Word) :
    (s.pushFrame savedIp).operandAt q o' = s.operandAt q o' := rfl
@[simp] theorem State.pushFrame_dataSegment (savedIp : Word) (q : SReg) :
    (s.pushFrame savedIp).dataSegment q = s.dataSegment q := rfl
@[simp] theorem State.pushFrame_segRm (savedIp : Word) (k : Mem) : (s.pushFrame savedIp).segRm k = s.segRm k := rfl

/-! ## `loadVector` -/

@[simp] theorem State.loadVector_regs (t : Byte) (o : Bool) : (s.loadVector t o).regs = s.regs := by cases o <;> rfl
@[simp] theorem State.loadVector_flags (t : Byte) (o : Bool) :
    (s.loadVector t o).flags = s.flags := by cases o <;> rfl
@[simp] theorem State.loadVector_inhibit (t : Byte) (o : Bool) :
    (s.loadVector t o).inhibit = s.inhibit := by cases o <;> rfl
@[simp] theorem State.loadVector_run (t : Byte) (o : Bool) : (s.loadVector t o).run = s.run := by cases o <;> rfl
@[simp] theorem State.loadVector_locked (t : Byte) (o : Bool) :
    (s.loadVector t o).locked = s.locked := by cases o <;> rfl
@[simp] theorem State.loadVector_segOverride (t : Byte) (o : Bool) :
    (s.loadVector t o).segOverride = s.segOverride := by cases o <;> rfl
@[simp] theorem State.loadVector_rep (t : Byte) (o : Bool) : (s.loadVector t o).rep = s.rep := by cases o <;> rfl
@[simp] theorem State.loadVector_ipStart (t : Byte) (o : Bool) :
    (s.loadVector t o).ipStart = s.ipStart := by cases o <;> rfl
@[simp] theorem State.loadVector_trap (t : Byte) (o : Bool) : (s.loadVector t o).trap = s.trap := by cases o <;> rfl
@[simp] theorem State.loadVector_params (t : Byte) (o : Bool) :
    (s.loadVector t o).params = s.params := by cases o <;> rfl
@[simp] theorem State.loadVector_control (t : Byte) (o : Bool) :
    (s.loadVector t o).control = s.control := by simp [State.control]
@[simp] theorem State.loadVector_reg16 (t : Byte) (o : Bool) (q : Reg16) :
    (s.loadVector t o).reg16 q = s.reg16 q := by simp [State.reg16]
@[simp] theorem State.loadVector_reg8 (t : Byte) (o : Bool) (q : Reg8) :
    (s.loadVector t o).reg8 q = s.reg8 q := by simp [State.reg8]
@[simp] theorem State.loadVector_reg (t : Byte) (o : Bool) (w' : Width) (q : RegNum) :
    (s.loadVector t o).reg w' q = s.reg w' q := by cases w' <;> simp [State.reg]
@[simp] theorem State.loadVector_ea (t : Byte) (o : Bool) (k : Mem) : (s.loadVector t o).ea k = s.ea k := by
  cases k with
  | direct a => rfl
  | based e d => cases e <;> simp [State.ea, State.eaBase]
@[simp] theorem State.loadVector_dataSegment (t : Byte) (o : Bool) (q : SReg) :
    (s.loadVector t o).dataSegment q = s.dataSegment q := by simp [State.dataSegment]
@[simp] theorem State.loadVector_segRm (t : Byte) (o : Bool) (k : Mem) :
    (s.loadVector t o).segRm k = s.segRm k := by simp [State.segRm]

/-! ## `enterOnce` -/

@[simp] theorem State.enterOnce_inhibit (t : Byte) (savedIp : Word) :
    (s.enterOnce t savedIp).inhibit = s.inhibit := by simp [State.enterOnce]
@[simp] theorem State.enterOnce_ipStart (t : Byte) (savedIp : Word) :
    (s.enterOnce t savedIp).ipStart = s.ipStart := by simp [State.enterOnce]
@[simp] theorem State.enterOnce_params (t : Byte) (savedIp : Word) :
    (s.enterOnce t savedIp).params = s.params := by simp [State.enterOnce]

/-! ## `enterWithin` -/

@[simp] theorem State.enterWithin_inhibit (n : Nat) (t : Byte) (savedIp : Word) :
    (s.enterWithin n t savedIp).inhibit = s.inhibit := by
  induction n generalizing s t savedIp with
  | zero => simp [State.enterWithin]
  | succ n ih => simp only [State.enterWithin]; split <;> [skip; split] <;> simp [ih]
@[simp] theorem State.enterWithin_ipStart (n : Nat) (t : Byte) (savedIp : Word) :
    (s.enterWithin n t savedIp).ipStart = s.ipStart := by
  induction n generalizing s t savedIp with
  | zero => simp [State.enterWithin]
  | succ n ih => simp only [State.enterWithin]; split <;> [skip; split] <;> simp [ih]
@[simp] theorem State.enterWithin_params (n : Nat) (t : Byte) (savedIp : Word) :
    (s.enterWithin n t savedIp).params = s.params := by
  induction n generalizing s t savedIp with
  | zero => simp [State.enterWithin]
  | succ n ih => simp only [State.enterWithin]; split <;> [skip; split] <;> simp [ih]

/-! ## `interruptEntry` -/

@[simp] theorem State.interruptEntry_inhibit (t : Byte) (savedIp : Word) :
    (s.interruptEntry t savedIp).inhibit = s.inhibit := by simp [State.interruptEntry]
@[simp] theorem State.interruptEntry_ipStart (t : Byte) (savedIp : Word) :
    (s.interruptEntry t savedIp).ipStart = s.ipStart := by simp [State.interruptEntry]
@[simp] theorem State.interruptEntry_params (t : Byte) (savedIp : Word) :
    (s.interruptEntry t savedIp).params = s.params := by simp [State.interruptEntry]

/-! ## `singleStepEntry` -/

@[simp] theorem State.singleStepEntry_inhibit (savedIp : Word) : (s.singleStepEntry savedIp).inhibit = s.inhibit := by
  simp only [State.singleStepEntry]; split <;> simp
@[simp] theorem State.singleStepEntry_ipStart (savedIp : Word) : (s.singleStepEntry savedIp).ipStart = s.ipStart := by
  simp only [State.singleStepEntry]; split <;> simp
@[simp] theorem State.singleStepEntry_params (savedIp : Word) : (s.singleStepEntry savedIp).params = s.params := by
  simp only [State.singleStepEntry]; split <;> simp

/-! ## `farReturn` -/

@[simp] theorem State.farReturn_flags : (s.farReturn).flags = s.flags := rfl
@[simp] theorem State.farReturn_inhibit : (s.farReturn).inhibit = s.inhibit := rfl
@[simp] theorem State.farReturn_run : (s.farReturn).run = s.run := rfl
@[simp] theorem State.farReturn_locked : (s.farReturn).locked = s.locked := rfl
@[simp] theorem State.farReturn_segOverride : (s.farReturn).segOverride = s.segOverride := rfl
@[simp] theorem State.farReturn_rep : (s.farReturn).rep = s.rep := rfl
@[simp] theorem State.farReturn_ipStart : (s.farReturn).ipStart = s.ipStart := rfl
@[simp] theorem State.farReturn_trap : (s.farReturn).trap = s.trap := rfl
@[simp] theorem State.farReturn_draws : (s.farReturn).draws = s.draws := rfl
@[simp] theorem State.farReturn_params : (s.farReturn).params = s.params := rfl
@[simp] theorem State.farReturn_control : (s.farReturn).control = s.control := rfl
@[simp] theorem State.farReturn_dataSegment (q : SReg) : (s.farReturn).dataSegment q = s.dataSegment q := rfl
@[simp] theorem State.farReturn_segRm (k : Mem) : (s.farReturn).segRm k = s.segRm k := rfl

/-! ## `interruptReturn` -/

@[simp] theorem State.interruptReturn_inhibit : (s.interruptReturn).inhibit = s.inhibit := rfl
@[simp] theorem State.interruptReturn_run : (s.interruptReturn).run = s.run := rfl
@[simp] theorem State.interruptReturn_locked : (s.interruptReturn).locked = s.locked := rfl
@[simp] theorem State.interruptReturn_segOverride : (s.interruptReturn).segOverride = s.segOverride := rfl
@[simp] theorem State.interruptReturn_rep : (s.interruptReturn).rep = s.rep := rfl
@[simp] theorem State.interruptReturn_ipStart : (s.interruptReturn).ipStart = s.ipStart := rfl
@[simp] theorem State.interruptReturn_trap : (s.interruptReturn).trap = s.trap := rfl
@[simp] theorem State.interruptReturn_draws : (s.interruptReturn).draws = s.draws := rfl
@[simp] theorem State.interruptReturn_params : (s.interruptReturn).params = s.params := rfl
@[simp] theorem State.interruptReturn_control : (s.interruptReturn).control = s.control := rfl
@[simp] theorem State.interruptReturn_dataSegment (q : SReg) :
    (s.interruptReturn).dataSegment q = s.dataSegment q := rfl
@[simp] theorem State.interruptReturn_segRm (k : Mem) : (s.interruptReturn).segRm k = s.segRm k := rfl

/-! ## What the updates set -/

@[simp] theorem State.drawn_draws (n : Nat) : (s.drawn n).draws = s.draws + n := rfl
@[simp] theorem State.setBus_bus (b : Bus) : (s.setBus b).bus = b := rfl
@[simp] theorem State.setFlags_flags (f : Flags) : (s.setFlags f).flags = f := rfl
@[simp] theorem State.setFreeFlags_flags (f : Flags) : (s.setFreeFlags f).flags = f := rfl
@[simp] theorem State.takeNmi_bus : s.takeNmi.bus = { s.bus with nmiLatch := false } := rfl
@[simp] theorem State.tick_bus : s.tick.bus = s.bus.tick s.view := rfl
@[simp] theorem State.acknowledge_bus (t : Byte) : (s.acknowledge t).bus = s.bus.acknowledge s.view t := rfl
@[simp] theorem State.jump_ip (off : Word) : (s.jump off).ip = off := rfl
@[simp] theorem State.jump_bus (off : Word) : (s.jump off).bus = { s.bus.start s.view with queue := [], stale := [] } := rfl
@[simp] theorem State.jumpFar_ip (sel off : Word) : (s.jumpFar sel off).ip = off := rfl
@[simp] theorem State.jumpFar_bus (sel off : Word) : (s.jumpFar sel off).bus =
    { s.bus.start s.view with queue := [], stale := [] } := rfl
@[simp] theorem State.jumpFar_segs (sel off : Word) : (s.jumpFar sel off).segs = { s.segs with cs := sel } := rfl
@[simp] theorem State.endPrefixes_segOverride : s.endPrefixes.segOverride = none := rfl
@[simp] theorem State.endPrefixes_rep : s.endPrefixes.rep = none := rfl
@[simp] theorem State.endPrefixes_locked : s.endPrefixes.locked = false := rfl
@[simp] theorem State.interrupted_segOverride : s.interrupted.segOverride = none := by simp [State.interrupted]
@[simp] theorem State.interrupted_rep : s.interrupted.rep = none := by simp [State.interrupted]
@[simp] theorem State.interrupted_locked : s.interrupted.locked = false := by simp [State.interrupted]
@[simp] theorem State.enterOnce_run (t : Byte) (ip : Word) : (s.enterOnce t ip).run = .running := rfl
@[simp] theorem State.enterOnce_trap (t : Byte) (ip : Word) : (s.enterOnce t ip).trap = false := rfl
@[simp] theorem State.enterOnce_locked (t : Byte) (ip : Word) : (s.enterOnce t ip).locked = false := rfl
@[simp] theorem State.enterOnce_segOverride (t : Byte) (ip : Word) : (s.enterOnce t ip).segOverride = none := rfl
@[simp] theorem State.enterOnce_rep (t : Byte) (ip : Word) : (s.enterOnce t ip).rep = none := rfl
@[simp] theorem State.pushFrame_flags (ip : Word) :
    (s.pushFrame ip).flags = { s.flags with IF := false, TF := false } := rfl
@[simp] theorem State.enterOnce_flags (t : Byte) (ip : Word) :
    (s.enterOnce t ip).flags = { s.flags with IF := false, TF := false } := by simp [State.enterOnce]

end Sys2Proof.Machine
end

