-- ==== Sys2Proof/Laws/Memory.lean ====
section
/-!
SUPPORT. The laws of memory: what a byte reads as after a store, that a store keeps the canonical form, and that
words are their two bytes.
-/

namespace Sys2Proof.Machine

/-! ## The list of cells -/

theorem Memory.read_remove_same (m : Memory) (a : Nat) : (m.remove a).read a = unlistedByte := by
  induction m with
  | nil => rfl
  | cons c m ih =>
    obtain ⟨b, u⟩ := c
    by_cases h : a = b <;> simp [Memory.remove, Memory.read, h] at *
    · exact ih
    · exact ih

theorem Memory.read_remove_other (m : Memory) {a b : Nat} (hne : b ≠ a) : (m.remove a).read b = m.read b := by
  induction m with
  | nil => rfl
  | cons c m ih =>
    obtain ⟨k, u⟩ := c
    by_cases h : a = k
    · subst h
      simpa [Memory.remove, Memory.read, hne] using ih
    · by_cases h2 : b = k <;> simp [Memory.remove, Memory.read, h, h2] at *
      exact ih

theorem Memory.read_place_other (m : Memory) {a b : Nat} (v : Byte) (hne : b ≠ a) :
    (m.place a v).read b = m.read b := by
  induction m with
  | nil => simp [Memory.place, Memory.read, hne]
  | cons c m ih =>
    obtain ⟨k, u⟩ := c
    by_cases h : a < k
    · simp [Memory.place, Memory.read, h, hne]
    · by_cases h2 : b = k <;> simp [Memory.place, Memory.read, h, h2] at *
      exact ih

theorem Memory.read_place_removed (m : Memory) (a : Nat) (v : Byte) : ((m.remove a).place a v).read a = v := by
  induction m with
  | nil => simp [Memory.remove, Memory.place, Memory.read]
  | cons c m ih =>
    obtain ⟨k, u⟩ := c
    by_cases h : a = k
    · subst h
      simpa [Memory.remove] using ih
    · by_cases h2 : a < k
      · simp [Memory.remove, Memory.place, Memory.read, h, h2]
      · simpa [Memory.remove, Memory.place, Memory.read, h, h2] using ih

@[simp] theorem Memory.read_write_same (m : Memory) (a : Nat) (v : Byte) : (m.write a v).read a = v := by
  unfold Memory.write
  split
  · next h => rw [h]; exact m.read_remove_same a
  · exact m.read_place_removed a v

theorem Memory.read_write_other (m : Memory) {a b : Nat} (v : Byte) (hne : b ≠ a) :
    (m.write a v).read b = m.read b := by
  unfold Memory.write
  split
  · exact m.read_remove_other hne
  · rw [Memory.read_place_other _ v hne, m.read_remove_other hne]

/-! ## The canonical form -/

theorem Memory.wfFrom_mono {lo hi : Nat} {m : Memory} (h : Memory.wfFrom hi m = true) (hle : lo ≤ hi) :
    Memory.wfFrom lo m = true := by
  cases m with
  | nil => rfl
  | cons c m =>
    obtain ⟨k, u⟩ := c
    simp [Memory.wfFrom] at *
    exact ⟨⟨⟨by omega, h.1.1.2⟩, h.1.2⟩, h.2⟩

theorem Memory.wfFrom_remove {lo : Nat} {m : Memory} (a : Nat) (h : Memory.wfFrom lo m = true) :
    Memory.wfFrom lo (m.remove a) = true := by
  induction m generalizing lo with
  | nil => rfl
  | cons c m ih =>
    obtain ⟨k, u⟩ := c
    simp [Memory.wfFrom] at h
    by_cases hk : a = k
    · simpa [Memory.remove, hk] using Memory.wfFrom_mono (hk ▸ ih h.2) (by omega)
    · simp [Memory.remove, hk, Memory.wfFrom]
      exact ⟨⟨⟨h.1.1.1, h.1.1.2⟩, h.1.2⟩, ih h.2⟩

theorem Memory.wfFrom_place {lo : Nat} {m : Memory} {a : Nat} {v : Byte} (ha : a < 2 ^ 20) (hv : v ≠ unlistedByte)
    (hlo : lo ≤ a) (h : Memory.wfFrom lo m = true) : Memory.wfFrom lo ((m.remove a).place a v) = true := by
  induction m generalizing lo with
  | nil => simp_all [Memory.remove, Memory.place, Memory.wfFrom]
  | cons c m ih =>
    obtain ⟨k, u⟩ := c
    simp [Memory.wfFrom] at h
    by_cases hk : a = k
    · subst hk
      simpa [Memory.remove] using ih hlo (Memory.wfFrom_mono h.2 (by omega))
    · by_cases h2 : a < k
      · simp [Memory.remove, Memory.place, Memory.wfFrom, hk, h2]
        exact ⟨⟨⟨hlo, by omega⟩, hv⟩, ⟨h.1.1.2, h.1.2⟩, Memory.wfFrom_remove a h.2⟩
      · simp [Memory.remove, Memory.place, Memory.wfFrom, hk, h2]
        exact ⟨⟨⟨h.1.1.1, h.1.1.2⟩, h.1.2⟩, ih (by omega) h.2⟩

/-- A write keeps the canonical form. -/
theorem Memory.wf_write {m : Memory} {a : Nat} (v : Byte) (ha : a < 2 ^ 20) (h : m.wf = true) :
    (m.write a v).wf = true := by
  unfold Memory.write Memory.wf
  split
  · exact Memory.wfFrom_remove a h
  · next hv => exact Memory.wfFrom_place ha hv (Nat.zero_le a) h

/-- The memory after reset has the canonical form. -/
theorem Memory.wf_reset : State.reset.bus.mem.wf = true := rfl

/-! ## Bytes, words and addresses -/

/-- The two bytes of a word are at different addresses, also where the offset or the address wraps (R64, R65). -/
theorem phys_succ_ne (seg off : Word) : phys seg (off + 1) ≠ phys seg off := by
  intro h
  have := congrArg BitVec.toNat h
  simp only [phys, BitVec.toNat_ofNat, BitVec.toNat_add] at this
  have := seg.isLt
  have := off.isLt
  simp at *
  omega

theorem joinBytes_high_low (v : Word) : joinBytes (highByte v) (lowByte v) = v := by
  simp only [joinBytes, highByte, lowByte]
  apply BitVec.eq_of_getLsbD_eq
  intro i hi
  simp only [BitVec.getLsbD_append, BitVec.getLsbD_extractLsb']
  by_cases h : i < 8
  · simp [h]
  · simp [h]
    rw [show 8 + (i - 8) = i by omega]
    simp
    omega

@[simp] theorem lowByte_joinBytes (hi lo : Byte) : lowByte (joinBytes hi lo) = lo := by
  simp only [joinBytes, lowByte]
  apply BitVec.eq_of_getLsbD_eq
  intro i h
  rw [BitVec.getLsbD_extractLsb', BitVec.getLsbD_append]
  simp [h]

@[simp] theorem highByte_joinBytes (hi lo : Byte) : highByte (joinBytes hi lo) = hi := by
  simp only [joinBytes, highByte]
  apply BitVec.eq_of_getLsbD_eq
  intro i h
  rw [BitVec.getLsbD_extractLsb', BitVec.getLsbD_append]
  simp [h]

/-- Different offsets of a segment are different addresses (R63, R64). -/
theorem phys_inj {seg a b : Word} (h : phys seg a = phys seg b) : a = b := by
  have h := congrArg BitVec.toNat h
  simp only [phys, BitVec.toNat_ofNat] at h
  have := seg.isLt
  have := a.isLt
  have := b.isLt
  apply BitVec.eq_of_toNat_eq
  omega

/-! ## A byte of the bus -/

/-- All the queue does at a store: it may hold one byte more, fetched just before (R41, R85). -/
theorem Bus.noteStore_spec (b : Bus) (v : View) (a : Addr) (x : Byte) :
    ∃ q st n f, b.noteStore v a x = { b with queue := q, stale := st, draws := n, log := f ++ b.log } ∧
      withoutFetches f = [] := by
  unfold Bus.noteStore
  split
  · split
    · exact ⟨_, _, _, [], rfl, rfl⟩
    · exact ⟨_, _, _, [], rfl, rfl⟩
    · split
      · exact ⟨_, _, _, [], rfl, rfl⟩
      · by_cases h : (Config.freeByte b.draws).getLsbD 0 = true
        · simp only [h, if_true]
          exact ⟨_, _, _, [_], rfl, rfl⟩
        · simp only [h, Bool.false_eq_true, if_false]
          exact ⟨_, _, _, [], rfl, rfl⟩
  · exact ⟨_, _, _, [], rfl, rfl⟩

/-- All a store of one byte does: that byte of memory, and what the queue does. -/
theorem Bus.storeByte_spec (b : Bus) (v : View) (a : Addr) (x : Byte) :
    ∃ q st n f, b.storeByte v a x =
      { b with mem := b.mem.write a.toNat x, queue := q, stale := st, draws := n, log := f ++ b.log } ∧
      withoutFetches f = [] := by
  obtain ⟨q, st, n, f, h, hf⟩ := b.noteStore_spec v a x
  exact ⟨q, st, n, f, by rw [Bus.storeByte, h], hf⟩

theorem Bus.readByte_storeByte_same (b : Bus) (v : View) (a : Addr) (x : Byte) :
    (b.storeByte v a x).readByte a = x := by
  simp [Bus.storeByte, Bus.readByte]

theorem Bus.readByte_storeByte_other (b : Bus) (v : View) {a c : Addr} (x : Byte) (h : c ≠ a) :
    (b.storeByte v a x).readByte c = b.readByte c := by
  simp only [Bus.storeByte, Bus.readByte]
  exact Memory.read_write_other _ x fun e => h (BitVec.eq_of_toNat_eq e)

end Sys2Proof.Machine
end

