-- ==== Sys2Proof/Laws/Bus.lean ====
section
/-!
SUPPORT. What the bus cycles can do, each said once: in any environment (`Bus.Later`), and when nothing comes from
outside.
-/

namespace Sys2Proof.Machine

/-! ## In any environment -/

/-- What every part of a bus cycle keeps: memory its canonical form, the samples to come a rest of those before, a
RESET that has come, a latched NMI, and the record of the cycles done. An NMI latched meanwhile has used a sample.
-/
structure Bus.Later (b c : Bus) : Prop where
  wf : b.mem.wf = true → c.mem.wf = true
  env : c.env <:+ b.env
  reset : b.pins.reset = true → c.pins.reset = true
  latch : b.nmiLatch = true → c.nmiLatch = true
  budget : c.nmiLatch.toNat + c.env.length ≤ b.nmiLatch.toNat + b.env.length
  log : b.log <:+ c.log

variable {b c d : Bus}

theorem Bus.Later.refl (b : Bus) : b.Later b :=
  ⟨id, List.suffix_refl _, id, id, Nat.le_refl _, List.suffix_refl _⟩

theorem Bus.Later.trans (h : b.Later c) (k : c.Later d) : b.Later d :=
  ⟨k.wf ∘ h.wf, k.env.trans h.env, k.reset ∘ h.reset, k.latch ∘ h.latch, Nat.le_trans k.budget h.budget, h.log.trans k.log⟩

/-- A change of memory, queue, answers, requests and draws only. -/
theorem Bus.Later.of_same (hw : b.mem.wf = true → c.mem.wf = true) (he : c.env = b.env) (hp : c.pins = b.pins)
    (hn : c.nmiLatch = b.nmiLatch) (hl : b.log <:+ c.log) : b.Later c :=
  ⟨hw, he ▸ List.suffix_refl _, fun h => hp ▸ h, fun h => hn ▸ h, by rw [hn, he], hl⟩

variable (b) (v : View)

theorem Bus.storeByte_later (a : Addr) (x : Byte) : b.Later (b.storeByte v a x) := by
  obtain ⟨q, st, n, f, h, -⟩ := b.storeByte_spec v a x
  rw [h]
  exact .of_same (Memory.wf_write x a.isLt) rfl rfl rfl (List.suffix_append _ _)

theorem Bus.answered_later (l : Location) : b.Later (b.answered l) := by
  unfold Bus.answered
  split <;> exact .of_same id rfl rfl rfl (List.suffix_refl _)

theorem Bus.found_later (l : Location) : b.Later (b.found v l) := by
  unfold Bus.found
  split <;> [split; skip] <;> first | exact .refl b | exact b.answered_later _

theorem Bus.put_later (l : Location) (x : Byte) : b.Later (b.put v l x) := by
  unfold Bus.put
  split <;> [split; skip] <;> first | exact .refl b | exact b.storeByte_later v _ x

theorem Bus.keep_later (l : Location) (x : Byte) : b.Later (b.keep v l x) := by
  unfold Bus.keep
  split <;> [split; skip] <;> first
    | exact .refl b
    | exact .of_same (Memory.wf_write x (BitVec.isLt _)) rfl rfl rfl (List.suffix_refl _)

/-- All that comes before the cycles of other masters: fetches (R84). -/
theorem Bus.noteMasters_spec (l : List MasterCycle) : ∃ q st n f,
    b.noteMasters v l = { b with queue := q, stale := st, draws := n, log := f ++ b.log } ∧ withoutFetches f = [] := by
  have h1 : ∀ (b : Bus) c, ∃ q st n f,
      b.noteMaster v c = { b with queue := q, stale := st, draws := n, log := f ++ b.log } ∧ withoutFetches f = [] := by
    intro b c
    unfold Bus.noteMaster
    split <;> [split; skip; skip] <;> first
      | exact b.noteStore_spec v _ _
      | exact ⟨_, _, _, [], rfl, rfl⟩
  induction l generalizing b with
  | nil => exact ⟨_, _, _, [], rfl, rfl⟩
  | cons c l ih =>
    obtain ⟨q, st, n, f, h, hf⟩ := h1 b c
    obtain ⟨q', st', n', f', h', hf'⟩ := ih (b.noteMaster v c)
    rw [Bus.noteMasters, h', h]
    refine ⟨_, _, _, f' ++ f, by rw [List.append_assoc], ?_⟩
    simp only [withoutFetches, List.filter_append] at hf hf' ⊢
    rw [hf, hf', List.nil_append]

theorem Bus.noteMasters_later (l : List MasterCycle) : b.Later (b.noteMasters v l) := by
  obtain ⟨q, st, n, f, h, -⟩ := b.noteMasters_spec v l
  rw [h]
  exact .of_same id rfl rfl rfl (List.suffix_append _ _)

theorem Bus.doMaster_later (c : MasterCycle) : b.Later (b.doMaster v c) := by
  cases c with
  | read l => exact (b.found_later v l).trans (.of_same id rfl rfl rfl ⟨[_], rfl⟩)
  | write l x => exact (b.keep_later v l x).trans (.of_same id rfl rfl rfl ⟨[_], rfl⟩)

theorem Bus.doMasters_later (l : List MasterCycle) : b.Later (b.doMasters v l) := by
  induction l generalizing b with
  | nil => exact .refl b
  | cons c l ih => exact (b.doMaster_later v c).trans (ih _)

theorem Bus.serve_later (l : List MasterCycle) : b.Later (b.serve v l) :=
  (b.noteMasters_later v l).trans (Bus.doMasters_later _ v l)

theorem Bus.sample_later (h : b.pins.reset = false) : b.Later b.sample := by
  unfold Bus.sample
  split
  · exact .refl b
  · next x rest e =>
    refine ⟨id, by rw [e]; exact ⟨[x], rfl⟩, by simp [h], fun k => by simp [k], ?_, List.suffix_refl _⟩
    rw [e]
    cases b.nmiLatch <;> cases x.pins.nmi <;> cases b.pins.nmi <;> simp [Nat.add_comm]

theorem Bus.grant_later : b.Later (b.grant v) := by
  unfold Bus.grant
  split
  · exact .refl b
  · exact (b.serve_later v _).trans (.of_same id rfl rfl rfl (List.suffix_refl _))

theorem Bus.grantSystem_later : b.Later (b.grantSystem v) := by
  unfold Bus.grantSystem
  split
  · exact .refl b
  · exact (b.serve_later v _).trans (.of_same id rfl rfl rfl (List.suffix_refl _))

theorem Bus.release_later (h : b.pins.reset = false) : b.Later (b.release v) :=
  (b.sample_later h).trans (Bus.grant_later _ v)

/-- All a read of a location does: a device may have answered (R73). -/
theorem Bus.found_spec (l : Location) : ∃ as n, b.found v l = { b with answers := as, draws := n } := by
  have h : ∀ l, ∃ as n, b.answered l = { b with answers := as, draws := n } := fun l => by
    unfold Bus.answered
    split <;> exact ⟨_, _, rfl⟩
  unfold Bus.found
  split <;> [split; skip] <;> first | exact ⟨_, _, rfl⟩ | exact h _

/-- All the cycles of other masters do: they read and write, and are recorded in order, the processor's queue as it
was (R84). -/
theorem Bus.doMasters_spec (l : List MasterCycle) : ∃ m as n,
    b.doMasters v l = { b with mem := m, answers := as, draws := n, log := masterLog l ++ b.log } := by
  have h1 : ∀ (b : Bus) c, ∃ m as n,
      b.doMaster v c = { b with mem := m, answers := as, draws := n, log := .master c :: b.log } := fun b c => by
    cases c with
    | read l =>
      obtain ⟨as, n, e⟩ := b.found_spec v l
      exact ⟨b.mem, as, n, by simp only [Bus.doMaster, e]⟩
    | write l x =>
      simp only [Bus.doMaster, Bus.keep]
      split <;> [split; skip] <;> exact ⟨_, _, _, rfl⟩
  induction l generalizing b with
  | nil => exact ⟨_, _, _, rfl⟩
  | cons c l ih =>
    obtain ⟨m, as, n, h⟩ := h1 b c
    obtain ⟨m', as', n', h'⟩ := ih (b.doMaster v c)
    rw [Bus.doMasters, h', h]
    exact ⟨m', as', n', by simp [masterLog]⟩

/-- All that serving other masters does: fetches first, then their cycles (R84). -/
theorem Bus.serve_spec (l : List MasterCycle) : ∃ m q st as n f,
    b.serve v l = { b with
      mem := m, queue := q, stale := st, answers := as, draws := n, log := masterLog l ++ (f ++ b.log) } ∧
    withoutFetches f = [] := by
  obtain ⟨q, st, n, f, h, hf⟩ := b.noteMasters_spec v l
  obtain ⟨m, as, n', h'⟩ := (b.noteMasters v l).doMasters_spec v l
  rw [Bus.serve, h', h]
  exact ⟨_, _, _, _, _, f, rfl, hf⟩

/-- All an instruction fetch does: it only reads, into the queue (R80). -/
theorem Bus.fetch_spec (w : Width) (k : Nat) : ∃ q as n f,
    b.fetch v w k = { b with queue := q, answers := as, draws := n, log := f ++ b.log } ∧ withoutFetches f = [] := by
  have h : ∀ (c : Bus) a, ∃ as n, c.fetchByte v a =
      { c with queue := c.queue ++ [(a.toNat, c.find v (.mem a))], answers := as, draws := n } := fun c a => by
    obtain ⟨as, n, e⟩ := c.found_spec v (.mem a)
    exact ⟨as, n, by rw [Bus.fetchByte, e]⟩
  obtain ⟨as, n, e⟩ := h b (v.codeAt k)
  simp only [Bus.fetch]
  split
  · obtain ⟨as', n', e'⟩ := h (b.fetchByte v (v.codeAt k)) (v.codeAt (k + 1))
    rw [e', e]
    exact ⟨_, _, _, [_], rfl, rfl⟩
  · rw [e]
    exact ⟨_, _, _, [_], rfl, rfl⟩

theorem Bus.fetch_later (w : Width) (k : Nat) : b.Later (b.fetch v w k) := by
  obtain ⟨q, as, n, f, h, -⟩ := b.fetch_spec v w k
  rw [h]
  exact .of_same id rfl rfl rfl (List.suffix_append _ _)

/-- All a fetch ahead is: a fetch, while RESET is LOW. -/
theorem Bus.fetchAhead_spec {b c : Bus} {v : View} {q : Option Width} (h : b.fetchAhead v q = some c) :
    v.fetching = true ∧ b.pins.reset = false ∧ ∃ w k, q = some w ∧ c = b.fetch v w k := by
  unfold Bus.fetchAhead at h
  split at h
  · next hc =>
    simp only [Bool.and_eq_true, Bool.not_eq_true'] at hc
    split at h
    · cases h
      exact ⟨hc.1.1, hc.1.2, _, _, rfl, rfl⟩
    · cases h
  · cases h

/-- What comes between two bus cycles of an instruction. -/
theorem Bus.tickWithin_later (n : Nat) (h : b.pins.reset = false) : b.Later (b.tickWithin v n) := by
  induction n generalizing b with
  | zero => exact b.release_later v h
  | succ n ih =>
    simp only [Bus.tickWithin]
    split
    · next c e =>
      obtain ⟨-, hr, w, k, -, rfl⟩ := Bus.fetchAhead_spec e
      refine ((b.release_later v h).trans (Bus.fetch_later _ v w k)).trans (ih _ ?_)
      obtain ⟨q, as, n, f, hf, -⟩ := (b.release v).fetch_spec v w k
      rw [hf]
      exact hr
    · exact b.release_later v h

/-- Where no fetch ahead is asked for, it is one sample and what other masters do. -/
theorem Bus.tick_of_no_fetch (h : ∀ x rest, b.env = x :: rest → x.fetch = none) : b.tick v = b.release v := by
  unfold Bus.tick
  match he : b.env with
  | [] => rfl
  | x :: rest => simp [Bus.tickWithin, he, h x rest he, Bus.fetchAhead]

theorem Bus.start_later : b.Later (b.start v) := by
  unfold Bus.start
  split
  · exact .refl b
  · next h => exact b.tickWithin_later v _ (by simpa using h)

theorem Bus.between_later : b.Later (b.between v) := by
  unfold Bus.between
  split
  · exact .refl b
  · next h => exact (b.sample_later (by simpa using h)).trans (Bus.grantSystem_later _ v)

theorem Bus.record_later (c : BusCycle) : b.Later (b.record c) := by
  unfold Bus.record
  split
  · exact .refl b
  · exact .of_same id rfl rfl rfl ⟨[c], rfl⟩

theorem Bus.taken_later (l : Location) : b.Later (b.taken v l) := by
  unfold Bus.taken
  split
  · exact .of_same id rfl rfl rfl (List.suffix_refl _)
  · exact b.found_later v l

theorem Bus.give_later (l : Location) (x : Byte) : b.Later (b.give v l x) := by
  unfold Bus.give
  split
  · exact (Bus.Later.of_same (b := b) (c := { b with draws := b.draws + 1 }) id rfl rfl rfl (List.suffix_refl _)).trans
      (Bus.put_later _ v l _)
  · exact b.put_later v l x

theorem Bus.takenLow_later (x : Access) : b.Later (b.takenLow v x) := by
  simp only [Bus.takenLow]
  split
  · exact ((b.taken_later v _).trans (Bus.record_later _ _)).trans (Bus.between_later _ v)
  · exact b.taken_later v _

/-- A read. -/
theorem Bus.afterRead_later (w : Width) (x : Access) : b.Later (b.afterRead v w x) := by
  cases w with
  | byte => exact ((b.start_later v).trans (Bus.taken_later _ v _)).trans (Bus.record_later _ _)
  | word =>
    exact (((b.start_later v).trans (Bus.takenLow_later _ v x)).trans (Bus.taken_later _ v _)).trans (Bus.record_later _ _)

/-- A write. -/
theorem Bus.write_later (w : Width) (x : Access) (u : Operand w) : b.Later (b.write v w x u) := by
  cases w with
  | byte => exact ((b.start_later v).trans (Bus.give_later _ v _ _)).trans (Bus.record_later _ _)
  | word =>
    simp only [Bus.write]
    have h := (b.start_later v).trans (Bus.give_later _ v x.lo (lowByte u))
    split
    · exact (((h.trans (Bus.record_later _ _)).trans (Bus.between_later _ v)).trans (Bus.give_later _ v _ _)).trans
        (Bus.record_later _ _)
    · exact (h.trans (Bus.give_later _ v _ _)).trans (Bus.record_later _ _)

theorem Bus.haltCycle_later : b.Later (b.haltCycle v) := (b.start_later v).trans (Bus.record_later _ _)

theorem Bus.acknowledge_later (t : Byte) : b.Later (b.acknowledge v t) :=
  (((b.start_later v).trans (Bus.record_later _ _)).trans (Bus.between_later _ _)).trans (Bus.record_later _ _)

theorem Bus.demand_later (k : Nat) : b.Later (b.demand v k) := by
  simp only [Bus.demand]
  split
  · exact b.start_later v
  · exact (b.start_later v).trans (Bus.fetch_later _ v _ _)

theorem Bus.refetch_later (code : Nat → Addr) (n : Nat) : b.Later (b.refetch v code n) := by
  induction n with
  | zero => exact .refl b
  | succ n ih =>
    have h := ih.trans (Bus.start_later _ v)
    simp only [Bus.refetch]
    split
    · exact h
    · refine (h.trans (Bus.found_later _ v (.mem (code n)))).trans (.of_same id rfl rfl rfl ?_)
      obtain ⟨as, m, e⟩ := ((b.refetch v code n).start v).found_spec v (.mem (code n))
      rw [e]
      exact ⟨[_], rfl⟩

theorem Bus.release_wf (h : b.mem.wf = true) : (b.release v).mem.wf = true := by
  refine (Bus.grant_later b.sample v).wf ?_
  unfold Bus.sample
  split <;> exact h

theorem Bus.tick_wf (h : b.mem.wf = true) : (b.tick v).mem.wf = true := by
  unfold Bus.tick
  generalize b.env.length = n
  induction n generalizing b with
  | zero => exact b.release_wf v h
  | succ n ih =>
    simp only [Bus.tickWithin]
    split
    · next c e =>
      obtain ⟨-, -, w, k, -, rfl⟩ := Bus.fetchAhead_spec e
      exact ih _ ((Bus.fetch_later _ v w k).wf (b.release_wf v h))
    · exact b.release_wf v h

/-! ## Nothing from outside -/

/-- No sample, no request, RESET LOW. -/
structure Bus.Calm (b : Bus) : Prop where
  env : b.env = []
  requests : b.requests = Requests.none
  reset : b.pins.reset = false

variable {b}

theorem Bus.Calm.of_same (h : b.Calm) (he : c.env = b.env) (hr : c.requests = b.requests) (hp : c.pins = b.pins) : c.Calm :=
  ⟨he.trans h.env, hr.trans h.requests, hp ▸ h.reset⟩

theorem Bus.Calm.start (h : b.Calm) : b.start v = b := by
  obtain ⟨he, hr, hp⟩ := h
  cases b
  simp_all [Bus.start, Bus.tick, Bus.tickWithin, Bus.release, Bus.sample, Bus.grant, Requests.none, Bus.serve, Bus.noteMasters, Bus.doMasters]

theorem Bus.Calm.between (h : b.Calm) : b.between v = b := by
  obtain ⟨he, hr, hp⟩ := h
  cases b
  simp_all [Bus.between, Bus.sample, Bus.grantSystem, Requests.none, Bus.serve, Bus.noteMasters, Bus.doMasters]

theorem Bus.Calm.record (h : b.Calm) (c : BusCycle) : b.record c = { b with log := c :: b.log } := by
  simp [Bus.record, h.reset]

theorem Bus.Calm.taken (h : b.Calm) (l : Location) : b.taken v l = b.found v l := by simp [Bus.taken, h.reset]

theorem Bus.Calm.take (h : b.Calm) (l : Location) : b.take v l = b.find v l := by simp [Bus.take, h.reset]

theorem Bus.Calm.give (h : b.Calm) (l : Location) (x : Byte) : b.give v l x = b.put v l x := by simp [Bus.give, h.reset]

/-- Where the platform gives no map, all memory is RAM. -/
theorem View.presence_ram {v : View} (h : v.params.map = []) (a : Addr) : v.presence a = .ram := by
  simp [View.presence, h]

/-! ## Operands in memory -/

/-- The cycles of an access, the last first. -/
def accessCycles (mk : Option SReg → Location → Transfer → BusCycle) (w : Width) (x : Access) (u : Operand w) :
    List BusCycle :=
  match w, u with
  | .byte, u => [mk x.seg x.lo (.byte u)]
  | .word, u =>
    if x.lo.isOdd then [mk x.seg x.hi (.byte (highByte u)), mk x.seg x.lo (.byte (lowByte u))]
    else [mk x.seg x.lo (.word u)]

/-- The bytes memory holds at an access. -/
def Bus.held (b : Bus) (w : Width) (lo hi : Addr) : Operand w :=
  match w with
  | .byte => b.readByte lo
  | .word => joinBytes (b.readByte hi) (b.readByte lo)

/-- All a read of memory does when nothing comes from outside and all memory is RAM. -/
theorem Bus.Calm.read_mem (h : b.Calm) {v : View} (hm : v.params.map = []) (w : Width) (seg : Option SReg) (lo hi : Addr) :
    b.read v w ⟨seg, .mem lo, .mem hi⟩ = b.held w lo hi ∧
    b.afterRead v w ⟨seg, .mem lo, .mem hi⟩ =
      { b with log := accessCycles .read w ⟨seg, .mem lo, .mem hi⟩ (b.held w lo hi) ++ b.log } := by
  have hp : ∀ a, v.presence a = .ram := View.presence_ram hm
  have hf : ∀ (c : Bus) a, c.found v (.mem a) = c := fun c a => by simp [Bus.found, hp]
  have hd : ∀ (c : Bus) a, c.find v (.mem a) = c.readByte a := fun c a => by simp [Bus.find, hp]
  have h' : ∀ l : List BusCycle, ({ b with log := l } : Bus).Calm := fun l => h.of_same rfl rfl rfl
  have hw : ∀ l, ({ b with log := l } : Bus).between v = { b with log := l } := fun l => (h' l).between v
  cases w with
  | byte =>
    simp only [Bus.read, Bus.afterRead, Bus.held, accessCycles, h.start, h.take, h.taken, hf, hd, h.record]
    exact ⟨trivial, rfl⟩
  | word =>
    simp only [Bus.read, Bus.afterRead, Bus.takenLow, Bus.held, accessCycles, h.start, h.take, h.taken, hf, hd]
    by_cases ho : (Location.mem lo).isOdd = true
    · simp only [ho, if_true, h.record, hw, (h' _).take, (h' _).taken, (h' _).record, hf, hd, highByte_joinBytes,
        lowByte_joinBytes]
      exact ⟨rfl, rfl⟩
    · simp only [ho, Bool.false_eq_true, if_false, h.take, h.taken, h.record, hf, hd]
      exact ⟨trivial, rfl⟩

/-- What a store of one byte keeps and changes, for what follows it. -/
structure Bus.StoredByte (a : Addr) (x : Byte) (b c : Bus) : Prop where
  rest : c = { b with mem := c.mem, queue := c.queue, stale := c.stale, draws := c.draws, log := c.log }
  log : withoutFetches c.log = withoutFetches b.log
  same : c.readByte a = x
  other : ∀ d, d ≠ a → c.readByte d = b.readByte d

theorem Bus.storeByte_stored (b : Bus) (v : View) (a : Addr) (x : Byte) : Bus.StoredByte a x b (b.storeByte v a x) := by
  refine ⟨?_, ?_, b.readByte_storeByte_same v a x, fun d h => b.readByte_storeByte_other v x h⟩
  · obtain ⟨q, st, n, f, h, -⟩ := b.storeByte_spec v a x
    rw [h]
  · obtain ⟨q, st, n, f, h, hf⟩ := b.storeByte_spec v a x
    rw [h]
    simp only [withoutFetches, List.filter_append] at hf ⊢
    rw [hf, List.nil_append]

/-- All a write of memory does when nothing comes from outside and all memory is RAM: its cycles are recorded, among
fetches; the operand is held; no other byte changes. -/
theorem Bus.Calm.write_mem (h : b.Calm) {v : View} (hm : v.params.map = []) (w : Width) (seg : Option SReg) {lo hi : Addr}
    (hne : hi ≠ lo) (u : Operand w) :
    let c := b.write v w ⟨seg, .mem lo, .mem hi⟩ u
    c = { b with mem := c.mem, queue := c.queue, stale := c.stale, draws := c.draws, log := c.log } ∧
    withoutFetches c.log = accessCycles .write w ⟨seg, .mem lo, .mem hi⟩ u ++ withoutFetches b.log ∧
    c.held w lo hi = u ∧ ∀ a, a ∉ (match w with | .byte => [lo] | .word => [lo, hi]) → c.readByte a = b.readByte a := by
  have hu : ∀ (c : Bus) a x, c.put v (.mem a) x = c.storeByte v a x := fun c a x => by
    simp [Bus.put, View.presence_ram hm a]
  have hs : ∀ (c : Bus) a x, Bus.StoredByte a x c (c.storeByte v a x) := fun c a x => c.storeByte_stored v a x
  have hc : ∀ c : Bus, c.Calm → ∀ a x, (c.storeByte v a x).Calm := fun c hc a x =>
    hc.of_same (by rw [(hs c a x).rest]) (by rw [(hs c a x).rest]) (by rw [(hs c a x).rest])
  have hl : ∀ c : Bus, c.Calm → ∀ x, (c.record x).Calm := fun c hc x => by
    rw [hc.record]; exact hc.of_same rfl rfl rfl
  cases w with
  | byte =>
    simp only [Bus.write, h.start, h.give, hu, (hc b h _ _).record]
    have k := hs b lo u
    refine ⟨by rw [k.rest], ?_, k.same, fun a ha => k.other a (by simpa using ha)⟩
    exact congrArg (BusCycle.write seg (.mem lo) (.byte u) :: ·) k.log
  | word =>
    have k := hs b lo (lowByte u)
    have h1 := hc b h lo (lowByte u)
    simp only [Bus.write, h.start, h.give, hu, accessCycles]
    generalize b.storeByte v lo (lowByte u) = c at k h1
    by_cases ho : (Location.mem lo).isOdd = true
    · have h2 := hl _ h1 (.write seg (.mem lo) (.byte (lowByte u)))
      simp only [ho, if_true, h2.between, h2.give, hu]
      rw [h1.record] at h2 ⊢
      have k2 := hs { c with log := .write seg (.mem lo) (.byte (lowByte u)) :: c.log } hi (highByte u)
      have h3 := hc _ h2 hi (highByte u)
      generalize Bus.storeByte v hi (highByte u) _ = d at k2 h3
      simp only [h3.record]
      refine ⟨by rw [k2.rest, k.rest], ?_, ?_, fun a ha => ?_⟩
      · have e := k2.log
        simp only [withoutFetches, List.filter_cons, if_true, List.cons_append, List.nil_append] at e k ⊢
        rw [e]
        exact congrArg (fun l => _ :: _ :: l) k.log
      · simp only [Bus.held, Bus.readByte] at k k2 ⊢
        rw [show d.mem.read hi.toNat = highByte u from k2.same,
          show d.mem.read lo.toNat = lowByte u from (k2.other lo hne.symm).trans k.same]
        exact joinBytes_high_low u
      · simp only [List.mem_cons, List.not_mem_nil, or_false, not_or] at ha
        exact (k2.other a ha.2).trans (k.other a ha.1)
    · have k2 := hs c hi (highByte u)
      have h3 := hc _ h1 hi (highByte u)
      simp only [ho, if_false, h1.give, hu, Bool.false_eq_true]
      generalize c.storeByte v hi (highByte u) = d at k2 h3
      simp only [h3.record]
      refine ⟨by rw [k2.rest, k.rest], ?_, ?_, fun a ha => ?_⟩
      · exact congrArg (BusCycle.write seg (.mem lo) (.word u) :: ·) (k2.log.trans k.log)
      · simp only [Bus.held, Bus.readByte]
        rw [show d.mem.read hi.toNat = highByte u from k2.same,
          show d.mem.read lo.toNat = lowByte u from (k2.other lo hne.symm).trans k.same]
        exact joinBytes_high_low u
      · simp only [List.mem_cons, List.not_mem_nil, or_false, not_or] at ha
        exact (k2.other a ha.2).trans (k.other a ha.1)

/-! ## Operands of the processor -/

variable (s : State)

theorem Still.calm {s : State} (h : Still s) : s.bus.Calm := ⟨h.env, h.requests, h.reset⟩

theorem State.afterRead_bus (w : Width) (sr : SReg) (off : Word) :
    (s.afterRead w sr off).bus = s.bus.afterRead s.view w (s.operandAt sr off) := rfl

theorem State.afterVector_bus (a : Addr) : (s.afterVector a).bus = s.bus.afterRead s.view .word (wordAt a) := rfl

theorem State.writeSeg_bus (w : Width) (sr : SReg) (off : Word) (u : Operand w) :
    (s.writeSeg w sr off u).bus = s.bus.write s.view w (s.operandAt sr off) u := rfl

theorem State.afterPort_bus (w : Width) (p : Word) : (s.afterPort w p).bus = s.bus.afterRead s.view w (portAt p) := rfl

theorem State.writePort_bus (w : Width) (p : Word) (u : Operand w) :
    (s.writePort w p u).bus = s.bus.write s.view w (portAt p) u := rfl

/-- A state whose bus differs in memory, queue, draws and record only is quiet if the first is. -/
theorem Quiet.congr {s t : State} (h : Quiet s) (he : t.bus.env = s.bus.env) (hr : t.bus.requests = s.bus.requests)
    (hp : t.bus.pins = s.bus.pins) (hm : t.params = s.params) : Quiet t :=
  ⟨⟨he.trans h.env, hr.trans h.requests, hp ▸ h.reset⟩, hm ▸ h.map⟩

theorem heldAt_eq (w : Width) (seg off : Word) : heldAt s w seg off = s.bus.held w (phys seg off) (phys seg (off + 1)) := by
  cases w <;> rfl

theorem cyclesOf_eq (mk : Option SReg → Location → Transfer → BusCycle) (w : Width) (sr : SReg) (off : Word)
    (u : Operand w) : cyclesOf mk s w sr off u = accessCycles mk w (s.operandAt sr off) u := by
  cases w with
  | byte => rfl
  | word =>
    simp only [cyclesOf, accessCycles, State.operandAt, Location.isOdd, BitVec.getLsbD_eq_getElem (show 0 < 20 by decide),
      BitVec.getElem_eq_testBit_toNat, Nat.testBit_zero]
    have := Nat.mod_two_eq_zero_or_one (phys (s.sreg sr) off).toNat
    rcases this with e | e <;> simp [e]

/-- All a read of an operand does when nothing comes from outside. -/
theorem Quiet.read {s : State} (h : Quiet s) (w : Width) (sr : SReg) (off : Word) :
    s.readSeg w sr off = heldAt s w (s.sreg sr) off ∧
    s.afterRead w sr off =
      s.setBus { s.bus with log := cyclesOf .read s w sr off (heldAt s w (s.sreg sr) off) ++ s.bus.log } := by
  have k := h.toStill.calm.read_mem (v := s.view) h.map w (some sr) (phys (s.sreg sr) off) (phys (s.sreg sr) (off + 1))
  rw [cyclesOf_eq, heldAt_eq]
  exact ⟨k.1, congrArg (fun x => s.setBus x) k.2⟩

theorem Quiet.afterRead {s : State} (h : Quiet s) (w : Width) (sr : SReg) (off : Word) : Quiet (s.afterRead w sr off) := by
  rw [(h.read w sr off).2]
  exact h.congr rfl rfl rfl rfl

/-- All a write of an operand does when nothing comes from outside. -/
theorem Quiet.write {s : State} (h : Quiet s) (w : Width) (sr : SReg) (off : Word) (u : Operand w) :
    let t := s.writeSeg w sr off u
    t.bus = { s.bus with
              mem := t.bus.mem
              queue := t.bus.queue
              stale := t.bus.stale
              draws := t.bus.draws
              log := t.bus.log } ∧
    withoutFetches t.bus.log = cyclesOf .write s w sr off u ++ withoutFetches s.bus.log ∧
    heldAt t w (s.sreg sr) off = u ∧ ∀ a, a ∉ storeAddrs (s.sreg sr) off w → t.readByte a = s.readByte a := by
  have k := h.toStill.calm.write_mem (v := s.view) h.map w (some sr) (phys_succ_ne (s.sreg sr) off) u
  simp only [cyclesOf_eq, heldAt_eq]
  refine ⟨k.1, k.2.1, k.2.2.1, fun a ha => k.2.2.2 a ?_⟩
  cases w <;> exact ha

theorem Quiet.writeSeg {s : State} (h : Quiet s) (w : Width) (sr : SReg) (off : Word) (u : Operand w) :
    Quiet (s.writeSeg w sr off u) := by
  have e := (h.write w sr off u).1
  exact h.congr (by rw [e]) (by rw [e]) (by rw [e]) rfl

/-- A store of an operand, in any environment. -/
theorem State.stored_writeSeg (w : Width) (sr : SReg) (off : Word) (u : Operand w) :
    Stored w sr off u s s (s.writeSeg w sr off u) :=
  ⟨rfl, fun h => (h.write w sr off u).2.2⟩

/-- A read of an operand only reads. -/
theorem State.onlyRead_afterRead (w : Width) (sr : SReg) (off : Word) :
    OnlyRead (s.afterRead w sr off) s (s.afterRead w sr off) := by
  refine ⟨rfl, fun h => ?_⟩
  rw [(h.read w sr off).2]
  exact ⟨fun _ => rfl, rfl⟩

theorem State.onlyRead_self : OnlyRead s s s := ⟨rfl, fun _ => ⟨fun _ => rfl, rfl⟩⟩

theorem State.onlyRead_afterRM (w : Width) (rm : RM) : OnlyRead (s.afterRM w rm) s (s.afterRM w rm) := by
  cases rm with
  | reg r => exact s.onlyRead_self
  | mem m => exact s.onlyRead_afterRead _ _ _

theorem Quiet.afterRM {s : State} (h : Quiet s) (w : Width) (rm : RM) : Quiet (s.afterRM w rm) := by
  cases rm with
  | reg r => exact h
  | mem m => exact h.afterRead _ _ _

/-- Reads one after the other only read. -/
theorem OnlyRead.trans {s u t : State} (h : OnlyRead u s u) (k : OnlyRead t u t) (hq : Quiet s → Quiet u) :
    OnlyRead t s t := by
  refine ⟨rfl, fun q => ?_⟩
  obtain ⟨h1, h2⟩ := h.2 q
  obtain ⟨k1, k2⟩ := k.2 (hq q)
  exact ⟨fun a => (k1 a).trans (h1 a), by rw [k2, h2]⟩

/-- What only reads is a matter of the bus. -/
theorem OnlyRead.of_bus {s u t : State} (h : OnlyRead u s u) (hb : t.bus = u.bus) : OnlyRead u s t := by
  refine ⟨hb, fun q => ?_⟩
  obtain ⟨h1, h2⟩ := h.2 q
  simp only [State.readByte, hb]
  exact ⟨h1, h2⟩

/-! ## The stack -/

@[simp] theorem State.setReg16_same (r : Reg16) (v : Word) : (s.setReg16 r v).reg16 r = v := by cases r <;> rfl

theorem State.setReg16_other {r q : Reg16} (v : Word) (h : q ≠ r) : (s.setReg16 r v).reg16 q = s.reg16 q := by
  cases r <;> cases q <;> first | rfl | exact absurd rfl h

/-- All a push does (R160): SP is 2 lower, the word is stored at the new SS:SP, no other register has changed. -/
theorem State.push16_spec (v : Word) : Pushed v s s (s.push16 v) :=
  ⟨by simp [State.push16], fun q hq => s.setReg16_other _ hq, s.stored_writeSeg .word .ss (s.reg16 .sp - 2) v⟩

theorem State.push16_bus (v : Word) :
    (s.push16 v).bus = s.bus.write s.view .word (s.operandAt .ss (s.reg16 .sp - 2)) v := rfl

theorem State.push16_sp (v : Word) : (s.push16 v).reg16 .sp = s.reg16 .sp - 2 := rfl

theorem Quiet.push16 {s : State} (h : Quiet s) (v : Word) : Quiet (s.push16 v) :=
  Quiet.writeSeg (s := s.setReg16 .sp (s.reg16 .sp - 2)) (h.congr rfl rfl rfl rfl) _ _ _ _

/-- A pop, as the statements say it. -/
theorem afterPops_succ (k : Nat) : afterPops s (k + 1) = (afterPops s k).dropTop := rfl

theorem stackWord_eq (k : Nat) : stackWord s k = (afterPops s k).top16 := rfl

theorem Quiet.dropTop {s : State} (h : Quiet s) : Quiet s.dropTop := (h.afterRead .word .ss (s.reg16 .sp)).congr rfl rfl rfl rfl

/-- All a pop does but for the value it reads (R164). -/
theorem State.dropTop_spec :
    s.dropTop.reg16 .sp = s.reg16 .sp + 2 ∧ OtherReg16 .sp s s.dropTop ∧ OnlyRead s.dropTop s s.dropTop := by
  refine ⟨by simp [State.dropTop], fun _ hq => State.setReg16_other _ _ hq, ?_⟩
  exact ⟨rfl, (s.onlyRead_afterRead .word .ss (s.reg16 .sp)).2⟩

/-- All `k` pops do. -/
theorem afterPops_spec (k : Nat) : Popped k (BitVec.ofNat 16 (2 * k)) s (afterPops s k) ∧ (Quiet s → Quiet (afterPops s k)) := by
  induction k with
  | zero => exact ⟨⟨by simp [afterPops], fun _ _ => rfl, s.onlyRead_self⟩, id⟩
  | succ k ih =>
    obtain ⟨⟨h1, h2, h3⟩, h4⟩ := ih
    obtain ⟨d1, d2, d3⟩ := (afterPops s k).dropTop_spec
    rw [afterPops_succ]
    refine ⟨⟨?_, fun q hq => (d2 q hq).trans (h2 q hq), h3.trans d3 h4⟩, fun q => (h4 q).dropTop⟩
    rw [d1, h1, BitVec.add_assoc]
    congr 1
    apply BitVec.eq_of_toNat_eq
    simp [BitVec.toNat_add, BitVec.toNat_ofNat]
    omega

end Sys2Proof.Machine
end

