-- ==== Sys2Proof/Laws/Operands.lean ====
section
/-!
SUPPORT. What the operand operations do, each said once: registers and their halves, the register-or-memory operand,
and the result of an operation written back.
-/

namespace Sys2Proof.Machine

variable (s : State)

/-! ## Registers -/

theorem State.setReg16_spec (r : Reg16) (v : Word) :
    (s.setReg16 r v).reg16 r = v ∧ OtherReg16 r s (s.setReg16 r v) :=
  ⟨s.setReg16_same r v, fun _ h => s.setReg16_other v h⟩

/-- All a write to an 8-bit register does (R22). -/
theorem State.setReg8_spec (r : Reg8) (v : Byte) : (s.setReg8 r v).reg8 r = v ∧ OtherReg8 r s (s.setReg8 r v) := by
  refine ⟨?_, fun q hq => ?_, ?_⟩
  · cases r <;> simp [State.reg8, State.setReg8, byteIsHigh, byteHolder]
  · cases r <;> cases q <;>
      first
        | exact absurd rfl hq
        | rfl
        | simp [State.reg8, State.setReg8, byteIsHigh, byteHolder]
  · cases r <;> exact ⟨rfl, rfl, rfl, rfl⟩

/-- All a write to `reg_w[r]` does. -/
theorem State.setReg_spec (w : Width) (r : RegNum) (v : Operand w) :
    (s.setReg w r v).reg w r = v ∧ OtherReg w r s (s.setReg w r v) := by
  cases w with
  | byte => exact s.setReg8_spec r.reg8 v
  | word => exact s.setReg16_spec r.reg16 v

theorem State.setAcc_spec (w : Width) (v : Operand w) :
    (s.setAcc w v).reg w .r000 = v ∧ OtherReg w .r000 s (s.setAcc w v) := s.setReg_spec w .r000 v

theorem State.setSreg_spec (r : SReg) (v : Word) :
    (s.setSreg r v).sreg r = v ∧ ∀ q, q ≠ r → (s.setSreg r v).sreg q = s.sreg q :=
  ⟨by cases r <;> rfl, fun q h => by cases r <;> cases q <;> first | rfl | exact absurd rfl h⟩

/-! ## The register-or-memory operand -/

/-- A state that names and addresses its operands as another one does. -/
structure SameOperands (s u : State) : Prop where
  regs : u.regs = s.regs
  segs : u.segs = s.segs
  segOverride : u.segOverride = s.segOverride
  view : u.view = s.view

namespace SameOperands

variable {s : State} {u r t : State}

theorem reg16 (h : SameOperands s u) (q : Reg16) : u.reg16 q = s.reg16 q := by simp [State.reg16, h.regs]

theorem reg8 (h : SameOperands s u) (q : Reg8) : u.reg8 q = s.reg8 q := by simp [State.reg8, h.reg16]

theorem reg (h : SameOperands s u) (w : Width) (q : RegNum) : u.reg w q = s.reg w q := by
  cases w <;> simp [State.reg, h.reg8, h.reg16]

theorem ea (h : SameOperands s u) (m : Mem) : u.ea m = s.ea m := by
  cases m with
  | direct a => rfl
  | based b d => cases b <;> simp [State.ea, State.eaBase, h.reg16]

theorem segRm (h : SameOperands s u) (m : Mem) : u.segRm m = s.segRm m := by
  simp [State.segRm, State.dataSegment, h.segOverride]

theorem operandAt (h : SameOperands s u) (sr : SReg) (off : Word) : u.operandAt sr off = s.operandAt sr off := by
  simp [State.operandAt, State.sreg, h.segs]

theorem otherReg (h : SameOperands s u) {w : Width} {q : RegNum} (k : OtherReg w q u t) : OtherReg w q s t := by
  cases w with
  | byte =>
    exact ⟨fun x hx => (k.1 x hx).trans (h.reg8 x), k.2.1.trans (h.reg16 _), k.2.2.1.trans (h.reg16 _),
      k.2.2.2.1.trans (h.reg16 _), k.2.2.2.2.trans (h.reg16 _)⟩
  | word => exact fun x hx => (k x hx).trans (h.reg16 x)

/-- A write where reads that lead to `r` have come before, and in between the flags or the draws may have changed. -/
theorem stored (hr : OnlyRead r s r) (hq : Quiet s → Quiet r) (hs : SameOperands s r) (hu : SameOperands s u)
    (hb : u.bus = r.bus) (w : Width) (sr : SReg) (off : Word) (v : Operand w) :
    Stored w sr off v r s (u.writeSeg w sr off v) := by
  have e : (u.writeSeg w sr off v).bus = (r.writeSeg w sr off v).bus := by
    rw [State.writeSeg_bus, State.writeSeg_bus, hb, hu.view, hs.view, hu.operandAt, hs.operandAt]
  refine ⟨e, fun h => ?_⟩
  obtain ⟨-, -, k1, k2⟩ := (hq h).write w sr off v
  have hsr : r.sreg sr = s.sreg sr := by simp [State.sreg, hs.segs]
  rw [hsr] at k1 k2
  refine ⟨?_, fun a ha => ?_⟩
  · exact (by simp only [heldAt, State.readByte, e] :
      heldAt (u.writeSeg w sr off v) w (s.sreg sr) off = heldAt (r.writeSeg w sr off v) w (s.sreg sr) off).trans k1
  · simp only [State.readByte, e]
    exact (k2 a ha).trans ((hr.2 h).1 a)

/-- All `WriteRM` does after such reads (R128). -/
theorem wroteRM (hr : OnlyRead r s r) (hq : Quiet s → Quiet r) (hs : SameOperands s r) (hu : SameOperands s u)
    (hb : u.bus = r.bus) (w : Width) (rm : RM) (v : Operand w) : WroteRM w rm v r s (u.writeRM w rm v) := by
  cases rm with
  | reg q =>
    refine ⟨(u.setReg_spec w q v).1, hu.otherReg (u.setReg_spec w q v).2, hr.of_bus ?_⟩
    simpa [State.writeRM] using hb
  | mem m =>
    refine ⟨by simpa [State.writeRM] using hu.regs, ?_⟩
    have k := stored hr hq hs hu hb w (s.segRm m) (s.ea m) v
    simpa [State.writeRM, hu.segRm, hu.ea] using k

theorem wroteReg (hr : OnlyRead r s r) (hu : SameOperands s u) (hb : u.bus = r.bus) (w : Width) (q : RegNum)
    (v : Operand w) : WroteReg w q v r s (u.setReg w q v) :=
  ⟨(u.setReg_spec w q v).1, hu.otherReg (u.setReg_spec w q v).2, hr.of_bus (by simpa using hb)⟩

theorem afterRM (s : State) (w : Width) (rm : RM) : SameOperands s (s.afterRM w rm) := ⟨by simp, by simp, by simp, by simp⟩

end SameOperands

/-- All `WriteRM` does (R128). -/
theorem State.writeRM_spec (w : Width) (rm : RM) (v : Operand w) : WroteRM w rm v s s (s.writeRM w rm v) :=
  SameOperands.wroteRM s.onlyRead_self id ⟨rfl, rfl, rfl, rfl⟩ ⟨rfl, rfl, rfl, rfl⟩ rfl w rm v

/-- All `WriteRM` does after `ReadRM` of the same operand, with other flags and draws. -/
theorem State.writeRM_afterRM_spec {u : State} (w : Width) (rm : RM) (v : Operand w) (hu : SameOperands s u)
    (hb : u.bus = (s.afterRM w rm).bus) : WroteRM w rm v (s.afterRM w rm) s (u.writeRM w rm v) :=
  SameOperands.wroteRM (s.onlyRead_afterRM w rm) (fun h => h.afterRM w rm) (.afterRM s w rm) hu hb w rm v

end Sys2Proof.Machine
end

