-- ==== Sys2Proof/Laws/Interrupts.lean ====
section
/-!
SUPPORT. What the pushes of several words, the entry of an interrupt and the return from one do, each said once.
-/

namespace Sys2Proof.Machine

variable (s : State)

/-! ## Words of one segment -/

theorem not_mem_storeAddrs {seg o : Word} {a : Addr} (w : Width) (h0 : a ≠ phys seg o) (h1 : a ≠ phys seg (o + 1)) :
    a ∉ storeAddrs seg o w := by
  cases w with
  | byte => simpa [storeAddrs] using h0
  | word =>
    simp only [storeAddrs, List.mem_cons, List.not_mem_nil, or_false, not_or]
    exact ⟨h0, h1⟩

/-- A word is held the same where its two bytes are. -/
theorem heldAt_congr {s t : State} {seg off : Word} (h0 : t.readByte (phys seg off) = s.readByte (phys seg off))
    (h1 : t.readByte (phys seg (off + 1)) = s.readByte (phys seg (off + 1))) :
    heldAt t .word seg off = heldAt s .word seg off := by
  simp only [heldAt, h0, h1]

/-- A word apart from the bytes stored is held as before. -/
theorem heldAt_apart {s t : State} {seg off o : Word}
    (h : ∀ a, a ∉ storeAddrs seg o .word → t.readByte a = s.readByte a)
    (h0 : off ≠ o) (h1 : off ≠ o + 1) (h2 : off + 1 ≠ o) : heldAt t .word seg off = heldAt s .word seg off := by
  have h3 : off + 1 ≠ o + 1 := fun e => h0 (by bv_omega)
  apply heldAt_congr <;> apply h <;> apply not_mem_storeAddrs <;> exact fun e => absurd (phys_inj e) (by assumption)

/-! ## Pushes -/

/-- All two pushes do (R323, R324). -/
theorem State.pushTwo_spec (v u : Word) : PushedTwo v u s s ((s.push16 v).push16 u) := by
  obtain ⟨a1, a2, a3⟩ := s.push16_spec v
  obtain ⟨b1, b2, b3⟩ := (s.push16 v).push16_spec u
  have hsp : (s.push16 v).reg16 .sp - 2 = s.reg16 .sp - 4 := by rw [a1]; bv_omega
  refine ⟨b1.trans hsp, fun q hq => (b2 q hq).trans (a2 q hq), rfl, fun h => ?_⟩
  obtain ⟨c1, c2⟩ := a3.2 h
  obtain ⟨d1, d2⟩ := b3.2 (h.push16 v)
  rw [hsp] at d1 d2
  refine ⟨?_, d1, fun a h1 h2 => (d2 a h2).trans (c2 a h1)⟩
  exact (heldAt_apart d2 (by bv_omega) (by bv_omega) (by bv_omega)).trans c1

theorem State.pushFar_spec : PushedTwo s.segs.cs s.ip s s s.pushFar := s.pushTwo_spec _ _

/-- A push after reads that lead to `r`. -/
theorem Pushed.after {s r : State} (hr : OnlyRead r s r) (hq : Quiet s → Quiet r) (hs : SameOperands s r) (v : Word) :
    Pushed v r s (r.push16 v) := by
  obtain ⟨a1, a2, a3⟩ := r.push16_spec v
  have e : r.reg16 .sp = s.reg16 .sp := hs.reg16 _
  refine ⟨by rw [a1, e], fun q h => (a2 q h).trans (hs.reg16 q), by rw [← e]; rfl, fun h => ?_⟩
  obtain ⟨k1, k2⟩ := a3.2 (hq h)
  rw [e, show r.sreg .ss = s.sreg .ss by simp [State.sreg, hs.segs]] at k1 k2
  exact ⟨k1, fun a ha => (k2 a ha).trans ((hr.2 h).1 a)⟩

/-- Two pushes after reads that lead to `r`. -/
theorem PushedTwo.after {s r : State} (hr : OnlyRead r s r) (hq : Quiet s → Quiet r) (hs : SameOperands s r) (v u : Word) :
    PushedTwo v u r s ((r.push16 v).push16 u) := by
  obtain ⟨a1, a2, -, a4⟩ := r.pushTwo_spec v u
  have e : r.reg16 .sp = s.reg16 .sp := hs.reg16 _
  refine ⟨by rw [a1, e], fun q h => (a2 q h).trans (hs.reg16 q), rfl, fun h => ?_⟩
  obtain ⟨k1, k2, k3⟩ := a4 (hq h)
  rw [e, show r.segs.ss = s.segs.ss by rw [hs.segs]] at k1 k2 k3
  exact ⟨k1, k2, fun a ha hb => (k3 a ha hb).trans ((hr.2 h).1 a)⟩

/-- The two reads of a pointer operand only read. -/
theorem State.onlyRead_afterPointer (m : Mem) : OnlyRead (s.afterPointer m) s (s.afterPointer m) :=
  OnlyRead.trans (s.onlyRead_afterRead _ _ _) (State.onlyRead_afterRead _ _ _ _) (fun h => h.afterRead _ _ _)

/-! ## The interrupt entry -/

/-- Steps 1 to 4 of R410: the three words of the frame. -/
theorem State.pushFrame_spec (saved : Word) :
    let t := s.pushFrame saved
    (t.reg16 .sp = s.reg16 .sp - 6 ∧ OtherReg16 .sp s t) ∧ t.bus = (afterFrame saved s).bus ∧
    (Quiet s →
      heldAt t .word s.segs.ss (s.reg16 .sp - 2) = s.flagsWord ∧ heldAt t .word s.segs.ss (s.reg16 .sp - 4) = s.segs.cs ∧
      heldAt t .word s.segs.ss (s.reg16 .sp - 6) = saved ∧ (∀ a, a ∉ frameAddrs s → t.readByte a = s.readByte a) ∧
      Quiet t) := by
  obtain ⟨m, hm⟩ : ∃ m, m = (s.push16 s.flagsWord).setFlags { s.flags with IF := false, TF := false } := ⟨_, rfl⟩
  obtain ⟨a1, a2, a3⟩ := s.push16_spec s.flagsWord
  have e : s.pushFrame saved = (m.push16 s.segs.cs).push16 saved := by rw [hm]; rfl
  have hr : ∀ q, m.reg16 q = (s.push16 s.flagsWord).reg16 q := fun q => by simp [hm]
  have hs : m.segs.ss = s.segs.ss := by simp [hm]
  have hy : ∀ a, m.readByte a = (s.push16 s.flagsWord).readByte a := fun a => by simp [hm]
  have hw : heldAt m .word s.segs.ss (s.reg16 .sp - 2) = heldAt (s.push16 s.flagsWord) .word s.segs.ss (s.reg16 .sp - 2) :=
    heldAt_congr (hy _) (hy _)
  have hb : (s.pushFrame saved).bus = (afterFrame saved s).bus := by
    simp [State.pushFrame, afterFrame, State.push16_bus, State.push16_sp]
  obtain ⟨b1, b2, -, b3⟩ := m.pushTwo_spec s.segs.cs saved
  have hsp : m.reg16 .sp = s.reg16 .sp - 2 := (hr _).trans a1
  have hsp4 : m.reg16 .sp - 2 = s.reg16 .sp - 4 := by rw [hsp]; bv_omega
  have hsp6 : m.reg16 .sp - 4 = s.reg16 .sp - 6 := by rw [hsp]; bv_omega
  rw [← e] at b1 b2 b3
  refine ⟨⟨b1.trans hsp6, fun q h => (b2 q h).trans ((hr q).trans (a2 q h))⟩, hb, fun h => ?_⟩
  have hq : Quiet m := by rw [hm]; exact (h.push16 s.flagsWord).congr rfl rfl rfl rfl
  obtain ⟨c1, c2⟩ := a3.2 h
  obtain ⟨d1, d2, d3⟩ := b3 hq
  rw [hs, hsp4, hsp6] at d3
  rw [hs, hsp4] at d1
  rw [hs, hsp6] at d2
  refine ⟨?_, d1, d2, fun a ha => ?_, ?_⟩
  · refine Eq.trans ?_ (hw.trans c1)
    apply heldAt_congr <;> apply d3 <;> apply not_mem_storeAddrs <;>
      exact fun e => absurd (phys_inj e) (by bv_omega)
  · simp only [frameAddrs, List.mem_append, not_or] at ha
    exact (d3 a ha.1.2 ha.2).trans ((hy a).trans (c2 a ha.1.1))
  · rw [e]; exact (hq.push16 s.segs.cs).push16 saved

/-- Where the stack does not meet the vector entry, the frame leaves the entry alone. -/
theorem frameAddrs_vector (t : Byte) (h : s.stackMeetsVector t = false) (k : Nat) (hk : k < 4) :
    vectorAddr t + BitVec.ofNat 20 k ∉ frameAddrs s := by
  have ht := t.isLt
  have hv : (vectorAddr t).toNat = 4 * t.toNat := by
    simp only [vectorAddr, BitVec.toNat_ofNat]; omega
  have ha : (vectorAddr t + BitVec.ofNat 20 k).toNat = 4 * t.toNat + k := by
    simp only [BitVec.toNat_add, hv, BitVec.toNat_ofNat]; omega
  have hoff : ∀ j : Nat, j < 6 →
      vectorAddr t + BitVec.ofNat 20 k ≠ phys s.segs.ss (s.reg16 .sp - BitVec.ofNat 16 (j + 1)) := by
    intro j hj e
    simp only [State.stackMeetsVector, List.any_eq_false, List.mem_range] at h
    have h1 := h j hj
    rw [← e, hv, ha] at h1
    simp at h1
    omega
  have e : ∀ j : Nat, ∀ o : Word, j < 6 → o = s.reg16 .sp - BitVec.ofNat 16 (j + 1) →
      vectorAddr t + BitVec.ofNat 20 k ≠ phys s.segs.ss o := fun j o hj ho => ho ▸ hoff j hj
  simp only [frameAddrs, storeAddrs, List.mem_append, List.mem_cons, List.not_mem_nil, or_false, not_or]
  refine ⟨⟨⟨e 1 _ (by decide) ?_, e 0 _ (by decide) ?_⟩, e 3 _ (by decide) ?_, e 2 _ (by decide) ?_⟩,
    e 5 _ (by decide) ?_, e 4 _ (by decide) ?_⟩ <;> bv_omega

/-- All a read of a vector word does when nothing comes from outside. -/
theorem Quiet.vector {s : State} (h : Quiet s) {a : Addr} (ha : a.toNat % 2 = 0) :
    s.readVector a = s.readPhysWord a ∧
      s.afterVector a = s.setBus { s.bus with log := .read none (.mem a) (.word (s.readPhysWord a)) :: s.bus.log } := by
  have k := h.toStill.calm.read_mem (v := s.view) h.map .word none a (a + 1)
  refine ⟨k.1, congrArg (fun x => s.setBus x) (k.2.trans ?_)⟩
  have ho : (Location.mem a).isOdd = false := by
    simp only [Location.isOdd, BitVec.getLsbD_eq_getElem (show 0 < 20 by decide), BitVec.getElem_eq_testBit_toNat,
      Nat.testBit_zero]
    simp [ha]
  simp [accessCycles, ho, Bus.held, State.readPhysWord, State.readByte]

theorem vectorAddr_toNat (t : Byte) : (vectorAddr t).toNat = 4 * t.toNat := by
  have := t.isLt
  simp only [vectorAddr, BitVec.toNat_ofNat]
  omega

theorem vectorAddr_two_toNat (t : Byte) : (vectorAddr t + 2).toNat = 4 * t.toNat + 2 := by
  have := t.isLt
  simp only [BitVec.toNat_add, vectorAddr_toNat]
  simp
  omega

/-- What a transfer does to the bus depends on the bus and the view only. -/
theorem leaving_congr {s u : State} (hb : u.bus = s.bus) (hv : u.view = s.view) : leaving u = leaving s := by
  simp only [leaving, hb, hv]

theorem leaving_later : s.bus.Later (leaving s) :=
  (s.bus.start_later s.view).trans (.of_same id rfl rfl rfl (List.suffix_refl _))

/-- When nothing comes from outside, a transfer empties the queue and does nothing else. -/
theorem Still.leaving {s : State} (h : Still s) : leaving s = { s.bus with queue := [], stale := [] } := by
  simp only [Machine.leaving, h.calm.start]

/-- All the load of the vector does (step 5 of R410): both words are read, the queue is empty; the values read count
where the stack does not meet them. -/
theorem State.loadVector_spec (t : Byte) (o : Bool) :
    (s.loadVector t o).bus =
      leaving ((s.afterVector (vectorAddr t)).afterVector (vectorAddr t + 2)) ∧
    (s.loadVector t o).segs = { s.segs with cs := (s.loadVector t o).segs.cs } ∧
    (o = false → (s.loadVector t o).ip = s.readVector (vectorAddr t) ∧
      (s.loadVector t o).segs.cs = (s.afterVector (vectorAddr t)).readVector (vectorAddr t + 2)) := by
  cases o
  · exact ⟨rfl, rfl, fun _ => ⟨rfl, rfl⟩⟩
  · exact ⟨rfl, rfl, fun h => by simp at h⟩

theorem State.enterOnce_bus (t : Byte) (saved : Word) :
    (s.enterOnce t saved).bus =
      leaving (((s.pushFrame saved).afterVector (vectorAddr t)).afterVector (vectorAddr t + 2)) := by
  simp only [State.enterOnce, State.endPrefixes_bus]
  exact (State.loadVector_spec _ _ _).1

/-- What comes after the frame depends on the bus and the view only. -/
theorem afterVector_congr {u : State} (hb : u.bus = s.bus) (hv : u.view = s.view) (a : Addr) :
    (u.afterVector a).bus = (s.afterVector a).bus ∧ u.readVector a = s.readVector a := by
  simp only [State.afterVector_bus, State.readVector, hb, hv]
  exact ⟨trivial, trivial⟩

theorem pushFrame_view (saved : Word) : (s.pushFrame saved).view = (afterFrame saved s).view := by
  simp [State.view, State.queueStart, State.fetching, afterFrame]

/-- All an interrupt entry does up to step 6 of R410. -/
theorem State.enterOnce_spec (t : Byte) (saved : Word) : InterruptTaken t saved s (s.enterOnce t saved) := by
  obtain ⟨h1, h2, h3⟩ := s.pushFrame_spec saved
  have hc := afterVector_congr _ h2 (pushFrame_view s saved) (vectorAddr t)
  have hv' : ((s.pushFrame saved).afterVector (vectorAddr t)).view = ((afterFrame saved s).afterVector (vectorAddr t)).view :=
    pushFrame_view s saved
  have hc2 := afterVector_congr _ hc.1 hv' (vectorAddr t + 2)
  have hr : (s.enterOnce t saved).regs = (s.pushFrame saved).regs := by simp [State.enterOnce]
  have hq : ∀ q, (s.enterOnce t saved).reg16 q = (s.pushFrame saved).reg16 q := fun q => by simp [State.reg16, hr]
  have hl := (s.pushFrame saved).loadVector_spec t (s.stackMeetsVector t)
  have hi : (s.enterOnce t saved).ip = ((s.pushFrame saved).loadVector t (s.stackMeetsVector t)).ip := rfl
  have hs : (s.enterOnce t saved).segs = ((s.pushFrame saved).loadVector t (s.stackMeetsVector t)).segs := rfl
  have hb := s.enterOnce_bus t saved
  have he : s.stackMeetsVector t = false → (s.enterOnce t saved).ip = (s.pushFrame saved).readVector (vectorAddr t) ∧
      (s.enterOnce t saved).segs.cs = ((s.pushFrame saved).afterVector (vectorAddr t)).readVector (vectorAddr t + 2) :=
    fun hv => by rw [hi, hs]; exact hl.2.2 hv
  refine ⟨⟨(hq _).trans h1.1, fun q h => (hq q).trans (h1.2 q h)⟩, fun hv => ?_, ?_, by simp, ?_, ?_, fun h => ?_⟩
  · rw [← hc.2, ← hc2.2]; exact he hv
  · rw [hs, hl.2.1]; simp
  · simp [State.control]
  · rw [hb]
    exact leaving_congr hc2.1 hv'
  · obtain ⟨f1, f2, f3, f4, f5⟩ := h3 h
    have v1 := f5.vector (a := vectorAddr t) (by rw [vectorAddr_toNat]; omega)
    have q1 : Quiet ((s.pushFrame saved).afterVector (vectorAddr t)) := by rw [v1.2]; exact f5.congr rfl rfl rfl rfl
    have v2 := q1.vector (a := vectorAddr t + 2) (by rw [vectorAddr_two_toNat]; omega)
    have hm : (s.enterOnce t saved).bus.mem = (s.pushFrame saved).bus.mem := by
      have q2 : Still (((s.pushFrame saved).afterVector (vectorAddr t)).afterVector (vectorAddr t + 2)) := by
        rw [v2.2]; exact ⟨q1.env, q1.requests, q1.reset⟩
      rw [hb, q2.leaving, v2.2, v1.2]
      simp only [State.setBus_bus]
    have hy : ∀ a, (s.enterOnce t saved).readByte a = (s.pushFrame saved).readByte a := fun a => by
      simp only [State.readByte, Bus.readByte, hm]
    have hw : ∀ sg o, heldAt (s.enterOnce t saved) .word sg o = heldAt (s.pushFrame saved) .word sg o := fun sg o =>
      heldAt_congr (hy _) (hy _)
    refine ⟨⟨(hw _ _).trans f1, (hw _ _).trans f2, (hw _ _).trans f3, fun a ha => (hy a).trans (f4 a ha)⟩, fun hv => ?_⟩
    have hp := frameAddrs_vector s t hv
    have e0 := f4 (vectorAddr t) (by simpa using hp 0 (by decide))
    have e1 := f4 (vectorAddr t + 1) (hp 1 (by decide))
    have e2 := f4 (vectorAddr t + 2) (hp 2 (by decide))
    have e3 := f4 (vectorAddr t + 3) (hp 3 (by decide))
    have a3 : vectorAddr t + 2 + 1 = vectorAddr t + 3 := by bv_omega
    rw [(he hv).1, (he hv).2, v1.1, v2.1, v1.2]
    simp only [State.readPhysWord, State.setBus, State.readByte, Bus.readByte, a3] at *
    exact ⟨by rw [e0, e1], by rw [e2, e3]⟩

theorem State.enterOnce_later (t : Byte) (saved : Word) : s.bus.Later (s.enterOnce t saved).bus := by
  have hp : ∀ (u : State) v, u.bus.Later (u.push16 v).bus := fun u v => by
    rw [State.push16_bus]; exact Bus.write_later _ _ _ _ _
  have hv : ∀ (u : State) a, u.bus.Later (u.afterVector a).bus := fun u a => by
    rw [State.afterVector_bus]; exact Bus.afterRead_later _ _ _ _
  have hf : (s.pushFrame saved).bus = (afterFrame saved s).bus := (s.pushFrame_spec saved).2.1
  rw [State.enterOnce_bus]
  have h := ((hp s s.flagsWord).trans ((hp _ s.segs.cs).trans (hp _ saved))).trans
    (hf ▸ (hv (s.pushFrame saved) (vectorAddr t)).trans (hv _ (vectorAddr t + 2)))
  exact h.trans (leaving_later _)

/-- How many entries one can lead to. -/
def entriesLeft (s : State) : Nat := s.bus.nmiLatch.toNat + s.bus.env.length + s.flags.TF.toNat

/-- All an interrupt entry does, with its step 7 (R410), where the bound is large enough. -/
theorem State.enterWithin_spec (n : Nat) (t : Byte) (saved : Word) (h : entriesLeft s ≤ n) :
    InterruptSequence t saved s (s.enterWithin n t saved) := by
  induction n generalizing s t saved with
  | zero =>
    have hl := (s.enterOnce_later t saved).budget
    simp only [entriesLeft] at h
    have h1 : (s.enterOnce t saved).bus.nmiLatch = false := by
      cases hn : (s.enterOnce t saved).bus.nmiLatch
      · rfl
      · rw [hn] at hl; simp at hl; omega
    have h2 : s.flags.TF = false := by
      cases ht : s.flags.TF
      · rfl
      · rw [ht] at h; simp at h
    exact .done (s.enterOnce_spec t saved) h1 h2
  | succ n ih =>
    have hl := (s.enterOnce_later t saved).budget
    simp only [entriesLeft] at h
    simp only [State.enterWithin]
    split
    · next hn =>
      refine .nmi (s.enterOnce_spec t saved) hn (ih _ _ _ ?_)
      rw [hn] at hl
      simp [entriesLeft] at hl ⊢
      omega
    · next hn =>
      have hn : (s.enterOnce t saved).bus.nmiLatch = false := by simpa using hn
      split
      · next ht =>
        refine .step (s.enterOnce_spec t saved) hn ht (ih _ _ _ ?_)
        rw [ht] at h
        rw [hn] at hl
        simp [entriesLeft, hn] at hl h ⊢
        omega
      · next ht => exact .done (s.enterOnce_spec t saved) hn (by simpa using ht)

/-- All an interrupt entry does, with its step 7 (R410). -/
theorem State.interruptEntry_spec (t : Byte) (saved : Word) : InterruptSequence t saved s (s.interruptEntry t saved) := by
  refine s.enterWithin_spec _ t saved ?_
  simp only [entriesLeft, State.entryBound]
  have := Bool.toNat_le s.bus.nmiLatch
  have := Bool.toNat_le s.flags.TF
  omega

/-- All the single-step entry does (R413). -/
theorem State.singleStepEntry_spec (saved : Word) : SingleStepTaken saved s (s.singleStepEntry saved) := by
  refine ⟨_, s.enterOnce_spec 1 saved, ?_⟩
  simp only [State.singleStepEntry]
  generalize s.enterOnce 1 saved = m
  cases m.bus.nmiLatch
  · simp
  · exact State.interruptEntry_spec _ _ _

theorem State.enterWithin_later (n : Nat) (t : Byte) (saved : Word) :
    s.bus.mem.wf = true → (s.enterWithin n t saved).bus.mem.wf = true := by
  induction n generalizing s t saved with
  | zero => exact (s.enterOnce_later t saved).wf
  | succ n ih =>
    intro h
    have h1 := (s.enterOnce_later t saved).wf h
    simp only [State.enterWithin]
    split
    · exact ih _ _ _ h1
    · split
      · exact ih _ _ _ h1
      · exact h1

/-- What every entry leaves of the hidden state. -/
theorem State.enterWithin_after (n : Nat) (t : Byte) (saved : Word) :
    (s.enterWithin n t saved).run = .running ∧ (s.enterWithin n t saved).trap = false ∧
      (s.enterWithin n t saved).rep = none ∧ (s.enterWithin n t saved).prefixPending = false := by
  induction n generalizing s t saved with
  | zero => exact ⟨rfl, rfl, rfl, rfl⟩
  | succ n ih =>
    simp only [State.enterWithin]
    split
    · exact ih _ _ _
    · split
      · exact ih _ _ _
      · exact ⟨rfl, rfl, rfl, rfl⟩

theorem State.singleStepEntry_after (saved : Word) :
    (s.singleStepEntry saved).run = .running ∧ (s.singleStepEntry saved).trap = false ∧
      (s.singleStepEntry saved).rep = none ∧ (s.singleStepEntry saved).prefixPending = false := by
  simp only [State.singleStepEntry]
  split
  · exact State.enterWithin_after _ _ _ _
  · exact ⟨rfl, rfl, rfl, rfl⟩

/-! ## The interrupt return -/

/-- All the intersegment return does (R332). -/
theorem State.farReturn_spec :
    let t := s.farReturn
    t.ip = stackWord s 0 ∧ t.segs = { s.segs with cs := stackWord s 1 } ∧ t.regs = (afterPops s 2).regs ∧
      t.bus = leaving (afterPops s 2) :=
  ⟨rfl, rfl, rfl, rfl⟩

/-- All the interrupt return does (R358, R415). -/
theorem State.interruptReturn_spec :
    let t := s.interruptReturn
    t.ip = stackWord s 0 ∧ t.segs = { s.segs with cs := stackWord s 1 } ∧ t.flags = Flags.ofWord (stackWord s 2) ∧
      t.regs = (afterPops s 3).regs ∧ t.bus = leaving (afterPops s 3) := by
  refine ⟨rfl, rfl, rfl, rfl, ?_⟩
  simp only [State.interruptReturn, State.jumpFar_bus, State.setFlags_bus, State.setFlags_view]
  rfl

/-! ## What an entry does not depend on -/

/-- The noted TF of the interrupted instruction does not matter to an entry. -/
theorem InterruptTaken.of_trap {ty : Byte} {saved : Word} {s t : State} {b : Bool}
    (h : InterruptTaken ty saved { s with trap := b } t) : InterruptTaken ty saved s t := by
  obtain ⟨a1, a2, a3, a4, a5, a6, a7⟩ := h
  exact ⟨a1, a2, a3, a4, a5, a6, fun q => a7 ⟨⟨q.env, q.requests, q.reset⟩, q.map⟩⟩

theorem InterruptSequence.of_trap {ty : Byte} {saved : Word} {s t : State} {b : Bool}
    (h : InterruptSequence ty saved { s with trap := b } t) : InterruptSequence ty saved s t := by
  generalize hu : ({ s with trap := b } : State) = u at h
  cases h with
  | nmi h1 h2 h3 => subst hu; exact .nmi (InterruptTaken.of_trap h1) h2 h3
  | step h1 h2 h3 h4 => subst hu; exact .step (InterruptTaken.of_trap h1) h2 h3 h4
  | done h1 h2 h3 => subst hu; exact .done (InterruptTaken.of_trap h1) h2 h3

theorem SingleStepTaken.of_trap {saved : Word} {s t : State} {b : Bool}
    (h : SingleStepTaken saved { s with trap := b } t) : SingleStepTaken saved s t := by
  obtain ⟨m, h1, h2⟩ := h
  exact ⟨m, InterruptTaken.of_trap h1, h2⟩

end Sys2Proof.Machine
end

