-- ==== Sys2Proof/Laws/Strings.lean ====
section
/-!
SUPPORT. What one string element and one turn of the repeat loop do, and what input and output do, each said once.
-/

namespace Sys2Proof.Machine

variable (s : State)

/-! ## One element (R300, R302 to R306) -/

theorem State.stringDelta_eq (w : Width) : s.stringDelta w = elementStep s w := by
  cases w <;> simp [State.stringDelta, elementStep, Width.bits]

/-- What an index step does. -/
theorem State.stepIndex_spec (w : Width) (r : Reg16) :
    (s.stepIndex w r).reg16 r = s.reg16 r + elementStep s w ∧ OtherReg16 r s (s.stepIndex w r) := by
  have h := s.setReg16_spec r (s.reg16 r + s.stringDelta w)
  rw [State.stringDelta_eq] at h
  simpa [State.stepIndex, State.stringDelta_eq] using h

theorem elementStep_congr {s t : State} (h : t.flags.DF = s.flags.DF) (w : Width) : elementStep t w = elementStep s w := by
  simp [elementStep, h]

/-- Both index registers stepped. -/
theorem State.stepBoth_spec (w : Width) :
    let t := (s.stepIndex w .si).stepIndex w .di
    t.reg16 .si = s.reg16 .si + elementStep s w ∧ t.reg16 .di = s.reg16 .di + elementStep s w ∧
      ∀ q, q ≠ .si → q ≠ .di → t.reg16 q = s.reg16 q := by
  have h1 := s.stepIndex_spec w .si
  have h2 := (s.stepIndex w .si).stepIndex_spec w .di
  rw [elementStep_congr (s := s) (by simp)] at h2
  refine ⟨(h2.2 .si (by decide)).trans h1.1, ?_, fun q hs hd => (h2.2 q hd).trans (h1.2 q hs)⟩
  rw [h2.1, h1.2 .di (by decide)]

/-- What an element leaves alone: the segments, IP and all hidden state. -/
theorem once_sameFlow (w : Width) :
    SameFlow s (movsOnce w s) ∧ SameFlow s (cmpsOnce w s) ∧ SameFlow s (scasOnce w s) ∧ SameFlow s (lodsOnce w s) ∧
      SameFlow s (stosOnce w s) := by
  refine ⟨⟨?_, ?_, ?_⟩, ⟨?_, ?_, ?_⟩, ⟨?_, ?_, ?_⟩, ⟨?_, ?_, ?_⟩, ⟨?_, ?_, ?_⟩⟩ <;>
    simp [movsOnce, cmpsOnce, scasOnce, lodsOnce, stosOnce]

/-! ## The repeat loop (R301) -/

/-- All the repeat loop does in one turn: without a prefix, the element; with one, nothing if CX is 0, else the
element, `CX - 1`, and the decision whether the instruction is over. -/
theorem repeatString_spec (op : StringOp) (w : Width) (once : State → State) :
    let t := repeatString op w once s
    (s.rep = none → t = { once s with run := .running }) ∧
    ∀ z, s.rep = some z →
      (s.reg16 .cx = 0 → t = { s with run := .running }) ∧
      (s.reg16 .cx ≠ 0 →
        t = { (once s).setReg16 .cx ((once s).reg16 .cx - 1) with
          run :=
            if (once s).reg16 .cx = 1 ∨ (comparesZF op = true ∧ (once s).flags.ZF ≠ z) then .running
            else .repeating op w }) := by
  refine ⟨fun h => by simp [repeatString, h], fun z h => ⟨fun hc => by simp [repeatString, h, hc], fun hc => ?_⟩⟩
  have e : ∀ x : Word, x - 1 = 0 ↔ x = 1 := fun x => by constructor <;> intro h <;> bv_omega
  simp only [repeatString, h, hc, if_false, State.setReg16_same, State.setReg16_flags, e]
  split <;> rfl

/-- The loop reads the same in a state whose run state differs. -/
theorem repeatString_repeats (op : StringOp) (w : Width) (once : State → State)
    (h : (repeatString op w once s).run.isRepeating = true) : s.rep.isSome = true := by
  cases hr : s.rep with
  | none => simp [(repeatString_spec s op w once).1 hr, RunState.isRepeating] at h
  | some z => rfl

/-! ## Input and output (R172 to R175) -/

theorem portCyclesOf_eq (mk : Option SReg → Location → Transfer → BusCycle) (w : Width) (p : Word) (u : Operand w) :
    portCyclesOf mk w p u = accessCycles mk w (portAt p) u := by
  cases w with
  | byte => rfl
  | word =>
    simp only [portCyclesOf, accessCycles, portAt, Location.isOdd, BitVec.getLsbD_eq_getElem (show 0 < 16 by decide),
      BitVec.getElem_eq_testBit_toNat, Nat.testBit_zero]
    have := Nat.mod_two_eq_zero_or_one p.toNat
    rcases this with e | e <;> simp [e]

/-- A device's answer changes only the script and the draws. -/
theorem Bus.answered_fields (b : Bus) (l : Location) :
    b.answered l = { b with answers := (b.answered l).answers, draws := (b.answered l).draws } := by
  unfold Bus.answered
  split <;> rfl

/-- A scripted answer for a location, first in the script, is given and used up. -/
theorem Bus.answer_head {b : Bus} {l : Location} {x : Byte} {rest : List (Location × Byte)}
    (h : b.answers = (l, x) :: rest) : b.answer l = x ∧ b.answered l = { b with answers := rest } := by
  simp [Bus.answer, Bus.answered, h]

/-- All an output does when nothing comes from outside. -/
theorem Bus.Calm.write_port {b : Bus} (h : b.Calm) (v : View) (w : Width) (p : Word) (u : Operand w) :
    b.write v w (portAt p) u = { b with log := accessCycles .write w (portAt p) u ++ b.log } := by
  have hl : ∀ l, ({ b with log := l } : Bus).Calm := fun l => h.of_same rfl rfl rfl
  have hw : ∀ l, ({ b with log := l } : Bus).between v = { b with log := l } := fun l => (hl l).between v
  have hp : ∀ (c : Bus) q x, c.put v (.port q) x = c := fun c q x => rfl
  cases w with
  | byte => simp only [Bus.write, portAt, h.start, h.give, hp, h.record, accessCycles]; rfl
  | word =>
    simp only [Bus.write, portAt, h.start, h.give, hp, accessCycles]
    by_cases ho : (Location.port p).isOdd = true
    · simp only [ho, if_true, h.record, hw, (hl _).give, (hl _).record, hp]; rfl
    · simp only [ho, Bool.false_eq_true, if_false, h.record]; rfl

/-- All an input does when nothing comes from outside: memory is as it was, the cycles are recorded, and what the
script holds for the ports is what is read. -/
theorem Bus.Calm.read_port {b : Bus} (h : b.Calm) (v : View) (w : Width) (p : Word) :
    b.afterRead v w (portAt p) =
      { b with
        answers := (b.afterRead v w (portAt p)).answers
        draws := (b.afterRead v w (portAt p)).draws
        log := accessCycles .read w (portAt p) (b.read v w (portAt p)) ++ b.log } := by
  have hf : ∀ (c : Bus) q, c.found v (.port q) = c.answered (.port q) := fun _ _ => rfl
  have hd : ∀ (c : Bus) q, c.find v (.port q) = c.answer (.port q) := fun _ _ => rfl
  have ha : ∀ c : Bus, c.Calm → ∀ l, (c.answered l).Calm := fun c hc l => by
    rw [Bus.answered_fields]; exact hc.of_same rfl rfl rfl
  have hr : ∀ c : Bus, c.Calm → ∀ x, (c.record x).Calm := fun c hc x => by rw [hc.record]; exact hc.of_same rfl rfl rfl
  have h1 := ha b h (.port p)
  cases w with
  | byte =>
    simp only [Bus.afterRead, Bus.read, portAt, h.start, h.taken, h.take, hf, hd, h1.record, accessCycles]
    rw [Bus.answered_fields]; rfl
  | word =>
    simp only [Bus.afterRead, Bus.read, Bus.takenLow, portAt, h.start, h.taken, h.take, hf, hd, accessCycles]
    by_cases ho : (Location.port p).isOdd = true
    · have h2 := hr _ h1 (.read none (.port p) (.byte (b.answer (.port p))))
      have h3 := ha _ h2 (.port (p + 1))
      simp only [ho, if_true, h2.between, h2.taken, h2.take, hf, hd, h3.record, highByte_joinBytes, lowByte_joinBytes]
      rw [Bus.answered_fields, h1.record, Bus.answered_fields b]; rfl
    · have h3 := ha _ h1 (.port (p + 1))
      simp only [ho, Bool.false_eq_true, if_false, h1.taken, h1.take, hf, hd, h3.record]
      rw [Bus.answered_fields, Bus.answered_fields b]; rfl

/-- What an input answers when nothing comes from outside and its ports are scripted. -/
theorem Still.answers {s : State} (h : Still s) (w : Width) (p : Word) : Answers w p s (s.readPort w p) := by
  have hc := h.calm
  have hf : ∀ (c : Bus) q, c.found s.view (.port q) = c.answered (.port q) := fun _ _ => rfl
  have hd : ∀ (c : Bus) q, c.find s.view (.port q) = c.answer (.port q) := fun _ _ => rfl
  cases w with
  | byte =>
    intro x rest e
    simp only [State.readPort, Bus.read, portAt, hc.start, hc.take, hd, (Bus.answer_head e).1]
  | word =>
    intro lo hi rest e
    have k : ({ s.bus with answers := (.port (p + 1), hi) :: rest } : Bus).Calm := hc.of_same rfl rfl rfl
    have kl : ∀ l, ({ s.bus with answers := (.port (p + 1), hi) :: rest, log := l } : Bus).Calm :=
      fun l => hc.of_same rfl rfl rfl
    simp only [State.readPort, Bus.read, Bus.takenLow, portAt, hc.start, hc.take, hc.taken, hf, hd, (Bus.answer_head e).1,
      (Bus.answer_head e).2]
    split
    · rw [k.record, (kl _).between, (kl _).take, hd, (Bus.answer_head rfl).1]
    · rw [k.take, hd, (Bus.answer_head rfl).1]

end Sys2Proof.Machine
end

