-- ==== Sys2Proof/Laws/Cycle.lean ====
section
/-!
SUPPORT. What the parts of a step around an instruction do, the step by run state, and that memory keeps its
canonical form through every shared operation.
-/

namespace Sys2Proof.Machine

variable (s : State)

/-! ## The outside world -/

/-- All a sample does when one is to come (R42, R46, R405). -/
theorem Bus.sample_spec (b : Bus) (x : Sample) (rest : List Sample) (h : b.env = x :: rest) :
    b.sample =
      { b with
        pins := x.pins
        env := rest
        nmiLatch := b.nmiLatch || (x.pins.nmi && !b.pins.nmi)
        requests := b.requests.append x.requests } := by
  simp [Bus.sample, h]

theorem Bus.sample_nil (b : Bus) (h : b.env = []) : b.sample = b := by simp [Bus.sample, h]

/-- A grant serves the cycles asked for, in order, and nothing is left to do; under the lock nothing is done (R82,
R84, R432). -/
theorem Bus.grant_spec (b : Bus) (v : View) :
    (v.locked = true → b.grant v = b) ∧
    (v.locked = false →
      b.grant v = { b.serve v (b.requests.rq0 ++ b.requests.rq1 ++ b.requests.system) with requests := Requests.none }) := by
  constructor <;> intro h <;> simp [Bus.grant, h]

/-- A processor the reset leaves is what R50 says, whatever it was before (R451). -/
theorem State.resetSequence_spec :
    let t := s.resetSequence
    t.segs = { es := 0, cs := 0xFFFF, ss := 0, ds := 0 } ∧ t.ip = 0 ∧ t.flags = State.reset.flags ∧
      t.bus = { s.bus with queue := [], stale := [], nmiLatch := false } ∧
      t.control = { State.reset.control with params := s.params } :=
  ⟨rfl, rfl, rfl, rfl, rfl⟩

/-! ## The canonical form of memory -/

variable {s}

theorem wf_afterRead (h : s.bus.mem.wf = true) (w : Width) (sr : SReg) (off : Word) :
    (s.afterRead w sr off).bus.mem.wf = true := (Bus.afterRead_later _ _ _ _).wf h

theorem wf_afterRM (h : s.bus.mem.wf = true) (w : Width) (rm : RM) : (s.afterRM w rm).bus.mem.wf = true := by
  cases rm with
  | reg r => exact h
  | mem m => exact wf_afterRead h _ _ _

theorem wf_afterPointer (h : s.bus.mem.wf = true) (m : Mem) : (s.afterPointer m).bus.mem.wf = true :=
  wf_afterRead (wf_afterRead h _ _ _) _ _ _

theorem wf_writeSeg (h : s.bus.mem.wf = true) (w : Width) (sr : SReg) (off : Word) (v : Operand w) :
    (s.writeSeg w sr off v).bus.mem.wf = true := (Bus.write_later _ _ _ _ _).wf h

theorem wf_writeRM (h : s.bus.mem.wf = true) (w : Width) (rm : RM) (v : Operand w) :
    (s.writeRM w rm v).bus.mem.wf = true := by
  cases rm with
  | reg r => simpa [State.writeRM] using h
  | mem m => exact wf_writeSeg h _ _ _ _

theorem wf_push16 (h : s.bus.mem.wf = true) (v : Word) : (s.push16 v).bus.mem.wf = true := (Bus.write_later _ _ _ _ _).wf h

theorem wf_pushFar (h : s.bus.mem.wf = true) : s.pushFar.bus.mem.wf = true := wf_push16 (wf_push16 h _) _

theorem wf_dropTop (h : s.bus.mem.wf = true) : s.dropTop.bus.mem.wf = true := wf_afterRead h _ _ _

theorem wf_afterPops (h : s.bus.mem.wf = true) (k : Nat) : (afterPops s k).bus.mem.wf = true := by
  induction k with
  | zero => exact h
  | succ k ih => exact wf_dropTop ih

theorem wf_farReturn (h : s.bus.mem.wf = true) : s.farReturn.bus.mem.wf = true := by
  rw [s.farReturn_spec.2.2.2]; exact (leaving_later _).wf (wf_afterPops h 2)

theorem wf_interruptReturn (h : s.bus.mem.wf = true) : s.interruptReturn.bus.mem.wf = true := by
  rw [s.interruptReturn_spec.2.2.2.2]; exact (leaving_later _).wf (wf_afterPops h 3)

theorem wf_jump (h : s.bus.mem.wf = true) (off : Word) : (s.jump off).bus.mem.wf = true := (leaving_later s).wf h

theorem wf_jumpFar (h : s.bus.mem.wf = true) (sel off : Word) : (s.jumpFar sel off).bus.mem.wf = true := wf_jump h off

theorem wf_afterPort (h : s.bus.mem.wf = true) (w : Width) (p : Word) : (s.afterPort w p).bus.mem.wf = true :=
  (Bus.afterRead_later _ _ _ _).wf h

theorem wf_writePort (h : s.bus.mem.wf = true) (w : Width) (p : Word) (v : Operand w) :
    (s.writePort w p v).bus.mem.wf = true := (Bus.write_later _ _ _ _ _).wf h

theorem wf_interruptEntry (h : s.bus.mem.wf = true) (t : Byte) (ip : Word) : (s.interruptEntry t ip).bus.mem.wf = true :=
  s.enterWithin_later _ t ip h

theorem wf_singleStepEntry (h : s.bus.mem.wf = true) (ip : Word) : (s.singleStepEntry ip).bus.mem.wf = true := by
  have h1 := (s.enterOnce_later 1 ip).wf h
  simp only [State.singleStepEntry]
  generalize s.enterOnce 1 ip = m at h1
  split
  · exact wf_interruptEntry (by simpa using h1) _ _
  · exact h1

theorem wf_divideError (h : s.bus.mem.wf = true) : s.divideError.bus.mem.wf = true := by
  unfold State.divideError
  split <;> exact wf_interruptEntry h _ _

theorem wf_finishDivision (h : s.bus.mem.wf = true) (w : Width) (out : Division w) :
    (s.finishDivision w out).bus.mem.wf = true := by
  cases out with
  | none => exact wf_divideError (by simpa using h)
  | some p => simpa [State.finishDivision] using h

theorem wf_aluToRM (h : s.bus.mem.wf = true) (o : AluOp) (w : Width) (rm : RM) (src : Operand w) :
    (aluToRM o w rm src s).bus.mem.wf = true := by
  have h1 := wf_afterRM h w rm
  simp only [aluToRM]
  split
  · exact wf_writeRM (by simpa using h1) _ _ _
  · exact h1

theorem wf_aluToReg (h : s.bus.mem.wf = true) (o : AluOp) (w : Width) (r : RegNum) (src : Operand w) :
    (aluToReg o w r src s).bus.mem.wf = true := by
  simp only [aluToReg]
  split
  · simpa using h
  · exact h

theorem wf_aluRmReg (h : s.bus.mem.wf = true) (o : AluOp) (d : Dir) (w : Width) (r : RegNum) (rm : RM) :
    (aluRmReg o d w r rm s).bus.mem.wf = true := by
  cases d
  · exact wf_aluToRM h o w rm _
  · exact wf_aluToReg (wf_afterRM h w rm) o w r _

theorem wf_shiftRM (h : s.bus.mem.wf = true) (o : ShiftOp) (v : Count) (w : Width) (rm : RM) :
    (shiftRM o v w rm s).bus.mem.wf = true := by
  have h1 := wf_afterRM h w rm
  simp only [shiftRM]
  split
  · exact h1
  · exact wf_writeRM (by simpa using h1) _ _ _

theorem wf_repeatString (h : s.bus.mem.wf = true) (op : StringOp) (w : Width) (once : State → State)
    (ho : (once s).bus.mem.wf = true) : (repeatString op w once s).bus.mem.wf = true := by
  simp only [repeatString]
  split
  · exact ho
  · split
    · exact h
    · split <;> simpa using ho

/-- A fetch keeps what every part of a bus cycle keeps. -/
theorem State.fetched_later (s : State) : s.bus.Later s.fetched.bus := by
  unfold State.fetched
  generalize 6 = n
  induction n generalizing s with
  | zero => exact .refl _
  | succ n ih =>
    simp only [State.fetchCode]
    split <;> [exact .refl _; split] <;> first
      | exact .refl _
      | exact (s.bus.demand_later s.view s.codeBytes.length).trans (ih (s.setBus _))

/-- What an interrupt begins with keeps what every part of a bus cycle keeps. -/
theorem State.interrupted_later (s : State) : s.bus.Later s.interrupted.bus := by
  simp only [State.interrupted, State.refetchWait]
  split <;> first
    | exact .refl _
    | exact Bus.refetch_later _ _ _ _

theorem wf_interrupted (h : s.bus.mem.wf = true) : s.interrupted.bus.mem.wf = true := s.interrupted_later.wf h

theorem wf_recognise (h : s.bus.mem.wf = true) : s.recognise.bus.mem.wf = true := by
  unfold State.recognise
  split
  · exact h
  · split
    · exact wf_interruptEntry (wf_interrupted (by simpa using h)) _ _
    · split
      · exact wf_interruptEntry ((Bus.acknowledge_later _ _ _).wf (wf_interrupted h)) _ _
      · split
        · exact wf_singleStepEntry (wf_interrupted h) _
        · exact h

theorem wf_settle (h : s.bus.mem.wf = true) : s.settle.bus.mem.wf = true := by
  unfold State.settle
  split <;> exact h

theorem wf_recogniseUnlessReset (h : s.bus.mem.wf = true) : s.recogniseUnlessReset.bus.mem.wf = true := by
  refine wf_settle ?_
  split
  · exact h
  · exact wf_recognise h

theorem wf_reissueHalt (h : s.bus.mem.wf = true) (q : Requests) : (s.reissueHalt q).bus.mem.wf = true := by
  unfold State.reissueHalt
  split <;> [split; skip; skip; skip; skip] <;> first | exact h | exact (Bus.record_later _ _).wf h

theorem wf_finish (h : s.bus.mem.wf = true) : s.finish.bus.mem.wf = true := by
  have h1 : s.endInstruction.bus.mem.wf = true := by
    unfold State.endInstruction
    split <;> exact h
  exact wf_recogniseUnlessReset (wf_reissueHalt ((Bus.start_later _ _).wf h1) _)

/-! ## The recognition point -/

variable (s)

/-- The extra fetch of the WAIT (R388), as the statements say it. -/
theorem State.refetch_spec (n : Nat) : s.bus.refetch s.view s.codeAddr n = refetched s n := by
  induction n with
  | zero => rfl
  | succ n ih => simp only [Bus.refetch, refetched, ih, State.codeAddr]

/-- All an interrupt between two instructions begins with (R388, R411). -/
theorem State.interrupted_spec : s.interrupted = interruptedAt s := by
  unfold State.interrupted State.refetchWait interruptedAt
  simp only [State.endPrefixes_run]
  cases s.run with
  | waiting next => exact congrArg s.endPrefixes.setBus (s.endPrefixes.refetch_spec _)
  | _ => rfl

/-- The noted TF plays no part in it. -/
theorem interruptedAt_trap (b : Bool) :
    interruptedAt { s with trap := b } = { interruptedAt s with trap := b } := by
  have h : ∀ n, refetched (unprefixed { s with trap := b }) n = refetched (unprefixed s) n := fun n => by
    induction n with
    | zero => rfl
    | succ n ih => simp only [refetched, ih]; rfl
  obtain ⟨_, _, _, _, _, _, run, _⟩ := s
  cases run with
  | waiting next => exact congrArg (fun c => { unprefixed _ with bus := c }) (h _)
  | _ => rfl

/-- What is true after every recognition point: the inhibit is used up, no TF is kept, and the prefixes and the run
state are as before or an interrupt was entered. -/
theorem State.recognise_after :
    s.recognise.inhibit = false ∧ s.recognise.trap = false ∧
      (s.recognise.run = s.run ∧ s.recognise.prefixPending = s.prefixPending ∧ s.recognise.rep = s.rep ∨
        s.recognise.run = .running ∧ s.recognise.prefixPending = false ∧ s.recognise.rep = none) := by
  unfold State.recognise
  split
  · exact ⟨rfl, rfl, .inl ⟨rfl, rfl, rfl⟩⟩
  · next hi =>
    have hi : s.inhibit = false := by simpa using hi
    split
    · obtain ⟨a, b, c, d⟩ := s.takeNmi.interrupted.enterWithin_after s.takeNmi.interrupted.entryBound 2 s.savedIp
      exact ⟨by simpa using hi, b, .inr ⟨a, d, c⟩⟩
    · split
      · next t _ _ =>
        obtain ⟨a, b, c, d⟩ := (s.interrupted.acknowledge t).enterWithin_after (s.interrupted.acknowledge t).entryBound t
          s.savedIp
        exact ⟨by simpa using hi, b, .inr ⟨a, d, c⟩⟩
      · split
        · obtain ⟨a, b, c, d⟩ := s.interrupted.singleStepEntry_after s.savedIp
          exact ⟨by simpa using hi, b, .inr ⟨a, d, c⟩⟩
        · exact ⟨hi, rfl, .inl ⟨rfl, rfl, rfl⟩⟩

/-- The end of a step: RESET puts the processor into reset, else what recognition left stands (R450). -/
theorem State.settle_spec :
    (s.bus.pins.reset = true → s.settle = s.enterReset) ∧ (s.bus.pins.reset = false → s.settle = s) := by
  constructor <;> intro h <;> simp [State.settle, h]

/-- How the run of one instruction goes on to a next state: RESET comes during the fetch, or the fetched instruction
has a next state, which stands after a prefix byte and is finished otherwise. -/
theorem State.runNext_cases {s t : State} (h : s.runNext = .next t) :
    s.fetched.bus.pins.reset = true ∧ t = s.fetched.enterReset ∨
    s.fetched.bus.pins.reset = false ∧ ∃ i rest u, decode s.fetched.codeBytes = .ok i rest ∧
      exec i (s.fetched.advance (s.fetched.codeBytes.length - rest.length)) = .next u ∧
      t = if i.isPrefixByte then u else u.finish := by
  unfold State.runNext at h
  split at h
  · next hr => exact .inl ⟨hr, by cases h; rfl⟩
  · next hr =>
    unfold State.runFetched at h
    split at h
    · cases h
    · next i rest hd =>
      simp only at h
      split at h <;> [cases h; split at h] <;> [cases h; skip]
      refine .inr ⟨by simpa using hr, i, rest, ?_⟩
      cases he : exec i (s.fetched.advance (s.fetched.codeBytes.length - rest.length)) with
      | next u => rw [he] at h; cases h; exact ⟨u, hd, rfl, rfl⟩
      | fault r => exact nomatch r
      | refused r => rw [he] at h; cases h

/-! ## The step by run state -/

/-- RESET comes first (R450, R451). -/
theorem step_reset (h : s.tick.bus.pins.reset = true) : step s = .next s.tick.enterReset := by
  simp only [step, cycle, h, if_true]

theorem step_inReset (h : s.tick.bus.pins.reset = false) (hr : s.run = .inReset) :
    step s = .next s.tick.resetSequence := by
  simp only [step, cycle, h, Bool.false_eq_true, if_false, State.tick_run, hr]

theorem step_halted (h : s.tick.bus.pins.reset = false) (hr : s.run = .halted) :
    step s = .next ({ s.tick.reissueHalt s.bus.sample.requests with trap := false } : State).recogniseUnlessReset := by
  simp only [step, cycle, h, Bool.false_eq_true, if_false, State.tick_run, hr]

theorem step_running (h : s.tick.bus.pins.reset = false) (hr : s.run = .running) : step s = s.tick.runNext := by
  simp only [step, cycle, h, Bool.false_eq_true, if_false, State.tick_run, hr]

theorem step_repeating {op : StringOp} {w : Width} (h : s.tick.bus.pins.reset = false) (hr : s.run = .repeating op w) :
    step s = thenState State.finish (exec (op.instr w) { s.tick with trap := s.flags.TF }) := by
  simp only [step, cycle, h, Bool.false_eq_true, if_false, State.tick_run, hr, State.tick_flags]

theorem step_waiting {next : Word} (h : s.tick.bus.pins.reset = false) (hr : s.run = .waiting next) :
    step s = .next (if s.tick.bus.pins.testHigh
      then ({ s.tick with trap := s.flags.TF } : State).recogniseUnlessReset
      else ({ s.tick with ip := next, run := .running, trap := s.flags.TF } : State).finish) := by
  simp only [step, cycle, h, Bool.false_eq_true, if_false, State.tick_run, hr, State.tick_flags]
  split <;> rfl

end Sys2Proof.Machine
end

