-- ==== Sys2Proof/Laws/Decode.lean ====
section
/-!
SUPPORT. What the decoder makes of some bytes it makes of them with more bytes behind: only a truncated instruction
can become another one. The fetch, which takes a byte at a time, rests on this.
-/

namespace Sys2Proof

/-- An answer that bytes `x` behind those read cannot change: it is as before, with `x` left over. -/
def Decoded.SettledBy (x : List Byte) (d d' : Decoded) : Prop :=
  match d with
  | .ok i rest => d' = .ok i (rest ++ x)
  | .reject .truncated => True
  | .reject e => d' = .reject e

/-- A reader whose answers are settled. -/
def Settled (f : List Byte → Decoded) : Prop := ∀ bs x, (f bs).SettledBy x (f (bs ++ x))

theorem settled_ok (i : Instr) : Settled fun bs => .ok i bs := fun _ _ => rfl

theorem settled_reject (e : DecodeError) : Settled fun _ => .reject e := fun _ _ => by cases e <;> trivial

theorem settled_takeByte {k : Byte → List Byte → Decoded} (h : ∀ b, Settled (k b)) : Settled fun bs => takeByte bs k := by
  intro bs x
  cases bs with
  | nil => trivial
  | cons b bs => exact h b bs x

theorem settled_takeWord {k : Word → List Byte → Decoded} (h : ∀ v, Settled (k v)) : Settled fun bs => takeWord bs k :=
  settled_takeByte fun _ => settled_takeByte fun _ => h _

theorem settled_takeRM {k : RegNum → RM → List Byte → Decoded} (h : ∀ r rm, Settled (k r rm)) :
    Settled fun bs => takeRM bs k := by
  refine settled_takeByte fun b => ?_
  simp only []
  split
  · split
    · exact settled_takeWord fun a => h _ _
    · exact h _ _
  · exact settled_takeByte fun d => h _ _
  · exact settled_takeWord fun d => h _ _
  · exact h _ _

theorem settled_needMem (b0 : Byte) (rm : RM) {k : Mem → List Byte → Decoded} (h : ∀ m, Settled (k m)) :
    Settled fun bs => needMem b0 rm fun m => k m bs := by
  cases rm with
  | reg r => exact settled_reject _
  | mem m => exact h m

theorem settled_takeImm (w : Width) {k : Imm → List Byte → Decoded} (h : ∀ v, Settled (k v)) :
    Settled fun bs => takeImm w bs k := by
  cases w
  · exact settled_takeByte fun _ => h _
  · exact settled_takeWord fun _ => h _

theorem settled_takeSImm (s : Bool) (w : Width) {k : SImm → List Byte → Decoded} (h : ∀ v, Settled (k v)) :
    Settled fun bs => takeSImm s w bs k := by
  cases w
  · exact settled_takeByte fun _ => h _
  · cases s
    · exact settled_takeWord fun _ => h _
    · exact settled_takeByte fun _ => h _

/-! ## The rows of the opcode map -/

theorem settled_immGroup (b0 : Byte) : Settled (readImmGroup b0) := by
  refine settled_takeRM fun ext rm => ?_
  have ha : ∀ mk : RM → SImm → Instr,
      Settled fun bs => takeSImm (b0.getLsbD 1) (wBit b0) bs fun v bs => .ok (mk rm v) bs :=
    fun mk => settled_takeSImm _ _ fun v => settled_ok _
  have hl : ∀ mk : RM → Imm → Instr, Settled fun bs =>
      if b0.getLsbD 1 then .reject (.undefinedExtension b0 ext) else takeImm (wBit b0) bs fun v bs => .ok (mk rm v) bs :=
    fun mk => by
      split
      · exact settled_reject _
      · exact settled_takeImm _ fun v => settled_ok _
  cases ext <;> first | exact ha _ | exact hl _

theorem settled_extension {f : RegNum → RM → List Byte → Decoded}
    (h : ∀ ext rm, (∃ i, f ext rm = fun bs => .ok i bs) ∨ ∃ e, f ext rm = fun _ => .reject e) :
    Settled fun bs => takeRM bs f := by
  refine settled_takeRM fun ext rm => ?_
  obtain ⟨i, e⟩ | ⟨r, e⟩ := h ext rm <;> rw [e]
  · exact settled_ok i
  · exact settled_reject r

theorem settled_unaryGroup (b0 : Byte) : Settled (readUnaryGroup b0) := by
  refine settled_takeRM fun ext rm => ?_
  cases ext <;> first | exact settled_ok _ | exact settled_reject _ | exact settled_takeImm _ fun v => settled_ok _

theorem settled_movGroup (b0 : Byte) : Settled (readMovGroup b0) := by
  refine settled_takeRM fun ext rm => ?_
  cases ext <;> first | exact settled_reject _ | exact settled_takeImm _ fun v => settled_ok _

theorem settled_incGroup16 (b0 : Byte) : Settled (readIncGroup16 b0) := by
  refine settled_takeRM fun ext rm => ?_
  cases ext <;> first
    | exact settled_ok _ | exact settled_reject _ | exact settled_needMem _ _ fun m => settled_ok _

theorem settled_popSreg (b0 : Byte) : Settled (readPopSreg b0) := by
  intro bs x
  simp only [readPopSreg]
  split
  · exact settled_reject _ bs x
  · exact settled_ok _ bs x

theorem settled_adjust (i : Instr) (b0 : Byte) : Settled (readAdjust i b0) := by
  refine settled_takeByte fun b1 => ?_
  split
  · exact settled_ok _
  · exact settled_reject _

/-- Every row of the opcode map is read so. -/
theorem settled_row (b0 : Byte) {r : Row} (h : opcodeRow b0 = some r) : Settled (r.read b0) := by
  have h1 : ∀ mk, Settled (readRmReg mk b0) := fun mk => settled_takeRM fun _ _ => settled_ok _
  have h2 : ∀ mk, Settled (readRegRm mk b0) := fun mk => settled_takeRM fun _ _ => settled_ok _
  have h3 : ∀ mk, Settled (readAccImm mk b0) := fun mk => settled_takeImm _ fun _ => settled_ok _
  have h4 : ∀ mk, Settled (readRegMem mk b0) := fun mk =>
    settled_takeRM fun _ _ => settled_needMem _ _ fun _ => settled_ok _
  have h5 : ∀ mk : Byte → Instr, Settled fun bs => takeByte bs fun v bs => .ok (mk v) bs := fun mk =>
    settled_takeByte fun _ => settled_ok _
  have h6 : ∀ mk : Word → Instr, Settled fun bs => takeWord bs fun v bs => .ok (mk v) bs := fun mk =>
    settled_takeWord fun _ => settled_ok _
  have h7 : ∀ mk, Settled (readFar mk b0) := fun mk => settled_takeWord fun _ => h6 _
  have h8 : ∀ n, Settled fun bs => takeRM bs fun lo rm bs => .ok (.esc n lo rm) bs := fun n =>
    settled_takeRM fun _ _ => settled_ok _
  have h9 : ∀ mk, Settled (readDisp8 mk b0) := h5
  have h10 : ∀ mk, Settled (readWord mk b0) := h6
  have h11 : ∀ i, Settled (readPlain i b0) := settled_ok
  have h12 : ∀ mk, Settled (readWidth mk b0) := fun mk => settled_ok _
  have h13 : ∀ mk, Settled (readReg16 mk b0) := fun mk => settled_ok _
  have h14 : ∀ w (mk : Imm → Instr), Settled fun bs => takeImm w bs fun v bs => .ok (mk v) bs := fun w mk =>
    settled_takeImm w fun _ => settled_ok _
  have hx : Settled (readPopGroup b0) ∧ Settled (readShiftGroup b0) ∧ Settled (readIncGroup8 b0) ∧
      Settled (readMovFromSreg b0) ∧ Settled (readMovToSreg b0) := by
    refine ⟨?_, ?_, ?_, ?_, ?_⟩ <;> refine settled_extension fun ext rm => ?_ <;>
      cases ext <;> first | exact .inl ⟨_, rfl⟩ | exact .inr ⟨_, rfl⟩
  obtain ⟨hx1, hx2, hx3, hx4, hx5⟩ := hx
  have all : ∀ rs ∈ [rows00, rows40, rows80, rowsC0], ∀ r ∈ rs, Settled (r.read b0) := by
    simp only [rows00, rows40, rows80, rowsC0, List.forall_mem_cons]
    and_intros <;> with_reducible first
      | exact h1 _ | exact h2 _ | exact h3 _ | exact h4 _ | exact h5 _ | exact h6 _ | exact h7 _ | exact h8 _
      | exact h9 _ | exact h10 _ | exact h11 _ | exact h12 _ | exact h13 _ | exact h14 _ _ | exact settled_ok _ | assumption
      | exact settled_immGroup b0 | exact settled_unaryGroup b0 | exact settled_movGroup b0
      | exact settled_incGroup16 b0 | exact settled_popSreg b0 | exact settled_adjust _ b0
      | exact List.forall_mem_nil _
  have hq : ∃ rs ∈ [rows00, rows40, rows80, rowsC0], r ∈ rs := by
    unfold opcodeRow at h
    split at h <;> exact ⟨_, by simp, List.mem_of_find?_eq_some h⟩
  obtain ⟨rs, hrs, hmem⟩ := hq
  exact all rs hrs r hmem

/-- The decoder. -/
theorem settled_decode : Settled decode := by
  refine settled_takeByte fun b0 => ?_
  split
  · next r h => exact settled_row b0 h
  · exact settled_reject _

/-- A proper part of the bytes of an instruction, from the first on, is a truncated instruction. -/
theorem decode_part {bs x : List Byte} {i : Instr} (h : decode (bs ++ x) = .ok i []) (hx : x ≠ []) :
    decode bs = .reject .truncated := by
  have k := settled_decode bs x
  rw [h] at k
  match hd : decode bs with
  | .ok j rest =>
    rw [hd] at k
    simp only [Decoded.SettledBy, Decoded.ok.injEq] at k
    exact absurd (List.append_eq_nil_iff.mp k.2.symm).2 hx
  | .reject e => rw [hd] at k; cases e <;> first | rfl | cases k

end Sys2Proof
end

