-- ==== Sys2Proof/Laws/Flags.lean ====
section
/-!
SUPPORT. What the flag computations give, in the integers: the helpers of R15 meet R221's description of carry and
overflow.
-/

namespace Sys2Proof.Machine

/-! ## Bits and integers -/

theorem msb_toNat {n : Nat} (x : BitVec n) : x.msb = decide (2 ^ (n - 1) ≤ x.toNat) := by
  rw [BitVec.msb_eq_decide]

theorem toInt_msb {n : Nat} (x : BitVec n) : x.toInt = if x.msb then (x.toNat : Int) - 2 ^ n else x.toNat := by
  rw [BitVec.toInt_eq_msb_cond]
  split <;> simp

/-- The overflow formula of an addition is the range test on the exact sum. -/
theorem addN_of (w : Width) (a b : Operand w) (c : Bool) :
    (addN a b c).of = outOfRange w.bits (a.toInt + b.toInt + c.toNat) := by
  have ha := a.isLt
  have hb := b.isLt
  have hc := Bool.toNat_lt c
  simp only [addN, outOfRange, BitVec.msb_and, BitVec.msb_xor, toInt_msb]
  simp only [msb_toNat, BitVec.toNat_ofNat]
  generalize c.toNat = k at *
  cases w <;> simp only [Width.bits, Nat.reducePow, Nat.reduceSub, Int.reducePow] at *
  · rcases Nat.lt_or_ge a.toNat 128 with h1 | h1 <;> rcases Nat.lt_or_ge b.toNat 128 with h2 | h2 <;>
      (rw [Bool.eq_iff_iff]; simp [h1, h2, Nat.not_le.mpr]; omega)
  · rcases Nat.lt_or_ge a.toNat 32768 with h1 | h1 <;> rcases Nat.lt_or_ge b.toNat 32768 with h2 | h2 <;>
      (rw [Bool.eq_iff_iff]; simp [h1, h2, Nat.not_le.mpr]; omega)

/-- The overflow formula of a subtraction is the range test on the exact difference. -/
theorem subN_of (w : Width) (a b : Operand w) (c : Bool) :
    (subN a b c).of = outOfRange w.bits (a.toInt - b.toInt - c.toNat) := by
  have ha := a.isLt
  have hb := b.isLt
  have hc := Bool.toNat_lt c
  simp only [subN, outOfRange, BitVec.msb_and, BitVec.msb_xor, toInt_msb]
  simp only [msb_toNat, BitVec.toNat_sub, BitVec.toNat_ofNat]
  generalize c.toNat = k at *
  cases w <;> simp only [Width.bits, Nat.reducePow, Nat.reduceSub, Int.reducePow] at *
  · rcases Nat.lt_or_ge a.toNat 128 with h1 | h1 <;> rcases Nat.lt_or_ge b.toNat 128 with h2 | h2 <;>
      (rw [Bool.eq_iff_iff]; simp [h1, h2, Nat.not_le.mpr]; omega)
  · rcases Nat.lt_or_ge a.toNat 32768 with h1 | h1 <;> rcases Nat.lt_or_ge b.toNat 32768 with h2 | h2 <;>
      (rw [Bool.eq_iff_iff]; simp [h1, h2, Nat.not_le.mpr]; omega)

theorem subN_toNat (w : Width) (a b : Operand w) (c : Bool) :
    ((subN a b c).r.toNat : Int) = ((a.toNat : Int) - b.toNat - c.toNat) % 2 ^ w.bits := by
  have ha := a.isLt
  have hb := b.isLt
  have hc := Bool.toNat_lt c
  simp only [subN, BitVec.toNat_sub, BitVec.toNat_ofNat]
  generalize c.toNat = k at *
  cases w <;> simp only [Width.bits, Nat.reducePow, Int.reducePow] at * <;> omega

/-! ## The flag updates -/

theorem Flags.szp_result {n : Nat} (r : BitVec n) (f : Flags) : ResultFlags r (f.szp r) :=
  ⟨rfl, by simp [Flags.szp, BEq.beq], rfl⟩

/-- An addition gives the sum and its flags. -/
theorem addN_isSum (w : Width) (a b : Operand w) (c : Bool) (f : Flags) :
    IsSum a b c (addN a b c).r (f.arith (addN a b c)) :=
  ⟨by simp [addN], rfl, addN_of w a b c, Flags.szp_result _ f⟩

theorem addN_isSum_keepCF (w : Width) (a b : Operand w) (c : Bool) (f : Flags) :
    IsSum a b c (addN a b c).r (f.arithKeepCF (addN a b c)) :=
  ⟨by simp [addN], rfl, addN_of w a b c, Flags.szp_result _ f⟩

/-- A subtraction gives the difference and its flags. -/
theorem subN_isDiff (w : Width) (a b : Operand w) (c : Bool) (f : Flags) :
    IsDiff a b c (subN a b c).r (f.arith (subN a b c)) :=
  ⟨subN_toNat w a b c, rfl, subN_of w a b c, Flags.szp_result _ f⟩

theorem subN_isDiff_keepCF (w : Width) (a b : Operand w) (c : Bool) (f : Flags) :
    IsDiff a b c (subN a b c).r (f.arithKeepCF (subN a b c)) :=
  ⟨subN_toNat w a b c, rfl, subN_of w a b c, Flags.szp_result _ f⟩

/-- What the two-operand operations give, by operation. -/
theorem AluOp.eval_sum (w : Width) (a b : Operand w) (f free : Flags) :
    SumRel (fun _ => false) w a b f (AluOp.add.eval a b f free).1 (AluOp.add.eval a b f free).2 ∧
    SumRel (·.CF) w a b f (AluOp.adc.eval a b f free).1 (AluOp.adc.eval a b f free).2 :=
  ⟨⟨addN_isSum w a b false f, rfl, rfl, rfl, rfl⟩, ⟨addN_isSum w a b f.CF f, rfl, rfl, rfl, rfl⟩⟩

theorem AluOp.eval_diff (w : Width) (a b : Operand w) (f free : Flags) :
    DiffRel (fun _ => false) w a b f (AluOp.sub.eval a b f free).1 (AluOp.sub.eval a b f free).2 ∧
    DiffRel (fun _ => false) w a b f (AluOp.cmp.eval a b f free).1 (AluOp.cmp.eval a b f free).2 ∧
    DiffRel (·.CF) w a b f (AluOp.sbb.eval a b f free).1 (AluOp.sbb.eval a b f free).2 :=
  ⟨⟨subN_isDiff w a b false f, rfl, rfl, rfl, rfl⟩, ⟨subN_isDiff w a b false f, rfl, rfl, rfl, rfl⟩,
    ⟨subN_isDiff w a b f.CF f, rfl, rfl, rfl, rfl⟩⟩

theorem AluOp.eval_logic (w : Width) (a b : Operand w) (f free : Flags) :
    LogicRel (· && ·) w a b f (AluOp.and.eval a b f free).1 (AluOp.and.eval a b f free).2 ∧
    LogicRel (· && ·) w a b f (AluOp.test.eval a b f free).1 (AluOp.test.eval a b f free).2 ∧
    LogicRel (· || ·) w a b f (AluOp.or.eval a b f free).1 (AluOp.or.eval a b f free).2 ∧
    LogicRel (· ^^ ·) w a b f (AluOp.xor.eval a b f free).1 (AluOp.xor.eval a b f free).2 :=
  ⟨⟨fun _ _ => BitVec.getLsbD_and, rfl, rfl, Flags.szp_result _ f, rfl, rfl, rfl⟩,
    ⟨fun _ _ => BitVec.getLsbD_and, rfl, rfl, Flags.szp_result _ f, rfl, rfl, rfl⟩,
    ⟨fun _ _ => BitVec.getLsbD_or, rfl, rfl, Flags.szp_result _ f, rfl, rfl, rfl⟩,
    ⟨fun _ _ => BitVec.getLsbD_xor, rfl, rfl, Flags.szp_result _ f, rfl, rfl, rfl⟩⟩

/-! ## The two-operand forms -/

variable (s : State)

@[simp] theorem State.freeFlags_afterRM (w : Width) (rm : RM) : (s.afterRM w rm).freeFlags = s.freeFlags := by
  simp [State.freeFlags, State.freeWord]

/-- The state after an operand has been read and flags and draws have changed. -/
theorem sameOperands_aluFlags {n : Nat} (w : Width) (rm : RM) (o : AluOp) (a b : BitVec n) :
    SameOperands s ((s.afterRM w rm).aluFlags o a b) := ⟨by simp, by simp, by simp, by simp⟩

/-- All a two-operand operation on the register-or-memory operand does. -/
theorem aluToRM_spec (o : AluOp) (w : Width) (rm : RM) (src : Operand w) :
    let t := aluToRM o w rm src s
    let out := o.eval (s.readRM w rm) src s.flags s.freeFlags
    let u := s.afterRM w rm
    SameFlow s t ∧ t.flags = out.2 ∧ (if o.writes then WroteRM w rm out.1 u s t else Untouched u s t) := by
  have hf : ((s.afterRM w rm).aluFlags o (s.readRM w rm) src).flags =
      (o.eval (s.readRM w rm) src s.flags s.freeFlags).2 := by simp [State.aluFlags]
  simp only [aluToRM]
  split
  · exact ⟨⟨by simp, by simp, by simp⟩, by simpa using hf,
      s.writeRM_afterRM_spec w rm _ (sameOperands_aluFlags s w rm o _ _) (by simp)⟩
  · exact ⟨⟨by simp, by simp, by simp⟩, hf, by simp, (s.onlyRead_afterRM w rm).of_bus (by simp)⟩

/-- All a two-operand operation on a register does after its source has been read. -/
theorem aluToReg_spec (o : AluOp) (w : Width) (r : RegNum) (src : Operand w) (rm : RM) :
    let t := aluToReg o w r src (s.afterRM w rm)
    let out := o.eval (s.reg w r) src s.flags s.freeFlags
    let u := s.afterRM w rm
    SameFlow s t ∧ t.flags = out.2 ∧ (if o.writes then WroteReg w r out.1 u s t else Untouched u s t) := by
  have hf : ((s.afterRM w rm).aluFlags o (s.reg w r) src).flags =
      (o.eval (s.reg w r) src s.flags s.freeFlags).2 := by simp [State.aluFlags]
  simp only [aluToReg, State.afterRM_reg]
  split
  · refine ⟨⟨by simp, by simp, by simp⟩, by simpa using hf, ?_⟩
    have k := SameOperands.wroteReg (s.onlyRead_afterRM w rm) (sameOperands_aluFlags s w rm o (s.reg w r) src) (by simp) w r
      (o.eval (s.reg w r) src s.flags s.freeFlags).1
    simpa [State.aluResult] using k
  · exact ⟨⟨by simp, by simp, by simp⟩, hf, by simp, (s.onlyRead_afterRM w rm).of_bus (by simp)⟩

/-- The same with an immediate source. -/
theorem aluToReg_imm_spec (o : AluOp) (w : Width) (r : RegNum) (src : Operand w) :
    let t := aluToReg o w r src s
    let out := o.eval (s.reg w r) src s.flags s.freeFlags
    SameFlow s t ∧ t.flags = out.2 ∧ (if o.writes then WroteReg w r out.1 s s t else Untouched s s t) :=
  aluToReg_spec s o w r src (.reg r)

end Sys2Proof.Machine
end

