-- ==== Sys2Proof/Laws/Division.lean ====
section
/-!
SUPPORT. What the shared parts of multiplication and division do, each said once.
-/

namespace Sys2Proof.Machine

variable (s : State)

/-! ## Results -/

theorem State.setProduct_byte (p : Word) :
    (s.setProduct .byte p).reg16 .ax = p ∧ OtherReg16 .ax s (s.setProduct .byte p) :=
  s.setReg16_spec .ax p

theorem State.setProduct_word (p : BitVec 32) :
    (s.setProduct .word p).reg16 .ax = p.extractLsb' 0 16 ∧ (s.setProduct .word p).reg16 .dx = p.extractLsb' 16 16 ∧
      ∀ q, q ≠ .ax → q ≠ .dx → (s.setProduct .word p).reg16 q = s.reg16 q := by
  refine ⟨State.setReg16_same _ _ _, ?_, fun q ha hd => ?_⟩
  · exact (State.setReg16_other _ _ (by decide)).trans (State.setReg16_same _ _ _)
  · exact (State.setReg16_other _ _ ha).trans (State.setReg16_other _ _ hd)

theorem State.setQuotient_byte (q r : Byte) :
    (s.setQuotient .byte q r).reg8 .al = q ∧ (s.setQuotient .byte q r).reg8 .ah = r ∧
      OtherReg16 .ax s (s.setQuotient .byte q r) := by
  have h1 := s.setReg8_spec .al q
  have h2 := (s.setReg8 .al q).setReg8_spec .ah r
  refine ⟨(h2.2.1 .al (by decide)).trans h1.1, h2.1, fun x hx => ?_⟩
  cases x <;> first | exact absurd rfl hx | rfl

theorem State.setQuotient_word (q r : Word) :
    (s.setQuotient .word q r).reg16 .ax = q ∧ (s.setQuotient .word q r).reg16 .dx = r ∧
      ∀ x, x ≠ .ax → x ≠ .dx → (s.setQuotient .word q r).reg16 x = s.reg16 x := by
  refine ⟨?_, State.setReg16_same _ _ _, fun x ha hd => ?_⟩
  · exact (State.setReg16_other _ _ (by decide)).trans (State.setReg16_same _ _ _)
  · exact (State.setReg16_other _ _ hd).trans (State.setReg16_other _ _ ha)

/-! ## Quotients -/

/-- The unsigned quotient and remainder, or nothing exactly when the divisor is 0 or the quotient does not fit
(R216). -/
theorem divideUnsigned_spec (w : Width) (n : Nat) (d : Operand w) :
    match divideUnsigned w n d with
    | none => d.toNat = 0 ∨ 2 ^ w.bits ≤ n / d.toNat
    | some (q, r) => d.toNat ≠ 0 ∧ q.toNat = n / d.toNat ∧ r.toNat = n % d.toNat := by
  unfold divideUnsigned
  split
  · next h => split at h <;> simp_all
  · next q r h =>
    split at h
    · simp at h
    · next hc =>
      simp only [Option.some.injEq, Prod.mk.injEq] at h
      obtain ⟨rfl, rfl⟩ := h
      have hd := d.isLt
      have hr := Nat.mod_lt n (show 0 < d.toNat by omega)
      refine ⟨by omega, ?_, ?_⟩
      · rw [BitVec.toNat_ofNat, Nat.mod_eq_of_lt (by omega)]
      · rw [BitVec.toNat_ofNat, Nat.mod_eq_of_lt (by omega)]

/-! ## The divide error and the end of a division -/

/-- All the divide error does once the flags are open (R403). -/
theorem State.divideError_spec :
    InterruptSequence 0 (match s.params.divideErrorSavedIp with | .next => s.ip | .current => s.ipStart) s
      s.divideError := by
  unfold State.divideError
  cases s.params.divideErrorSavedIp <;> exact s.interruptEntry_spec _ _

/-- The flags a division leaves open are the status flags only. -/
theorem Flags.allFree_control (f free : Flags) : SameControlFlags f (f.allFree free) := ⟨rfl, rfl, rfl⟩

theorem Flags.multiply_control (c : Bool) (f free : Flags) : SameControlFlags f (f.multiply c free) := ⟨rfl, rfl, rfl⟩

/-- A division that fits writes its two registers and nothing else. -/
theorem State.finishDivision_some (w : Width) (q r : Operand w) :
    let t := s.finishDivision w (some (q, r))
    SameFlow s t ∧ t.bus = s.bus ∧ SameControlFlags s.flags t.flags := by
  refine ⟨⟨?_, ?_, ?_⟩, ?_, ?_⟩
  · simp [State.finishDivision]
  · simp [State.finishDivision]
  · simp [State.finishDivision]
  · simp [State.finishDivision]
  · simpa [State.finishDivision] using Flags.allFree_control s.flags s.freeFlags

/-- The draws of the state before do not matter to what an entry does. -/
theorem InterruptTaken.of_draws {n : Nat} {ty : Byte} {saved : Word} {s m : State}
    (h : InterruptTaken ty saved (s.drawn n) m) : InterruptTaken ty saved s m := by
  have ef : ∀ u : State, ∀ v, (u.drawn n).push16 v = (u.push16 v).drawn n := fun _ _ => rfl
  have ev : ∀ u : State, ∀ a, (u.drawn n).afterVector a = (u.afterVector a).drawn n := fun _ _ => rfl
  have er : ∀ u : State, ∀ a, (u.drawn n).readVector a = u.readVector a := fun _ _ => rfl
  have eq : Quiet s → Quiet (s.drawn n) := fun q => q.congr rfl rfl rfl rfl
  obtain ⟨h1, h2, h3, h4, h5, h6, h7⟩ := h
  have el : ∀ u : State, leaving (u.drawn n) = leaving u := fun _ => rfl
  simp only [afterFrame, State.drawn_segs, ef, ev, er, el] at h2 h6
  exact ⟨h1, h2, h3, h4, h5, h6, fun q => h7 (eq q)⟩

theorem InterruptSequence.of_draws {n : Nat} {ty : Byte} {saved : Word} {s t : State}
    (h : InterruptSequence ty saved (s.drawn n) t) : InterruptSequence ty saved s t := by
  cases h with
  | nmi a b c => exact .nmi a.of_draws b c
  | step a b c d => exact .step a.of_draws b c d
  | done a b c => exact .done a.of_draws b c

/-- A division that does not fit takes the divide error, after its operand has been read and its status flags left
open. -/
theorem State.finishDivision_none (w : Width) (rm : RM) :
    DivideErrorTaken (s.afterRM w rm) s ((s.afterRM w rm).finishDivision w none) := by
  refine ⟨s.flags.allFree s.freeFlags, Flags.allFree_control _ _, ?_⟩
  have e := ((s.afterRM w rm).setFreeFlags (s.flags.allFree s.freeFlags)).divideError_spec
  simp only [State.setFreeFlags_params, State.afterRM_params, State.setFreeFlags_ip, State.afterRM_ip,
    State.setFreeFlags_ipStart, State.afterRM_ipStart] at e
  have e' := InterruptSequence.of_draws (s := (s.afterRM w rm).setFlags (s.flags.allFree s.freeFlags)) e
  simp only [State.finishDivision, State.afterRM_flags, State.freeFlags_afterRM]
  exact e'

end Sys2Proof.Machine
end

