-- ==== Sys2Proof/Laws/Instructions.lean ====
section
/-!
SUPPORT. What holds of every instruction: its meaning keeps the canonical form of memory.
-/

namespace Sys2Proof.Machine

/-- No instruction leaves memory out of its canonical form. -/
theorem exec_wf {i : Instr} {s t : State} (h : exec i s = .next t) (hm : s.bus.mem.wf = true) : t.bus.mem.wf = true := by
  cases i
  case addRmReg | adcRmReg | subRmReg | sbbRmReg | cmpRegRm | cmpRmReg | andRmReg | orRmReg | xorRmReg | testRmReg =>
    cases h; exact wf_aluRmReg hm _ _ _ _ _
  case addRmImm | adcRmImm | subRmImm | sbbRmImm | cmpRmImm | andRmImm | orRmImm | xorRmImm | testRmImm =>
    cases h; exact wf_aluToRM hm _ _ _ _
  case addAccImm | adcAccImm | subAccImm | sbbAccImm | cmpAccImm | andAccImm | orAccImm | xorAccImm | testAccImm =>
    cases h; exact wf_aluToReg hm _ _ _ _
  case shlRm | shrRm | sarRm | rolRm | rorRm | rclRm | rcrRm => cases h; exact wf_shiftRM hm _ _ _ _
  case jo d | jno d | jb d | jnb d | je d | jne d | jbe d | jnbe d | js d | jns d | jp d | jnp d | jl d | jnl d | jle d |
      jnle d | loop d | loopz d | loopnz d | jcxz d =>
    cases h
    simp only [State.jumpIf]
    split <;> [exact wf_jump (by simpa using hm) _; exact hm]
  case movs w => cases h; exact wf_repeatString hm _ _ _ (wf_writeSeg (wf_afterRead hm _ _ _) _ _ _ _)
  case stos w => cases h; exact wf_repeatString hm _ _ _ (wf_writeSeg hm _ _ _ _)
  case cmps w => cases h; exact wf_repeatString hm _ _ _ (wf_afterRead (wf_afterRead hm _ _ _) _ _ _)
  case scas w => cases h; exact wf_repeatString hm _ _ _ (wf_afterRead hm _ _ _)
  case lods w =>
    cases h
    refine wf_repeatString hm _ _ _ ?_
    simp only [lodsOnce, State.stepIndex_bus, State.setAcc_bus]
    exact wf_afterRead hm _ _ _
  case movRmReg d w r rm =>
    cases d
    · cases h; exact wf_writeRM hm _ _ _
    · cases h
      simp only [State.setReg_bus]
      exact wf_afterRM hm _ _
  case movRmImm | movRmSreg => cases h; exact wf_writeRM hm _ _ _
  case notRm => cases h; exact wf_writeRM (wf_afterRM hm _ _) _ _ _
  case movAccMem =>
    cases h
    simp only [State.setAcc_bus]
    exact wf_afterRead hm _ _ _
  case movMemAcc => cases h; exact wf_writeSeg hm _ _ _ _
  case incRm w rm | decRm w rm | negRm w rm =>
    cases h
    exact wf_writeRM (by simpa using wf_afterRM hm w rm) _ _ _
  case pushRm rm =>
    cases rm with
    | reg r => cases h; exact wf_push16 hm _
    | mem m => cases h; exact wf_push16 (wf_afterRead hm _ _ _) _
  case pushReg | pushSreg | pushf => cases h; exact wf_push16 hm _
  case callNear => cases h; exact wf_jump (wf_push16 hm _) _
  case callRm => cases h; exact wf_jump (wf_push16 (wf_afterRM hm _ _) _) _
  case callFar => cases h; exact wf_jumpFar (wf_pushFar hm) _ _
  case callMem m => cases h; exact wf_jumpFar (wf_pushFar (wf_afterPointer hm m)) _ _
  case jmpNear | jmpShort => cases h; exact wf_jump hm _
  case jmpRm => cases h; exact wf_jump (wf_afterRM hm _ _) _
  case jmpFar => cases h; exact wf_jumpFar hm _ _
  case jmpMem m => cases h; exact wf_jumpFar (wf_afterPointer hm m) _ _
  case ret => cases h; exact wf_jump (wf_dropTop hm) _
  case retImm => cases h; exact wf_jump (wf_dropTop hm) s.top16
  case popReg => cases h; exact wf_dropTop hm
  case retf => cases h; exact wf_farReturn hm
  case retfImm => cases h; simpa using wf_farReturn hm
  case popf => cases h; exact wf_dropTop hm
  case iret => cases h; exact wf_interruptReturn hm
  case popRm => cases h; exact wf_writeRM (wf_dropTop hm) _ _ _
  case xchgRmReg =>
    cases h
    simp only [State.setReg_bus]
    exact wf_writeRM (wf_afterRM hm _ _) _ _ _
  case movSregRm sr rm => cases sr <;> cases h <;> exact wf_afterRM hm _ _
  case popSreg sr => cases sr <;> cases h <;> exact wf_dropTop hm
  case inFixed | inVariable =>
    cases h
    simp only [State.setAcc_bus]
    exact wf_afterPort hm _ _
  case outFixed | outVariable => cases h; exact wf_writePort hm _ _ _
  case xlat => cases h; exact wf_afterRead hm _ _ _
  case lds r m | les r m => cases h; simpa using wf_afterPointer hm m
  case esc => cases h; exact wf_afterRM hm _ _
  case hlt => cases h; exact (Bus.haltCycle_later _ _).wf hm
  case intType | int3 => cases h; exact wf_interruptEntry hm _ _
  case into =>
    cases h
    split
    · exact wf_interruptEntry hm _ _
    · exact hm
  case mulRm w rm | imulRm w rm =>
    cases h
    simpa using wf_afterRM hm w rm
  case divRm | idivRm => cases h; exact wf_finishDivision (wf_afterRM hm _ _) _ _
  case wait =>
    simp only [exec, execWait] at h
    split at h <;> (cases h; exact hm)
  case aaa =>
    cases h
    simp only [State.setFreeFlags_bus, State.setReg8_bus]
    split <;> simpa using hm
  case aas =>
    cases h
    simp only [State.setFreeFlags_bus, State.setReg8_bus]
    split <;> simpa using hm
  all_goals (cases h; simpa using hm)

end Sys2Proof.Machine
end

