-- ==== Sys2Proof/Laws/Shifts.lean ====
section
/-!
SUPPORT. The closed forms of the repeated single-bit steps of the shifts and rotates (R262 to R268), and what a
shift does to the state.
-/

namespace Sys2Proof.Machine

/-! ## Shifts -/

theorem ShiftOp.iterate_shl {n : Nat} (hn : 0 < n) (c : Nat) (x : BitVec n) (cf : Bool) :
    ShiftOp.shl.iterate c x cf =
      (x <<< c, if c = 0 then cf else decide (c ≤ n) && x.getLsbD (n - c)) := by
  induction c generalizing x cf with
  | zero => simp [ShiftOp.iterate]
  | succ c ih =>
    simp only [ShiftOp.iterate, ShiftOp.step, ih, Prod.mk.injEq]
    refine ⟨by rw [← BitVec.shiftLeft_add, Nat.add_comm], ?_⟩
    rcases Nat.eq_zero_or_pos c with h | h
    · subst h
      simp [BitVec.msb_eq_getLsbD_last, hn]
      intro; omega
    · have h1 : ¬ c = 0 := by omega
      simp only [h1, if_false, Nat.succ_ne_zero, BitVec.getLsbD_shiftLeft]
      rcases Nat.lt_or_ge c n with h2 | h2
      · have h3 : c ≤ n := by omega
        have h4 : c + 1 ≤ n := by omega
        have h5 : n - c < n := by omega
        have h6 : ¬ n - c < 1 := by omega
        simp [h3, h4, h5, h6, Nat.sub_sub]
      · have h4 : ¬ c + 1 ≤ n := by omega
        have h6 : n - c < 1 := by omega
        simp [h4, h6]

theorem ShiftOp.iterate_shr {n : Nat} (c : Nat) (x : BitVec n) (cf : Bool) :
    ShiftOp.shr.iterate c x cf = (x >>> c, if c = 0 then cf else x.getLsbD (c - 1)) := by
  induction c generalizing x cf with
  | zero => simp [ShiftOp.iterate]
  | succ c ih =>
    simp only [ShiftOp.iterate, ShiftOp.step, ih, Prod.mk.injEq]
    refine ⟨by rw [← BitVec.shiftRight_add, Nat.add_comm], ?_⟩
    rcases Nat.eq_zero_or_pos c with h | h
    · simp [h]
    · have h1 : ¬ c = 0 := by omega
      simp [h1, BitVec.getLsbD_ushiftRight]
      congr 1
      omega

theorem ShiftOp.iterate_sar {n : Nat} (hn : 0 < n) (c : Nat) (x : BitVec n) (cf : Bool) :
    ShiftOp.sar.iterate c x cf =
      (x.sshiftRight c, if c = 0 then cf else if c ≤ n then x.getLsbD (c - 1) else x.msb) := by
  induction c generalizing x cf with
  | zero => simp [ShiftOp.iterate]
  | succ c ih =>
    simp only [ShiftOp.iterate, ShiftOp.step, ih, Prod.mk.injEq]
    refine ⟨by rw [← BitVec.sshiftRight_add, Nat.add_comm], ?_⟩
    rcases Nat.eq_zero_or_pos c with h | h
    · subst h
      simp
      intro; omega
    · have h1 : ¬ c = 0 := by omega
      simp only [h1, if_false, Nat.succ_ne_zero, BitVec.msb_sshiftRight, BitVec.getLsbD_sshiftRight]
      rcases Nat.lt_or_ge c n with h2 | h2
      · have h3 : c ≤ n := by omega
        have h4 : c + 1 ≤ n := by omega
        have h5 : ¬ n ≤ c - 1 := by omega
        have h6 : 1 + (c - 1) < n := by omega
        have h7 : 1 + (c - 1) = c := by omega
        simp [h3, h4, h5, h7, h2]
      · have h4 : ¬ c + 1 ≤ n := by omega
        simp only [h4, if_false]
        split
        · have h5 : c = n := by omega
          subst h5
          have h6 : ¬ c ≤ c - 1 := by omega
          have h7 : ¬ 1 + (c - 1) < c := by omega
          simp [h6, h7]
        · rfl

/-! ## Rotates -/

/-- The bits of a left rotation, by their places modulo the width. -/
theorem getLsbD_rotateLeft_mod {n : Nat} (x : BitVec n) (r i : Nat) (hi : i < n) :
    (x.rotateLeft r).getLsbD i = x.getLsbD ((i + (n - r % n)) % n) := by
  have hr : r % n < n := Nat.mod_lt _ (by omega)
  rw [BitVec.getLsbD_rotateLeft]
  by_cases h : i < r % n
  · have h1 : (i + (n - r % n)) % n = i + (n - r % n) := Nat.mod_eq_of_lt (by omega)
    simp [h, h1, Nat.add_comm]
  · have : (i + (n - r % n)) % n = i - r % n := by
      rw [show i + (n - r % n) = (i - r % n) + n by omega, Nat.add_mod_right, Nat.mod_eq_of_lt (by omega)]
    simp [h, hi, this]

theorem getLsbD_rotateRight_mod {n : Nat} (x : BitVec n) (r i : Nat) (hi : i < n) :
    (x.rotateRight r).getLsbD i = x.getLsbD ((i + r) % n) := by
  have hr : r % n < n := Nat.mod_lt _ (by omega)
  rw [BitVec.getLsbD_rotateRight, Nat.add_mod, Nat.mod_eq_of_lt hi]
  by_cases h : i < n - r % n
  · have h1 : (i + r % n) % n = i + r % n := Nat.mod_eq_of_lt (by omega)
    simp [h, h1, Nat.add_comm]
  · have : (i + r % n) % n = i - (n - r % n) := by
      rw [show i + r % n = (i - (n - r % n)) + n by omega, Nat.add_mod_right, Nat.mod_eq_of_lt (by omega)]
    simp [h, hi, this]

theorem rotateLeft_one_rotateLeft {n : Nat} (x : BitVec n) (c : Nat) :
    (x.rotateLeft 1).rotateLeft c = x.rotateLeft (c + 1) := by
  apply BitVec.eq_of_getLsbD_eq
  intro i hi
  have hn : 0 < n := by omega
  rw [getLsbD_rotateLeft_mod _ _ _ hi, getLsbD_rotateLeft_mod _ _ _ (Nat.mod_lt _ hn), getLsbD_rotateLeft_mod _ _ _ hi]
  congr 1
  have h1 := Nat.mod_lt c hn
  have h2 := Nat.mod_lt 1 hn
  have h3 := Nat.mod_lt (c + 1) hn
  rw [Nat.mod_add_mod, Nat.add_mod c 1 n] at *
  rcases Nat.lt_or_ge (c % n + 1 % n) n with h | h
  · rw [Nat.mod_eq_of_lt h, show i + (n - c % n) + (n - 1 % n) = i + (n - (c % n + 1 % n)) + n by omega,
      Nat.add_mod_right]
  · rw [show (c % n + 1 % n) % n = c % n + 1 % n - n by
        rw [show c % n + 1 % n = (c % n + 1 % n - n) + n by omega, Nat.add_mod_right, Nat.mod_eq_of_lt (by omega)]
        omega,
      show i + (n - (c % n + 1 % n - n)) = i + (n - c % n) + (n - 1 % n) by omega]

theorem rotateRight_one_rotateRight {n : Nat} (x : BitVec n) (c : Nat) :
    (x.rotateRight 1).rotateRight c = x.rotateRight (c + 1) := by
  apply BitVec.eq_of_getLsbD_eq
  intro i hi
  have hn : 0 < n := by omega
  rw [getLsbD_rotateRight_mod _ _ _ hi, getLsbD_rotateRight_mod _ _ _ (Nat.mod_lt _ hn),
    getLsbD_rotateRight_mod _ _ _ hi, Nat.mod_add_mod, Nat.add_assoc]

theorem ShiftOp.iterate_rol {n : Nat} (hn : 0 < n) (c : Nat) (x : BitVec n) (cf : Bool) :
    ShiftOp.rol.iterate c x cf = (x.rotateLeft c, if c = 0 then cf else (x.rotateLeft c).getLsbD 0) := by
  induction c generalizing x cf with
  | zero =>
    simp only [ShiftOp.iterate, if_true, Prod.mk.injEq, and_true]
    apply BitVec.eq_of_getLsbD_eq
    intro i hi
    rw [getLsbD_rotateLeft_mod _ _ _ hi, Nat.zero_mod, Nat.sub_zero, Nat.add_mod_right, Nat.mod_eq_of_lt hi]
  | succ c ih =>
    simp only [ShiftOp.iterate, ShiftOp.step, ih, rotateLeft_one_rotateLeft, Prod.mk.injEq, true_and,
      Nat.succ_ne_zero, if_false]
    split
    · next h =>
      subst h
      rw [getLsbD_rotateLeft_mod _ _ _ hn, BitVec.msb_eq_getLsbD_last]
      congr 1
      rcases Nat.lt_or_ge 1 n with h1 | h1
      · rw [Nat.zero_add, Nat.mod_eq_of_lt h1]
        exact (Nat.mod_eq_of_lt (by omega)).symm
      · have : n = 1 := by omega
        subst this
        rfl
    · rfl

theorem ShiftOp.iterate_ror {n : Nat} (hn : 0 < n) (c : Nat) (x : BitVec n) (cf : Bool) :
    ShiftOp.ror.iterate c x cf = (x.rotateRight c, if c = 0 then cf else (x.rotateRight c).msb) := by
  induction c generalizing x cf with
  | zero =>
    simp only [ShiftOp.iterate, if_true, Prod.mk.injEq, and_true]
    apply BitVec.eq_of_getLsbD_eq
    intro i hi
    rw [getLsbD_rotateRight_mod _ _ _ hi, Nat.add_zero, Nat.mod_eq_of_lt hi]
  | succ c ih =>
    simp only [ShiftOp.iterate, ShiftOp.step, ih, rotateRight_one_rotateRight, Prod.mk.injEq, true_and,
      Nat.succ_ne_zero, if_false]
    split
    · next h =>
      subst h
      rw [BitVec.msb_eq_getLsbD_last, getLsbD_rotateRight_mod _ _ _ (by omega), Nat.zero_add,
        show n - 1 + 1 = n by omega, Nat.mod_self]
    · rfl

/-! ## Rotates through carry: a rotation of the bits CF:x -/

/-- CF above the operand. -/
def withCarry {n : Nat} (cf : Bool) (x : BitVec n) : BitVec (1 + n) := BitVec.ofBool cf ++ x

theorem getLsbD_withCarry {n : Nat} (cf : Bool) (x : BitVec n) (i : Nat) :
    (withCarry cf x).getLsbD i = if i < n then x.getLsbD i else decide (i = n) && cf := by
  simp only [withCarry, BitVec.getLsbD_append, BitVec.getLsbD_ofBool]
  split
  · rfl
  · congr 2
    exact propext (by omega)

theorem ShiftOp.step_rcl {n : Nat} (hn : 0 < n) (x : BitVec n) (cf : Bool) :
    withCarry (ShiftOp.rcl.step x cf).2 (ShiftOp.rcl.step x cf).1 = (withCarry cf x).rotateLeft 1 := by
  apply BitVec.eq_of_getLsbD_eq
  intro i hi
  rw [getLsbD_rotateLeft_mod _ _ _ hi, getLsbD_withCarry, getLsbD_withCarry,
    show 1 % (1 + n) = 1 from Nat.mod_eq_of_lt (by omega), show 1 + n - 1 = n by omega]
  simp only [ShiftOp.step]
  rcases Nat.eq_zero_or_pos i with h | h
  · subst h
    have h1 : (0 + n) % (1 + n) = n := by rw [Nat.zero_add]; exact Nat.mod_eq_of_lt (by omega)
    rw [h1]
    cases cf <;> simp [hn]
  · have h1 : (i + n) % (1 + n) = i - 1 := by
      rw [show i + n = (i - 1) + (1 + n) by omega, Nat.add_mod_right, Nat.mod_eq_of_lt (by omega)]
    rw [h1]
    by_cases h2 : i < n
    · have h3 : i - 1 < n := by omega
      have h4 : ¬ i < 1 := by omega
      have h5 : (BitVec.ofNat n cf.toNat).getLsbD i = false := by
        rw [BitVec.getLsbD_ofNat, Nat.testBit_lt_two_pow, Bool.and_false]
        exact Nat.lt_of_lt_of_le (Bool.toNat_lt cf) (by
          simpa using Nat.pow_le_pow_right (show 0 < 2 by omega) (show 1 ≤ i from h))
      rw [if_pos h2, if_pos h3, BitVec.getLsbD_or, h5, BitVec.getLsbD_shiftLeft]
      simp [h2, h4]
    · have h3 : i = n := by omega
      subst h3
      have h4 : i - 1 < i := by omega
      simp [h4, BitVec.msb_eq_getLsbD_last]

theorem ShiftOp.step_rcr {n : Nat} (hn : 0 < n) (x : BitVec n) (cf : Bool) :
    withCarry (ShiftOp.rcr.step x cf).2 (ShiftOp.rcr.step x cf).1 = (withCarry cf x).rotateRight 1 := by
  apply BitVec.eq_of_getLsbD_eq
  intro i hi
  rw [getLsbD_rotateRight_mod _ _ _ hi, getLsbD_withCarry, getLsbD_withCarry]
  simp only [ShiftOp.step]
  by_cases h : i = n
  · subst h
    have h1 : (i + 1) % (1 + i) = 0 := by rw [Nat.add_comm]; exact Nat.mod_self _
    rw [h1]
    simp [hn]
  · have h1 : (i + 1) % (1 + n) = i + 1 := Nat.mod_eq_of_lt (by omega)
    rw [h1]
    have h2 : i < n := by omega
    have h5 : (BitVec.ofNat n (cf.toNat * 2 ^ (n - 1))).getLsbD i = (decide (i = n - 1) && cf) := by
      rw [BitVec.getLsbD_ofNat]
      cases cf
      · simp
      · rw [Bool.toNat_true, Nat.one_mul, Nat.testBit_two_pow]
        simp [h2, eq_comm]
    by_cases h3 : i + 1 < n
    · have h4 : ¬ i = n - 1 := by omega
      rw [if_pos h2, if_pos h3, BitVec.getLsbD_or, h5, BitVec.getLsbD_ushiftRight, Nat.add_comm 1 i]
      simp [h4]
    · have h4 : i = n - 1 := by omega
      have h6 : n - 1 + 1 = n := by omega
      rw [if_pos h2, if_neg h3, BitVec.getLsbD_or, h5, BitVec.getLsbD_ushiftRight, Nat.add_comm 1 i, h4, h6,
        BitVec.getLsbD_of_ge x n (Nat.le_refl n)]
      simp

theorem ShiftOp.iterate_rcl {n : Nat} (hn : 0 < n) (c : Nat) (x : BitVec n) (cf : Bool) :
    withCarry (ShiftOp.rcl.iterate c x cf).2 (ShiftOp.rcl.iterate c x cf).1 = (withCarry cf x).rotateLeft c := by
  induction c generalizing x cf with
  | zero =>
    apply BitVec.eq_of_getLsbD_eq
    intro i hi
    rw [getLsbD_rotateLeft_mod _ _ _ hi, Nat.zero_mod, Nat.sub_zero, Nat.add_mod_right, Nat.mod_eq_of_lt hi]
    rfl
  | succ c ih =>
    simp only [ShiftOp.iterate]
    rw [ih, ShiftOp.step_rcl hn, rotateLeft_one_rotateLeft]

theorem ShiftOp.iterate_rcr {n : Nat} (hn : 0 < n) (c : Nat) (x : BitVec n) (cf : Bool) :
    withCarry (ShiftOp.rcr.iterate c x cf).2 (ShiftOp.rcr.iterate c x cf).1 = (withCarry cf x).rotateRight c := by
  induction c generalizing x cf with
  | zero =>
    apply BitVec.eq_of_getLsbD_eq
    intro i hi
    rw [getLsbD_rotateRight_mod _ _ _ hi, Nat.add_zero, Nat.mod_eq_of_lt hi]
    rfl
  | succ c ih =>
    simp only [ShiftOp.iterate]
    rw [ih, ShiftOp.step_rcr hn, rotateRight_one_rotateRight]

/-- The two parts of CF:x. -/
theorem withCarry_parts {n : Nat} (cf : Bool) (x : BitVec n) :
    (withCarry cf x).setWidth n = x ∧ (withCarry cf x).msb = cf := by
  constructor
  · apply BitVec.eq_of_getLsbD_eq
    intro i hi
    rw [BitVec.getLsbD_setWidth, getLsbD_withCarry]
    simp [hi]
  · rw [BitVec.msb_eq_getLsbD_last, getLsbD_withCarry]
    simp

/-! ## The flags -/

/-- The flags after a shift by a count above 0 (R262 to R264, R273). -/
theorem ShiftOp.flags_shift {o : ShiftOp} (ho : o.isRotate = false) {n : Nat} (c : Nat) (x0 x : BitVec n) (cf : Bool)
    (f free : Flags) :
    let g := o.flags c x0 x cf f free
    g.CF = cf ∧ ResultFlags x g ∧ SameControlFlags f g ∧ (c = 1 → g.OF = o.overflow x0 x cf) := by
  simp only [ShiftOp.flags, ho]
  exact ⟨rfl, ⟨rfl, by simp [Flags.szp, BEq.beq], rfl⟩, ⟨rfl, rfl, rfl⟩, fun h => by simp [h, Flags.szp]⟩

/-- The flags after a rotate by a count above 0 (R265 to R268, R273). -/
theorem ShiftOp.flags_rotate {o : ShiftOp} (ho : o.isRotate = true) {n : Nat} (c : Nat) (x0 x : BitVec n) (cf : Bool)
    (f free : Flags) :
    let g := o.flags c x0 x cf f free
    g = { f with CF := cf, OF := g.OF } ∧ (c = 1 → g.OF = o.overflow x0 x cf) := by
  simp only [ShiftOp.flags, ho]
  exact ⟨rfl, fun h => by simp [h]⟩

/-! ## The state -/

/-- All a shift or rotate does (R273): with count 0 the operand is only read; else it is the operand after `c` single
steps, with its flags. -/
theorem shiftRM_spec (o : ShiftOp) (v : Count) (w : Width) (rm : RM) (s : State) :
    let c := s.shiftCount v
    let out := o.iterate c (s.readRM w rm) s.flags.CF
    let t := shiftRM o v w rm s
    SameFlow s t ∧
    if c = 0 then t.flags = s.flags ∧ Untouched (s.afterRM w rm) s t
    else WroteRM w rm out.1 (s.afterRM w rm) s t ∧
      t.flags = o.flags c (s.readRM w rm) out.1 out.2 s.flags s.freeFlags := by
  simp only [shiftRM]
  split
  · exact ⟨⟨by simp, by simp, by simp⟩, by simp, by simp, s.onlyRead_afterRM w rm⟩
  · refine ⟨⟨by simp, by simp, by simp⟩, ?_, by simp⟩
    exact s.writeRM_afterRM_spec w rm _ ⟨by simp, by simp, by simp, by simp⟩ (by simp)

end Sys2Proof.Machine
end

