-- ==== Sys2Proof/Tests/Slice0.lean ====
section
/-!
SUPPORT. Tests: the encoding of every constructor, written out from 30_encoding.md and the opcode rows; the checks
of `wf`; single steps whose expected results are the vectors of 95_test_vectors.md, named after them; and a witness
for the hypotheses of every statement that has some.
-/

namespace Sys2Proof.Tests

open Sys2Proof Sys2Proof.Machine

/-! ## Decoding: one word per constructor -/

theorem test_decode_mov :
    (decode [0x89, 0xD8] = .ok (.movRmReg .fromReg .word .r011 (.reg .r000)) [] ∧
      decode [0x8A, 0x40, 0x7F] = .ok (.movRmReg .toReg .byte .r000 (.mem (.based .bxSi (.d8 0x7F)))) []) ∧
    decode [0xC6, 0x47, 0x10, 0x05] = .ok (.movRmImm (.mem (.based .bx (.d8 0x10))) (.b 0x05)) [] ∧
    (decode [0xB8, 0x34, 0x12] = .ok (.movRegImm .r000 (.w 0x1234)) [] ∧
      decode [0xB4, 0x7F] = .ok (.movRegImm .r100 (.b 0x7F)) []) ∧
    decode [0xA1, 0x00, 0x20] = .ok (.movAccMem .word 0x2000) [] ∧
    decode [0xA2, 0x10, 0x00] = .ok (.movMemAcc .byte 0x0010) [] ∧
    decode [0x8E, 0xD8] = .ok (.movSregRm .ds (.reg .r000)) [] ∧
    decode [0x8C, 0x0F] = .ok (.movRmSreg (.mem (.based .bx .none)) .cs) [] := by decide

theorem test_decode_push_pop :
    decode [0xFF, 0x36, 0x00, 0x10] = .ok (.pushRm (.mem (.direct 0x1000))) [] ∧
    decode [0x54] = .ok (.pushReg .sp) [] ∧ decode [0x0E] = .ok (.pushSreg .cs) [] ∧
    decode [0x8F, 0x46, 0xFE] = .ok (.popRm (.mem (.based .bp (.d8 0xFE)))) [] ∧
    decode [0x5B] = .ok (.popReg .bx) [] ∧ decode [0x17] = .ok (.popSreg .ss) [] := by decide

theorem test_decode_xchg_in_out :
    decode [0x86, 0x07] = .ok (.xchgRmReg .byte .r000 (.mem (.based .bx .none))) [] ∧
    decode [0x93] = .ok (.xchgAxReg .bx) [] ∧ decode [0x90] = .ok (.xchgAxReg .ax) [] ∧
    decode [0xE4, 0x60] = .ok (.inFixed .byte 0x60) [] ∧ decode [0xED] = .ok (.inVariable .word) [] ∧
    decode [0xE7, 0x61] = .ok (.outFixed .word 0x61) [] ∧ decode [0xEE] = .ok (.outVariable .byte) [] := by decide

theorem test_decode_address_and_flag_transfers :
    decode [0xD7] = .ok .xlat [] ∧ decode [0x8D, 0x73, 0xFF] = .ok (.lea .si (.based .bpDi (.d8 0xFF))) [] ∧
    decode [0xC5, 0x1E, 0x00, 0x02] = .ok (.lds .bx (.direct 0x0200)) [] ∧
    decode [0xC4, 0x3F] = .ok (.les .di (.based .bx .none)) [] ∧ decode [0x9F] = .ok .lahf [] ∧
    decode [0x9E] = .ok .sahf [] ∧ decode [0x9C] = .ok .pushf [] ∧ decode [0x9D] = .ok .popf [] := by decide

theorem test_decode_add_adc :
    decode [0x00, 0xD8] = .ok (.addRmReg .fromReg .byte .r011 (.reg .r000)) [] ∧
    decode [0x83, 0x06, 0x00, 0x10, 0xFF] = .ok (.addRmImm (.mem (.direct 0x1000)) (.signed 0xFF)) [] ∧
    decode [0x05, 0x34, 0x12] = .ok (.addAccImm (.w 0x1234)) [] ∧
    decode [0x13, 0xC3] = .ok (.adcRmReg .toReg .word .r000 (.reg .r011)) [] ∧
    decode [0x81, 0xD1, 0xFF, 0x00] = .ok (.adcRmImm (.reg .r001) (.word 0x00FF)) [] ∧
    decode [0x14, 0x00] = .ok (.adcAccImm (.b 0x00)) [] := by decide

theorem test_decode_sub_sbb :
    decode [0x2A, 0xC3] = .ok (.subRmReg .toReg .byte .r000 (.reg .r011)) [] ∧
    decode [0x82, 0xEB, 0x01] = .ok (.subRmImm (.reg .r011) (.byte true 0x01)) [] ∧
    decode [0x2D, 0x01, 0x00] = .ok (.subAccImm (.w 0x0001)) [] ∧
    decode [0x19, 0xD8] = .ok (.sbbRmReg .fromReg .word .r011 (.reg .r000)) [] ∧
    decode [0x80, 0xDA, 0x05] = .ok (.sbbRmImm (.reg .r010) (.byte false 0x05)) [] ∧
    decode [0x1C, 0xFF] = .ok (.sbbAccImm (.b 0xFF)) [] := by decide

theorem test_decode_inc_dec_neg_cmp :
    decode [0xFE, 0x07] = .ok (.incRm .byte (.mem (.based .bx .none))) [] ∧ decode [0x44] = .ok (.incReg .sp) [] ∧
    decode [0xFF, 0xC9] = .ok (.decRm .word (.reg .r001)) [] ∧ decode [0x48] = .ok (.decReg .ax) [] ∧
    decode [0xF7, 0xD8] = .ok (.negRm .word (.reg .r000)) [] ∧
    decode [0x3B, 0xD8] = .ok (.cmpRegRm .word .r011 (.reg .r000)) [] ∧
    decode [0x38, 0xD8] = .ok (.cmpRmReg .byte .r011 (.reg .r000)) [] ∧
    decode [0x81, 0x3E, 0x00, 0x10, 0x34, 0x12] = .ok (.cmpRmImm (.mem (.direct 0x1000)) (.word 0x1234)) [] ∧
    decode [0x3C, 0x0D] = .ok (.cmpAccImm (.b 0x0D)) [] := by decide

theorem test_decode_adjusts_and_conversions :
    decode [0x37] = .ok .aaa [] ∧ decode [0x27] = .ok .daa [] ∧ decode [0x3F] = .ok .aas [] ∧
    decode [0x2F] = .ok .das [] ∧ decode [0xD4, 0x0A] = .ok .aam [] ∧ decode [0xD5, 0x0A] = .ok .aad [] ∧
    decode [0x98] = .ok .cbw [] ∧ decode [0x99] = .ok .cwd [] := by decide

theorem test_decode_unary :
    decode [0xF6, 0xE3] = .ok (.mulRm .byte (.reg .r011)) [] ∧ decode [0xF7, 0xEB] = .ok (.imulRm .word (.reg .r011)) [] ∧
    decode [0xF7, 0x37] = .ok (.divRm .word (.mem (.based .bx .none))) [] ∧
    decode [0xF6, 0xFB] = .ok (.idivRm .byte (.reg .r011)) [] ∧
    decode [0xF6, 0x17] = .ok (.notRm .byte (.mem (.based .bx .none))) [] := by decide

theorem test_decode_shifts :
    decode [0xD0, 0xE0] = .ok (.shlRm .one .byte (.reg .r000)) [] ∧
    decode [0xD3, 0xE8] = .ok (.shrRm .cl .word (.reg .r000)) [] ∧
    decode [0xD2, 0xF8] = .ok (.sarRm .cl .byte (.reg .r000)) [] ∧
    decode [0xD1, 0xC0] = .ok (.rolRm .one .word (.reg .r000)) [] ∧
    decode [0xD0, 0xC8] = .ok (.rorRm .one .byte (.reg .r000)) [] ∧
    decode [0xD3, 0xD0] = .ok (.rclRm .cl .word (.reg .r000)) [] ∧
    decode [0xD1, 0x1F] = .ok (.rcrRm .one .word (.mem (.based .bx .none))) [] := by decide

theorem test_decode_logic :
    decode [0x21, 0xD8] = .ok (.andRmReg .fromReg .word .r011 (.reg .r000)) [] ∧
    decode [0x81, 0xE3, 0xFF, 0x00] = .ok (.andRmImm (.reg .r011) (.w 0x00FF)) [] ∧
    decode [0x24, 0x0F] = .ok (.andAccImm (.b 0x0F)) [] ∧
    decode [0x85, 0xD8] = .ok (.testRmReg .word .r011 (.reg .r000)) [] ∧
    decode [0xF6, 0x07, 0x80] = .ok (.testRmImm (.mem (.based .bx .none)) (.b 0x80)) [] ∧
    decode [0xA9, 0x80, 0x00] = .ok (.testAccImm (.w 0x0080)) [] ∧
    decode [0x0B, 0xC0] = .ok (.orRmReg .toReg .word .r000 (.reg .r000)) [] ∧
    decode [0x80, 0xCB, 0x01] = .ok (.orRmImm (.reg .r011) (.b 0x01)) [] ∧
    decode [0x0C, 0x80] = .ok (.orAccImm (.b 0x80)) [] ∧
    decode [0x31, 0x07] = .ok (.xorRmReg .fromReg .word .r000 (.mem (.based .bx .none))) [] ∧
    decode [0x80, 0xF3, 0x0F] = .ok (.xorRmImm (.reg .r011) (.b 0x0F)) [] ∧
    decode [0x35, 0xFF, 0xFF] = .ok (.xorAccImm (.w 0xFFFF)) [] := by decide

theorem test_decode_strings :
    decode [0xF2] = .ok (.rep false) [] ∧ decode [0xF3] = .ok (.rep true) [] ∧ decode [0xA4] = .ok (.movs .byte) [] ∧
    decode [0xA7] = .ok (.cmps .word) [] ∧ decode [0xAE] = .ok (.scas .byte) [] ∧
    decode [0xAD] = .ok (.lods .word) [] ∧ decode [0xAA] = .ok (.stos .byte) [] := by decide

theorem test_decode_call_jmp :
    decode [0xE8, 0xFD, 0x00] = .ok (.callNear 0x00FD) [] ∧ decode [0xFF, 0xD3] = .ok (.callRm (.reg .r011)) [] ∧
    decode [0x9A, 0x00, 0x01, 0x00, 0x20] = .ok (.callFar 0x0100 0x2000) [] ∧
    decode [0xFF, 0x1F] = .ok (.callMem (.based .bx .none)) [] ∧ decode [0xE9, 0xFD, 0x01] = .ok (.jmpNear 0x01FD) [] ∧
    decode [0xEB, 0xFE] = .ok (.jmpShort 0xFE) [] ∧ decode [0xFF, 0xE3] = .ok (.jmpRm (.reg .r011)) [] ∧
    decode [0xEA, 0x00, 0x01, 0x00, 0x20] = .ok (.jmpFar 0x0100 0x2000) [] ∧
    decode [0xFF, 0x2F] = .ok (.jmpMem (.based .bx .none)) [] := by decide

theorem test_decode_returns_and_interrupts :
    decode [0xC3] = .ok .ret [] ∧ decode [0xC2, 0x04, 0x00] = .ok (.retImm 0x0004) [] ∧ decode [0xCB] = .ok .retf [] ∧
    decode [0xCA, 0x02, 0x00] = .ok (.retfImm 0x0002) [] ∧ decode [0xCD, 0x21] = .ok (.intType 0x21) [] ∧
    decode [0xCC] = .ok .int3 [] ∧ decode [0xCE] = .ok .into [] ∧ decode [0xCF] = .ok .iret [] := by decide

theorem test_decode_conditional_jumps :
    decode [0x70, 0x10] = .ok (.jo 0x10) [] ∧ decode [0x71, 0x10] = .ok (.jno 0x10) [] ∧
    decode [0x72, 0x10] = .ok (.jb 0x10) [] ∧ decode [0x73, 0x10] = .ok (.jnb 0x10) [] ∧
    decode [0x74, 0x10] = .ok (.je 0x10) [] ∧ decode [0x75, 0x10] = .ok (.jne 0x10) [] ∧
    decode [0x76, 0x10] = .ok (.jbe 0x10) [] ∧ decode [0x77, 0x10] = .ok (.jnbe 0x10) [] ∧
    decode [0x78, 0x10] = .ok (.js 0x10) [] ∧ decode [0x79, 0x10] = .ok (.jns 0x10) [] ∧
    decode [0x7A, 0x10] = .ok (.jp 0x10) [] ∧ decode [0x7B, 0x10] = .ok (.jnp 0x10) [] ∧
    decode [0x7C, 0x10] = .ok (.jl 0x10) [] ∧ decode [0x7D, 0x10] = .ok (.jnl 0x10) [] ∧
    decode [0x7E, 0x10] = .ok (.jle 0x10) [] ∧ decode [0x7F, 0x10] = .ok (.jnle 0x10) [] := by decide

theorem test_decode_loops :
    decode [0xE2, 0xFE] = .ok (.loop 0xFE) [] ∧ decode [0xE1, 0x0E] = .ok (.loopz 0x0E) [] ∧
    decode [0xE0, 0x0E] = .ok (.loopnz 0x0E) [] ∧ decode [0xE3, 0x0E] = .ok (.jcxz 0x0E) [] := by decide

theorem test_decode_processor_control :
    decode [0xF8] = .ok .clc [] ∧ decode [0xF5] = .ok .cmc [] ∧ decode [0xF9] = .ok .stc [] ∧
    decode [0xFC] = .ok .cld [] ∧ decode [0xFD] = .ok .std [] ∧ decode [0xFA] = .ok .cli [] ∧
    decode [0xFB] = .ok .sti [] ∧ decode [0xF4] = .ok .hlt [] ∧ decode [0x9B] = .ok .wait [] ∧
    decode [0xD8, 0x06, 0x00, 0x10] = .ok (.esc .r000 .r000 (.mem (.direct 0x1000))) [] ∧
    decode [0xDF, 0xF8] = .ok (.esc .r111 .r111 (.reg .r000)) [] ∧ decode [0xF0] = .ok .lock [] ∧
    decode [0x26] = .ok (.seg .es) [] ∧ decode [0x3E] = .ok (.seg .ds) [] := by decide

/-- The refused encodings of 95_test_vectors.md T16 to T18, T33, T34, T48, A20, A73, L5, L17, L42, J7, J22. -/
theorem test_decode_refuses :
    decode [0x8E, 0xC8] = .reject .movCs ∧ decode [0x0F] = .reject .popCs ∧
    decode [0x60] = .reject (.undefinedOpcode 0x60) ∧ decode [0xF1] = .reject (.undefinedOpcode 0xF1) ∧
    ([[0x8E, 0xE0], [0xC6, 0x08, 0x00], [0x8F, 0x08], [0x8D, 0xC0], [0xFE, 0x10], [0xD4, 0x10], [0x83, 0xE3, 0x0F],
        [0xF6, 0xC8, 0x01], [0xD0, 0xF0], [0xFF, 0xD8], [0xFF, 0xF8]] : List (List Byte)).all
      (fun bs => match decode bs with | .reject _ => true | .ok _ _ => false) = true := by decide

/-! ## Ill-formed terms, one per check of `wf` -/

theorem test_wf_bp_needs_displacement : (Instr.movRmReg .toReg .word .r000 (.mem (.based .bp .none))).wf = false := by
  decide
theorem test_wf_bp_in_lea : (Instr.lea .ax (.based .bp .none)).wf = false := by decide
theorem test_wf_bp_in_esc : (Instr.esc .r000 .r000 (.mem (.based .bp .none))).wf = false := by decide
theorem test_wf_mov_cs : (Instr.movSregRm .cs (.reg .r000)).wf = false := by decide
theorem test_wf_pop_cs : (Instr.popSreg .cs).wf = false := by decide
theorem test_wf_accepts : (Instr.movSregRm .ss (.mem (.based .bp (.d8 0)))).wf = true := by decide

/-! ## Single steps -/

/-- The general registers of the base state of 95_test_vectors.md. -/
def regs0 : Regs := ⟨0, 0, 0, 0, 0x0100, 0, 0, 0⟩

/-- The base state of 95_test_vectors.md. -/
def base : State :=
  { State.reset with
    regs := regs0, segs := { es := 0x4000, cs := 0x1000, ss := 0x3000, ds := 0x2000 }, ip := 0x0100 }

/-- The bus of the base state, with memory as given. -/
def held (m : Memory) : Bus := { base.bus with mem := m }

/-- What is looked at after one step with the bytes stored at CS:IP. -/
def seen (bs : List Byte) (s : State) (look : State → List Word) : Option (List Word) :=
  match step (State.storeCode bs 0 s) with
  | .next t => some (look t)
  | .fault _ => none
  | .refused _ => none

/-- A flag as a word. -/
def bit (b : Bool) : Word := BitVec.ofNat 16 b.toNat


theorem test_M1_mov_ax_ffffh :
    seen [0xA1, 0xFF, 0xFF] { base with bus := held [(0x20000, 0x12), (0x2FFFF, 0x34)] }
      (fun t => [t.regs.ax, t.ip, t.flags.toWord 0]) =
      some [0x1234, 0x0103, 0x0000] := by decide

theorem test_M2_mov_0001h_ax :
    seen [0xA3, 0x01, 0x00] { base with regs := { regs0 with ax := 0xBEEF } }
      (fun t => [t.ip, t.readPhysWord 0x20001, t.flags.toWord 0]) =
      some [0x0103, 0xBEEF, 0x0000] := by decide

theorem test_M3_mov_ax_bx :
    seen [0x8B, 0x07]
      { base with
        regs := { regs0 with bx := 0x0010 }
        segs := { base.segs with ds := 0xFFFF }
        bus := held [(0x00000, 0x78), (0x00001, 0x56)] }
      (fun t => [t.regs.ax, t.ip, t.flags.toWord 0]) =
      some [0x5678, 0x0102, 0x0000] := by decide

theorem test_T4_mov_bx_al :
    seen [0x88, 0x07] { base with regs := { regs0 with ax := 0x00EE, bx := 0x0010 } }
      (fun t => [t.ip, (t.readByte 0x20010).setWidth 16, t.flags.toWord 0]) =
      some [0x0102, 0x00EE, 0x0000] := by decide

theorem test_T5_mov_1234h_5678h :
    seen [0xC7, 0x06, 0x34, 0x12, 0x78, 0x56] base
      (fun t => [t.ip, t.readPhysWord 0x21234, t.flags.toWord 0]) =
      some [0x0106, 0x5678, 0x0000] := by decide

theorem test_T7_mov_ah_7fh :
    seen [0xB4, 0x7F] { base with regs := { regs0 with ax := 0x1234 } }
      (fun t => [t.regs.ax, t.ip, t.flags.toWord 0]) =
      some [0x7F34, 0x0102, 0x0000] := by decide

theorem test_T13_mov_ss_bx :
    seen [0x8E, 0x17] { base with regs := { regs0 with bx := 0x0020 }, bus := held [(0x20021, 0x60)] }
      (fun t => [t.segs.ss, t.ip, t.flags.toWord 0]) =
      some [0x6000, 0x0102, 0x0000] := by decide

theorem test_T15_mov_bx_es :
    seen [0x8C, 0x07] { base with regs := { regs0 with bx := 0x0030 } }
      (fun t => [t.ip, t.readPhysWord 0x20030, t.flags.toWord 0]) =
      some [0x0102, 0x4000, 0x0000] := by decide

theorem test_T20_push_sp :
    seen [0x54] base
      (fun t => [t.regs.sp, t.ip, t.readPhysWord 0x300FE, t.flags.toWord 0]) =
      some [0x00FE, 0x0101, 0x00FE, 0x0000] := by decide

theorem test_T22_push_ax :
    seen [0x50] { base with regs := { regs0 with ax := 0xBEEF, sp := 0x0000 } }
      (fun t => [t.regs.sp, t.ip, t.readPhysWord 0x3FFFE, t.flags.toWord 0]) =
      some [0xFFFE, 0x0101, 0xBEEF, 0x0000] := by decide

theorem test_T24_push_1000h :
    seen [0xFF, 0x36, 0x00, 0x10] { base with bus := held [(0x21000, 0xCD), (0x21001, 0xAB)] }
      (fun t => [t.regs.sp, t.ip, t.readPhysWord 0x300FE, t.flags.toWord 0]) =
      some [0x00FE, 0x0104, 0xABCD, 0x0000] := by decide

theorem test_T26_push_es :
    seen [0x06] base
      (fun t => [t.regs.sp, t.ip, t.readPhysWord 0x300FE, t.flags.toWord 0]) =
      some [0x00FE, 0x0101, 0x4000, 0x0000] := by decide

theorem test_T28_pop_sp :
    seen [0x5C] { base with bus := held [(0x30101, 0x20)] }
      (fun t => [t.regs.sp, t.ip, t.flags.toWord 0]) =
      some [0x2000, 0x0101, 0x0000] := by decide

theorem test_T30_pop_1000h :
    seen [0x8F, 0x06, 0x00, 0x10] { base with bus := held [(0x30100, 0x78), (0x30101, 0x56)] }
      (fun t => [t.regs.sp, t.ip, t.readPhysWord 0x21000, t.flags.toWord 0]) =
      some [0x0102, 0x0104, 0x5678, 0x0000] := by decide

theorem test_T31_pop_ds :
    seen [0x1F] { base with bus := held [(0x30101, 0x70)] }
      (fun t => [t.regs.sp, t.segs.ds, t.ip, t.flags.toWord 0]) =
      some [0x0102, 0x7000, 0x0101, 0x0000] := by decide

theorem test_T32_pop_ss :
    seen [0x17] { base with bus := held [(0x30101, 0x80)] }
      (fun t => [t.regs.sp, t.segs.ss, t.ip, t.flags.toWord 0]) =
      some [0x0102, 0x8000, 0x0101, 0x0000] := by decide

theorem test_T35_xchg_al_bx :
    seen [0x86, 0x07]
      { base with
        regs := { regs0 with ax := 0x0011, bx := 0x0040 }
        bus := held [(0x20040, 0x99)] }
      (fun t => [t.regs.ax, t.ip, (t.readByte 0x20040).setWidth 16, t.flags.toWord 0]) =
      some [0x0099, 0x0102, 0x0011, 0x0000] := by decide

theorem test_T37_xchg_ax_bx :
    seen [0x93] { base with regs := { regs0 with ax := 0x1111, bx := 0x2222 } }
      (fun t => [t.regs.ax, t.regs.bx, t.ip, t.flags.toWord 0]) =
      some [0x2222, 0x1111, 0x0101, 0x0000] := by decide

theorem test_T44_xlat :
    seen [0xD7] { base with regs := { regs0 with ax := 0x0002, bx := 0xFFFF }, bus := held [(0x20001, 0x77)] }
      (fun t => [t.regs.ax, t.ip, t.flags.toWord 0]) =
      some [0x0077, 0x0101, 0x0000] := by decide

theorem test_T46_lea_ax_bx_5 :
    seen [0x8D, 0x47, 0x05] { base with regs := { regs0 with bx := 0x1000 } }
      (fun t => [t.regs.ax, t.ip, t.flags.toWord 0]) =
      some [0x1005, 0x0103, 0x0000] := by decide

theorem test_T49_lds_bx_0200h :
    seen [0xC5, 0x1E, 0x00, 0x02] { base with bus := held [(0x20200, 0x34), (0x20201, 0x12), (0x20203, 0x30)] }
      (fun t => [t.regs.bx, t.segs.ds, t.ip, t.flags.toWord 0]) =
      some [0x1234, 0x3000, 0x0104, 0x0000] := by decide

theorem test_T50_les_di_bx :
    seen [0xC4, 0x3F]
      { base with
        regs := { regs0 with bx := 0x0200 }
        bus := held [(0x20200, 0x10), (0x20203, 0xB8)] }
      (fun t => [t.regs.di, t.segs.es, t.ip, t.flags.toWord 0]) =
      some [0x0010, 0xB800, 0x0102, 0x0000] := by decide

theorem test_T52_lahf :
    seen [0x9F] { base with flags := .ofWord 0x0091 }
      (fun t => [t.regs.ax, t.ip, t.flags.toWord 0]) =
      some [0x9300, 0x0101, 0x0091] := by decide

theorem test_T54_sahf :
    seen [0x9E] { base with regs := { regs0 with ax := 0xD500 } }
      (fun t => [t.ip, t.flags.toWord 0]) =
      some [0x0101, 0x00D5] := by decide

theorem test_T57_pushf :
    seen [0x9C] { base with flags := .ofWord 0x0ED5 }
      (fun t => [t.regs.sp, t.ip, t.readPhysWord 0x300FE, t.flags.toWord 0]) =
      some [0x00FE, 0x0101, 0xFED7, 0x0ED5] := by decide

theorem test_T58_popf :
    seen [0x9D] { base with bus := held [(0x30100, 0xD5), (0x30101, 0x0A)] }
      (fun t => [t.regs.sp, t.ip, t.flags.toWord 0]) =
      some [0x0102, 0x0101, 0x0AD5] := by decide

theorem test_A1_add_al_bl :
    seen [0x00, 0xD8] { base with regs := { regs0 with ax := 0x007F, bx := 0x0001 } }
      (fun t => [t.regs.ax, t.ip, t.flags.toWord 0]) =
      some [0x0080, 0x0102, 0x0890] := by decide

theorem test_A7_add_ax_1234h :
    seen [0x05, 0x34, 0x12] { base with regs := { regs0 with ax := 0x1111 } }
      (fun t => [t.regs.ax, t.ip, t.flags.toWord 0]) =
      some [0x2345, 0x0103, 0x0000] := by decide

theorem test_A8_add_ax_1 :
    seen [0x83, 0xC0, 0xFF] { base with regs := { regs0 with ax := 0x0001 } }
      (fun t => [t.regs.ax, t.ip, t.flags.toWord 0]) =
      some [0x0000, 0x0103, 0x0055] := by decide

theorem test_A12_adc_al_0 :
    seen [0x14, 0x00] { base with regs := { regs0 with ax := 0x00FF }, flags := .ofWord 0x0001 }
      (fun t => [t.regs.ax, t.ip, t.flags.toWord 0]) =
      some [0x0000, 0x0102, 0x0055] := by decide

theorem test_A13_adc_ax_bx :
    seen [0x11, 0xD8] { base with regs := { regs0 with ax := 0x7FFF }, flags := .ofWord 0x0001 }
      (fun t => [t.regs.ax, t.ip, t.flags.toWord 0]) =
      some [0x8000, 0x0102, 0x0894] := by decide

theorem test_A15_adc_dx_0 :
    seen [0x83, 0xD2, 0x00] { base with regs := { regs0 with dx := 0xFFFF }, flags := .ofWord 0x0001 }
      (fun t => [t.regs.dx, t.ip, t.flags.toWord 0]) =
      some [0x0000, 0x0103, 0x0055] := by decide

theorem test_A17_inc_ax :
    seen [0x40] { base with regs := { regs0 with ax := 0x7FFF }, flags := .ofWord 0x0001 }
      (fun t => [t.regs.ax, t.ip, t.flags.toWord 0]) =
      some [0x8000, 0x0101, 0x0895] := by decide

theorem test_A18_inc_bx :
    seen [0xFE, 0x07]
      { base with
        regs := { regs0 with bx := 0x0010 }
        flags := .ofWord 0x0001
        bus := held [(0x20010, 0xFF)] }
      (fun t => [t.ip, (t.readByte 0x20010).setWidth 16, t.flags.toWord 0]) =
      some [0x0102, 0x0000, 0x0055] := by decide

theorem test_A47_aaa :
    seen [0x37] { base with regs := { regs0 with ax := 0x000B } }
      (fun t => [t.regs.ax, t.ip, bit t.flags.CF, bit t.flags.AF]) =
      some [0x0101, 0x0101, 1, 1] := by decide

theorem test_A51_daa :
    seen [0x27] { base with regs := { regs0 with ax := 0x003C } }
      (fun t => [t.regs.ax, t.ip, bit t.flags.CF, bit t.flags.PF, bit t.flags.AF, bit t.flags.ZF, bit t.flags.SF]) =
      some [0x0042, 0x0101, 0, 1, 1, 0, 0] := by decide

theorem test_A53_daa :
    seen [0x27] { base with regs := { regs0 with ax := 0x0012 }, flags := .ofWord 0x0011 }
      (fun t => [t.regs.ax, t.ip, bit t.flags.CF, bit t.flags.PF, bit t.flags.AF, bit t.flags.ZF, bit t.flags.SF]) =
      some [0x0078, 0x0101, 1, 1, 1, 0, 0] := by decide

theorem test_A21_sub_al_bl :
    seen [0x28, 0xD8] { base with regs := { regs0 with bx := 0x0001 } }
      (fun t => [t.regs.ax, t.ip, t.flags.toWord 0]) =
      some [0x00FF, 0x0102, 0x0095] := by decide

theorem test_A26_sub_ax_1 :
    seen [0x2D, 0x01, 0x00] base
      (fun t => [t.regs.ax, t.ip, t.flags.toWord 0]) =
      some [0xFFFF, 0x0103, 0x0095] := by decide

theorem test_A27_sub_bx_1 :
    seen [0x83, 0xEB, 0x01] { base with regs := { regs0 with bx := 0x0100 } }
      (fun t => [t.regs.bx, t.ip, t.flags.toWord 0]) =
      some [0x00FF, 0x0103, 0x0014] := by decide

theorem test_A29_sbb_al_0 :
    seen [0x1C, 0x00] { base with flags := .ofWord 0x0001 }
      (fun t => [t.regs.ax, t.ip, t.flags.toWord 0]) =
      some [0x00FF, 0x0102, 0x0095] := by decide

theorem test_A31_sbb_ax_bx :
    seen [0x19, 0xD8] { base with regs := { regs0 with ax := 0x8000 }, flags := .ofWord 0x0001 }
      (fun t => [t.regs.ax, t.ip, t.flags.toWord 0]) =
      some [0x7FFF, 0x0102, 0x0814] := by decide

theorem test_A32_sbb_dx_0 :
    seen [0x83, 0xDA, 0x00] { base with flags := .ofWord 0x0001 }
      (fun t => [t.regs.dx, t.ip, t.flags.toWord 0]) =
      some [0xFFFF, 0x0103, 0x0095] := by decide

theorem test_A33_dec_ax :
    seen [0x48] base
      (fun t => [t.regs.ax, t.ip, t.flags.toWord 0]) =
      some [0xFFFF, 0x0101, 0x0094] := by decide

theorem test_A35_dec_bx :
    seen [0xFE, 0x0F] { base with regs := { regs0 with bx := 0x0010 }, bus := held [(0x20010, 0x01)] }
      (fun t => [t.ip, (t.readByte 0x20010).setWidth 16, t.flags.toWord 0]) =
      some [0x0102, 0x0000, 0x0044] := by decide

theorem test_A37_neg_ax :
    seen [0xF7, 0xD8] { base with regs := { regs0 with ax := 0x8000 } }
      (fun t => [t.ip, t.flags.toWord 0]) =
      some [0x0102, 0x0885] := by decide

theorem test_A39_neg_bx :
    seen [0xF6, 0x1F] { base with regs := { regs0 with bx := 0x0010 }, bus := held [(0x20010, 0x80)] }
      (fun t => [t.ip, (t.readByte 0x20010).setWidth 16, t.flags.toWord 0]) =
      some [0x0102, 0x0080, 0x0881] := by decide

theorem test_A41_cmp_ax_bx :
    seen [0x3B, 0xC3] { base with regs := { regs0 with ax := 0x0001, bx := 0x0002 } }
      (fun t => [t.ip, t.flags.toWord 0]) =
      some [0x0102, 0x0095] := by decide

theorem test_A42_cmp_bx_ax :
    seen [0x3B, 0xD8] { base with regs := { regs0 with ax := 0x0001, bx := 0x0002 } }
      (fun t => [t.ip, t.flags.toWord 0]) =
      some [0x0102, 0x0000] := by decide

theorem test_A40_cmp_ax_bx :
    seen [0x39, 0xD8] { base with regs := { regs0 with ax := 0x0001, bx := 0x0002 } }
      (fun t => [t.ip, t.flags.toWord 0]) =
      some [0x0102, 0x0095] := by decide

theorem test_A45_cmp_1000h_1234h :
    seen [0x81, 0x3E, 0x00, 0x10, 0x34, 0x12] { base with bus := held [(0x21000, 0x34), (0x21001, 0x12)] }
      (fun t => [t.ip, t.flags.toWord 0]) =
      some [0x0106, 0x0044] := by decide

theorem test_A43_cmp_al_0dh :
    seen [0x3C, 0x0D] { base with regs := { regs0 with ax := 0x000D } }
      (fun t => [t.ip, t.flags.toWord 0]) =
      some [0x0102, 0x0044] := by decide

theorem test_A55_aas :
    seen [0x3F] { base with regs := { regs0 with ax := 0x01FF }, flags := .ofWord 0x0010 }
      (fun t => [t.regs.ax, t.ip, bit t.flags.CF, bit t.flags.AF]) =
      some [0x0009, 0x0101, 1, 1] := by decide

theorem test_A57_das :
    seen [0x2F] { base with regs := { regs0 with ax := 0x002D }, flags := .ofWord 0x0010 }
      (fun t => [t.regs.ax, t.ip, bit t.flags.CF, bit t.flags.PF, bit t.flags.AF, bit t.flags.ZF, bit t.flags.SF]) =
      some [0x0027, 0x0101, 0, 1, 1, 0, 0] := by decide

theorem test_A60_mul_bl :
    seen [0xF6, 0xE3] { base with regs := { regs0 with ax := 0x00FF, bx := 0x00FF } }
      (fun t => [t.regs.ax, t.ip, bit t.flags.CF, bit t.flags.OF]) =
      some [0xFE01, 0x0102, 1, 1] := by decide

theorem test_A63_mul_bx :
    seen [0xF7, 0xE3] { base with regs := { regs0 with ax := 0xFFFF, bx := 0xFFFF } }
      (fun t => [t.regs.ax, t.regs.dx, t.ip, bit t.flags.CF, bit t.flags.OF]) =
      some [0x0001, 0xFFFE, 0x0102, 1, 1] := by decide

theorem test_A66_imul_bl :
    seen [0xF6, 0xEB] { base with regs := { regs0 with ax := 0x0080, bx := 0x00FF } }
      (fun t => [t.ip, bit t.flags.CF, bit t.flags.OF]) =
      some [0x0102, 1, 1] := by decide

theorem test_A70_imul_bx :
    seen [0xF7, 0xEB] { base with regs := { regs0 with ax := 0xFFFF, bx := 0x7FFF } }
      (fun t => [t.regs.ax, t.regs.dx, t.ip, bit t.flags.CF, bit t.flags.OF]) =
      some [0x8001, 0xFFFF, 0x0102, 0, 0] := by decide

theorem test_A72_aam :
    seen [0xD4, 0x0A] { base with regs := { regs0 with ax := 0xFFFF } }
      (fun t => [t.regs.ax, t.ip, bit t.flags.PF, bit t.flags.ZF, bit t.flags.SF]) =
      some [0x1905, 0x0102, 1, 0, 0] := by decide

theorem test_A75_aad :
    seen [0xD5, 0x0A] { base with regs := { regs0 with ax := 0xFFFF } }
      (fun t => [t.regs.ax, t.ip, bit t.flags.PF, bit t.flags.ZF, bit t.flags.SF]) =
      some [0x00F5, 0x0102, 1, 0, 1] := by decide

theorem test_A77_cbw :
    seen [0x98] { base with regs := { regs0 with ax := 0xFF7F } }
      (fun t => [t.regs.ax, t.ip, t.flags.toWord 0]) =
      some [0x007F, 0x0101, 0x0000] := by decide

theorem test_A79_cwd :
    seen [0x99] { base with regs := { regs0 with ax := 0x7FFF, dx := 0x1234 } }
      (fun t => [t.regs.dx, t.ip, t.flags.toWord 0]) =
      some [0x0000, 0x0101, 0x0000] := by decide

theorem test_A81_div_bl :
    seen [0xF6, 0xF3] { base with regs := { regs0 with ax := 0x0007, bx := 0x0002 } }
      (fun t => [t.regs.ax, t.ip]) =
      some [0x0103, 0x0102] := by decide

theorem test_A87_div_bx :
    seen [0xF7, 0x37]
      { base with
        regs := { regs0 with ax := 0xFFFF, bx := 0x0010 }
        bus := held [(0x20010, 0x10)] }
      (fun t => [t.regs.ax, t.regs.dx, t.ip]) =
      some [0x0FFF, 0x000F, 0x0102] := by decide

theorem test_A89_idiv_bl :
    seen [0xF6, 0xFB] { base with regs := { regs0 with ax := 0x0007, bx := 0x00FE } }
      (fun t => [t.regs.ax, t.ip]) =
      some [0x01FD, 0x0102] := by decide

theorem test_A96_idiv_bx :
    seen [0xF7, 0xFB] { base with regs := { regs0 with ax := 0xFFF9, dx := 0xFFFF, bx := 0x0002 } }
      (fun t => [t.regs.ax, t.ip]) =
      some [0xFFFD, 0x0102] := by decide

theorem test_L1_and_al_0fh :
    seen [0x24, 0x0F] { base with regs := { regs0 with ax := 0x00F5 }, flags := .ofWord 0x0801 }
      (fun t => [t.regs.ax, t.ip, bit t.flags.CF, bit t.flags.PF, bit t.flags.ZF, bit t.flags.SF, bit t.flags.OF]) =
      some [0x0005, 0x0102, 0, 1, 0, 0, 0] := by decide

theorem test_L2_and_ax_bx :
    seen [0x21, 0xD8] { base with regs := { regs0 with ax := 0xFF00, bx := 0x0FF0 } }
      (fun t => [t.regs.ax, t.ip, bit t.flags.CF, bit t.flags.PF, bit t.flags.ZF, bit t.flags.SF, bit t.flags.OF]) =
      some [0x0F00, 0x0102, 0, 1, 0, 0, 0] := by decide

theorem test_L4_and_bx_00ffh :
    seen [0x81, 0xE3, 0xFF, 0x00] { base with regs := { regs0 with bx := 0x8234 } }
      (fun t => [t.regs.bx, t.ip, bit t.flags.CF, bit t.flags.PF, bit t.flags.ZF, bit t.flags.SF, bit t.flags.OF]) =
      some [0x0034, 0x0104, 0, 0, 0, 0, 0] := by decide

theorem test_L6_or_al_80h :
    seen [0x0C, 0x80] { base with regs := { regs0 with ax := 0x0001 } }
      (fun t => [t.regs.ax, t.ip, bit t.flags.CF, bit t.flags.PF, bit t.flags.ZF, bit t.flags.SF, bit t.flags.OF]) =
      some [0x0081, 0x0102, 0, 1, 0, 1, 0] := by decide

theorem test_L7_or_ax_ax :
    seen [0x09, 0xC0] { base with flags := .ofWord 0x0001 }
      (fun t => [t.ip, bit t.flags.CF, bit t.flags.PF, bit t.flags.ZF, bit t.flags.SF, bit t.flags.OF]) =
      some [0x0102, 0, 1, 1, 0, 0] := by decide

theorem test_L8_or_bl_1 :
    seen [0x80, 0xCB, 0x01] { base with regs := { regs0 with bx := 0x0002 } }
      (fun t => [t.regs.bx, t.ip, bit t.flags.CF, bit t.flags.PF, bit t.flags.ZF, bit t.flags.SF, bit t.flags.OF]) =
      some [0x0003, 0x0103, 0, 1, 0, 0, 0] := by decide

theorem test_L10_xor_ax_ax :
    seen [0x31, 0xC0] { base with regs := { regs0 with ax := 0x1234 }, flags := .ofWord 0x0881 }
      (fun t => [t.regs.ax, t.ip, bit t.flags.CF, bit t.flags.PF, bit t.flags.ZF, bit t.flags.SF, bit t.flags.OF]) =
      some [0x0000, 0x0102, 0, 1, 1, 0, 0] := by decide

theorem test_L11_xor_al_0ffh :
    seen [0x34, 0xFF] { base with regs := { regs0 with ax := 0x000F } }
      (fun t => [t.regs.ax, t.ip, bit t.flags.CF, bit t.flags.PF, bit t.flags.ZF, bit t.flags.SF, bit t.flags.OF]) =
      some [0x00F0, 0x0102, 0, 1, 0, 1, 0] := by decide

theorem test_L13_test_al_80h :
    seen [0xA8, 0x80] { base with regs := { regs0 with ax := 0x0080 } }
      (fun t => [t.ip, bit t.flags.CF, bit t.flags.PF, bit t.flags.ZF, bit t.flags.SF, bit t.flags.OF]) =
      some [0x0102, 0, 0, 0, 1, 0] := by decide

theorem test_L14_test_ax_bx :
    seen [0x85, 0xD8] { base with regs := { regs0 with ax := 0x00F0, bx := 0x000F } }
      (fun t => [t.ip, bit t.flags.CF, bit t.flags.PF, bit t.flags.ZF, bit t.flags.SF, bit t.flags.OF]) =
      some [0x0102, 0, 1, 1, 0, 0] := by decide

theorem test_L16_test_1000h_1 :
    seen [0xF7, 0x06, 0x00, 0x10, 0x01, 0x00] { base with bus := held [(0x21000, 0x01), (0x21001, 0x80)] }
      (fun t => [t.ip, bit t.flags.CF, bit t.flags.PF, bit t.flags.ZF, bit t.flags.SF, bit t.flags.OF]) =
      some [0x0106, 0, 0, 0, 0, 0] := by decide

theorem test_L18_not_ax :
    seen [0xF7, 0xD0] { base with regs := { regs0 with ax := 0x00FF }, flags := .ofWord 0x0041 }
      (fun t => [t.regs.ax, t.ip, t.flags.toWord 0]) =
      some [0xFF00, 0x0102, 0x0041] := by decide

theorem test_L20_shl_al_1 :
    seen [0xD0, 0xE0] { base with regs := { regs0 with ax := 0x0081 } }
      (fun t => [t.regs.ax, t.ip, bit t.flags.CF, bit t.flags.PF, bit t.flags.ZF, bit t.flags.SF, bit t.flags.OF]) =
      some [0x0002, 0x0102, 1, 0, 0, 0, 1] := by decide

theorem test_L26_shl_ax_cl :
    seen [0xD3, 0xE0] { base with regs := { regs0 with ax := 0xFFFF, cx := 0x0020 } }
      (fun t => [t.regs.ax, t.ip, bit t.flags.CF, bit t.flags.PF, bit t.flags.ZF, bit t.flags.SF]) =
      some [0x0000, 0x0102, 0, 1, 1, 0] := by decide

theorem test_L30_shr_al_1 :
    seen [0xD0, 0xE8] { base with regs := { regs0 with ax := 0x0081 } }
      (fun t => [t.regs.ax, t.ip, bit t.flags.CF, bit t.flags.PF, bit t.flags.ZF, bit t.flags.SF, bit t.flags.OF]) =
      some [0x0040, 0x0102, 1, 0, 0, 0, 1] := by decide

theorem test_L34_shr_ax_cl :
    seen [0xD3, 0xE8] { base with regs := { regs0 with ax := 0xFFFF, cx := 0x0011 } }
      (fun t => [t.regs.ax, t.ip, bit t.flags.CF, bit t.flags.PF, bit t.flags.ZF, bit t.flags.SF]) =
      some [0x0000, 0x0102, 0, 1, 1, 0] := by decide

theorem test_L36_sar_al_1 :
    seen [0xD0, 0xF8] { base with regs := { regs0 with ax := 0x0081 } }
      (fun t => [t.regs.ax, t.ip, bit t.flags.CF, bit t.flags.PF, bit t.flags.ZF, bit t.flags.SF, bit t.flags.OF]) =
      some [0x00C0, 0x0102, 1, 1, 0, 1, 0] := by decide

theorem test_L39_sar_al_cl :
    seen [0xD2, 0xF8] { base with regs := { regs0 with ax := 0x007F, cx := 0x0008 } }
      (fun t => [t.regs.ax, t.ip, bit t.flags.CF, bit t.flags.PF, bit t.flags.ZF, bit t.flags.SF]) =
      some [0x0000, 0x0102, 0, 1, 1, 0] := by decide

theorem test_L43_rol_al_1 :
    seen [0xD0, 0xC0] { base with regs := { regs0 with ax := 0x0081 }, flags := .ofWord 0x0040 }
      (fun t => [t.regs.ax, t.ip, t.flags.toWord 0]) =
      some [0x0003, 0x0102, 0x0841] := by decide

theorem test_L47_rol_ax_cl :
    seen [0xD3, 0xC0] { base with regs := { regs0 with ax := 0x8001, cx := 0x0011 } }
      (fun t => [t.regs.ax, t.ip, bit t.flags.CF, bit t.flags.PF, bit t.flags.AF, bit t.flags.ZF, bit t.flags.SF]) =
      some [0x0003, 0x0102, 1, 0, 0, 0, 0] := by decide

theorem test_L48_ror_al_1 :
    seen [0xD0, 0xC8] { base with regs := { regs0 with ax := 0x0001 } }
      (fun t => [t.regs.ax, t.ip, t.flags.toWord 0]) =
      some [0x0080, 0x0102, 0x0801] := by decide

theorem test_L50_ror_al_cl :
    seen [0xD2, 0xC8] { base with regs := { regs0 with ax := 0x0012, cx := 0x0004 } }
      (fun t => [t.regs.ax, t.ip, bit t.flags.CF, bit t.flags.PF, bit t.flags.AF, bit t.flags.ZF, bit t.flags.SF]) =
      some [0x0021, 0x0102, 0, 0, 0, 0, 0] := by decide

theorem test_L54_rcl_al_cl :
    seen [0xD2, 0xD0] { base with regs := { regs0 with ax := 0x0012, cx := 0x0009 }, flags := .ofWord 0x0001 }
      (fun t => [t.ip, bit t.flags.CF, bit t.flags.PF, bit t.flags.AF, bit t.flags.ZF, bit t.flags.SF]) =
      some [0x0102, 1, 0, 0, 0, 0] := by decide

theorem test_L56_rcl_ax_cl :
    seen [0xD3, 0xD0] { base with regs := { regs0 with ax := 0x0001, cx := 0x0004 }, flags := .ofWord 0x0001 }
      (fun t => [t.regs.ax, t.ip, bit t.flags.CF, bit t.flags.PF, bit t.flags.AF, bit t.flags.ZF, bit t.flags.SF]) =
      some [0x0018, 0x0102, 0, 0, 0, 0, 0] := by decide

theorem test_L58_rcr_al_1 :
    seen [0xD0, 0xD8] { base with flags := .ofWord 0x0001 }
      (fun t => [t.regs.ax, t.ip, t.flags.toWord 0]) =
      some [0x0080, 0x0102, 0x0800] := by decide

theorem test_L60_rcr_ax_cl :
    seen [0xD3, 0xD8] { base with regs := { regs0 with ax := 0x0001, cx := 0x0002 }, flags := .ofWord 0x0001 }
      (fun t => [t.regs.ax, t.ip, bit t.flags.CF, bit t.flags.PF, bit t.flags.AF, bit t.flags.ZF, bit t.flags.SF]) =
      some [0xC000, 0x0102, 0, 0, 0, 0, 0] := by decide

theorem test_S2_movsw :
    seen [0xA5]
      { base with
        regs := { regs0 with si := 0x0010, di := 0x0020 }
        flags := .ofWord 0x0400
        bus := held [(0x20010, 0x34), (0x20011, 0x12)] }
      (fun t => [t.regs.si, t.regs.di, t.ip, t.readPhysWord 0x40020, t.flags.toWord 0]) =
      some [0x000E, 0x001E, 0x0101, 0x1234, 0x0400] := by decide

theorem test_S3_movsw :
    seen [0xA5]
      { base with
        regs := { regs0 with si := 0xFFFF, di := 0xFFFE }
        bus := held [(0x20000, 0x12), (0x2FFFF, 0x34)] }
      (fun t => [t.regs.si, t.regs.di, t.ip, t.readPhysWord 0x4FFFE, t.flags.toWord 0]) =
      some [0x0001, 0x0000, 0x0101, 0x1234, 0x0000] := by decide

theorem test_S10_cmpsb :
    seen [0xA6]
      { base with
        regs := { regs0 with si := 0x0010, di := 0x0020 }
        bus := held [(0x20010, 0x05), (0x40020, 0x07)] }
      (fun t => [t.regs.si, t.regs.di, t.ip, t.flags.toWord 0]) =
      some [0x0011, 0x0021, 0x0101, 0x0091] := by decide

theorem test_S11_cmpsw :
    seen [0xA7]
      { base with
        regs := { regs0 with si := 0x0010, di := 0x0020 }
        bus := held [(0x20011, 0x80), (0x40020, 0x01)] }
      (fun t => [t.regs.si, t.regs.di, t.ip, t.flags.toWord 0]) =
      some [0x0012, 0x0022, 0x0101, 0x0814] := by decide

theorem test_S16_scasb :
    seen [0xAE] { base with regs := { regs0 with ax := 0x0041, di := 0x0100 }, bus := held [(0x40100, 0x41)] }
      (fun t => [t.regs.di, t.ip, t.flags.toWord 0]) =
      some [0x0101, 0x0101, 0x0044] := by decide

theorem test_S20_lodsb :
    seen [0xAC] { base with regs := { regs0 with ax := 0xFF00, si := 0x0010 }, bus := held [(0x20010, 0x7E)] }
      (fun t => [t.regs.ax, t.regs.si, t.ip, t.flags.toWord 0]) =
      some [0xFF7E, 0x0011, 0x0101, 0x0000] := by decide

theorem test_S21_lodsw :
    seen [0xAD]
      { base with
        regs := { regs0 with si := 0x0010 }
        flags := .ofWord 0x0400
        bus := held [(0x20010, 0x34), (0x20011, 0x12)] }
      (fun t => [t.regs.ax, t.regs.si, t.ip, t.flags.toWord 0]) =
      some [0x1234, 0x000E, 0x0101, 0x0400] := by decide

theorem test_S24_stosb :
    seen [0xAA] { base with regs := { regs0 with ax := 0x00CC, di := 0x0020 } }
      (fun t => [t.regs.di, t.ip, (t.readByte 0x40020).setWidth 16, t.flags.toWord 0]) =
      some [0x0021, 0x0101, 0x00CC, 0x0000] := by decide

theorem test_S25_stosw :
    seen [0xAB] { base with regs := { regs0 with ax := 0x1234, di := 0x0020 }, flags := .ofWord 0x0400 }
      (fun t => [t.regs.di, t.ip, t.readPhysWord 0x40020, t.flags.toWord 0]) =
      some [0x001E, 0x0101, 0x1234, 0x0400] := by decide

theorem test_J1_call_0200h :
    seen [0xE8, 0xFD, 0x00] base
      (fun t => [t.regs.sp, t.ip, t.readPhysWord 0x300FE, t.flags.toWord 0]) =
      some [0x00FE, 0x0200, 0x0103, 0x0000] := by decide

theorem test_J4_call_bx :
    seen [0xFF, 0x17] { base with regs := { regs0 with bx := 0x0010 }, bus := held [(0x20011, 0x05)] }
      (fun t => [t.regs.sp, t.ip, t.readPhysWord 0x300FE, t.flags.toWord 0]) =
      some [0x00FE, 0x0500, 0x0102, 0x0000] := by decide

theorem test_J5_call_2000h_0100h :
    seen [0x9A, 0x00, 0x01, 0x00, 0x20] base
      (fun t => [t.regs.sp, t.segs.cs, t.ip, t.readPhysWord 0x300FC, t.readPhysWord 0x300FE, t.flags.toWord 0]) =
      some [0x00FC, 0x2000, 0x0100, 0x0105, 0x1000, 0x0000] := by decide

theorem test_J6_call_bx :
    seen [0xFF, 0x1F]
      { base with
        regs := { regs0 with bx := 0x0010 }
        bus := held [(0x20011, 0x01), (0x20013, 0x50)] }
      (fun t => [t.regs.sp, t.segs.cs, t.ip, t.readPhysWord 0x300FC, t.readPhysWord 0x300FE, t.flags.toWord 0]) =
      some [0x00FC, 0x5000, 0x0100, 0x0102, 0x1000, 0x0000] := by decide

theorem test_J9_jmp_disp16_wraps :
    seen [0xE9, 0x00, 0xFF] { base with ip := 0xFFF0 }
      (fun t => [t.ip, t.flags.toWord 0]) =
      some [0xFEF3, 0x0000] := by decide

theorem test_J12_jmp_short_128 :
    seen [0xEB, 0x80] base
      (fun t => [t.ip, t.flags.toWord 0]) =
      some [0x0082, 0x0000] := by decide

theorem test_J14_jmp_bx :
    seen [0xFF, 0x27]
      { base with
        regs := { regs0 with bx := 0x0010 }
        bus := held [(0x20010, 0x78), (0x20011, 0x56)] }
      (fun t => [t.ip, t.flags.toWord 0]) =
      some [0x5678, 0x0000] := by decide

theorem test_J15_jmp_2000h_0100h :
    seen [0xEA, 0x00, 0x01, 0x00, 0x20] base
      (fun t => [t.segs.cs, t.ip, t.flags.toWord 0]) =
      some [0x2000, 0x0100, 0x0000] := by decide

theorem test_J16_jmp_bx :
    seen [0xFF, 0x2F]
      { base with
        regs := { regs0 with bx := 0x0010 }
        bus := held [(0x20011, 0x01), (0x20013, 0x50)] }
      (fun t => [t.segs.cs, t.ip, t.flags.toWord 0]) =
      some [0x5000, 0x0100, 0x0000] := by decide

theorem test_J17_ret :
    seen [0xC3] { base with bus := held [(0x30100, 0x34), (0x30101, 0x12)] }
      (fun t => [t.regs.sp, t.ip, t.flags.toWord 0]) =
      some [0x0102, 0x1234, 0x0000] := by decide

theorem test_J18_ret_4 :
    seen [0xC2, 0x04, 0x00] { base with bus := held [(0x30100, 0x34), (0x30101, 0x12)] }
      (fun t => [t.regs.sp, t.ip, t.flags.toWord 0]) =
      some [0x0106, 0x1234, 0x0000] := by decide

theorem test_J19_retf :
    seen [0xCB] { base with bus := held [(0x30100, 0x34), (0x30101, 0x12), (0x30103, 0x50)] }
      (fun t => [t.regs.sp, t.segs.cs, t.ip, t.flags.toWord 0]) =
      some [0x0104, 0x5000, 0x1234, 0x0000] := by decide

theorem test_J20_retf_2 :
    seen [0xCA, 0x02, 0x00] { base with bus := held [(0x30100, 0x34), (0x30101, 0x12), (0x30103, 0x50)] }
      (fun t => [t.regs.sp, t.segs.cs, t.ip, t.flags.toWord 0]) =
      some [0x0106, 0x5000, 0x1234, 0x0000] := by decide

theorem test_J25_loop_0100h :
    seen [0xE2, 0xFE] base
      (fun t => [t.regs.cx, t.ip, t.flags.toWord 0]) =
      some [0xFFFF, 0x0100, 0x0000] := by decide

theorem test_J28_loopz_0110h :
    seen [0xE1, 0x0E] { base with regs := { regs0 with cx := 0x0001 }, flags := .ofWord 0x0040 }
      (fun t => [t.regs.cx, t.ip, t.flags.toWord 0]) =
      some [0x0000, 0x0102, 0x0040] := by decide

theorem test_J29_loopnz_0110h :
    seen [0xE0, 0x0E] { base with regs := { regs0 with cx := 0x0002 } }
      (fun t => [t.regs.cx, t.ip, t.flags.toWord 0]) =
      some [0x0001, 0x0110, 0x0000] := by decide

theorem test_J31_jcxz_0110h :
    seen [0xE3, 0x0E] base
      (fun t => [t.ip, t.flags.toWord 0]) =
      some [0x0110, 0x0000] := by decide

theorem test_J33_int_21h :
    seen [0xCD, 0x21]
      { base with
        flags := .ofWord 0x0201
        bus := held [(0x0000D, 0x03), (0x0000F, 0xE0), (0x00011, 0x04), (0x00013, 0xE0), (0x00085, 0x02), (0x00087,
          0xE0)] }
      (fun t => [t.regs.sp, t.segs.cs, t.ip, t.readPhysWord 0x300FA, t.readPhysWord 0x300FC,
        t.readPhysWord 0x300FE, t.flags.toWord 0]) =
      some [0x00FA, 0xE000, 0x0200, 0x0102, 0x1000, 0xF203, 0x0001] := by decide

theorem test_J34_int_3 :
    seen [0xCC]
      { base with
        flags := .ofWord 0x0200
        bus := held [(0x0000D, 0x03), (0x0000F, 0xE0), (0x00011, 0x04), (0x00013, 0xE0), (0x00085, 0x02), (0x00087,
          0xE0)] }
      (fun t => [t.regs.sp, t.segs.cs, t.ip, t.readPhysWord 0x300FA, t.readPhysWord 0x300FC,
        t.readPhysWord 0x300FE, t.flags.toWord 0]) =
      some [0x00FA, 0xE000, 0x0300, 0x0101, 0x1000, 0xF202, 0x0000] := by decide

theorem test_J35_into :
    seen [0xCE]
      { base with
        flags := .ofWord 0x0A00
        bus := held [(0x0000D, 0x03), (0x0000F, 0xE0), (0x00011, 0x04), (0x00013, 0xE0), (0x00085, 0x02), (0x00087,
          0xE0)] }
      (fun t => [t.regs.sp, t.segs.cs, t.ip, t.readPhysWord 0x300FA, t.readPhysWord 0x300FC,
        t.readPhysWord 0x300FE, t.flags.toWord 0]) =
      some [0x00FA, 0xE000, 0x0400, 0x0101, 0x1000, 0xFA02, 0x0800] := by decide

theorem test_J36_into :
    seen [0xCE]
      { base with
        flags := .ofWord 0x0200
        bus := held [(0x0000D, 0x03), (0x0000F, 0xE0), (0x00011, 0x04), (0x00013, 0xE0), (0x00085, 0x02), (0x00087,
          0xE0)] }
      (fun t => [t.ip, t.flags.toWord 0]) =
      some [0x0101, 0x0200] := by decide

theorem test_J38_iret :
    seen [0xCF]
      { base with
        regs := { regs0 with sp := 0x00FA }
        bus := held [(0x300FA, 0x02), (0x300FB, 0x01), (0x300FD, 0x10), (0x300FE, 0x03), (0x300FF, 0xF2)] }
      (fun t => [t.regs.sp, t.ip, t.flags.toWord 0]) =
      some [0x0100, 0x0102, 0x0201] := by decide

theorem test_J39_iret :
    seen [0xCF]
      { base with
        regs := { regs0 with sp := 0x00FA }
        flags := .ofWord 0x0600
        bus := held [(0x300FA, 0x02), (0x300FB, 0x01), (0x300FD, 0x10)] }
      (fun t => [t.regs.sp, t.ip, t.flags.toWord 0]) =
      some [0x0100, 0x0102, 0x0000] := by decide

theorem test_P1_clc :
    seen [0xF8] { base with flags := .ofWord 0x0001 }
      (fun t => [t.ip, t.flags.toWord 0]) =
      some [0x0101, 0x0000] := by decide

theorem test_P2_stc :
    seen [0xF9] base
      (fun t => [t.ip, t.flags.toWord 0]) =
      some [0x0101, 0x0001] := by decide

theorem test_P3_cmc :
    seen [0xF5] { base with flags := .ofWord 0x0001 }
      (fun t => [t.ip, t.flags.toWord 0]) =
      some [0x0101, 0x0000] := by decide

theorem test_P5_cld :
    seen [0xFC] { base with flags := .ofWord 0x0400 }
      (fun t => [t.ip, t.flags.toWord 0]) =
      some [0x0101, 0x0000] := by decide

theorem test_P6_std :
    seen [0xFD] base
      (fun t => [t.ip, t.flags.toWord 0]) =
      some [0x0101, 0x0400] := by decide

theorem test_P7_cli :
    seen [0xFA] { base with flags := .ofWord 0x0200 }
      (fun t => [t.ip, t.flags.toWord 0]) =
      some [0x0101, 0x0000] := by decide

theorem test_P11_esc_0_1000h :
    seen [0xD8, 0x06, 0x00, 0x10] base
      (fun t => [t.ip, t.flags.toWord 0]) =
      some [0x0104, 0x0000] := by decide

theorem test_I1_nop :
    seen [0x90]
      { base with
        flags := .ofWord 0x0200
        bus := { held [(0x00101, 0x06), (0x00103, 0xE0)] with pins := { Pins.idle with intr := some 0x40 } } }
      (fun t => [t.regs.sp, t.segs.cs, t.ip, t.readPhysWord 0x300FA, t.readPhysWord 0x300FC,
        t.readPhysWord 0x300FE, bit t.flags.TF, bit t.flags.IF]) =
      some [0x00FA, 0xE000, 0x0600, 0x0101, 0x1000, 0xF202, 0, 0] := by decide

theorem test_I3_nop :
    seen [0x90] { base with bus := { held [(0x00009, 0x07), (0x0000B, 0xE0)] with nmiLatch := true } }
      (fun t => [t.regs.sp, t.segs.cs, t.ip, t.readPhysWord 0x300FA, t.readPhysWord 0x300FC,
        t.readPhysWord 0x300FE, bit t.flags.TF, bit t.flags.IF]) =
      some [0x00FA, 0xE000, 0x0700, 0x0101, 0x1000, 0xF002, 0, 0] := by decide

theorem test_I5_nop :
    seen [0x90] { base with flags := .ofWord 0x0100, bus := held [(0x00005, 0x08), (0x00007, 0xE0)] }
      (fun t => [t.regs.sp, t.segs.cs, t.ip, t.readPhysWord 0x300FA, t.readPhysWord 0x300FC,
        t.readPhysWord 0x300FE, bit t.flags.TF, bit t.flags.IF]) =
      some [0x00FA, 0xE000, 0x0800, 0x0101, 0x1000, 0xF102, 0, 0] := by decide

theorem test_I7_int_21h :
    seen [0xCD, 0x21]
      { base with
        flags := .ofWord 0x0300
        bus := held [(0x00005, 0x08), (0x00007, 0xE0), (0x00085, 0x02), (0x00087, 0xE0)] }
      (fun t => [t.regs.sp, t.segs.cs, t.ip, t.readPhysWord 0x300F4, t.readPhysWord 0x300F6,
        t.readPhysWord 0x300F8, t.readPhysWord 0x300FA, t.readPhysWord 0x300FC, t.readPhysWord 0x300FE,
          bit t.flags.TF, bit t.flags.IF]) =
      some [0x00F4, 0xE000, 0x0800, 0x0200, 0xE000, 0xF002, 0x0102, 0x1000, 0xF302, 0, 0] := by decide

theorem test_I30_wait :
    seen [0x9B]
      { base with
        flags := .ofWord 0x0200
        bus := { base.bus with pins := { Pins.idle with testHigh := true } } }
      (fun t => [t.ip, bit t.flags.TF, bit t.flags.IF]) =
      some [0x0100, 0, 1] := by decide

theorem test_I31_wait :
    seen [0x9B]
      { base with
        flags := .ofWord 0x0200
        bus := { held [(0x00101, 0x06), (0x00103, 0xE0)] with pins := ⟨false, false, true, some 0x40⟩ } }
      (fun t => [t.regs.sp, t.segs.cs, t.ip, t.readPhysWord 0x300FA, t.readPhysWord 0x300FC,
        t.readPhysWord 0x300FE, bit t.flags.TF, bit t.flags.IF]) =
      some [0x00FA, 0xE000, 0x0600, 0x0100, 0x1000, 0xF202, 0, 0] := by decide

/-! ## More single steps -/

/-- Where a jump goes from the base state, by the flags image. -/
def goes (i : Instr) (f : Word) (cx : Word := 0) : Option Word :=
  match exec i { base with flags := .ofWord f, ip := 0x0102, regs := { regs0 with cx := cx } } with
  | .next t => some t.ip
  | .fault _ => none
  | .refused _ => none

/-- The table of conditional jumps of 95_test_vectors.md, section 7: taken. -/
theorem test_conditions_taken :
    ([(.jo 0x10, 0x0800), (.jno 0x10, 0), (.jb 0x10, 0x0001), (.jnb 0x10, 0), (.je 0x10, 0x0040), (.jne 0x10, 0),
      (.jbe 0x10, 0x0040), (.jnbe 0x10, 0), (.js 0x10, 0x0080), (.jns 0x10, 0), (.jp 0x10, 0x0004), (.jnp 0x10, 0),
      (.jl 0x10, 0x0080), (.jnl 0x10, 0x0880), (.jle 0x10, 0x0800), (.jnle 0x10, 0x0880)] : List (Instr × Word)).all
      (fun x => goes x.1 x.2 == some 0x0112) = true := by decide

/-- The same table: not taken. -/
theorem test_conditions_not_taken :
    ([(.jo 0x10, 0), (.jno 0x10, 0x0800), (.jb 0x10, 0), (.jnb 0x10, 0x0001), (.je 0x10, 0), (.jne 0x10, 0x0040),
      (.jbe 0x10, 0), (.jnbe 0x10, 0x0001), (.js 0x10, 0), (.jns 0x10, 0x0080), (.jp 0x10, 0), (.jnp 0x10, 0x0004),
      (.jl 0x10, 0x0880), (.jnl 0x10, 0x0800), (.jle 0x10, 0x0880), (.jnle 0x10, 0x08C0)] : List (Instr × Word)).all
      (fun x => goes x.1 x.2 == some 0x0102) = true := by decide

/-- T39 with devices at 60H and 61H: the port decides which answers, and a word takes its high byte from the next
port. -/
theorem test_T39_in :
    let s : State := { base with bus := { base.bus with answers := [(.port 0x61, 0xA5), (.port 0x60, 0x5A)] } }
    seen [0xE4, 0x60] s (fun t => [t.regs.ax, BitVec.ofNat 16 t.bus.answers.length]) = some [0x005A, 1] ∧
    seen [0xE4, 0x61] s (fun t => [t.regs.ax]) = some [0x00A5] ∧
    seen [0xED] { s with regs := { regs0 with dx := 0x0060 } } (fun t => [t.regs.ax]) = some [0xA55A] := by decide

/-- The record of the bus after an instruction. -/
def cycles (i : Instr) (s : State) : Option (List BusCycle) :=
  match exec i s with
  | .next t => some t.bus.log
  | .fault _ => none
  | .refused _ => none

/-- T40, T41, T42: one cycle, or two byte cycles for a word at an odd port, and no segment. -/
theorem test_T42_out :
    cycles (.outFixed .byte 0x61) { base with regs := { regs0 with ax := 0x00A5 } } =
      some [.write none (.port 0x0061) (.byte 0xA5)] ∧
    cycles (.outVariable .word) { base with regs := { regs0 with ax := 0x1234, dx := 0x03F8 } } =
      some [.write none (.port 0x03F8) (.word 0x1234)] ∧
    cycles (.outVariable .word) { base with regs := { regs0 with ax := 0x1234, dx := 0x0301 } } =
      some [.write none (.port 0x0302) (.byte 0x12), .write none (.port 0x0301) (.byte 0x34)] := by decide

/-- R68, R79: the cycles of a read and a write of a word, at an even and at an odd address, with their segments. -/
theorem test_cycles :
    cycles (.popRm (.mem (.direct 0x0011))) { base with bus := held [(0x30100, 0x78), (0x30101, 0x56)] } =
      some [.write (some .ds) (.mem 0x20012) (.byte 0x56), .write (some .ds) (.mem 0x20011) (.byte 0x78),
        .read (some .ss) (.mem 0x30100) (.word 0x5678)] := by decide

/-- S12, its third turn, and S6: one turn of the repeat loop, and none with CX = 0. -/
theorem test_rep_turn :
    (match exec (.cmps .byte)
        { base with
          rep := some true
          regs := { regs0 with cx := 3 }
          bus := held [(0x20000, 3), (0x40000, 9)] } with
      | .next t => some (t.regs, t.flags, t.run)
      | _ => none) = some ({ regs0 with cx := 2, si := 1, di := 1 }, .ofWord 0x0095, .running) ∧
    exec (.movs .byte) { base with rep := some true } = .next { base with rep := some true } := ⟨by decide, rfl⟩

/-- I22, the turn that the NMI interrupts: the saved IP is that of the repeat prefix. -/
theorem test_I22_rep_interrupted :
    (State.finish
      { base with
        ip := 0x0102
        rep := some true
        run := .repeating .movs .byte
        bus := { base.bus with nmiLatch := true } }).readPhysWord 0x300FA = 0x0100 := by decide

/-- P13 to P16: a prefix byte is a step of its own, and the next instruction sees it. -/
theorem test_prefixes :
    seen [0x26, 0x8A, 0x07] base (fun t => [t.ip, bit t.prefixPending]) = some [0x0101, 1] ∧
    seen [0x8A, 0x07] { base with segOverride := some .es, regs := { regs0 with bx := 0x0010 }, bus := held [(0x40010, 0x77)] }
      (fun t => [t.regs.ax, bit t.prefixPending]) = some [0x0077, 0] := by decide

theorem test_esc_wait : seen [0xDF, 0xF8] base (fun t => [t.ip]) = some [0x0102] ∧
    seen [0x9B] base (fun t => [t.ip]) = some [0x0101] ∧ seen [0xF4] base (fun t => [bit t.run.idle]) = some [1] := by
  decide

/-! ## The outside world -/

/-- A sample with nothing in it. -/
def idle : Sample := ⟨Pins.idle, Requests.none, none⟩

/-- A sample before a fetch of one byte ahead of execution. -/
def ahead : Sample := { idle with fetch := some .byte }

/-- A sample with RESET HIGH. -/
def resetHigh : Sample := { idle with pins := { Pins.idle with reset := true } }

/-- A sample in which another master asks for one store through RQ/GT0. -/
def asks (a : Addr) (v : Byte) : Sample := { idle with requests := ⟨[.write (.mem a) v], [], []⟩ }

theorem test_reset_dormant :
    step { base with bus := { base.bus with pins := resetHigh.pins } } =
      .next { base with bus := { base.bus with pins := resetHigh.pins }, run := .inReset } := rfl

/-- R451, R456: RESET comes between the two cycles of MOV [0011H],AX, which three fetches came before; only the first
is run. -/
theorem test_reset_during_instruction :
    (match step (State.storeCode [0xA3, 0x11, 0x00] 0
        { base with
          regs := { regs0 with ax := 0x1234 }
          bus := { base.bus with env := [idle, idle, idle, idle, idle, resetHigh] } }) with
      | .next t => (t.bus.log, t.run)
      | _ => ([], .running)) =
    ([.write (some .ds) (.mem 0x20011) (.byte 0x34), .fetch 0x10102 (.byte 0x00), .fetch 0x10101 (.byte 0x11),
      .fetch 0x10100 (.byte 0xA3)], .inReset) := by decide

/-- R72, R73: a NOP is fetched in one cycle; the byte behind it, fetched ahead at the end of the NOP, uses up the answer
of the device there. -/
theorem test_fetch_ahead :
    (match step (State.storeCode [0x90] 0
        { base with
          params := { Params.i8086 with map := [⟨0x10101, 1, .device⟩] }
          bus := { base.bus with env := [idle, idle, ahead], answers := [(.mem 0x10101, 0x77)] } }) with
      | .next t => (t.bus.log, t.bus.queue, t.bus.answers)
      | _ => ([], [], [])) =
    ([.fetch 0x10101 (.byte 0x77), .fetch 0x10100 (.byte 0x90)], [(0x10101, 0x77)], []) := by decide

/-- R73: before JMP empties the queue, six bytes past the JMP may have been fetched, the last of them from a device. -/
theorem test_fetch_before_jump :
    (match step (State.storeCode [0xEB, 0x10] 0
        { base with
          params := { Params.i8086 with map := [⟨0x10107, 1, .device⟩] }
          bus :=
            { base.bus with
              env := [idle, idle, idle, ahead, ahead, ahead, ahead, ahead, ahead, idle]
              answers := [(.mem 0x10107, 0x77)] } }) with
      | .next t => (t.bus.log.take 1, [t.ip.toNat, t.bus.log.length, t.bus.queue.length, t.bus.answers.length])
      | _ => ([], [])) = ([.fetch 0x10107 (.byte 0x77)], [0x0112, 8, 0, 0]) := by decide

/-- R388: an NMI while waiting is processed after one extra fetch of the WAIT. -/
theorem test_wait_fetched_again :
    (match step
        { base with
          run := .waiting 0x0101
          bus := { held [(0x10100, 0x9B)] with pins := { Pins.idle with testHigh := true }, nmiLatch := true } } with
      | .next t => (t.bus.log.getLast?, t.bus.log.length, t.readPhysWord 0x300FA)
      | _ => (none, 0, 0)) = (some (.fetch 0x10100 (.byte 0x9B)), 6, 0x0100) := by decide

/-- R69, R72: a fetch of an aligned word, and at an odd address of one byte. -/
theorem test_fetch_word :
    ((held [(0x10100, 0x34), (0x10101, 0x12)]).fetch base.view .word 0).log = [.fetch 0x10100 (.word 0x1234)] ∧
    ((held [(0x10101, 0x12), (0x10102, 0x56)]).fetch base.view .word 1).log = [.fetch 0x10101 (.byte 0x12)] := by decide

/-- R85, R460: a byte in the queue is executed as it was fetched: a NOP, where memory holds an undefined byte now. -/
theorem test_stale_code :
    seen [0x60] { base with bus := { base.bus with queue := [(0x10100, 0x90)] } } (fun t => [t.ip]) = some [0x0101] := by
  decide

/-- R262, R273: with CL = 0 the operand of SHL [0010H],CL is read and not written, and no flag changes. -/
theorem test_shift_by_0_reads :
    (match exec (.shlRm .cl .byte (.mem (.direct 0x0010))) { base with bus := held [(0x20010, 0x81)] } with
      | .next t => (t.bus.log, t.readByte 0x20010, t.flags.toWord 0)
      | _ => ([], 0, 1)) = ([.read (some .ds) (.mem 0x20010) (.byte 0x81)], 0x81, 0) := by decide

/-- R71, R83: another master stores between the read and the write of ADD [0010H],AL, and not under the lock. -/
theorem test_add_is_not_atomic :
    let s : State :=
      { base with
        regs := { regs0 with ax := 0x0001 }
        bus := { held [(0x20010, 5)] with env := [idle, asks 0x20011 9] } }
    let look := fun r : Result => match r with
      | .next t => [t.readByte 0x20010, t.readByte 0x20011, BitVec.ofNat 8 t.bus.log.length]
      | _ => []
    look (exec (.addRmReg .fromReg .byte .r000 (.mem (.direct 0x0010))) s) = [6, 9, 3] ∧
    look (exec (.addRmReg .fromReg .byte .r000 (.mem (.direct 0x0010))) { s with locked := true }) = [6, 0, 2] := by decide

/-- A platform with a ROM in the last 256 bytes and a memory-mapped device at A0000H. -/
def platform : Params :=
  { Params.i8086 with map := [⟨0xFFF00, 0x100, .rom⟩, ⟨0xA0000, 0x10, .device⟩] }

/-- R78, R417, U15: a write to a ROM is lost; a device answers, and what is written to it does not come back. -/
theorem test_platform :
    let s : State :=
      { base with
        regs := { regs0 with ax := 0x00EE }
        segs := { base.segs with ds := 0xA000, es := 0xFFF0 }
        params := platform
        bus := { base.bus with answers := [(.mem 0xA0002, 0x77)] } }
    let look := fun r : Result => match r with
      | .next t => [t.readByte 0xA0002, t.readByte 0xFFF02, t.reg8 .al]
      | _ => []
    look (exec (.movMemAcc .byte 0x0002) s) = [0, 0, 0xEE] ∧
    look (exec (.movMemAcc .byte 0x0002) { s with segOverride := some .es }) = [0, 0, 0xEE] ∧
    look (exec (.movAccMem .byte 0x0002) s) = [0, 0, 0x77] := by decide

/-- R414: single-step while waiting, with the WAIT as the saved IP. -/
theorem test_wait_single_step :
    (match step
        { base with
          run := .waiting 0x0101
          flags := .ofWord 0x0100
          bus := { held [(0x00005, 8)] with pins := { Pins.idle with testHigh := true } } } with
      | .next t => [t.ip, t.readPhysWord 0x300FA, bit t.flags.TF]
      | _ => []) = [0x0800, 0x0100, 0] := by decide

/-- R409: the two acknowledge cycles of an INTR come before the pushes and the vector. -/
theorem test_acknowledge :
    (match step
        { base with
          run := .halted
          flags := .ofWord 0x0200
          bus := { base.bus with pins := { Pins.idle with intr := some 0x40 } } } with
      | .next t => t.bus.log.drop 5
      | _ => []) = [.acknowledge (some 0x40), .acknowledge none] := by decide

/-! ## From reset -/

/-- The first step from reset with nothing placed: memory reads 00 00, ADD [BX+SI],AL (log 20). -/
theorem test_first_step_from_reset :
    decode State.reset.tick.fetched.codeBytes = .ok (.addRmReg .fromReg .byte .r000 (.mem (.based .bxSi .none))) [] := by
  decide

theorem test_table_word : decodeTableWord 16 0x8BD8 = some (.movRmReg .toReg .word .r011 (.reg .r000)) ∧
    decodeTableWord 8 0x37 = some .aaa ∧
    decode (State.withFetchWord State.reset 16 0x8BD8).tick.fetched.codeBytes =
      .ok (.movRmReg .toReg .word .r011 (.reg .r000)) [] := by decide

/-! ## Witnesses: each hypothesis of a statement is met by some state, clause by clause -/

/-- The base state with a NOP under CS:IP. -/
def atNop : State := State.storeCode [0x90] 0 base

/-- The base state with an undefined byte under CS:IP. -/
def atUndefined : State := State.storeCode [0x60] 0 base

/-- The base state with samples to come. -/
def sampled (l : List Sample) : State := { base with bus := { base.bus with env := l } }

/-- The base state with other pin levels. -/
def pinned (p : Pins) : State := { base with bus := { base.bus with pins := p } }

/-- What the statements ask of a bus nothing comes to, and of memory that is all RAM. -/
theorem witness_Still_Quiet : Still base ∧ Quiet base ∧ Quiet atNop :=
  ⟨⟨rfl, rfl, rfl⟩, ⟨⟨rfl, rfl, rfl⟩, rfl⟩, ⟨⟨rfl, rfl, rfl⟩, rfl⟩⟩

theorem witness_StepKeepsInvariant : atNop.Inv ∧ ∃ t, step atNop = .next t :=
  ⟨⟨by decide, rfl, by decide, by decide, by decide, by decide⟩, _, rfl⟩

/-- The invariant in a state behind a prefix, with TF kept, between two turns of a string instruction, and in reset.
-/
theorem witness_StepKeepsInvariant_others :
    ({ atNop with segOverride := some .es, trap := true } : State).Inv ∧
    ({ atNop with rep := some true, run := .repeating .movs .byte } : State).Inv ∧
    ({ pinned resetHigh.pins with run := .inReset } : State).Inv :=
  ⟨⟨by decide, rfl, by decide, by decide, by decide, by decide⟩, ⟨by decide, rfl, by decide, by decide, by decide, by decide⟩,
    by decide, rfl, by decide, by decide, by decide, by decide⟩

theorem witness_ResetPulse :
    (pinned resetHigh.pins).tick.bus.pins.reset = true ∧ (sampled [resetHigh]).tick.bus.pins.reset = true ∧
    ({ base with run := .inReset } : State).tick.bus.pins.reset = false ∧
    ({ base with run := .inReset } : State).run = .inReset := by decide

/-- RESET HIGH at the start of a step, RESET that comes during a fetch, and at the end of a step; a bus with RESET
HIGH; RESET between the two cycles of a word at an odd address. -/
theorem witness_ResetDuringInstruction :
    (∃ t, step (pinned resetHigh.pins) = .next t ∧ t.bus.pins.reset = true) ∧
    (∃ t, step { atNop with bus := { atNop.bus with env := [idle, resetHigh] } } = .next t ∧ t.bus.pins.reset = true) ∧
    (∃ t, step { atNop with bus := { atNop.bus with env := [idle, idle, resetHigh] } } = .next t ∧
      t.bus.pins.reset = true) ∧
    (pinned resetHigh.pins).bus.pins.reset = true ∧
    let s := sampled [idle, resetHigh]
    s.bus.pins.reset = false ∧ s.bus.requests = Requests.none ∧ s.params.map = [] ∧ s.bus.env = [idle, resetHigh] ∧
      idle.requests = Requests.none ∧ resetHigh.requests = Requests.none ∧ idle.fetch = none ∧ idle.pins.reset = false ∧
      resetHigh.pins.reset = true ∧ (phys (s.sreg (s.segOverride.getD .ds)) 0x0011).toNat % 2 = 1 :=
  ⟨⟨_, rfl, rfl⟩, ⟨_, rfl, rfl⟩, ⟨_, rfl, rfl⟩, rfl, rfl, rfl, rfl, rfl, rfl, rfl, rfl, rfl, rfl, by decide⟩

theorem witness_StepRunsDecodedInstruction :
    let cut : State := { atNop with bus := { atNop.bus with env := [idle, resetHigh] } }
    (cut.run = .running ∧ cut.tick.fetched.bus.pins.reset = true) ∧
    (atNop.tick.fetched.bus.pins.reset = false ∧ atNop.run = .running ∧
      decode atNop.tick.fetched.codeBytes = .ok (.xchgAxReg .ax) [] ∧ atNop.tick.fetched.rep.isSome = false ∧
      ({ atNop with params := { Params.i8086 with queueVisibility := .refuse } } : State).tick.fetched.isStale 1 = false ∧
      (Instr.movs .byte).isString = true ∧ (Instr.seg .es).isPrefixByte = true) ∧
    (({ sampled [asks 0x20000 1] with run := .halted } : State).run = .halted ∧
      givesBusAway (unprefixed { sampled [asks 0x20000 1] with run := .halted }) = true) ∧
    (base.bus.start base.view).pins.reset = false ∧ ((sampled [resetHigh]).bus.start base.view).pins.reset = true := by
  decide

theorem witness_StepRefusesUndefined :
    let repeated : State := { atNop with rep := some true }
    let stale : State :=
      { atNop with params := { Params.i8086 with queueVisibility := .refuse }, bus := { atNop.bus with stale := [0x10100] } }
    (atUndefined.tick.fetched.bus.pins.reset = false ∧ atUndefined.run = .running ∧
      decode atUndefined.tick.fetched.codeBytes = .reject (.undefinedOpcode 0x60)) ∧
    (stale.tick.fetched.bus.pins.reset = false ∧ stale.run = .running ∧
      decode stale.tick.fetched.codeBytes = .ok (.xchgAxReg .ax) [] ∧
      stale.tick.fetched.params.queueVisibility = .refuse ∧ stale.codeAddr 0 ∈ stale.tick.fetched.bus.stale) ∧
    decode repeated.tick.fetched.codeBytes = .ok (.xchgAxReg .ax) [] ∧
    repeated.tick.fetched.params.queueVisibility ≠ .refuse ∧ repeated.tick.fetched.rep.isSome = true ∧
    (Instr.xchgAxReg .ax).isPrefixByte = false ∧ (Instr.xchgAxReg .ax).isString = false := by decide

/-- A byte at an odd address, the last byte of the queue, one before a byte that is queued, one at a device; a word at
the last place there is for it. The sixth byte after CS:IP may be queued, the seventh not; a byte with a queued copy;
the two other parameters. -/
theorem witness_FetchAndStoredCode :
    let queued : State := { base with bus := { base.bus with queue := [(0x10100, 0x90), (0x10105, 0x91)] } }
    let refusing : State := { base with params := { Params.i8086 with queueVisibility := .refuse } }
    ((base.view.codeAt 1).toNat % 2 = 1 ∧ queued.bus.isQueued (queued.view.codeAt 5) = true ∧
      (base.view.codeAt 4).toNat % 2 = 0 ∧ base.bus.isQueued (base.view.codeAt 5) = false ∧ base.view.params.map = [] ∧
      ({ base with params := { Params.i8086 with map := [⟨0x10100, 1, .device⟩] } } : State).view.presence 0x10100 = .device ∧
      ({ base.bus with answers := [(.mem 0x10100, 0x77)] } : Bus).answers = (.mem 0x10100, 0x77) :: []) ∧
    (atNop.run = .running ∧ atNop.bus.queue = [] ∧ (Instr.xchgAxReg .ax).wf = true) ∧
    queued.codeBytes[0]? = some 0x90 ∧
    (base.view.presence 0x10105 = .ram ∧ base.bus.copyAt 0x10105 = none ∧ base.view.codeAt 5 = 0x10105 ∧ base.view.mayBeQueued 0x10106 = false ∧
      queued.bus.copyAt 0x10105 = some 0x91 ∧ (0x10104 : Addr) ≠ 0x10105) ∧
    (({ base with params := { Params.i8086 with queueVisibility := .alwaysNew } } : State).params.queueVisibility = .alwaysNew ∧
      refusing.params.queueVisibility = .refuse ∧ refusing.fetching = true ∧ refusing.bus.pins.reset = false ∧
      refusing.view.codeAt 5 = 0x10105 ∧ (0x5A : Byte) ≠ refusing.readByte 0x10105) := by decide

theorem witness_FetchAndStoredCode_bytes : Quiet atNop ∧
    ∀ k x, (encode (.xchgAxReg .ax))[k]? = some x → atNop.readByte (atNop.codeAddr k) = x := by
  refine ⟨witness_Still_Quiet.2.2, fun k x h => ?_⟩
  rw [show encode (.xchgAxReg .ax) = [0x90] by decide] at h
  cases k with
  | zero => simp only [List.getElem?_cons_zero, Option.some.injEq] at h; subst h; decide
  | succ k => simp at h

/-- Samples that ask for a fetch and that ask for none, a full and an empty queue, the other reasons for which there is
no fetch ahead; even and odd addresses; each run state; a fetch under way. -/
theorem witness_Sampling :
    ((sampled [idle]).bus.env = idle :: [] ∧ base.bus.env = [] ∧ base.bus.pins.reset = false ∧
      (pinned resetHigh.pins).bus.pins.reset = true) ∧
    ((sampled [ahead]).bus.env = ahead :: [] ∧ ahead.fetch = some .byte ∧ base.view.fetching = true ∧
      ((sampled [ahead]).bus.sample.grant base.view).pins.reset = false ∧
      base.view.params.queueVisibility ≠ .alwaysNew ∧
      ((sampled [ahead]).bus.sample.grant base.view).isQueued (base.view.codeAt 0) = false) ∧
    (({ base with run := .halted } : State).view.fetching = false ∧
      ((sampled [resetHigh]).bus.sample.grant base.view).pins.reset = true) ∧
    ((Location.mem 0x20010).isOdd = false ∧ (Location.mem 0x20011).isOdd = true ∧
      ∀ y, y ∈ (sampled [idle, idle]).bus.env → y.fetch = none ∧ y.pins.reset = false) ∧
    ((sampled [resetHigh]).tick.bus.pins.reset = true ∧
      (∀ r, r ∈ [RunState.running, .repeating .movs .byte, .halted, .waiting 0x0101, .inReset] →
        ({ base with run := r } : State).tick.bus.pins.reset = false)) ∧
    decode base.codeBytes = .reject .truncated := by decide

theorem witness_LockHoldsOffOtherMasters :
    ({ base with locked := true } : State).view.locked = true ∧ base.view.locked = false ∧ base.view.params.map = [] := by
  decide

/-- With and without the lock, and words at an even and at an odd address. -/
theorem witness_Interleaving :
    let s := sampled [asks 0x20010 1, asks 0x20010 2]
    let m : Mem := .direct 0x0010
    (s.bus.pins.reset = false ∧ s.bus.requests = Requests.none ∧ s.params.map = [] ∧
      s.bus.env = [asks 0x20010 1, asks 0x20010 2] ∧ (asks 0x20010 1).pins.reset = false ∧ (asks 0x20010 2).pins.reset = false ∧
      (asks 0x20010 1).fetch = none ∧ (asks 0x20010 2).fetch = none) ∧
    ({ s with locked := true } : State).locked = true ∧ s.locked = false ∧
    (phys (s.sreg (s.segRm m)) (s.ea m + 0)).toNat % 2 = 0 ∧ (phys (s.sreg (s.segRm m)) (s.ea m + 2)).toNat % 2 = 0 ∧
    (phys (s.sreg .ds) 0x0011).toNat % 2 = 1 := by decide

/-- The three kinds of presence, the last byte of a region and the first after it, and a scripted answer. -/
theorem witness_Platform :
    let s : State := { base with params := platform, bus := { base.bus with answers := [(.mem 0xA000F, 0x77)] } }
    Still s ∧ Params.i8086.map = [] ∧ platform.map = ⟨0xFFF00, 0x100, .rom⟩ :: [⟨0xA0000, 0x10, .device⟩] ∧
    s.view.presence 0xFFF00 = .rom ∧ s.view.presence 0xA000F = .device ∧ s.view.presence 0xA0010 = .ram ∧
    s.bus.answers = (.mem 0xA000F, 0x77) :: [] :=
  ⟨⟨rfl, rfl, rfl⟩, rfl, rfl, by decide, by decide, by decide, rfl⟩

theorem witness_DecodeOfEncode : (Instr.movRmImm (.mem (.direct 0x1234)) (.w 0x5678)).wf = true := by decide

theorem witness_EncodeOfDecode : ∃ i rest, decode [0x83, 0xC0, 0xFF, 0x90] = .ok i rest := ⟨_, _, rfl⟩

theorem witness_StoresAndReads :
    Quiet base ∧ (phys 0x2001 0x0000 = phys 0x2000 0x0010 ∧ phys 0x2001 (0x0000 + 1) = phys 0x2000 (0x0010 + 1)) ∧
    ∀ a ∈ storeAddrs 0x2000 0xFFFF .word, a ∉ storeAddrs 0x3000 0x0000 .word := by
  refine ⟨witness_Still_Quiet.2.1, by decide, fun a ha => ?_⟩
  rw [show storeAddrs 0x2000 0xFFFF .word = [0x2FFFF, 0x20000] by decide] at ha
  rw [show storeAddrs 0x3000 0x0000 .word = [0x30000, 0x30001] by decide]
  simp only [List.mem_cons, List.not_mem_nil, or_false] at ha ⊢
  rcases ha with rfl | rfl <;> decide

theorem witness_EffectiveAddresses_DefaultSegment :
    base.segOverride = none ∧ EaBase.bp ∈ [EaBase.bpSi, .bpDi, .bp] ∧ EaBase.bx ∈ [EaBase.bxSi, .bxDi, .si, .di, .bx] ∧
    ({ base with segOverride := some .es } : State).segOverride = some .es := by decide

theorem witness_EveryInstructionCompletes : (Instr.divRm .byte (.reg .r000)).wf = true := by decide

theorem witness_WhoMayChangeWhat :
    (∃ t, exec (.xchgAxReg .ax) base = .next t) ∧ changesNoFlag (.xchgAxReg .ax) = true ∧
    loadsFlags (.xchgAxReg .ax) = false ∧ mayInterrupt (.xchgAxReg .ax) = false ∧ setsIF (.xchgAxReg .ax) = false ∧
    setsDF (.xchgAxReg .ax) = false ∧ loadsCs (.xchgAxReg .ax) = false ∧ loadsSs (.xchgAxReg .ax) = false ∧
    usesBus (.xchgAxReg .ax) = false ∧ reachesPorts (.movs .byte) = false :=
  ⟨⟨_, rfl⟩, rfl, rfl, rfl, rfl, rfl, rfl, rfl, rfl, rfl⟩

theorem witness_SegmentRegisterMoves_Pops : SReg.ss ≠ SReg.cs ∧ SReg.es ≠ SReg.cs ∧ SReg.ds ≠ SReg.cs ∧ Reg16.ax ≠ .sp := by
  decide

/-- Scripted answers for a byte and a word, the next port after the last being port 0, and an even and an odd port. -/
theorem witness_InputOutput :
    let s : State := { base with bus := { base.bus with answers := [(.port 0xFFFF, 0x5A), (.port (0xFFFF + 1), 0xA5)] } }
    Still s ∧ s.bus.answers = (.port 0xFFFF, 0x5A) :: (.port (0xFFFF + 1), 0xA5) :: [] ∧ (0x03F8 : Word).toNat % 2 = 0 ∧
    (0xFFFF : Word).toNat % 2 ≠ 0 := ⟨⟨rfl, rfl, rfl⟩, rfl, by decide, by decide⟩

theorem witness_AddressInstructions_ReturnUndoesEntry :
    Quiet base ∧ base.bus.nmiLatch = false ∧ base.flags.TF = false := ⟨witness_Still_Quiet.2.1, rfl, rfl⟩

/-- Both branches of the digit test, at its boundary. -/
theorem witness_DecimalAdjusts :
    ¬(9 < (({ base with regs := { regs0 with ax := 0x0009 } } : State).reg8 .al).toNat % 16) ∧
    9 < (({ base with regs := { regs0 with ax := 0x000A } } : State).reg8 .al).toNat % 16 := by decide

/-- 99 + 99 + 1 and 0 - 99 - 1, the ends of the range. -/
theorem witness_DecimalAdjustIsExact :
    IsPacked 0x99 ∧ IsPacked 0x00 ∧
    (((({ base with regs := { regs0 with ax := 0x0033 } } : State).reg8 .al).toNat = (0x99 + 0x99 + 1) % 256) ∧
      (Flags.ofWord 0x0011).CF = decide (256 ≤ 0x99 + 0x99 + 1) ∧
      (Flags.ofWord 0x0011).AF = decide (16 ≤ 0x99 % 16 + 0x99 % 16 + 1)) ∧
    ((((({ base with regs := { regs0 with ax := 0x0066 } } : State).reg8 .al).toNat : Int) = ((0 : Int) - 0x99 - 1) % 256) ∧
      (Flags.ofWord 0x0011).CF = decide (0 < 0x99 + 1) ∧ (Flags.ofWord 0x0011).AF = decide (0 % 16 < 0x99 % 16 + 1)) :=
  ⟨⟨by decide, by decide⟩, ⟨by decide, by decide⟩, ⟨by decide, by decide, by decide⟩, by decide, by decide, by decide⟩

/-- The greatest quotients that fit and the least that do not (A82, A83, A85, A86), and a divisor 0. -/
theorem witness_DivQuotient :
    (¬(0xFF = 0 ∨ 0xFF < 0xFEFF / 0xFF) ∧ (1 = 0 ∨ 0xFF < 0x0100 / 1)) ∧
    (¬(1 = 0 ∨ 0xFFFF < 0xFFFF / 1) ∧ (2 = 0 ∨ 0xFFFF < 0x20000 / 2)) ∧ (0 = 0 ∨ 0xFF < 1 / 0) := by decide

/-- Both parameters at their default and at their least, and quotients at both ends (A91 to A98). -/
theorem witness_IdivQuotient :
    (-128 ≤ Params.i8086.idivMin8 ∧ -32768 ≤ Params.i8086.idivMin16 ∧ (-128 : Int) ≤ -128 ∧ (-32768 : Int) ≤ -32768) ∧
    (¬(127 < (127 : Int).tdiv 1 ∨ (127 : Int).tdiv 1 < -127) ∧ 127 < (128 : Int).tdiv 1) ∧
    ¬((-127 : Int).tdiv 1 < -127) ∧ (-128 : Int).tdiv 1 < -127 := by decide

/-- Counts 0, 1, the width, and the greatest. -/
theorem witness_Shifts_Rotates :
    countOf base .one = 1 ∧ countOf base .cl = 0 ∧ countOf { base with regs := { regs0 with cx := 0x0008 } } .cl = 8 ∧
    countOf { base with regs := { regs0 with cx := 0x12FF } } .cl = 255 := by decide

theorem witness_StringTransfers_StringComparisons : base.rep = none := rfl

theorem witness_RepeatedStrings :
    ({ base with rep := some true } : State).rep = some true ∧ ({ base with rep := some true } : State).reg16 .cx = 0 ∧
    ({ base with rep := some false, regs := { regs0 with cx := 1 } } : State).reg16 .cx ≠ 0 ∧
    ({ base with rep := some true, run := .repeating .movs .byte } : State).run = .repeating .movs .byte ∧
    ({ base with rep := some true, run := .repeating .movs .byte } : State).tick.bus.pins.reset = false := by decide

theorem witness_SoftwareInterrupts : base.flags.OF = false ∧ (Flags.ofWord 0x0800).OF = true ∧
    base.stackMeetsVector 0x21 = false ∧
    ({ base with segs := { base.segs with ss := 0 }, regs := { regs0 with sp := 0x008A } } : State).stackMeetsVector 0x21 =
      true := by decide

/-- INTR HIGH. -/
def intr : Pins := { Pins.idle with intr := some 0x40 }

/-- Each branch of the decision procedure is reached. -/
theorem witness_Recognition :
    ({ base with inhibit := true } : State).inhibit = true ∧
    (base.inhibit = false ∧ ({ base with bus := { base.bus with nmiLatch := true } } : State).bus.nmiLatch = true) ∧
    (({ pinned intr with flags := .ofWord 0x0200 } : State).flags.IF = true ∧
      (pinned intr).bus.pins.intr = some 0x40) ∧
    ({ base with trap := true } : State).trap = true ∧ Still base :=
  ⟨rfl, ⟨rfl, rfl⟩, ⟨by decide, rfl⟩, rfl, witness_Still_Quiet.1⟩

/-- A waiting processor when nothing comes from outside. -/
theorem witness_HaltedAndWaiting_still :
    Still { base with run := .waiting 0x0101 } ∧ ({ base with run := .waiting 0x0101 } : State).run = .waiting (base.ip + 1) :=
  ⟨⟨rfl, rfl, rfl⟩, rfl⟩

/-- Halted and waiting, with nothing, an NMI, an INTR, TF, and TEST HIGH and LOW; and the bus given away. -/
theorem witness_HaltedAndWaiting :
    let halted : State := { base with run := .halted }
    let waiting : State := { pinned { Pins.idle with testHigh := true } with run := .waiting 0x0101 }
    (halted.tick.bus.pins.reset = false ∧ halted.inhibit = false ∧ halted.run = .halted ∧
      halted.tick.bus.nmiLatch = false ∧ halted.flags.IF = false) ∧
    givesBusAway { sampled [asks 0x20000 1] with run := .halted } = true ∧
    ({ halted with bus := { base.bus with nmiLatch := true } } : State).tick.bus.nmiLatch = true ∧
    (({ pinned intr with run := .halted, flags := .ofWord 0x0200 } : State).flags.IF = true ∧
      ({ pinned intr with run := .halted, flags := .ofWord 0x0200 } : State).tick.bus.pins.intr = some 0x40) ∧
    (waiting.tick.bus.pins.reset = false ∧ waiting.inhibit = false ∧ waiting.run = .waiting 0x0101 ∧
      waiting.tick.bus.pins.testHigh = true ∧ waiting.flags.TF = false ∧
      ({ waiting with flags := .ofWord 0x0100 } : State).flags.TF = true) ∧
    ({ waiting with bus := { waiting.bus with nmiLatch := true } } : State).tick.bus.nmiLatch = true ∧
    ({ pinned ⟨false, false, true, some 0x40⟩ with run := .waiting 0x0101 } : State).tick.bus.pins.intr = some 0x40 ∧
    ({ base with run := .waiting 0x0101 } : State).tick.bus.pins.testHigh = false := by decide

theorem witness_ProcessorControl : Still base ∧ (pinned { Pins.idle with testHigh := true }).bus.pins.testHigh = true :=
  ⟨witness_Still_Quiet.1, rfl⟩

end Sys2Proof.Tests
end

section
/-!
PROOF. The register halves (O19) and the two-operand arithmetic forms (O33, O34), each from what the shared operation
does.
-/

namespace Sys2Proof.Machine

/-! ## The halves of a register -/

/-- A register with 8-bit halves is its high byte joined to its low one (R22). -/
theorem State.reg16_eq_joinBytes (s : State) {hi lo : Reg8} (hh : byteIsHigh hi = true) (hl : byteIsHigh lo = false)
    (h : byteHolder lo = byteHolder hi) : s.reg16 (byteHolder hi) = joinBytes (s.reg8 hi) (s.reg8 lo) := by
  simp only [State.reg8, hh, hl, h, if_true, Bool.false_eq_true, if_false]
  exact (joinBytes_high_low _).symm

/-- Settles O19: the two halves joined give the register back, and the frames are those of the register writes. -/
theorem byteRegistersAreHalves : Obligations.ByteRegistersAreHalves := by
  intro s
  refine ⟨⟨?_, ?_, ?_, ?_⟩, s.setReg8_spec, s.setReg16_spec⟩
  · exact s.reg16_eq_joinBytes (hi := .ah) (lo := .al) rfl rfl rfl
  · exact s.reg16_eq_joinBytes (hi := .ch) (lo := .cl) rfl rfl rfl
  · exact s.reg16_eq_joinBytes (hi := .dh) (lo := .dl) rfl rfl rfl
  · exact s.reg16_eq_joinBytes (hi := .bh) (lo := .bl) rfl rfl rfl

/-! ## The two-operand forms

Each form of R127 holds of an operation as soon as its result and flags stand in the relation: the frame is that of
the shared form. -/

/-- An operation gives results and flags in a relation, whatever the free value. -/
def AluOp.Gives (o : AluOp) (rel : AluRel) : Prop :=
  ∀ (w : Width) (a b : Operand w) (f free : Flags), rel w a b f (o.eval a b f free).1 (o.eval a b f free).2

section Forms

variable {o : AluOp} {rel : AluRel}

/-- The form `RM_R`: the register-or-memory operand or the register is written, by the direction bit. -/
theorem AluOp.Gives.rmRegForm {mk : Dir → Width → RegNum → RM → Instr} (h : o.Gives rel) (ho : o.writes = true)
    (hx : ∀ d w r rm s, exec (mk d w r rm) s = .next (aluRmReg o d w r rm s)) : RmRegForm mk rel := by
  intro d w r rm s
  cases d with
  | fromReg =>
    obtain ⟨hflow, hflags, hwrote⟩ := aluToRM_spec s o w rm (s.reg w r)
    rw [if_pos ho] at hwrote
    exact ⟨_, _, hx _ _ _ _ _, hflow, hflags ▸ h w _ _ _ s.freeFlags, hwrote⟩
  | toReg =>
    obtain ⟨hflow, hflags, hwrote⟩ := aluToReg_spec s o w r (s.readRM w rm) rm
    rw [if_pos ho] at hwrote
    exact ⟨_, _, hx _ _ _ _ _, hflow, hflags ▸ h w _ _ _ s.freeFlags, hwrote⟩

/-- The form `RM_IMM` with an `s` bit. -/
theorem AluOp.Gives.rmSImmForm {mk : RM → SImm → Instr} (h : o.Gives rel) (ho : o.writes = true)
    (hx : ∀ rm imm s, exec (mk rm imm) s = .next (aluRmSImm o rm imm s)) : RmSImmForm mk rel := by
  intro rm imm s
  obtain ⟨hflow, hflags, hwrote⟩ := aluToRM_spec s o imm.width rm imm.val
  rw [if_pos ho] at hwrote
  exact ⟨_, _, hx _ _ _, hflow, hflags ▸ h _ _ _ _ s.freeFlags, hwrote⟩

/-- The form `ACC_IMM`. -/
theorem AluOp.Gives.accImmForm {mk : Imm → Instr} (h : o.Gives rel) (ho : o.writes = true)
    (hx : ∀ imm s, exec (mk imm) s = .next (aluAccImm o imm s)) : AccImmForm mk rel := by
  intro imm s
  obtain ⟨hflow, hflags, hwrote⟩ := aluToReg_imm_spec s o imm.width .r000 imm.val
  rw [if_pos ho] at hwrote
  exact ⟨_, _, hx _ _, hflow, hflags ▸ h _ _ _ _ s.freeFlags, hwrote⟩

end Forms

theorem AluOp.add_gives : AluOp.add.Gives (SumRel fun _ => false) := fun w a b f free => (AluOp.eval_sum w a b f free).1

theorem AluOp.adc_gives : AluOp.adc.Gives (SumRel (·.CF)) := fun w a b f free => (AluOp.eval_sum w a b f free).2

theorem AluOp.sub_gives : AluOp.sub.Gives (DiffRel fun _ => false) := fun w a b f free => (AluOp.eval_diff w a b f free).1

theorem AluOp.sbb_gives : AluOp.sbb.Gives (DiffRel (·.CF)) := fun w a b f free => (AluOp.eval_diff w a b f free).2.2

/-- Settles O33: ADD and ADC give the sum, in each form. -/
theorem addAdc : Obligations.AddAdc :=
  ⟨⟨AluOp.add_gives.rmRegForm rfl fun _ _ _ _ _ => rfl, AluOp.add_gives.rmSImmForm rfl fun _ _ _ => rfl,
      AluOp.add_gives.accImmForm rfl fun _ _ => rfl⟩,
    AluOp.adc_gives.rmRegForm rfl fun _ _ _ _ _ => rfl, AluOp.adc_gives.rmSImmForm rfl fun _ _ _ => rfl,
    AluOp.adc_gives.accImmForm rfl fun _ _ => rfl⟩

/-- Settles O34: SUB and SBB give the difference, in each form. -/
theorem subSbb : Obligations.SubSbb :=
  ⟨⟨AluOp.sub_gives.rmRegForm rfl fun _ _ _ _ _ => rfl, AluOp.sub_gives.rmSImmForm rfl fun _ _ _ => rfl,
      AluOp.sub_gives.accImmForm rfl fun _ _ => rfl⟩,
    AluOp.sbb_gives.rmRegForm rfl fun _ _ _ _ _ => rfl, AluOp.sbb_gives.rmSImmForm rfl fun _ _ _ => rfl,
    AluOp.sbb_gives.accImmForm rfl fun _ _ => rfl⟩

end Sys2Proof.Machine
end

section
/-!
PROOF. Every step keeps the invariant and the parameters (O3): what an instruction can do to the hidden state, what
the end of an instruction establishes, and what a step can do, each said once.
-/

namespace Sys2Proof.Machine

/-! ## What an instruction does to the hidden state -/

/-- The instructions, besides prefixes, string instructions and interrupts, that reach the run state or the inhibit:
HLT, WAIT, STI and the loads of a segment register. -/
def setsRunOrInhibit : Instr → Bool
  | .hlt | .wait | .sti | .movSregRm .. | .popSreg .. => true
  | _ => false

theorem aluRmReg_control (o : AluOp) (d : Dir) (w : Width) (r : RegNum) (rm : RM) (s : State) :
    (aluRmReg o d w r rm s).control = s.control := by
  cases d with
  | fromReg =>
    obtain ⟨⟨-, -, hc⟩, -⟩ := aluToRM_spec s o w rm (s.reg w r)
    exact hc
  | toReg =>
    obtain ⟨⟨-, -, hc⟩, -⟩ := aluToReg_spec s o w r (s.readRM w rm) rm
    exact hc

theorem aluToRM_control (o : AluOp) (w : Width) (rm : RM) (src : Operand w) (s : State) :
    (aluToRM o w rm src s).control = s.control := by
  obtain ⟨⟨-, -, hc⟩, -⟩ := aluToRM_spec s o w rm src
  exact hc

theorem aluToReg_control (o : AluOp) (w : Width) (r : RegNum) (src : Operand w) (s : State) :
    (aluToReg o w r src s).control = s.control := by
  obtain ⟨⟨-, -, hc⟩, -⟩ := aluToReg_imm_spec s o w r src
  exact hc

theorem shiftRM_control (o : ShiftOp) (v : Count) (w : Width) (rm : RM) (s : State) :
    (shiftRM o v w rm s).control = s.control := by
  obtain ⟨⟨-, -, hc⟩, -⟩ := shiftRM_spec o v w rm s
  exact hc

/-- Every other instruction leaves the hidden state and the parameters alone. -/
theorem exec_control {i : Instr} {s t : State} (h : exec i s = .next t) (hp : i.isPrefixByte = false)
    (hs : i.isString = false) (hm : mayInterrupt i = false) (hr : setsRunOrInhibit i = false) :
    t.control = s.control := by
  cases i
  case rep | lock | seg => cases hp
  case movs | cmps | scas | lods | stos => cases hs
  case intType | int3 | into | divRm | idivRm => cases hm
  case hlt | wait | sti | movSregRm | popSreg => cases hr
  case addRmReg | adcRmReg | subRmReg | sbbRmReg | cmpRegRm | cmpRmReg | andRmReg | orRmReg | xorRmReg | testRmReg =>
    cases h; exact aluRmReg_control _ _ _ _ _ _
  case addRmImm | adcRmImm | subRmImm | sbbRmImm | cmpRmImm | andRmImm | orRmImm | xorRmImm | testRmImm =>
    cases h; exact aluToRM_control _ _ _ _ _
  case addAccImm | adcAccImm | subAccImm | sbbAccImm | cmpAccImm | andAccImm | orAccImm | xorAccImm | testAccImm =>
    cases h; exact aluToReg_control _ _ _ _ _
  case shlRm | shrRm | sarRm | rolRm | rorRm | rclRm | rcrRm => cases h; exact shiftRM_control _ _ _ _ _
  case movRmReg d w r rm => cases d <;> (cases h; simp)
  case pushRm rm => cases rm <;> (cases h; simp)
  case aaa | aas =>
    cases h
    simp only [State.setFreeFlags_control, State.setReg8_control]
    split <;> simp
  all_goals (cases h; simp)

/-- A processor that goes on: it is not in reset, and repeats nothing with no REP in force (R301). -/
structure State.GoesOn (s : State) : Prop where
  run : s.run ≠ .inReset
  repeated : s.run.isRepeating = true → s.rep.isSome = true

/-- What every instruction keeps of the hidden state: the parameters, and that the processor goes on. -/
structure Continues (s t : State) : Prop where
  params : t.params = s.params
  goesOn : s.GoesOn → t.GoesOn

theorem State.GoesOn.of_running {s : State} (h : s.run = .running) : s.GoesOn :=
  ⟨by simp [h], by simp [h, RunState.isRepeating]⟩

theorem State.GoesOn.congr {s t : State} (h : s.GoesOn) (hrun : t.run = s.run) (hrep : t.rep = s.rep) : t.GoesOn :=
  ⟨hrun ▸ h.run, by rw [hrun, hrep]; exact h.repeated⟩

theorem Continues.of_control {s t : State} (h : t.control = s.control) : Continues s t :=
  ⟨congrArg Control.params h, fun hg => hg.congr (congrArg Control.run h) (congrArg Control.rep h)⟩

/-- An interrupt entry from a state with the same parameters. -/
theorem Continues.interruptEntry {s u : State} (h : u.params = s.params) (ty : Byte) (saved : Word) :
    Continues s (u.interruptEntry ty saved) :=
  ⟨by simpa using h, fun _ => .of_running (u.enterWithin_after u.entryBound ty saved).1⟩

/-- A division that does not fit enters an interrupt, one that fits writes registers. -/
theorem Continues.finishDivision {s u : State} (h : u.control = s.control) (w : Width) (out : Division w) :
    Continues s (u.finishDivision w out) := by
  cases out with
  | none =>
    have hp : u.params = s.params := congrArg Control.params h
    simp only [State.finishDivision, State.divideError]
    split <;> exact .interruptEntry (by simpa using hp) _ _
  | some p =>
    obtain ⟨⟨-, -, hc⟩, -⟩ := u.finishDivision_some w p.1 p.2
    exact .of_control (hc.trans h)

/-- A turn of the repeat loop leaves the loop, or goes on in it with REP in force (R301). -/
theorem Continues.repeatString {s : State} {once : State → State} (h : SameFlow s (once s)) (op : StringOp) (w : Width) :
    Continues s (repeatString op w once s) := by
  obtain ⟨-, -, hc⟩ := h
  have hp : (once s).params = s.params := congrArg Control.params hc
  have hrep : (once s).rep = s.rep := congrArg Control.rep hc
  obtain ⟨h0, h1⟩ := repeatString_spec s op w once
  cases hr : s.rep with
  | none => rw [h0 hr]; exact ⟨hp, fun _ => .of_running rfl⟩
  | some z =>
    obtain ⟨hzero, hcount⟩ := h1 z hr
    by_cases hcx : s.reg16 .cx = 0
    · rw [hzero hcx]; exact ⟨rfl, fun _ => .of_running rfl⟩
    · rw [hcount hcx]
      refine ⟨hp, fun _ => ⟨?_, fun _ => by simp [hrep, hr]⟩⟩
      dsimp only
      split <;> simp

/-- Every instruction keeps the parameters, and leaves the processor going on. -/
theorem exec_continues {i : Instr} {s t : State} (h : exec i s = .next t) : Continues s t := by
  cases i
  case rep => cases h; exact ⟨rfl, fun ⟨hr, _⟩ => ⟨hr, fun _ => rfl⟩⟩
  case lock | seg | sti => cases h; exact ⟨rfl, fun hg => hg.congr rfl rfl⟩
  case movs w | cmps w | scas w | lods w | stos w =>
    obtain ⟨hmovs, hcmps, hscas, hlods, hstos⟩ := once_sameFlow s w
    cases h
    exact .repeatString (by assumption) _ _
  case intType | int3 => cases h; exact .interruptEntry rfl _ _
  case into =>
    cases h
    split
    · exact .interruptEntry rfl _ _
    · exact .of_control rfl
  case divRm | idivRm => cases h; exact .finishDivision (by simp) _ _
  case hlt => cases h; exact ⟨rfl, fun _ => ⟨nofun, nofun⟩⟩
  case wait =>
    simp only [exec, execWait] at h
    split at h <;> cases h
    · exact ⟨rfl, fun _ => ⟨nofun, nofun⟩⟩
    · exact .of_control rfl
  case movSregRm sr rm => cases sr <;> cases h <;> exact ⟨by simp, fun hg => hg.congr (by simp) (by simp)⟩
  case popSreg sr => cases sr <;> cases h <;> exact ⟨rfl, fun hg => hg.congr rfl rfl⟩
  all_goals exact .of_control (exec_control h rfl rfl rfl rfl)

/-- All one of the prefixes does: it is in force, and the bus, the run state and the inhibit are as they were (R116). -/
theorem exec_prefixByte {i : Instr} {s t : State} (h : exec i s = .next t) (hp : i.isPrefixByte = true) :
    t.bus = s.bus ∧ t.run = s.run ∧ t.inhibit = s.inhibit ∧ t.prefixPending = true := by
  cases i
  case rep | lock | seg => cases h; exact ⟨rfl, rfl, rfl, by simp [State.prefixPending]⟩
  all_goals cases hp

/-! ## What the end of a step leaves alone -/

section End

variable (s : State)

/-- The halt cycle is on the bus only. -/
theorem State.reissueHalt_eq (q : Requests) : s.reissueHalt q = s.setBus (s.reissueHalt q).bus := by
  unfold State.reissueHalt
  split <;> [split; skip; skip; skip; skip] <;> rfl

@[simp] theorem State.reissueHalt_run (q : Requests) : (s.reissueHalt q).run = s.run := by rw [s.reissueHalt_eq q]; rfl

@[simp] theorem State.reissueHalt_rep (q : Requests) : (s.reissueHalt q).rep = s.rep := by rw [s.reissueHalt_eq q]; rfl

@[simp] theorem State.reissueHalt_prefixPending (q : Requests) :
    (s.reissueHalt q).prefixPending = s.prefixPending := by rw [s.reissueHalt_eq q]; rfl

@[simp] theorem State.reissueHalt_params (q : Requests) : (s.reissueHalt q).params = s.params := by
  rw [s.reissueHalt_eq q]; rfl

/-- All the end of an instruction does to the prefixes (R45, R77, R116, R301). -/
theorem State.endInstruction_spec :
    s.endInstruction.bus = s.bus ∧ s.endInstruction.run = s.run ∧
      (s.run.isRepeating = true → s.endInstruction.rep = s.rep) ∧
      (s.run.idle = true → s.endInstruction.prefixPending = false) := by
  unfold State.endInstruction
  cases hr : s.run with
  | repeating op w | waiting next => exact ⟨rfl, hr, fun _ => rfl, nofun⟩
  | running | halted | inReset => exact ⟨rfl, hr, nofun, fun _ => rfl⟩

@[simp] theorem State.endInstruction_params : s.endInstruction.params = s.params := by
  unfold State.endInstruction
  split <;> rfl

@[simp] theorem State.settle_params : s.settle.params = s.params := by
  unfold State.settle
  split <;> rfl

@[simp] theorem State.recognise_params : s.recognise.params = s.params := by
  unfold State.recognise
  split
  · rfl
  · split
    · simp
    · split
      · simp
      · split <;> simp

@[simp] theorem State.recogniseUnlessReset_params : s.recogniseUnlessReset.params = s.params := by
  unfold State.recogniseUnlessReset
  rw [State.settle_params]
  split <;> simp

@[simp] theorem State.finish_params : s.finish.params = s.params := by simp [State.finish]

end End

/-! ## What the end of a step establishes -/

section Establishes

variable {s : State}

/-- A processor just put into reset by RESET (R451). -/
theorem enterReset_inv (hm : s.bus.mem.wf = true) (hr : s.bus.pins.reset = true) : s.enterReset.Inv where
  memory := hm
  inhibit := rfl
  trap := nofun
  repeated := nofun
  idle _ := rfl
  reset := ⟨fun _ => rfl, fun _ => hr⟩

/-- The end of a step, where the inhibit and TF have been taken into account. -/
theorem settle_inv (hm : s.bus.mem.wf = true) (hi : s.inhibit = false) (ht : s.trap = false) (hg : s.GoesOn)
    (hp : s.run.idle = true → s.prefixPending = false) : s.settle.Inv := by
  cases hr : s.bus.pins.reset with
  | true => rw [s.settle_spec.1 hr]; exact enterReset_inv hm hr
  | false =>
    rw [s.settle_spec.2 hr]
    exact ⟨hm, hi, by simp [ht], hg.repeated, hp, by simp [hr, hg.run]⟩

/-- Recognition at a sampling point leaves the state the invariant describes (R413, R414). -/
theorem recogniseUnlessReset_inv (hm : s.bus.mem.wf = true) (hg : s.GoesOn)
    (hp : s.run.idle = true → s.prefixPending = false) : s.recogniseUnlessReset.Inv := by
  unfold State.recogniseUnlessReset
  split
  · next hr => rw [s.settle_spec.1 hr]; exact enterReset_inv hm hr
  · obtain ⟨hi, ht, ⟨hrun, hpre, hrep⟩ | ⟨hrun, hpre, -⟩⟩ := s.recognise_after
    · exact settle_inv (wf_recognise hm) hi ht (hg.congr hrun hrep) (by rw [hrun, hpre]; exact hp)
    · exact settle_inv (wf_recognise hm) hi ht (.of_running hrun) fun _ => hpre

/-- The end of an instruction or of an element establishes the invariant. -/
theorem finish_inv (hm : s.bus.mem.wf = true) (hg : s.GoesOn) : s.finish.Inv := by
  obtain ⟨hbus, hrun, hrep, hpre⟩ := s.endInstruction_spec
  refine recogniseUnlessReset_inv (wf_reissueHalt ((Bus.start_later _ _).wf (hbus ▸ hm)) _) ⟨?_, ?_⟩ ?_
  · rw [State.reissueHalt_run, State.setBus_run, hrun]; exact hg.run
  · rw [State.reissueHalt_run, State.reissueHalt_rep, State.setBus_run, State.setBus_rep, hrun]
    exact fun h => hrep h ▸ hg.repeated h
  · rw [State.reissueHalt_run, State.reissueHalt_prefixPending, State.setBus_run, hrun]
    exact hpre

end Establishes

/-! ## What a step can do -/

/-- The ways in which a step goes on to a next state, one for each branch of `cycle`: RESET; the processor in reset,
halted, or waiting with TEST HIGH or LOW; an element of a repeated string instruction; and for a running processor
RESET during the fetch, one of the prefixes, or an instruction. -/
inductive Stepped (s : State) : State → Prop where
  | reset : s.tick.bus.pins.reset = true → Stepped s s.tick.enterReset
  | resetSequence : s.tick.bus.pins.reset = false → s.run = .inReset → Stepped s s.tick.resetSequence
  | halted : s.tick.bus.pins.reset = false → s.run = .halted →
      Stepped s ({ s.tick.reissueHalt s.bus.sample.requests with trap := false } : State).recogniseUnlessReset
  | waits {next : Word} : s.tick.bus.pins.reset = false → s.run = .waiting next → s.tick.bus.pins.testHigh = true →
      Stepped s ({ s.tick with trap := s.flags.TF } : State).recogniseUnlessReset
  | endsWait {next : Word} : s.tick.bus.pins.reset = false → s.run = .waiting next → s.tick.bus.pins.testHigh = false →
      Stepped s ({ s.tick with ip := next, run := .running, trap := s.flags.TF } : State).finish
  | element {op : StringOp} {w : Width} {u : State} : s.tick.bus.pins.reset = false → s.run = .repeating op w →
      exec (op.instr w) { s.tick with trap := s.flags.TF } = .next u → Stepped s u.finish
  | fetchReset : s.tick.bus.pins.reset = false → s.run = .running → s.tick.fetched.bus.pins.reset = true →
      Stepped s s.tick.fetched.enterReset
  | prefixByte {i : Instr} {rest : List Byte} {u : State} : s.run = .running → s.tick.fetched.bus.pins.reset = false →
      decode s.tick.fetched.codeBytes = .ok i rest → i.isPrefixByte = true →
      exec i (s.tick.fetched.advance (s.tick.fetched.codeBytes.length - rest.length)) = .next u → Stepped s u
  | instruction {i : Instr} {rest : List Byte} {u : State} : s.run = .running → s.tick.fetched.bus.pins.reset = false →
      decode s.tick.fetched.codeBytes = .ok i rest → i.isPrefixByte = false →
      exec i (s.tick.fetched.advance (s.tick.fetched.codeBytes.length - rest.length)) = .next u → Stepped s u.finish

theorem thenState_next {f : State → State} {r : Result} {t : State} (h : thenState f r = .next t) :
    ∃ u, r = .next u ∧ t = f u := by
  cases r with
  | next u => cases h; exact ⟨u, rfl, rfl⟩
  | fault r => exact nomatch r
  | refused r => cases h

theorem stepped_of_step {s t : State} (h : step s = .next t) : Stepped s t := by
  cases hreset : s.tick.bus.pins.reset with
  | true => rw [step_reset s hreset] at h; cases h; exact .reset hreset
  | false =>
    cases hrun : s.run with
    | inReset => rw [step_inReset s hreset hrun] at h; cases h; exact .resetSequence hreset hrun
    | halted => rw [step_halted s hreset hrun] at h; cases h; exact .halted hreset hrun
    | waiting next =>
      rw [step_waiting s hreset hrun] at h
      cases h
      split
      · next htest => exact .waits hreset hrun htest
      · next htest => exact .endsWait hreset hrun (by simpa using htest)
    | repeating op w =>
      rw [step_repeating s hreset hrun] at h
      obtain ⟨u, hu, rfl⟩ := thenState_next h
      exact .element hreset hrun hu
    | running =>
      rw [step_running s hreset hrun] at h
      obtain ⟨hr, rfl⟩ | ⟨hr, i, rest, u, hd, hu, rfl⟩ := State.runNext_cases h
      · exact .fetchReset hreset hrun hr
      · split
        · next hp => exact .prefixByte hrun hr hd hp hu
        · next hp => exact .instruction hrun hr hd (by simpa using hp) hu

/-- No step changes a parameter of R7. -/
theorem Stepped.params {s t : State} (h : Stepped s t) : t.params = s.params := by
  cases h with
  | reset | resetSequence => rfl
  | halted | waits | endsWait => simp
  | element _ _ hu => simpa using (exec_continues hu).params
  | fetchReset => exact s.tick.fetched_params
  | prefixByte _ _ _ _ hu => exact (exec_continues hu).params.trans s.tick.fetched_params
  | instruction _ _ _ _ hu => rw [State.finish_params]; exact (exec_continues hu).params.trans s.tick.fetched_params

/-- Every step keeps the invariant. -/
theorem Stepped.inv {s t : State} (h : Stepped s t) (hs : s.Inv) : t.Inv := by
  have hm : s.tick.bus.mem.wf = true := Bus.tick_wf _ _ hs.memory
  have hf : s.tick.fetched.bus.mem.wf = true := s.tick.fetched_later.wf hm
  cases h with
  | reset hr => exact enterReset_inv hm hr
  | resetSequence hr _ => exact ⟨hm, rfl, nofun, nofun, nofun, fun h => absurd (hr.symm.trans h) (by decide), nofun⟩
  | halted _ hrun =>
    refine recogniseUnlessReset_inv (wf_reissueHalt hm _) ⟨?_, ?_⟩ fun _ => ?_
    · simp [hrun]
    · simp [hrun, RunState.isRepeating]
    · exact (State.reissueHalt_prefixPending _ _).trans (hs.idle (by simp [hrun, RunState.idle]))
  | waits _ hrun _ =>
    refine recogniseUnlessReset_inv hm ⟨?_, ?_⟩ ?_ <;> simp [hrun, RunState.isRepeating, RunState.idle]
  | endsWait => exact finish_inv hm (.of_running rfl)
  | element _ hrun hu =>
    refine finish_inv (exec_wf hu hm) ((exec_continues hu).goesOn ⟨?_, fun _ => ?_⟩)
    · simp [hrun]
    · exact hs.repeated (by simp [hrun, RunState.isRepeating])
  | fetchReset _ _ hr => exact enterReset_inv hf hr
  | prefixByte hrun hr _ hp hu =>
    obtain ⟨hbus, hrun', hinh, hpre⟩ := exec_prefixByte hu hp
    have hrun' : t.run = .running := hrun'.trans (s.tick.fetched_run.trans hrun)
    refine ⟨exec_wf hu hf, ?_, fun _ => hpre, ?_, ?_, ?_⟩
    · exact hinh.trans (s.tick.fetched_inhibit.trans hs.inhibit)
    · simp [hrun', RunState.isRepeating]
    · simp [hrun', RunState.idle]
    · rw [hbus, hrun']
      exact ⟨fun h => absurd (hr.symm.trans h) (by decide), nofun⟩
  | instruction hrun _ _ _ hu =>
    exact finish_inv (exec_wf hu hf) ((exec_continues hu).goesOn (.of_running (s.tick.fetched_run.trans hrun)))

/-- Settles O3, by cases over what a step can do. -/
theorem stepKeepsInvariant : Obligations.StepKeepsInvariant :=
  fun _ _ h => ⟨(stepped_of_step h).inv, (stepped_of_step h).params⟩

end Sys2Proof.Machine
end

section
/-!
PROOF. A step fetches and runs the instruction at CS:IP, then ends it (O6): the fetch and the advance past the
instruction's bytes, the run of the fetched instruction, and the end of the instruction, each said once.
-/

namespace Sys2Proof.Machine

variable (s : State)

/-! ## The fetch and the advance -/

/-- Once RESET has come nothing is fetched (R450). -/
theorem State.fetched_of_reset (h : s.bus.pins.reset = true) : s.fetched = s := by
  simp [State.fetched, State.fetchCode, h]

/-- The fetch acts on the bus only (R117). -/
theorem State.fetched_eq : s.fetched = { s with bus := s.fetched.bus } := s.fetchCode_eq 6

/-- The hidden state after the advance: `IPstart` where the prefixes begin (R14), TF noted (R404). -/
theorem State.advance_control (len : Nat) : (s.advance len).control =
    { s.control with ipStart := if s.prefixPending then s.ipStart else s.ip, trap := s.flags.TF } := rfl

/-- No address among those of the next `len` code bytes. -/
theorem not_any_codeAddr_iff (len a : Nat) :
    (!(List.range len).any fun k => a == (s.codeAddr k).toNat) = true ↔ ∀ k, k < len → a ≠ (s.codeAddr k).toNat := by
  simp

/-- The bytes of the instruction leave the queue. -/
theorem State.mem_advance_queue (len : Nat) (c : Host.Cell) :
    c ∈ (s.advance len).bus.queue ↔ c ∈ s.bus.queue ∧ ∀ k, k < len → c.1 ≠ (s.codeAddr k).toNat := by
  rw [← not_any_codeAddr_iff]
  exact List.mem_filter

/-- Their marks leave with them. -/
theorem State.mem_advance_stale (len : Nat) (a : Addr) :
    a ∈ (s.advance len).bus.stale ↔ a ∈ s.bus.stale ∧ ∀ k, k < len → a ≠ s.codeAddr k := by
  have e : (∀ k, k < len → a ≠ s.codeAddr k) ↔ ∀ k, k < len → a.toNat ≠ (s.codeAddr k).toNat := by
    simp only [ne_eq, BitVec.toNat_inj]
  rw [e, ← not_any_codeAddr_iff]
  exact List.mem_filter

/-! ## The run of what has been fetched -/

variable {s}

/-- What has been fetched runs where none of the refusals applies (R85, R308). -/
theorem State.runFetched_ok {i : Instr} {rest : List Byte} (hd : decode s.codeBytes = .ok i rest)
    (hstale : s.params.queueVisibility = .refuse → s.isStale (s.codeBytes.length - rest.length) = false)
    (hrep : s.rep.isSome = true → i.isPrefixByte = true ∨ i.isString = true) :
    s.runFetched = thenState (afterExec i) (exec i (s.advance (s.codeBytes.length - rest.length))) := by
  unfold State.runFetched
  rw [hd]
  have h1 : ¬(s.params.queueVisibility = .refuse ∧ s.isStale (s.codeBytes.length - rest.length) = true) :=
    fun ⟨hv, hx⟩ => absurd ((hstale hv).symm.trans hx) (by decide)
  have h2 : ¬(s.rep.isSome = true ∧ i.isPrefixByte = false ∧ i.isString = false) := by
    rintro ⟨hr, hp, hstr⟩
    simpa [hp, hstr] using hrep hr
  simp only [h1, h2, if_false]

/-- A running processor does not see RESET at the start of a step in which it is LOW after the fetch. -/
theorem State.reset_false_of_fetched (h : s.fetched.bus.pins.reset = false) : s.bus.pins.reset = false := by
  cases hr : s.bus.pins.reset with
  | false => rfl
  | true => exact absurd ((s.fetched_later.reset hr).symm.trans h) (by decide)

/-- RESET that comes before or during the fetch takes effect (R450). -/
theorem step_running_reset (hrun : s.run = .running) (h : s.tick.fetched.bus.pins.reset = true) :
    step s = .next s.tick.fetched.enterReset := by
  cases hr : s.tick.bus.pins.reset with
  | true => rw [step_reset s hr, s.tick.fetched_of_reset hr]
  | false => rw [step_running s hr hrun, State.runNext, if_pos h]

theorem step_running_fetched (hrun : s.run = .running) (h : s.tick.fetched.bus.pins.reset = false) :
    step s = s.tick.fetched.runFetched := by
  rw [step_running s (State.reset_false_of_fetched h) hrun, State.runNext, if_neg (by simp [h])]

/-! ## The end of an instruction -/

/-- Where the prefixes end with the instruction, as the statements say it (R116, R301). -/
theorem State.endInstruction_eq : s.endInstruction =
    match s.run with
    | .repeating _ _ | .waiting _ => s
    | .running | .halted | .inReset => unprefixed s := by
  unfold State.endInstruction
  cases s.run <;> rfl

/-- A halted processor that has given the bus away issues its halt cycle again, unless RESET has come (R387, R431). -/
theorem State.reissueHalt_spec (s : State) (q : Requests) : s.reissueHalt q =
    if s.run = .halted ∧ (!s.locked && (!q.rq0.isEmpty || !q.rq1.isEmpty)) = true ∧ s.bus.pins.reset = false then
      s.setBus { s.bus with log := .halt :: s.bus.log }
    else s := by
  unfold State.reissueHalt
  cases hrun : s.run with
  | halted =>
    have hq : (!s.locked && (!q.rq0.isEmpty || !q.rq1.isEmpty)) = !(s.locked || (q.rq0.isEmpty && q.rq1.isEmpty)) := by
      simp
    rw [hq]
    cases s.locked || (q.rq0.isEmpty && q.rq1.isEmpty) <;> cases hr : s.bus.pins.reset <;>
      simp [Bus.record, hr, State.setBus]
  | running | repeating op w | waiting next | inReset => simp

/-- RESET, or else recognition and then RESET if it has come meanwhile (R414, R450). -/
theorem State.recogniseUnlessReset_spec (h : State) :
    (h.bus.pins.reset = true → h.recogniseUnlessReset = intoReset h) ∧
    (h.bus.pins.reset = false →
      h.recogniseUnlessReset = if h.recognise.bus.pins.reset then intoReset h.recognise else h.recognise) := by
  unfold State.recogniseUnlessReset
  refine ⟨fun hr => ?_, fun hr => ?_⟩
  · rw [if_pos hr, h.settle_spec.1 hr]; rfl
  · rw [if_neg (by simp [hr])]; rfl

/-- Settles O6: the step by the fetch, the fetched instruction and its end. -/
theorem stepRunsDecodedInstruction : Obligations.StepRunsDecodedInstruction := by
  refine ⟨fun s hrun hr => step_running_reset hrun hr, fun s i rest => ?_, fun s => ?_⟩
  · intro u len v hr hrun hd hstale hrep
    have hu : u = { s with bus := u.bus } := s.tick.fetched_eq
    have hcode : ∀ k, u.codeAddr k = s.codeAddr k := fun k => by simp [u, State.codeAddr]
    refine ⟨?_, hu, ?_, s.tick.fetched_regs, s.tick.fetched_segs, s.tick.fetched_flags, ?_, rfl, fun c => ?_, fun a => ?_⟩
    · rw [step_running_fetched hrun hr]
      exact State.runFetched_ok hd hstale hrep
    · exact congrArg (· + BitVec.ofNat 16 len) s.tick.fetched_ip
    · exact (u.advance_control len).trans (by simp [u, State.prefixPending])
    · simpa only [hcode] using u.mem_advance_queue len c
    · simpa only [hcode] using u.mem_advance_stale len a
  · intro e a h
    have he : s.endInstruction = e := s.endInstruction_eq
    obtain ⟨-, hrun, -⟩ := s.endInstruction_spec
    rw [he] at hrun
    have hfinish : s.finish = h.recogniseUnlessReset := by
      rw [State.finish, he, State.reissueHalt_spec, State.setBus_run, hrun]
      rfl
    rw [hfinish]
    exact h.recogniseUnlessReset_spec

end Sys2Proof.Machine
end

section
/-!
PROOF. The state after reset (O2), the FLAGS image (O22) and the decision at a recognition point (O58).
-/

namespace Sys2Proof.Machine

/-! ## The state after reset -/

/-- Settles O2: nothing is in progress after reset, and RESET is LOW. -/
theorem resetSatisfiesInvariant : Obligations.ResetSatisfiesInvariant where
  memory := Memory.wf_reset
  inhibit := rfl
  trap := nofun
  repeated := nofun
  idle := nofun
  reset := ⟨nofun, nofun⟩

/-! ## The FLAGS image -/

/-- The nine flags as the number whose binary digits they are (R30). -/
def Flags.number (f : Flags) : Nat :=
  f.CF.toNat + 4 * f.PF.toNat + 16 * f.AF.toNat + 64 * f.ZF.toNat + 128 * f.SF.toNat + 256 * f.TF.toNat
    + 512 * f.IF.toNat + 1024 * f.DF.toNat + 2048 * f.OF.toNat

theorem Flags.toWord_eq (x : Word) (f : Flags) : f.toWord x = x &&& flagsXMask ||| BitVec.ofNat 16 f.number := rfl

/-- The binary digits of the number are the flags; those of the X positions are 0. -/
theorem Flags.number_testBit (f : Flags) :
    (f.number.testBit 0 = f.CF ∧ f.number.testBit 2 = f.PF ∧ f.number.testBit 4 = f.AF ∧ f.number.testBit 6 = f.ZF ∧
      f.number.testBit 7 = f.SF ∧ f.number.testBit 8 = f.TF ∧ f.number.testBit 9 = f.IF ∧ f.number.testBit 10 = f.DF ∧
      f.number.testBit 11 = f.OF) ∧
    ∀ i, flagsXMask.getLsbD i = true → f.number.testBit i = false := by
  have hCF := f.CF.toNat_le
  have hPF := f.PF.toNat_le
  have hAF := f.AF.toNat_le
  have hZF := f.ZF.toNat_le
  have hSF := f.SF.toNat_le
  have hTF := f.TF.toNat_le
  have hIF := f.IF.toNat_le
  have hDF := f.DF.toNat_le
  have hOF := f.OF.toNat_le
  have hx : ∀ i, i < 16 → flagsXMask.getLsbD i = true →
      i = 1 ∨ i = 3 ∨ i = 5 ∨ i = 12 ∨ i = 13 ∨ i = 14 ∨ i = 15 := by decide
  constructor
  · and_intros <;> (rw [Bool.eq_iff_iff, ← Bool.toNat_eq_one, ← Bool.toNat_eq_one, Nat.toNat_testBit, Flags.number]; omega)
  · intro i hi
    have hlt : i < 16 := BitVec.lt_of_getLsbD hi
    obtain rfl | rfl | rfl | rfl | rfl | rfl | rfl := hx i hlt hi <;>
      (simp only [Nat.testBit_eq_decide_div_mod_eq, decide_eq_false_iff_not, Flags.number]; omega)

/-- An X position of the image is that of `FLAGS_X`, every other one a digit of the number (R32). -/
theorem Flags.toWord_getLsbD (x : Word) (f : Flags) (i : Nat) (hi : i < 16) :
    (f.toWord x).getLsbD i = if flagsXMask.getLsbD i then x.getLsbD i else f.number.testBit i := by
  have hx := (f.number_testBit).2 i
  rw [Flags.toWord_eq, BitVec.getLsbD_or, BitVec.getLsbD_and, BitVec.getLsbD_ofNat]
  cases hm : flagsXMask.getLsbD i with
  | true => simp [hx hm]
  | false => simp [hi]

/-- The flag positions of the image hold the flags (R30). -/
theorem Flags.toWord_flags (x : Word) (f : Flags) :
    (f.toWord x).getLsbD 0 = f.CF ∧ (f.toWord x).getLsbD 2 = f.PF ∧ (f.toWord x).getLsbD 4 = f.AF ∧
    (f.toWord x).getLsbD 6 = f.ZF ∧ (f.toWord x).getLsbD 7 = f.SF ∧ (f.toWord x).getLsbD 8 = f.TF ∧
    (f.toWord x).getLsbD 9 = f.IF ∧ (f.toWord x).getLsbD 10 = f.DF ∧ (f.toWord x).getLsbD 11 = f.OF := by
  have hflag : ∀ i, i < 16 → flagsXMask.getLsbD i = false → (f.toWord x).getLsbD i = f.number.testBit i :=
    fun i hi hm => by rw [f.toWord_getLsbD x i hi, hm]; rfl
  obtain ⟨⟨hCF, hPF, hAF, hZF, hSF, hTF, hIF, hDF, hOF⟩, -⟩ := f.number_testBit
  exact ⟨(hflag 0 (by decide) (by decide)).trans hCF, (hflag 2 (by decide) (by decide)).trans hPF,
    (hflag 4 (by decide) (by decide)).trans hAF, (hflag 6 (by decide) (by decide)).trans hZF,
    (hflag 7 (by decide) (by decide)).trans hSF, (hflag 8 (by decide) (by decide)).trans hTF,
    (hflag 9 (by decide) (by decide)).trans hIF, (hflag 10 (by decide) (by decide)).trans hDF,
    (hflag 11 (by decide) (by decide)).trans hOF⟩

/-- The X positions of the image are those of `FLAGS_X` (R32). -/
theorem Flags.toWord_and_mask (x : Word) (f : Flags) : f.toWord x &&& flagsXMask = x &&& flagsXMask := by
  apply BitVec.eq_of_getLsbD_eq
  intro i hi
  rw [BitVec.getLsbD_and, BitVec.getLsbD_and, f.toWord_getLsbD x i hi]
  cases flagsXMask.getLsbD i <;> simp

/-- Reading the image gives the flags back (R183). -/
theorem Flags.ofWord_toWord (x : Word) (f : Flags) : Flags.ofWord (f.toWord x) = f := by
  obtain ⟨hCF, hPF, hAF, hZF, hSF, hTF, hIF, hDF, hOF⟩ := f.toWord_flags x
  rw [Flags.ofWord, hCF, hPF, hAF, hZF, hSF, hTF, hIF, hDF, hOF]

/-- Settles O22, from the bits of the image. -/
theorem flagsImage : Obligations.FlagsImage :=
  fun f x => ⟨f.ofWord_toWord x, f.toWord_and_mask x, f.toWord_flags x⟩

/-! ## Recognition -/

/-- When nothing comes from outside, the acknowledge sequence only records its two cycles (R409). -/
theorem Bus.Calm.acknowledge {b : Bus} (h : b.Calm) (v : View) (ty : Byte) :
    b.acknowledge v ty = { b with log := .acknowledge (some ty) :: .acknowledge none :: b.log } := by
  have hrecorded : ({ b with log := .acknowledge none :: b.log } : Bus).Calm := h.of_same rfl rfl rfl
  simp only [Bus.acknowledge, h.start, h.record, hrecorded.between, hrecorded.record]

variable (s : State)

/-- The saved IP of R414, as the statements say it. -/
theorem State.savedIp_eq : s.savedIp = match s.run with | .repeating _ _ => s.ip - 2 | _ => s.ip := by
  unfold State.savedIp
  cases s.run <;> rfl

/-- An inhibit skips recognition once (R43). -/
theorem State.recognise_inhibit (h : s.inhibit = true) : s.recognise = { s with inhibit := false, trap := false } := by
  simp only [State.recognise, h, if_true]

/-- A latched NMI is taken as type 2 (R405). -/
theorem State.recognise_nmi (hi : s.inhibit = false) (hn : s.bus.nmiLatch = true) :
    s.recognise = (interruptedAt s.takeNmi).interruptEntry 2 s.savedIp := by
  simp only [State.recognise, hi, hn, Bool.false_eq_true, if_false, if_true, State.interrupted_spec]

/-- INTR with IF = 1 is taken as the type on the bus, after the acknowledge (R408, R409). -/
theorem State.recognise_intr {ty : Byte} (hi : s.inhibit = false) (hn : s.bus.nmiLatch = false)
    (hf : s.flags.IF = true) (ht : s.bus.pins.intr = some ty) :
    s.recognise = ((interruptedAt s).acknowledge ty).interruptEntry ty s.savedIp := by
  simp only [State.recognise, hi, hn, hf, ht, Bool.false_eq_true, if_false, State.interrupted_spec]

/-- Where there is neither, TF at the start of the instruction counts (R413). -/
theorem State.recognise_trap (hi : s.inhibit = false) (hn : s.bus.nmiLatch = false)
    (h : s.flags.IF = false ∨ s.bus.pins.intr = none) :
    s.recognise = if s.trap then (interruptedAt s).singleStepEntry s.savedIp else { s with trap := false } := by
  simp only [State.recognise, hi, hn, Bool.false_eq_true, if_false, State.interrupted_spec]
  obtain h | h := h <;> rw [h]
  cases s.flags.IF <;> rfl

/-- Settles O58: each branch of the decision by the entry it makes. -/
theorem recognition : Obligations.Recognition := by
  refine ⟨fun s => ?_, fun s v ty h => h.calm.acknowledge v ty⟩
  intro saved p
  have hsaved : s.savedIp = saved := s.savedIp_eq
  have hstep (h : s.flags.IF = false ∨ s.bus.pins.intr = none) (hi : s.inhibit = false) (hn : s.bus.nmiLatch = false) :
      if s.trap = true then SingleStepTaken saved p s.recognise else s.recognise = { s with trap := false } := by
    rw [s.recognise_trap hi hn h, hsaved]
    split
    · exact State.singleStepEntry_spec p saved
    · rfl
  split
  · next hi => exact s.recognise_inhibit hi
  · next hi =>
    have hi : s.inhibit = false := by simpa using hi
    split
    · next hn =>
      rw [s.recognise_nmi hi hn, hsaved]
      exact State.interruptEntry_spec _ 2 saved
    · next hn =>
      have hn : s.bus.nmiLatch = false := by simpa using hn
      split
      · next ty hf ht =>
        rw [s.recognise_intr hi hn hf ht, hsaved]
        exact State.interruptEntry_spec (p.acknowledge ty) ty saved
      · next hno =>
        refine hstep ?_ hi hn
        cases hf : s.flags.IF with
        | false => exact .inl rfl
        | true =>
          cases ht : s.bus.pins.intr with
          | none => exact .inr rfl
          | some ty => exact absurd ht (hno ty hf)

end Sys2Proof.Machine
end

section
/-!
PROOF. What the bus records and which samples it uses up in each part of a bus cycle, said once (`Bus.Runs`), and from
it the status lines (O13).
-/

namespace Sys2Proof.Machine

/-! ## The cycles recorded and the samples used -/

/-- The cycles that may come between those of an instruction: fetches and other masters' (R80, R84, logs 9 and 14). -/
def BusCycle.comesBetween : BusCycle → Bool
  | .fetch _ _ | .master _ => true
  | .read _ _ _ | .write _ _ _ | .acknowledge _ | .halt => false

/-- From `b` to `c` the record has grown by cycles that satisfy `P`, among those that may come between, and samples
have been used up; where none has been, the pins are as they were. -/
structure Bus.Runs (P : BusCycle → Prop) (b c : Bus) : Prop where
  log : ∃ l, c.log = l ++ b.log ∧ ∀ x, x ∈ l → x.comesBetween = true ∨ P x
  env : ∃ l, b.env = l ++ c.env ∧ (l = [] → c.pins = b.pins)

section Runs

variable {P : BusCycle → Prop} {b c d : Bus}

/-- A part of a cycle at which no sample is taken. -/
theorem Bus.Runs.of_log {l : List BusCycle} (hlog : c.log = l ++ b.log)
    (hl : ∀ x, x ∈ l → x.comesBetween = true ∨ P x) (henv : c.env = b.env) (hpins : c.pins = b.pins) : b.Runs P c :=
  ⟨⟨l, hlog, hl⟩, ⟨[], henv.symm, fun _ => hpins⟩⟩

theorem Bus.Runs.of_same (hlog : c.log = b.log) (henv : c.env = b.env) (hpins : c.pins = b.pins) : b.Runs P c :=
  .of_log (l := []) hlog nofun henv hpins

theorem Bus.Runs.refl (b : Bus) : b.Runs P b := .of_same rfl rfl rfl

theorem Bus.Runs.trans (h : b.Runs P c) (k : c.Runs P d) : b.Runs P d := by
  obtain ⟨⟨l, hlog, hl⟩, m, henv, hpins⟩ := h
  obtain ⟨⟨l', hlog', hl'⟩, m', henv', hpins'⟩ := k
  refine ⟨⟨l' ++ l, by rw [hlog', hlog, List.append_assoc], fun x hx => ?_⟩,
    m ++ m', by rw [henv, henv', List.append_assoc], fun h => ?_⟩
  · exact (List.mem_append.mp hx).elim (hl' x) (hl x)
  · obtain ⟨hm, hm'⟩ := List.append_eq_nil_iff.mp h
    exact (hpins' hm').trans (hpins hm)

theorem comesBetween_of_withoutFetches {f : List BusCycle} (h : withoutFetches f = []) {x : BusCycle} (hx : x ∈ f) :
    x.comesBetween = true := by
  have hfetch := List.filter_eq_nil_iff.mp h x hx
  cases x with
  | fetch => rfl
  | _ => simp at hfetch

theorem comesBetween_of_masterLog {l : List MasterCycle} {x : BusCycle} (hx : x ∈ masterLog l) :
    x.comesBetween = true := by
  simp only [masterLog, List.mem_reverse, List.mem_map] at hx
  obtain ⟨m, -, rfl⟩ := hx
  rfl

variable (b) (v : View)

theorem Bus.sample_runs : b.Runs P b.sample := by
  cases h : b.env with
  | nil => rw [b.sample_nil h]; exact .refl b
  | cons x rest =>
    rw [b.sample_spec x rest h]
    exact ⟨⟨[], rfl, nofun⟩, [x], h, nofun⟩

theorem Bus.serve_runs (l : List MasterCycle) : b.Runs P (b.serve v l) := by
  obtain ⟨m, q, st, as, n, f, h, hf⟩ := b.serve_spec v l
  rw [h]
  refine .of_log (l := masterLog l ++ f) (List.append_assoc _ _ _).symm (fun x hx => .inl ?_) rfl rfl
  exact (List.mem_append.mp hx).elim comesBetween_of_masterLog (comesBetween_of_withoutFetches hf)

theorem Bus.grant_runs : b.Runs P (b.grant v) := by
  unfold Bus.grant
  split
  · exact .refl b
  · exact (b.serve_runs v _).trans (.of_same rfl rfl rfl)

theorem Bus.grantSystem_runs : b.Runs P (b.grantSystem v) := by
  unfold Bus.grantSystem
  split
  · exact .refl b
  · exact (b.serve_runs v _).trans (.of_same rfl rfl rfl)

theorem Bus.release_runs : b.Runs P (b.release v) := b.sample_runs.trans (Bus.grant_runs _ v)

theorem Bus.fetch_runs (w : Width) (k : Nat) : b.Runs P (b.fetch v w k) := by
  obtain ⟨q, as, n, f, h, hf⟩ := b.fetch_spec v w k
  rw [h]
  exact .of_log rfl (fun x hx => .inl (comesBetween_of_withoutFetches hf hx)) rfl rfl

theorem Bus.tick_runs : b.Runs P (b.tick v) := by
  unfold Bus.tick
  generalize b.env.length = n
  induction n generalizing b with
  | zero => exact b.release_runs v
  | succ n ih =>
    simp only [Bus.tickWithin]
    split
    · next c e =>
      obtain ⟨-, -, w, k, -, rfl⟩ := Bus.fetchAhead_spec e
      exact ((b.release_runs v).trans (Bus.fetch_runs _ v w k)).trans (ih _)
    · exact b.release_runs v

theorem Bus.start_runs : b.Runs P (b.start v) := by
  unfold Bus.start
  split
  · exact .refl b
  · exact b.tick_runs v

theorem Bus.between_runs : b.Runs P (b.between v) := by
  unfold Bus.between
  split
  · exact .refl b
  · exact b.sample_runs.trans (Bus.grantSystem_runs _ v)

theorem Bus.record_runs {x : BusCycle} (h : P x) : b.Runs P (b.record x) := by
  unfold Bus.record
  split
  · exact .refl b
  · exact .of_log (l := [x]) rfl (fun y hy => .inr (List.mem_singleton.mp hy ▸ h)) rfl rfl

theorem Bus.taken_runs (l : Location) : b.Runs P (b.taken v l) := by
  unfold Bus.taken
  split
  · exact .of_same rfl rfl rfl
  · obtain ⟨as, n, h⟩ := b.found_spec v l
    rw [h]
    exact .of_same rfl rfl rfl

theorem Bus.put_runs (l : Location) (x : Byte) : b.Runs P (b.put v l x) := by
  cases l with
  | port p => exact .refl b
  | mem a =>
    simp only [Bus.put]
    split
    · obtain ⟨q, st, n, f, h, hf⟩ := b.storeByte_spec v a x
      rw [h]
      exact .of_log rfl (fun x hx => .inl (comesBetween_of_withoutFetches hf hx)) rfl rfl
    · exact .refl b
    · exact .refl b

theorem Bus.give_runs (l : Location) (x : Byte) : b.Runs P (b.give v l x) := by
  unfold Bus.give
  split
  · exact (Bus.Runs.of_same (b := b) (c := { b with draws := b.draws + 1 }) rfl rfl rfl).trans (Bus.put_runs _ v l _)
  · exact b.put_runs v l x

variable {x : Access}

/-- A read: its own cycles are those of its access. -/
theorem Bus.afterRead_runs (h : ∀ t, P (.read x.seg x.lo t) ∧ P (.read x.seg x.hi t)) (w : Width) :
    b.Runs P (b.afterRead v w x) := by
  cases w with
  | byte => exact ((b.start_runs v).trans (Bus.taken_runs _ v _)).trans (Bus.record_runs _ (h _).1)
  | word =>
    have hlow (c : Bus) : c.Runs P (c.takenLow v x) := by
      simp only [Bus.takenLow]
      split
      · exact ((c.taken_runs v _).trans (Bus.record_runs _ (h _).1)).trans (Bus.between_runs _ v)
      · exact c.taken_runs v _
    refine (((b.start_runs v).trans (hlow _)).trans (Bus.taken_runs _ v _)).trans (Bus.record_runs _ ?_)
    split
    · exact (h _).2
    · exact (h _).1

/-- A write: the same. -/
theorem Bus.write_runs (h : ∀ t, P (.write x.seg x.lo t) ∧ P (.write x.seg x.hi t)) (w : Width) (u : Operand w) :
    b.Runs P (b.write v w x u) := by
  cases w with
  | byte => exact ((b.start_runs v).trans (Bus.give_runs _ v _ _)).trans (Bus.record_runs _ (h _).1)
  | word =>
    have hlow := (b.start_runs (P := P) v).trans (Bus.give_runs _ v x.lo (lowByte u))
    simp only [Bus.write]
    split
    · exact (((hlow.trans (Bus.record_runs _ (h _).1)).trans (Bus.between_runs _ v)).trans
        (Bus.give_runs _ v _ _)).trans (Bus.record_runs _ (h _).2)
    · exact (hlow.trans (Bus.give_runs _ v _ _)).trans (Bus.record_runs _ (h _).1)

theorem Bus.haltCycle_runs (h : P .halt) : b.Runs P (b.haltCycle v) := (b.start_runs v).trans (Bus.record_runs _ h)

theorem Bus.acknowledge_runs (h : ∀ t, P (.acknowledge t)) (ty : Byte) : b.Runs P (b.acknowledge v ty) :=
  (((b.start_runs v).trans (Bus.record_runs _ (h _))).trans (Bus.between_runs _ _)).trans (Bus.record_runs _ (h _))

end Runs

/-! ## The status lines -/

/-- The cycles recorded, as the statement of the status lines sorts them. -/
theorem Bus.Runs.marked {seg : Option SReg} {b c : Bus} (h : b.Runs (fun x => x.s4s3 = some (segmentStatus seg)) c) :
    ∃ l, c.log = l ++ b.log ∧
      ∀ x, x ∈ l → (∃ d, x = .master d) ∨ (∃ a d, x = .fetch a d) ∨ x.s4s3 = some (segmentStatus seg) := by
  obtain ⟨l, hlog, hl⟩ := h.log
  refine ⟨l, hlog, fun x hx => ?_⟩
  obtain hb | hs := hl x hx
  · cases x with
    | master d => exact .inl ⟨d, rfl⟩
    | fetch a d => exact .inr (.inl ⟨a, d, rfl⟩)
    | _ => cases hb
  · exact .inr (.inr hs)

/-- Settles O13: the codes by definition, and the cycles of each access by what it runs. -/
theorem statusLines : Obligations.StatusLines := by
  refine ⟨⟨rfl, rfl, rfl, rfl, rfl⟩, fun _ => rfl, fun _ _ => rfl, fun _ => rfl, fun s => ?_⟩
  intro marked
  refine ⟨fun w sr off v => ⟨?_, ?_⟩, fun w p v => ⟨?_, ?_⟩, fun a => ?_, fun ty => ?_, ?_⟩
  · exact (Bus.afterRead_runs s.bus s.view (x := s.operandAt sr off) (fun _ => ⟨rfl, rfl⟩) w).marked
  · exact (Bus.write_runs s.bus s.view (x := s.operandAt sr off) (fun _ => ⟨rfl, rfl⟩) w v).marked
  · exact (Bus.afterRead_runs s.bus s.view (x := portAt p) (fun _ => ⟨rfl, rfl⟩) w).marked
  · exact (Bus.write_runs s.bus s.view (x := portAt p) (fun _ => ⟨rfl, rfl⟩) w v).marked
  · exact (Bus.afterRead_runs s.bus s.view (x := wordAt a) (fun _ => ⟨rfl, rfl⟩) .word).marked
  · exact (s.bus.acknowledge_runs s.view (fun _ => rfl) ty).marked
  · exact (Bus.haltCycle_runs (P := fun x => x.s4s3 = some (segmentStatus none)) s.bus s.view rfl).marked

end Sys2Proof.Machine
end

section
/-!
PROOF. Who may change what (O24): the bus by the cycles an instruction runs, the flags and the segment registers by
what the shared operations leave alone.
-/

namespace Sys2Proof.Machine

/-! ## What an instruction does to the bus -/

/-- The two bytes of an access are in memory. -/
def Access.InMemory (x : Access) : Prop := ∃ a b, x.lo = .mem a ∧ x.hi = .mem b

/-- The bus after some of what an instruction may do there, one after the other: read and write operands, in memory or
where `ports` says so anywhere, leave for other instructions, issue the halt cycle, take a latched NMI. -/
inductive Bus.Performs (ports : Bool) (b : Bus) : Bus → Prop where
  | nothing : Bus.Performs ports b b
  | read {c : Bus} (v : View) (w : Width) (x : Access) : Bus.Performs ports b c → x.InMemory ∨ ports = true →
      Bus.Performs ports b (c.afterRead v w x)
  | write {c : Bus} (v : View) (w : Width) (x : Access) (u : Operand w) : Bus.Performs ports b c →
      x.InMemory ∨ ports = true → Bus.Performs ports b (c.write v w x u)
  | leave {c : Bus} (v : View) : Bus.Performs ports b c →
      Bus.Performs ports b { c.start v with queue := [], stale := [] }
  | haltCycle {c : Bus} (v : View) : Bus.Performs ports b c → Bus.Performs ports b (c.haltCycle v)
  | takeNmi {c : Bus} : Bus.Performs ports b c → Bus.Performs ports b { c with nmiLatch := false }

section Performs

variable {p : Bool} {b : Bus} {s : State}

/-- What is recorded and sampled meanwhile: without ports, no cycle of the processor on a port. -/
theorem Bus.Performs.runs {c : Bus} (h : Bus.Performs p b c) :
    b.Runs (fun x => p = true ∨ x.onPort = false) c := by
  induction h with
  | nothing => exact .refl b
  | read v w x _ hx ih =>
    refine ih.trans (Bus.afterRead_runs _ v (fun t => ?_) w)
    obtain ⟨lo, hi, hlo, hhi⟩ | hp := hx
    · rw [hlo, hhi]; exact ⟨.inr rfl, .inr rfl⟩
    · exact ⟨.inl hp, .inl hp⟩
  | write v w x u _ hx ih =>
    refine ih.trans (Bus.write_runs _ v (fun t => ?_) w u)
    obtain ⟨lo, hi, hlo, hhi⟩ | hp := hx
    · rw [hlo, hhi]; exact ⟨.inr rfl, .inr rfl⟩
    · exact ⟨.inl hp, .inl hp⟩
  | leave v _ ih => exact (ih.trans (Bus.start_runs _ v)).trans (.of_same rfl rfl rfl)
  | haltCycle v _ ih => exact ih.trans (Bus.haltCycle_runs _ v (.inr rfl))
  | takeNmi _ ih => exact ih.trans (.of_same rfl rfl rfl)

theorem State.operandAt_inMemory (sr : SReg) (off : Word) : (s.operandAt sr off).InMemory := ⟨_, _, rfl, rfl⟩

theorem wordAt_inMemory (a : Addr) : (wordAt a).InMemory := ⟨_, _, rfl, rfl⟩

theorem performs_afterRead (h : Bus.Performs p b s.bus) (w : Width) (sr : SReg) (off : Word) :
    Bus.Performs p b (s.afterRead w sr off).bus := .read _ _ _ h (.inl (s.operandAt_inMemory sr off))

theorem performs_writeSeg (h : Bus.Performs p b s.bus) (w : Width) (sr : SReg) (off : Word) (u : Operand w) :
    Bus.Performs p b (s.writeSeg w sr off u).bus := .write _ _ _ _ h (.inl (s.operandAt_inMemory sr off))

theorem performs_afterVector (h : Bus.Performs p b s.bus) (a : Addr) : Bus.Performs p b (s.afterVector a).bus := by
  rw [s.afterVector_bus]
  exact .read _ _ _ h (.inl (wordAt_inMemory a))

theorem performs_afterPort (h : Bus.Performs true b s.bus) (w : Width) (q : Word) :
    Bus.Performs true b (s.afterPort w q).bus := .read _ _ _ h (.inr rfl)

theorem performs_writePort (h : Bus.Performs true b s.bus) (w : Width) (q : Word) (u : Operand w) :
    Bus.Performs true b (s.writePort w q u).bus := .write _ _ _ _ h (.inr rfl)

theorem performs_afterMem (h : Bus.Performs p b s.bus) (w : Width) (m : Mem) :
    Bus.Performs p b (s.afterMem w m).bus := performs_afterRead h _ _ _

theorem performs_afterPointer (h : Bus.Performs p b s.bus) (m : Mem) :
    Bus.Performs p b (s.afterPointer m).bus := performs_afterRead (performs_afterMem h _ _) _ _ _

theorem performs_afterRM (h : Bus.Performs p b s.bus) (w : Width) (rm : RM) :
    Bus.Performs p b (s.afterRM w rm).bus := by
  cases rm with
  | reg r => exact h
  | mem m => exact performs_afterMem h w m

theorem performs_writeRM (h : Bus.Performs p b s.bus) (w : Width) (rm : RM) (u : Operand w) :
    Bus.Performs p b (s.writeRM w rm u).bus := by
  cases rm with
  | reg r => simpa [State.writeRM] using h
  | mem m => exact performs_writeSeg h _ _ _ _

theorem performs_push16 (h : Bus.Performs p b s.bus) (u : Word) : Bus.Performs p b (s.push16 u).bus :=
  performs_writeSeg (s := s.setReg16 .sp (s.reg16 .sp - 2)) h _ _ _ _

theorem performs_pushFar (h : Bus.Performs p b s.bus) : Bus.Performs p b s.pushFar.bus :=
  performs_push16 (performs_push16 h _) _

theorem performs_dropTop (h : Bus.Performs p b s.bus) : Bus.Performs p b s.dropTop.bus :=
  performs_afterRead h .word .ss (s.reg16 .sp)

theorem performs_jump (h : Bus.Performs p b s.bus) (off : Word) : Bus.Performs p b (s.jump off).bus := .leave _ h

theorem performs_jumpFar (h : Bus.Performs p b s.bus) (sel off : Word) : Bus.Performs p b (s.jumpFar sel off).bus :=
  .leave _ h

theorem performs_jumpIf (h : Bus.Performs p b s.bus) (c : Bool) (d : Byte) :
    Bus.Performs p b (s.jumpIf c d).bus := by
  unfold State.jumpIf
  split
  · exact performs_jump h _
  · exact h

theorem performs_farReturn (h : Bus.Performs p b s.bus) : Bus.Performs p b s.farReturn.bus :=
  performs_jumpFar (performs_dropTop (performs_dropTop h)) _ _

theorem performs_interruptReturn (h : Bus.Performs p b s.bus) : Bus.Performs p b s.interruptReturn.bus :=
  .leave _ (performs_dropTop (performs_dropTop (performs_dropTop h)))

theorem performs_enterOnce (h : Bus.Performs p b s.bus) (ty : Byte) (saved : Word) :
    Bus.Performs p b (s.enterOnce ty saved).bus := by
  have hframe : Bus.Performs p b (s.pushFrame saved).bus := by
    rw [(s.pushFrame_spec saved).2.1]
    exact performs_push16 (performs_push16 (performs_push16 h _) _) _
  rw [s.enterOnce_bus]
  exact .leave _ (performs_afterVector (performs_afterVector hframe _) _)

theorem performs_enterWithin (n : Nat) (h : Bus.Performs p b s.bus) (ty : Byte) (saved : Word) :
    Bus.Performs p b (s.enterWithin n ty saved).bus := by
  induction n generalizing s ty saved with
  | zero => exact performs_enterOnce h ty saved
  | succ n ih =>
    have hentered := performs_enterOnce h ty saved
    simp only [State.enterWithin]
    split
    · exact ih (.takeNmi hentered) _ _
    · split
      · exact ih hentered _ _
      · exact hentered

theorem performs_interruptEntry (h : Bus.Performs p b s.bus) (ty : Byte) (saved : Word) :
    Bus.Performs p b (s.interruptEntry ty saved).bus := performs_enterWithin _ h ty saved

theorem performs_finishDivision (h : Bus.Performs p b s.bus) (w : Width) (out : Division w) :
    Bus.Performs p b (s.finishDivision w out).bus := by
  cases out with
  | none =>
    simp only [State.finishDivision, State.divideError]
    split <;> exact performs_interruptEntry (by simpa using h) _ _
  | some qr =>
    rw [(s.finishDivision_some w qr.1 qr.2).2.1]
    exact h

theorem performs_aluToRM (h : Bus.Performs p b s.bus) (o : AluOp) (w : Width) (rm : RM) (src : Operand w) :
    Bus.Performs p b (aluToRM o w rm src s).bus := by
  have hread := performs_afterRM h w rm
  simp only [aluToRM]
  split
  · exact performs_writeRM (by simpa using hread) _ _ _
  · simpa using hread

@[simp] theorem aluToReg_bus (o : AluOp) (w : Width) (r : RegNum) (src : Operand w) :
    (aluToReg o w r src s).bus = s.bus := by
  simp only [aluToReg]
  split <;> simp

theorem performs_aluRmReg (h : Bus.Performs p b s.bus) (o : AluOp) (d : Dir) (w : Width) (r : RegNum)
    (rm : RM) : Bus.Performs p b (aluRmReg o d w r rm s).bus := by
  cases d with
  | fromReg => exact performs_aluToRM h o w rm _
  | toReg => simpa [aluRmReg] using performs_afterRM h w rm

theorem performs_shiftRM (h : Bus.Performs p b s.bus) (o : ShiftOp) (k : Count) (w : Width) (rm : RM) :
    Bus.Performs p b (shiftRM o k w rm s).bus := by
  have hread := performs_afterRM h w rm
  simp only [shiftRM]
  split
  · exact hread
  · exact performs_writeRM (by simpa using hread) _ _ _

/-- A turn of the repeat loop runs the cycles of its element, or none. -/
theorem performs_repeatString (hs : Bus.Performs p b s.bus) (op : StringOp) (w : Width) (once : State → State)
    (honce : Bus.Performs p b (once s).bus) :
    Bus.Performs p b (repeatString op w once s).bus := by
  simp only [repeatString]
  split
  · exact honce
  · split
    · exact hs
    · split <;> simpa using honce

end Performs

/-- What an instruction does to the bus; only IN and OUT reach the ports. -/
theorem exec_performs {i : Instr} {s t : State} (h : exec i s = .next t) :
    Bus.Performs (reachesPorts i) s.bus t.bus := by
  have hs {p : Bool} : Bus.Performs p s.bus s.bus := .nothing
  cases i
  case addRmReg | adcRmReg | subRmReg | sbbRmReg | cmpRegRm | cmpRmReg | andRmReg | orRmReg | xorRmReg | testRmReg =>
    cases h; exact performs_aluRmReg hs _ _ _ _ _
  case addRmImm | adcRmImm | subRmImm | sbbRmImm | cmpRmImm | andRmImm | orRmImm | xorRmImm | testRmImm =>
    cases h; exact performs_aluToRM hs _ _ _ _
  case addAccImm | adcAccImm | subAccImm | sbbAccImm | cmpAccImm | andAccImm | orAccImm | xorAccImm | testAccImm =>
    cases h; simpa [aluAccImm] using hs
  case shlRm | shrRm | sarRm | rolRm | rorRm | rclRm | rcrRm => cases h; exact performs_shiftRM hs _ _ _ _
  case movs =>
    cases h; exact performs_repeatString hs _ _ _ (performs_writeSeg (performs_afterRead hs _ _ _) _ _ _ _)
  case cmps =>
    cases h; exact performs_repeatString hs _ _ _ (performs_afterRead (performs_afterRead hs _ _ _) _ _ _)
  case scas => cases h; exact performs_repeatString hs _ _ _ (performs_afterRead hs _ _ _)
  case lods =>
    cases h
    refine performs_repeatString hs _ _ _ ?_
    simpa [lodsOnce] using performs_afterRead hs _ _ _
  case stos => cases h; exact performs_repeatString hs _ _ _ (performs_writeSeg hs _ _ _ _)
  case jo | jno | jb | jnb | je | jne | jbe | jnbe | js | jns | jp | jnp | jl | jnl | jle | jnle | jcxz =>
    cases h; exact performs_jumpIf hs _ _
  case loop | loopz | loopnz => cases h; exact performs_jumpIf (s := s.countCx) hs _ _
  case movRmReg d w r rm =>
    cases d
    · cases h; exact performs_writeRM hs _ _ _
    · cases h; simpa using performs_afterRM hs w rm
  case movRmImm | movRmSreg => cases h; exact performs_writeRM hs _ _ _
  case notRm => cases h; exact performs_writeRM (performs_afterRM hs _ _) _ _ _
  case incRm w rm | decRm w rm | negRm w rm =>
    cases h; exact performs_writeRM (by simpa using performs_afterRM hs w rm) _ _ _
  case xchgRmReg => cases h; simpa using performs_writeRM (performs_afterRM hs _ _) _ _ _
  case mulRm w rm | imulRm w rm => cases h; simpa using performs_afterRM hs w rm
  case divRm | idivRm => cases h; exact performs_finishDivision (performs_afterRM hs _ _) _ _
  case esc => cases h; exact performs_afterRM hs _ _
  case movSregRm sr rm => cases sr <;> cases h <;> exact performs_afterRM hs _ _
  case popSreg sr => cases sr <;> cases h <;> exact performs_dropTop hs
  case movAccMem | xlat => cases h; simpa using performs_afterRead hs _ _ _
  case movMemAcc => cases h; exact performs_writeSeg hs _ _ _ _
  case lds r m | les r m => cases h; exact performs_afterPointer hs m
  case inFixed | inVariable =>
    cases h
    simp only [State.setAcc_bus]
    exact performs_afterPort hs _ _
  case outFixed | outVariable => cases h; exact performs_writePort hs _ _ _
  case pushRm rm =>
    cases rm with
    | reg r => cases h; exact performs_push16 hs _
    | mem m => cases h; exact performs_push16 (performs_afterMem hs _ _) _
  case pushReg | pushSreg | pushf => cases h; exact performs_push16 hs _
  case popReg | popf => cases h; exact performs_dropTop hs
  case popRm => cases h; exact performs_writeRM (performs_dropTop hs) _ _ _
  case callNear => cases h; exact performs_jump (performs_push16 hs _) _
  case callRm => cases h; exact performs_jump (performs_push16 (performs_afterRM hs _ _) _) _
  case callFar => cases h; exact performs_jumpFar (performs_pushFar hs) _ _
  case callMem m => cases h; exact performs_jumpFar (performs_pushFar (performs_afterPointer hs m)) _ _
  case jmpNear | jmpShort => cases h; exact performs_jump hs _
  case jmpRm => cases h; exact performs_jump (performs_afterRM hs _ _) _
  case jmpFar => cases h; exact performs_jumpFar hs _ _
  case jmpMem m => cases h; exact performs_jumpFar (performs_afterPointer hs m) _ _
  case ret => cases h; exact performs_jump (performs_dropTop hs) _
  case retImm => cases h; exact performs_jump (performs_dropTop hs) s.top16
  case retf | retfImm => cases h; exact performs_farReturn hs
  case iret => cases h; exact performs_interruptReturn hs
  case intType | int3 => cases h; exact performs_interruptEntry hs _ _
  case into =>
    cases h
    split
    · exact performs_interruptEntry hs _ _
    · exact hs
  case hlt => cases h; exact .haltCycle _ hs
  case wait =>
    simp only [exec, execWait] at h
    split at h <;> (cases h; exact hs)
  case aaa | aas =>
    cases h
    simp only [State.setFreeFlags_bus, State.setReg8_bus]
    split <;> simpa using hs
  all_goals (cases h; simpa using hs)

theorem eq_reg_of_inMemory {rm : RM} (h : inMemory rm = false) : ∃ r, rm = .reg r := by
  cases rm with
  | reg r => exact ⟨r, rfl⟩
  | mem m => cases h

section Registers

variable (s : State) (w : Width) (r : RegNum)

@[simp] theorem State.afterRM_reg_eq : s.afterRM w (.reg r) = s := rfl

@[simp] theorem State.writeRM_reg_eq (v : Operand w) : s.writeRM w (.reg r) v = s.setReg w r v := rfl

@[simp] theorem aluToRM_reg_bus (o : AluOp) (src : Operand w) : (aluToRM o w (.reg r) src s).bus = s.bus := by
  simp only [aluToRM]
  split <;> simp

@[simp] theorem aluRmReg_reg_bus (o : AluOp) (d : Dir) (q : RegNum) :
    (aluRmReg o d w q (.reg r) s).bus = s.bus := by
  cases d <;> simp [aluRmReg]

@[simp] theorem shiftRM_reg_bus (o : ShiftOp) (k : Count) : (shiftRM o k w (.reg r) s).bus = s.bus := by
  simp only [shiftRM]
  split <;> simp

end Registers

/-- An instruction that runs no bus cycle and transfers no control leaves the bus as it was. -/
theorem exec_bus {i : Instr} {s t : State} (h : exec i s = .next t) (hu : usesBus i = false) : t.bus = s.bus := by
  cases i
  case movRmReg d w r rm =>
    obtain ⟨q, rfl⟩ := eq_reg_of_inMemory hu
    cases d <;> (cases h; simp)
  case movSregRm sr rm =>
    obtain ⟨q, rfl⟩ := eq_reg_of_inMemory hu
    cases sr <;> cases h <;> rfl
  case movRmImm rm _ | movRmSreg rm _ | xchgRmReg _ _ rm | incRm _ rm | decRm _ rm | negRm _ rm | notRm _ rm |
      mulRm _ rm | imulRm _ rm | esc _ _ rm | addRmReg _ _ _ rm | adcRmReg _ _ _ rm | subRmReg _ _ _ rm |
      sbbRmReg _ _ _ rm | andRmReg _ _ _ rm | orRmReg _ _ _ rm | xorRmReg _ _ _ rm | testRmReg _ _ rm | cmpRegRm _ _ rm |
      cmpRmReg _ _ rm | shlRm _ _ rm | shrRm _ _ rm | sarRm _ _ rm | rolRm _ _ rm | rorRm _ _ rm | rclRm _ _ rm |
      rcrRm _ _ rm =>
    obtain ⟨q, rfl⟩ := eq_reg_of_inMemory hu
    cases h
    simp
  case addRmImm rm _ | adcRmImm rm _ | subRmImm rm _ | sbbRmImm rm _ | cmpRmImm rm _ =>
    obtain ⟨q, rfl⟩ := eq_reg_of_inMemory hu
    cases h
    simp [aluRmSImm]
  case andRmImm rm _ | orRmImm rm _ | xorRmImm rm _ | testRmImm rm _ =>
    obtain ⟨q, rfl⟩ := eq_reg_of_inMemory hu
    cases h
    simp [aluRmImm]
  case addAccImm | adcAccImm | subAccImm | sbbAccImm | cmpAccImm | andAccImm | orAccImm | xorAccImm | testAccImm =>
    cases h; simp [aluAccImm]
  case wait =>
    simp only [exec, execWait] at h
    split at h <;> (cases h; rfl)
  case aaa | aas =>
    cases h
    simp only [State.setFreeFlags_bus, State.setReg8_bus]
    split <;> simp
  all_goals (cases hu <;> (cases h; simp))

/-! ## Flags -/

theorem repeatString_flags {s : State} {once : State → State} (h : (once s).flags = s.flags) (op : StringOp) (w : Width) :
    (repeatString op w once s).flags = s.flags := by
  simp only [repeatString]
  split
  · exact h
  · split
    · rfl
    · split <;> simpa using h

/-- The instructions of the last row of R222 change no flag. -/
theorem exec_flags {i : Instr} {s t : State} (h : exec i s = .next t) (hc : changesNoFlag i = true) :
    t.flags = s.flags := by
  cases i
  case movRmReg d w r rm => cases d <;> (cases h; simp)
  case pushRm rm => cases rm <;> (cases h; simp)
  case movSregRm sr rm => cases sr <;> cases h <;> simp
  case popSreg sr => cases sr <;> cases h <;> rfl
  case movs | lods | stos => cases h; exact repeatString_flags (by simp [movsOnce, lodsOnce, stosOnce]) _ _
  case wait =>
    simp only [exec, execWait] at h
    split at h <;> (cases h; rfl)
  all_goals (cases hc <;> (cases h; simp))

/-- The flag updates of the two-operand operations keep TF, IF and DF. -/
theorem AluOp.eval_control (o : AluOp) {n : Nat} (a b : BitVec n) (f free : Flags) :
    SameControlFlags f (o.eval a b f free).2 := by
  cases o <;> exact ⟨rfl, rfl, rfl⟩

theorem ShiftOp.flags_control (o : ShiftOp) {n : Nat} (c : Nat) (x0 x : BitVec n) (cf : Bool) (f free : Flags) :
    SameControlFlags f (o.flags c x0 x cf f free) := by
  unfold ShiftOp.flags
  cases o.isRotate <;> exact ⟨rfl, rfl, rfl⟩

theorem SameControlFlags.of_eq {f g : Flags} (h : g = f) : SameControlFlags f g := by
  rw [h]; exact ⟨rfl, rfl, rfl⟩

theorem aluToRM_controlFlags (o : AluOp) (w : Width) (rm : RM) (src : Operand w) (s : State) :
    SameControlFlags s.flags (aluToRM o w rm src s).flags := by
  obtain ⟨-, hf, -⟩ := aluToRM_spec s o w rm src
  rw [hf]
  exact o.eval_control _ _ _ _

theorem aluToReg_controlFlags (o : AluOp) (w : Width) (r : RegNum) (src : Operand w) (s : State) :
    SameControlFlags s.flags (aluToReg o w r src s).flags := by
  obtain ⟨-, hf, -⟩ := aluToReg_imm_spec s o w r src
  rw [hf]
  exact o.eval_control _ _ _ _

theorem aluRmReg_controlFlags (o : AluOp) (d : Dir) (w : Width) (r : RegNum) (rm : RM) (s : State) :
    SameControlFlags s.flags (aluRmReg o d w r rm s).flags := by
  cases d with
  | fromReg => exact aluToRM_controlFlags o w rm _ s
  | toReg => simpa [aluRmReg] using aluToReg_controlFlags o w r (s.readRM w rm) (s.afterRM w rm)

theorem shiftRM_controlFlags (o : ShiftOp) (v : Count) (w : Width) (rm : RM) (s : State) :
    SameControlFlags s.flags (shiftRM o v w rm s).flags := by
  obtain ⟨-, hspec⟩ := shiftRM_spec o v w rm s
  split at hspec
  · exact .of_eq hspec.1
  · rw [hspec.2]; exact o.flags_control _ _ _ _ _ _

theorem repeatString_controlFlags {s : State} {once : State → State} (h : SameControlFlags s.flags (once s).flags)
    (op : StringOp) (w : Width) : SameControlFlags s.flags (repeatString op w once s).flags := by
  simp only [repeatString]
  split
  · exact h
  · split
    · exact ⟨rfl, rfl, rfl⟩
    · split <;> simpa using h

/-- TF, IF and DF stay but for the instructions that load all flags, enter an interrupt, or name the flag (R222). -/
theorem exec_controlFlags {i : Instr} {s t : State} (h : exec i s = .next t) (hl : loadsFlags i = false)
    (hm : mayInterrupt i = false) (hi : setsIF i = false) (hd : setsDF i = false) :
    SameControlFlags s.flags t.flags := by
  cases hc : changesNoFlag i with
  | true => exact .of_eq (exec_flags h hc)
  | false =>
    cases i
    case addRmReg | adcRmReg | subRmReg | sbbRmReg | cmpRegRm | cmpRmReg | andRmReg | orRmReg | xorRmReg | testRmReg =>
      cases h; exact aluRmReg_controlFlags _ _ _ _ _ _
    case addRmImm | adcRmImm | subRmImm | sbbRmImm | cmpRmImm | andRmImm | orRmImm | xorRmImm | testRmImm =>
      cases h; exact aluToRM_controlFlags _ _ _ _ _
    case addAccImm | adcAccImm | subAccImm | sbbAccImm | cmpAccImm | andAccImm | orAccImm | xorAccImm | testAccImm =>
      cases h; exact aluToReg_controlFlags _ _ _ _ _
    case shlRm | shrRm | sarRm | rolRm | rorRm | rclRm | rcrRm => cases h; exact shiftRM_controlFlags _ _ _ _ _
    case incRm | decRm => cases h; simp [SameControlFlags, State.countFlags, Flags.arithKeepCF, Flags.szp]
    case negRm => cases h; simp [SameControlFlags, Flags.arith, Flags.szp]
    case mulRm | imulRm => cases h; exact s.flags.multiply_control _ s.freeFlags
    case cmps | scas => cases h; exact repeatString_controlFlags ⟨rfl, rfl, rfl⟩ _ _
    all_goals (cases hc <;> cases hl <;> cases hm <;> cases hi <;> cases hd <;> (cases h; exact ⟨rfl, rfl, rfl⟩))

/-- Where no interrupt is entered: TF stays, IF stays but for CLI and STI, DF stays but for CLD and STD. -/
theorem exec_namedFlags {i : Instr} {s t : State} (h : exec i s = .next t) (hl : loadsFlags i = false)
    (hm : mayInterrupt i = false) :
    t.flags.TF = s.flags.TF ∧ (setsIF i = false → t.flags.IF = s.flags.IF) ∧
      (setsDF i = false → t.flags.DF = s.flags.DF) := by
  cases i
  case cli | sti => cases h; exact ⟨rfl, nofun, fun _ => rfl⟩
  case cld | std => cases h; exact ⟨rfl, fun _ => rfl, nofun⟩
  all_goals
    obtain ⟨hTF, hIF, hDF⟩ := exec_controlFlags h hl hm rfl rfl
    exact ⟨hTF, fun _ => hIF, fun _ => hDF⟩

/-! ## What an interrupt entry leaves alone -/

theorem State.enterOnce_frame (s : State) (ty : Byte) (saved : Word) :
    (s.enterOnce ty saved).flags.DF = s.flags.DF ∧ (s.enterOnce ty saved).segs.ss = s.segs.ss := by
  obtain ⟨-, -, ⟨-, hss, -⟩, hflags, -⟩ := s.enterOnce_spec ty saved
  exact ⟨by rw [hflags], hss⟩

/-- An interrupt entry loads CS and clears IF and TF, and leaves DF and SS (R410). -/
theorem State.enterWithin_frame (n : Nat) (s : State) (ty : Byte) (saved : Word) :
    (s.enterWithin n ty saved).flags.DF = s.flags.DF ∧ (s.enterWithin n ty saved).segs.ss = s.segs.ss := by
  induction n generalizing s ty saved with
  | zero => exact s.enterOnce_frame ty saved
  | succ n ih =>
    obtain ⟨hDF, hss⟩ := s.enterOnce_frame ty saved
    simp only [State.enterWithin]
    split
    · obtain ⟨hDF', hss'⟩ := ih (s.enterOnce ty saved).takeNmi 2 (s.enterOnce ty saved).ip
      exact ⟨hDF'.trans hDF, hss'.trans hss⟩
    · split
      · obtain ⟨hDF', hss'⟩ := ih (s.enterOnce ty saved) 1 (s.enterOnce ty saved).ip
        exact ⟨hDF'.trans hDF, hss'.trans hss⟩
      · exact ⟨hDF, hss⟩

theorem State.finishDivision_frame (s : State) (w : Width) (out : Division w) :
    (s.finishDivision w out).flags.DF = s.flags.DF ∧ (s.finishDivision w out).segs.ss = s.segs.ss := by
  cases out with
  | none =>
    simp only [State.finishDivision, State.divideError]
    split <;> exact State.enterWithin_frame _ _ _ _
  | some qr =>
    obtain ⟨⟨hsegs, -, -⟩, -, -, -, hDF⟩ := s.finishDivision_some w qr.1 qr.2
    exact ⟨hDF, congrArg SegRegs.ss hsegs⟩

/-- The instructions that may enter an interrupt leave DF and SS. -/
theorem exec_interrupting_frame {i : Instr} {s t : State} (h : exec i s = .next t) (hm : mayInterrupt i = true) :
    t.flags.DF = s.flags.DF ∧ t.segs.ss = s.segs.ss := by
  cases i
  case intType | int3 => cases h; exact State.enterWithin_frame _ _ _ _
  case into =>
    cases h
    split
    · exact State.enterWithin_frame _ _ _ _
    · exact ⟨rfl, rfl⟩
  case divRm w rm | idivRm w rm => cases h; simpa using State.finishDivision_frame (s.afterRM w rm) w _
  all_goals cases hm

/-! ## Segment registers -/

/-- The instructions, besides those that load CS, that load a segment register. -/
def loadsDataSegment : Instr → Bool
  | .movSregRm .. | .popSreg .. | .lds .. | .les .. => true
  | _ => false

@[simp] theorem aluToRM_segs (o : AluOp) (w : Width) (rm : RM) (src : Operand w) (s : State) :
    (aluToRM o w rm src s).segs = s.segs := (aluToRM_spec s o w rm src).1.1

@[simp] theorem aluToReg_segs (o : AluOp) (w : Width) (r : RegNum) (src : Operand w) (s : State) :
    (aluToReg o w r src s).segs = s.segs := (aluToReg_imm_spec s o w r src).1.1

@[simp] theorem aluRmReg_segs (o : AluOp) (d : Dir) (w : Width) (r : RegNum) (rm : RM) (s : State) :
    (aluRmReg o d w r rm s).segs = s.segs := by
  cases d <;> simp [aluRmReg]

@[simp] theorem shiftRM_segs (o : ShiftOp) (v : Count) (w : Width) (rm : RM) (s : State) :
    (shiftRM o v w rm s).segs = s.segs := (shiftRM_spec o v w rm s).1.1

theorem repeatString_segs {s : State} {once : State → State} (h : SameFlow s (once s)) (op : StringOp) (w : Width) :
    (repeatString op w once s).segs = s.segs := by
  obtain ⟨hsegs, -, -⟩ := h
  simp only [repeatString]
  split
  · exact hsegs
  · split
    · rfl
    · split <;> simpa using hsegs

/-- Every other instruction leaves all four segment registers. -/
theorem exec_segs {i : Instr} {s t : State} (h : exec i s = .next t) (hc : loadsCs i = false)
    (hd : loadsDataSegment i = false) : t.segs = s.segs := by
  cases i
  case movRmReg d w r rm => cases d <;> (cases h; simp)
  case pushRm rm => cases rm <;> (cases h; simp)
  case addRmImm | adcRmImm | subRmImm | sbbRmImm | cmpRmImm | andRmImm | orRmImm | xorRmImm | testRmImm =>
    cases h; exact aluToRM_segs _ _ _ _ _
  case addAccImm | adcAccImm | subAccImm | sbbAccImm | cmpAccImm | andAccImm | orAccImm | xorAccImm | testAccImm =>
    cases h; exact aluToReg_segs _ _ _ _ _
  case movs w | cmps w | scas w | lods w | stos w =>
    obtain ⟨hmovs, hcmps, hscas, hlods, hstos⟩ := once_sameFlow s w
    cases h
    exact repeatString_segs (by assumption) _ _
  case wait =>
    simp only [exec, execWait] at h
    split at h <;> (cases h; rfl)
  case aaa | aas =>
    cases h
    simp only [State.setFreeFlags_segs, State.setReg8_segs]
    split <;> simp
  all_goals (cases hc <;> cases hd <;> (cases h; simp))

theorem State.loadSreg_other (s : State) {sr q : SReg} (v : Word) (h : q ≠ sr) :
    (s.loadSreg sr v).sreg q = s.sreg q := (s.setSreg_spec sr v).2 q h

/-- CS changes only by the instructions that load it (R26). -/
theorem exec_cs {i : Instr} {s t : State} (h : exec i s = .next t) (hc : loadsCs i = false) :
    t.segs.cs = s.segs.cs := by
  cases hd : loadsDataSegment i with
  | false => rw [exec_segs h hc hd]
  | true =>
    cases i
    case movSregRm sr rm =>
      cases sr <;> cases h <;> exact (State.loadSreg_other _ (q := .cs) _ (by decide)).trans (s.afterRM_sreg .word rm .cs)
    case popSreg sr => cases sr <;> cases h <;> exact State.loadSreg_other s.dropTop (q := .cs) _ (by decide)
    case lds | les => cases h; rfl
    all_goals cases hd

/-- SS changes only by MOV SS and POP SS (R155, R167). -/
theorem exec_ss {i : Instr} {s t : State} (h : exec i s = .next t) (hs : loadsSs i = false) :
    t.segs.ss = s.segs.ss := by
  cases hm : mayInterrupt i with
  | true => exact (exec_interrupting_frame h hm).2
  | false =>
    cases i
    case movSregRm sr rm =>
      cases sr
      case ss => cases hs
      all_goals
        cases h <;> exact (State.loadSreg_other _ (q := .ss) _ (by decide)).trans (s.afterRM_sreg .word rm .ss)
    case popSreg sr =>
      cases sr
      case ss => cases hs
      all_goals cases h <;> exact State.loadSreg_other s.dropTop (q := .ss) _ (by decide)
    case lds | les | callFar | callMem | jmpFar | jmpMem | retf | retfImm | iret => cases h; rfl
    all_goals (cases hm <;> exact congrArg SegRegs.ss (exec_segs h rfl rfl))

/-- Settles O24: the flags by what the operations leave, the bus by the cycles an instruction runs. -/
theorem whoMayChangeWhat : Obligations.WhoMayChangeWhat := by
  intro i s t h
  obtain ⟨⟨l, hlog, hl⟩, henv⟩ := (exec_performs h).runs
  refine ⟨exec_flags h, fun hf hm => (exec_namedFlags h hf hm).1, fun hf hm => (exec_namedFlags h hf hm).2.1,
    fun hf hd => ?_, exec_cs h, exec_ss h, fun hu => by rw [exec_bus h hu], ⟨l, hlog, fun hp c hc => ?_⟩, henv,
    (exec_continues h).params⟩
  · cases hm : mayInterrupt i with
    | true => exact (exec_interrupting_frame h hm).1
    | false => exact (exec_namedFlags h hf hm).2.2 hd
  · obtain hb | hports | hoff := hl c hc
    · cases c <;> first | rfl | cases hb
    · exact absurd (hports.symm.trans hp) (by decide)
    · exact hoff

end Sys2Proof.Machine
end

section
/-!
PROOF. When the outside world is sampled (O9): the sampling point and the fetches ahead that follow it, and how many
samples an access uses up.
-/

namespace Sys2Proof.Machine

section Points

variable (b : Bus) (v : View)

/-! ## The sampling point -/

theorem Bus.grant_frame : (b.grant v).env = b.env ∧ (b.grant v).pins = b.pins := by
  obtain ⟨m, q, st, as, n, f, h, -⟩ := b.serve_spec v (b.requests.rq0 ++ b.requests.rq1 ++ b.requests.system)
  unfold Bus.grant
  rw [h]
  split <;> exact ⟨rfl, rfl⟩

theorem Bus.grantSystem_frame : (b.grantSystem v).env = b.env ∧ (b.grantSystem v).pins = b.pins := by
  obtain ⟨m, q, st, as, n, f, h, -⟩ := b.serve_spec v b.requests.system
  unfold Bus.grantSystem
  rw [h]
  split <;> exact ⟨rfl, rfl⟩

theorem Bus.sample_env : b.sample.env = b.env.drop 1 := by
  cases h : b.env with
  | nil => rw [b.sample_nil h, h]; rfl
  | cons x rest => rw [b.sample_spec x rest h]; rfl

theorem Bus.release_env : (b.release v).env = b.env.drop 1 := (b.sample.grant_frame v).1.trans b.sample_env

variable {b v}

/-- A fetch ahead is run, and the next sampling point follows (log 9). -/
theorem Bus.tick_of_fetchAhead {x : Sample} {rest : List Sample} {c : Bus} (h : b.env = x :: rest)
    (hf : (b.release v).fetchAhead v x.fetch = some c) : b.tick v = c.tick v := by
  obtain ⟨-, -, w, k, -, rfl⟩ := Bus.fetchAhead_spec hf
  have henv : ((b.release v).fetch v w k).env = rest := by
    obtain ⟨q, as, n, f, hc, -⟩ := (b.release v).fetch_spec v w k
    rw [hc]
    exact (b.release_env v).trans (by rw [h]; rfl)
  have hb : b.env.length = rest.length + 1 := by rw [h]; rfl
  rw [Bus.tick, Bus.tick, henv, hb, Bus.tickWithin, h]
  simp only [List.head?_cons, Option.bind_some, hf]

/-- Where no fetch ahead is run, it is one sample and what other masters do. -/
theorem Bus.tick_of_no_fetchAhead
    (h : ∀ x rest, b.env = x :: rest → (b.release v).fetchAhead v x.fetch = none) : b.tick v = b.release v := by
  unfold Bus.tick
  cases henv : b.env with
  | nil => rfl
  | cons x rest => simp only [List.length_cons, Bus.tickWithin, henv, List.head?_cons, Option.bind_some, h x rest henv]

/-- The `k`-th code byte is the first of the six that is not queued. -/
def Bus.Room (b : Bus) (v : View) (k : Nat) : Prop :=
  k < 6 ∧ b.isQueued (v.codeAt k) = false ∧ ∀ j, j < k → b.isQueued (v.codeAt j) = true

theorem Bus.find_unqueued_iff (k : Nat) :
    ((List.range 6).find? fun k => !b.isQueued (v.codeAt k)) = some k ↔ b.Room v k := by
  rw [List.find?_range_eq_some]
  simp only [Bus.Room, List.mem_range, Bool.not_eq_true', Bool.not_not]
  exact ⟨fun ⟨h1, h2, h3⟩ => ⟨h2, h1, h3⟩, fun ⟨h1, h2, h3⟩ => ⟨h2, h1, h3⟩⟩

/-- A fetch ahead takes place where it is asked for and there is room (log 9). -/
theorem Bus.fetchAhead_of_room {w : Width} {k : Nat} (hf : v.fetching = true) (hr : b.pins.reset = false)
    (hq : v.params.queueVisibility ≠ .alwaysNew) (hk : b.Room v k) :
    b.fetchAhead v (some w) = some (b.fetch v w k) := by
  simp only [Bus.fetchAhead, hf, hr, (Bus.find_unqueued_iff k).mpr hk]
  simp [hq]

/-- Otherwise none does. -/
theorem Bus.fetchAhead_eq_none {q : Option Width} (h : q = none ∨ v.fetching = false ∨ b.pins.reset = true ∨
    v.params.queueVisibility = .alwaysNew ∨ ∀ k, ¬b.Room v k) : b.fetchAhead v q = none := by
  unfold Bus.fetchAhead
  split
  · next hc =>
    simp only [Bool.and_eq_true, Bool.not_eq_true', bne_iff_ne] at hc
    obtain ⟨⟨hf, hr⟩, hq⟩ := hc
    obtain rfl | h | h | h | h := h
    · rfl
    · exact absurd (hf.symm.trans h) (by decide)
    · exact absurd (hr.symm.trans h) (by decide)
    · exact absurd h hq
    · split
      · next k hk => exact absurd ((Bus.find_unqueued_iff k).mp hk) (h k)
      · rfl
  · rfl

/-! ## How many samples are used up -/

/-- RESET is LOW and stays so, and no fetch ahead is asked for. -/
structure Bus.Steady (b : Bus) : Prop where
  reset : b.pins.reset = false
  env : ∀ y, y ∈ b.env → y.fetch = none ∧ y.pins.reset = false

/-- From `b` to `c` so many samples have been used up, and things stay steady. -/
structure Bus.Uses (n : Nat) (b c : Bus) : Prop where
  env : c.env = b.env.drop n
  steady : c.Steady

variable {c d : Bus}

theorem Bus.Steady.uses_none (h : b.Steady) (he : c.env = b.env) (hp : c.pins = b.pins) : Bus.Uses 0 b c :=
  ⟨he, hp ▸ h.reset, fun y hy => h.env y (he ▸ hy)⟩

theorem Bus.Uses.trans {m n : Nat} (h : Bus.Uses m b c) (k : c.Steady → Bus.Uses n c d) : Bus.Uses (m + n) b d := by
  obtain ⟨henv, hsteady⟩ := k h.steady
  exact ⟨by rw [henv, h.env, List.drop_drop], hsteady⟩

theorem Bus.Steady.sample (h : b.Steady) : Bus.Uses 1 b b.sample := by
  refine ⟨b.sample_env, ?_, fun y hy => h.env y (List.mem_of_mem_drop (b.sample_env ▸ hy))⟩
  cases he : b.env with
  | nil => rw [b.sample_nil he]; exact h.reset
  | cons x rest => rw [b.sample_spec x rest he]; exact (h.env x (by simp [he])).2

theorem Bus.Steady.start (h : b.Steady) : Bus.Uses 1 b (b.start v) := by
  have htick : b.start v = b.release v := by
    rw [Bus.start, if_neg (by simp [h.reset])]
    exact b.tick_of_no_fetch v fun x rest he => (h.env x (by simp [he])).1
  rw [htick]
  exact h.sample.trans fun k => k.uses_none (b.sample.grant_frame v).1 (b.sample.grant_frame v).2

theorem Bus.Steady.between (h : b.Steady) : Bus.Uses 1 b (b.between v) := by
  rw [Bus.between, if_neg (by simp [h.reset])]
  exact h.sample.trans fun k => k.uses_none (b.sample.grantSystem_frame v).1 (b.sample.grantSystem_frame v).2

theorem Bus.Steady.record (h : b.Steady) (x : BusCycle) : Bus.Uses 0 b (b.record x) := by
  unfold Bus.record
  split <;> exact h.uses_none rfl rfl

theorem Bus.Steady.taken (h : b.Steady) (l : Location) : Bus.Uses 0 b (b.taken v l) := by
  unfold Bus.taken
  split
  · exact h.uses_none rfl rfl
  · obtain ⟨as, n, hf⟩ := b.found_spec v l
    rw [hf]
    exact h.uses_none rfl rfl

theorem Bus.Steady.give (h : b.Steady) (l : Location) (x : Byte) : Bus.Uses 0 b (b.give v l x) := by
  rw [Bus.give, if_neg (by simp [h.reset])]
  cases l with
  | port q => exact h.uses_none rfl rfl
  | mem a =>
    simp only [Bus.put]
    split
    · obtain ⟨q, st, n, f, hs, -⟩ := b.storeByte_spec v a x
      rw [hs]
      exact h.uses_none rfl rfl
    · exact h.uses_none rfl rfl
    · exact h.uses_none rfl rfl

/-- The samples of one access: two for a word at an odd address (log 6). -/
def Access.samples (w : Width) (x : Access) : Nat := if w = .word ∧ x.lo.isOdd = true then 2 else 1

theorem Bus.Steady.afterRead (h : b.Steady) (w : Width) (x : Access) :
    Bus.Uses (x.samples w) b (b.afterRead v w x) := by
  cases w with
  | byte => exact (h.start.trans fun k => k.taken _).trans fun k => k.record _
  | word =>
    simp only [Bus.afterRead, Bus.takenLow, Access.samples, true_and]
    cases x.lo.isOdd with
    | true =>
      exact ((((h.start.trans fun k => k.taken _).trans fun k => k.record _).trans fun k => k.between).trans
        fun k => k.taken _).trans fun k => k.record _
    | false => exact ((h.start.trans fun k => k.taken _).trans fun k => k.taken _).trans fun k => k.record _

theorem Bus.Steady.write (h : b.Steady) (w : Width) (x : Access) (u : Operand w) :
    Bus.Uses (x.samples w) b (b.write v w x u) := by
  cases w with
  | byte => exact (h.start.trans fun k => k.give _ _).trans fun k => k.record _
  | word =>
    simp only [Bus.write, Access.samples, true_and]
    cases x.lo.isOdd with
    | true =>
      exact ((((h.start.trans fun k => k.give _ _).trans fun k => k.record _).trans fun k => k.between).trans
        fun k => k.give _ _).trans fun k => k.record _
    | false => exact ((h.start.trans fun k => k.give _ _).trans fun k => k.give _ _).trans fun k => k.record _

theorem Bus.Steady.haltCycle (h : b.Steady) : Bus.Uses 1 b (b.haltCycle v) := h.start.trans fun k => k.record _

theorem Bus.Steady.acknowledge (h : b.Steady) (ty : Byte) : Bus.Uses 2 b (b.acknowledge v ty) :=
  ((h.start.trans fun k => k.record _).trans fun k => k.between).trans fun k => k.record _

end Points

/-- Settles O9: the sampling point, the cycles of an access as they are defined, the samples they use up, and the step
by run state. -/
theorem sampling : Obligations.Sampling := by
  refine ⟨fun b x rest => ⟨b.sample_spec x rest, b.sample_nil⟩, fun b v => ?_, fun b v => ?_, fun b v x u k => ?_,
    fun b v x u => ?_, fun b v w x u ty hr he => ?_, fun s off sel => ⟨rfl, rfl⟩, fun s => ?_⟩
  · intro r room
    refine ⟨fun x rest w k he hx hf hr hq hk => ?_, fun h => Bus.tick_of_no_fetchAhead fun x rest he => ?_⟩
    · exact Bus.tick_of_fetchAhead he (hx ▸ Bus.fetchAhead_of_room hf hr hq hk)
    · exact Bus.fetchAhead_eq_none (h.imp_left fun h => h x rest he)
  · refine ⟨fun h => ⟨?_, ?_⟩, fun h => ⟨?_, ?_⟩⟩ <;> simp only [Bus.start, Bus.between, h] <;> rfl
  · exact ⟨rfl, rfl, rfl, by simp only [Bus.demand, Bool.or_eq_true]⟩
  · intro b1 lo r r2 g g2
    refine ⟨fun ho => ?_, fun ho => ?_⟩ <;> simp only [Bus.read, Bus.afterRead, Bus.write, Bus.takenLow, ho] <;>
      exact ⟨rfl, rfl, rfl⟩
  · have h : b.Steady := ⟨hr, he⟩
    exact ⟨(h.afterRead w x).env, (h.write w x u).env, h.haltCycle.env, (h.acknowledge ty).env⟩
  · refine ⟨rfl, step_reset s, fun hr => ⟨step_inReset s hr, step_halted s hr, fun next => step_waiting s hr,
      fun op w => step_repeating s hr, step_running s hr⟩, fun n hr hd => ?_⟩
    simp only [State.fetchCode, hr, hd, Bool.false_eq_true, if_false]
    rfl

end Sys2Proof.Machine
end

section
/-!
PROOF. The decoder reads back what the encoder writes, field by field, and an instruction has at most six bytes: what
the fetch of an instruction rests on (O8).
-/

namespace Sys2Proof

open Sys2Proof.Machine (joinBytes lowByte highByte field2 field3 joinBytes_high_low)

/-! ## Fields -/

theorem modRmByte_fields {mod reg rm : Nat} (hmod : mod < 4) (hreg : reg < 8) (hrm : rm < 8) :
    field2 (modRmByte mod reg rm) 6 = mod ∧ field3 (modRmByte mod reg rm) 3 = reg ∧
      field3 (modRmByte mod reg rm) 0 = rm := by
  simp only [field2, field3, modRmByte, BitVec.toNat_ofNat]
  omega

theorem RegNum.code_lt (r : RegNum) : r.code < 8 := by cases r <;> decide

@[simp] theorem RegNum.ofField_code (r : RegNum) : RegNum.ofField r.code = r := by cases r <;> rfl

theorem EaBase.code_lt (b : EaBase) : b.code < 8 := by cases b <;> decide

@[simp] theorem EaBase.ofField_code (b : EaBase) : EaBase.ofField b.code = b := by cases b <;> rfl

@[simp] theorem Reg16.reg16_num (r : Reg16) : r.num.reg16 = r := by cases r <;> rfl

/-! ## Taking back what was encoded -/

variable (rest : List Byte)

@[simp] theorem takeWord_encodeWord (v : Word) (k : Word → List Byte → Decoded) :
    takeWord (encodeWord v ++ rest) k = k v rest :=
  congrArg (k · rest) (joinBytes_high_low v)

@[simp] theorem takeImm_encodeImm (imm : Imm) (k : Imm → List Byte → Decoded) :
    takeImm imm.width (encodeImm imm ++ rest) k = k imm rest := by
  cases imm with
  | b v => rfl
  | w v => exact takeWord_encodeWord rest v fun v bs => k (.w v) bs

/-- The `s:w` bits of the first byte say how the immediate is encoded. -/
@[simp] theorem takeSImm_encodeSImm (imm : SImm) (k : SImm → List Byte → Decoded) :
    takeSImm ((op 0b10000000 imm.swBits).getLsbD 1) (wBit (op 0b10000000 imm.swBits)) (encodeSImm imm ++ rest) k =
      k imm rest := by
  cases imm with
  | byte s v => cases s <;> simp only [SImm.swBits] <;> rfl
  | word v =>
    simp only [SImm.swBits]
    exact takeWord_encodeWord rest v fun v bs => k (.word v) bs
  | signed v =>
    simp only [SImm.swBits]
    rfl

/-- The operand byte and its displacement; (BP) without a displacement is the direct address (R108). -/
theorem takeRM_encodeRM {rm : RM} (h : rm.wf = true) {reg : Nat} (hreg : reg < 8)
    (k : RegNum → RM → List Byte → Decoded) :
    takeRM (encodeRM reg rm ++ rest) k = k (RegNum.ofField reg) rm rest := by
  cases rm with
  | reg r =>
    obtain ⟨hmod, hreg', hrm⟩ := modRmByte_fields (mod := 3) (by decide) hreg r.code_lt
    simp [encodeRM, takeRM, takeByte, hmod, hreg', hrm]
  | mem m =>
    cases m with
    | direct a =>
      obtain ⟨hmod, hreg', hrm⟩ := modRmByte_fields (mod := 0) (rm := 6) (by decide) hreg (by decide)
      simp [encodeRM, takeRM, takeByte, hmod, hreg', hrm]
    | based b d =>
      cases d with
      | none =>
        obtain ⟨hmod, hreg', hrm⟩ := modRmByte_fields (mod := 0) (by decide) hreg b.code_lt
        have hb : b.code ≠ 6 := by
          cases b
          case bp => cases h
          all_goals decide
        simp [encodeRM, takeRM, takeByte, hmod, hreg', hrm, hb]
      | d8 v =>
        obtain ⟨hmod, hreg', hrm⟩ := modRmByte_fields (mod := 1) (by decide) hreg b.code_lt
        simp [encodeRM, takeRM, takeByte, hmod, hreg', hrm]
      | d16 v =>
        obtain ⟨hmod, hreg', hrm⟩ := modRmByte_fields (mod := 2) (by decide) hreg b.code_lt
        simp [encodeRM, takeRM, takeByte, hmod, hreg', hrm]

/-! ## The forms of an instruction -/

variable {rest}

/-- An operand byte, its displacement, and what follows it. -/
theorem decode_rm_tail {b0 : Byte} {k : RegNum → RM → List Byte → Decoded} {i : Instr} {rm : RM} {reg : Nat}
    {tail : List Byte} (h : ∀ bs, decode (b0 :: bs) = takeRM bs k) (hwf : rm.wf = true) (hreg : reg < 8)
    (hk : k (RegNum.ofField reg) rm (tail ++ rest) = .ok i rest) :
    decode (b0 :: (encodeRM reg rm ++ tail) ++ rest) = .ok i rest := by
  rw [List.cons_append, h, List.append_assoc, takeRM_encodeRM _ hwf hreg, hk]

/-- The same where nothing follows. -/
theorem decode_rm {b0 : Byte} {k : RegNum → RM → List Byte → Decoded} {i : Instr} {rm : RM} {reg : Nat}
    (h : ∀ bs, decode (b0 :: bs) = takeRM bs k) (hwf : rm.wf = true) (hreg : reg < 8)
    (hk : k (RegNum.ofField reg) rm rest = .ok i rest) : decode (b0 :: encodeRM reg rm ++ rest) = .ok i rest := by
  simpa using decode_rm_tail (tail := []) h hwf hreg hk

/-- The forms with a `d` and a `w` bit. -/
theorem decode_rmReg {mk : Dir → Width → RegNum → RM → Instr} {fixed : Nat}
    (h : ∀ d w bs, decode (op fixed (2 * d.bit + w.bit) :: bs) = takeRM bs fun r rm bs => .ok (mk d w r rm) bs)
    (d : Dir) (w : Width) (r : RegNum) {rm : RM} (hwf : rm.wf = true) :
    decode (encodeRmReg fixed d w r rm ++ rest) = .ok (mk d w r rm) rest :=
  decode_rm (h d w) hwf r.code_lt (by rw [RegNum.ofField_code])

/-- The forms with a `w` bit and a register. -/
theorem decode_regRm {mk : Width → RegNum → RM → Instr} {fixed : Nat}
    (h : ∀ w bs, decode (op fixed w.bit :: bs) = takeRM bs fun r rm bs => .ok (mk w r rm) bs)
    (w : Width) (r : RegNum) {rm : RM} (hwf : rm.wf = true) :
    decode (op fixed w.bit :: encodeRM r.code rm ++ rest) = .ok (mk w r rm) rest :=
  decode_rm (h w) hwf r.code_lt (by rw [RegNum.ofField_code])

/-- The accumulator forms. -/
theorem decode_accImm {mk : Imm → Instr} {fixed : Nat}
    (h : ∀ w bs, decode (op fixed w.bit :: bs) = takeImm w bs fun v bs => .ok (mk v) bs) (imm : Imm) :
    decode (encodeAccImm fixed imm ++ rest) = .ok (mk imm) rest := by
  rw [encodeAccImm, List.cons_append, h, takeImm_encodeImm]

/-- A 16-bit register and an operand in memory. -/
theorem decode_regMem {mk : Reg16 → Mem → Instr} {b0 : Byte}
    (h : ∀ bs, decode (b0 :: bs) = readRegMem mk b0 bs) (r : Reg16) {m : Mem} (hwf : m.wf = true) :
    decode (b0 :: encodeRM r.num.code (.mem m) ++ rest) = .ok (mk r m) rest :=
  decode_rm (rm := .mem m) h hwf r.num.code_lt (by simp [needMem])

/-- The immediate group: the extension names the instruction. -/
theorem decode_immGroup (imm : SImm) (bs : List Byte) :
    decode (op 0b10000000 imm.swBits :: bs) = readImmGroup (op 0b10000000 imm.swBits) bs := by
  cases imm with
  | byte s v => cases s <;> simp only [SImm.swBits] <;> rfl
  | word v | signed v =>
    simp only [SImm.swBits]
    rfl

/-- The forms with an operand byte and immediate data of the width of the first byte's `w`: `read` reads their group. -/
theorem decode_rmImm {mk : RM → Imm → Instr} {fixed ext : Nat} (read : Byte → List Byte → Decoded)
    {k : Byte → RegNum → RM → List Byte → Decoded}
    (hread : ∀ (w : Width) (bs : List Byte), decode (op fixed w.bit :: bs) = read (op fixed w.bit) bs)
    (hgroup : ∀ b0 bs, read b0 bs = takeRM bs (k b0))
    (hk : ∀ w rm bs,
      k (op fixed w.bit) (RegNum.ofField ext) rm bs = takeImm w bs fun v bs => .ok (mk rm v) bs)
    (hext : ext < 8) {rm : RM} (hwf : rm.wf = true) (imm : Imm) :
    decode (encodeRmImm fixed ext rm imm ++ rest) = .ok (mk rm imm) rest :=
  decode_rm_tail (k := k _) (fun bs => (hread imm.width bs).trans (hgroup _ bs)) hwf hext (by rw [hk, takeImm_encodeImm])

/-- A first byte and a 16-bit field. -/
theorem decode_word {mk : Word → Instr} {b0 : Byte}
    (h : ∀ bs, decode (b0 :: bs) = takeWord bs fun v bs => .ok (mk v) bs) (v : Word) :
    decode (b0 :: encodeWord v ++ rest) = .ok (mk v) rest := by
  rw [List.cons_append, h, takeWord_encodeWord]

/-- MOV of an immediate to a register. -/
theorem decode_movRegImm (w : Width) (r : RegNum) (bs : List Byte) :
    decode (op 0b10110000 (8 * w.bit + r.code) :: bs) = takeImm w bs fun v bs => .ok (.movRegImm r v) bs := by
  cases w <;> cases r <;> rfl

/-- A first byte and a far pointer. -/
theorem decode_far {mk : Word → Word → Instr} {b0 : Byte} (h : ∀ bs, decode (b0 :: bs) = readFar mk b0 bs)
    (off sel : Word) : decode (b0 :: (encodeWord off ++ encodeWord sel) ++ rest) = .ok (mk off sel) rest := by
  rw [List.cons_append, h, readFar, List.append_assoc, takeWord_encodeWord, takeWord_encodeWord]

/-- Decoding gives back what was encoded, whatever bytes follow. -/
theorem decode_encode {i : Instr} (h : i.wf = true) (rest : List Byte) : decode (encode i ++ rest) = .ok i rest := by
  cases i
  case movRmReg | addRmReg | adcRmReg | subRmReg | sbbRmReg | andRmReg | orRmReg | xorRmReg =>
    exact decode_rmReg (fun d w _ => by cases d <;> cases w <;> rfl) _ _ _ h
  case xchgRmReg | cmpRegRm | cmpRmReg | testRmReg =>
    exact decode_regRm (fun w _ => by cases w <;> rfl) _ _ h
  case addAccImm | adcAccImm | subAccImm | sbbAccImm | cmpAccImm | andAccImm | testAccImm | orAccImm | xorAccImm =>
    exact decode_accImm (fun w _ => by cases w <;> rfl) _
  case addRmImm rm imm | adcRmImm rm imm | subRmImm rm imm | sbbRmImm rm imm | cmpRmImm rm imm =>
    exact decode_rm_tail (decode_immGroup imm) h (by decide) (takeSImm_encodeSImm rest imm _)
  case andRmImm | orRmImm | xorRmImm =>
    exact decode_rmImm readImmGroup (fun w _ => by cases w <;> rfl) (fun _ _ => rfl)
      (fun w _ _ => by cases w <;> rfl) (by decide) h _
  case movRmImm =>
    exact decode_rmImm readMovGroup (fun w _ => by cases w <;> rfl) (fun _ _ => rfl)
      (fun w _ _ => by cases w <;> rfl) (by decide) h _
  case testRmImm =>
    exact decode_rmImm readUnaryGroup (fun w _ => by cases w <;> rfl) (fun _ _ => rfl)
      (fun w _ _ => by cases w <;> rfl) (by decide) h _
  case shlRm v w rm | shrRm v w rm | sarRm v w rm | rolRm v w rm | rorRm v w rm | rclRm v w rm | rcrRm v w rm =>
    cases v <;> cases w <;> exact decode_rm (fun bs => (rfl : decode _ = readShiftGroup _ bs)) h (by decide) rfl
  case notRm w rm | negRm w rm | mulRm w rm | imulRm w rm | divRm w rm | idivRm w rm =>
    cases w <;> exact decode_rm (fun bs => (rfl : decode _ = readUnaryGroup _ bs)) h (by decide) rfl
  case incRm w rm | decRm w rm =>
    cases w
    · exact decode_rm (fun bs => (rfl : decode _ = readIncGroup8 _ bs)) h (by decide) rfl
    · exact decode_rm (fun bs => (rfl : decode _ = readIncGroup16 _ bs)) h (by decide) rfl
  case pushRm | callRm | jmpRm =>
    exact decode_rm (fun bs => (rfl : decode _ = readIncGroup16 _ bs)) h (by decide) rfl
  case callMem m | jmpMem m =>
    exact decode_rm (rm := .mem m) (fun bs => (rfl : decode _ = readIncGroup16 _ bs)) h (by decide) rfl
  case popRm => exact decode_rm (fun bs => (rfl : decode _ = readPopGroup _ bs)) h (by decide) rfl
  case movRmSreg rm sr =>
    cases sr <;> exact decode_rm (fun bs => (rfl : decode _ = readMovFromSreg _ bs)) h (by decide) rfl
  case movSregRm sr rm =>
    cases sr
    case cs => cases h
    all_goals exact decode_rm (fun bs => (rfl : decode _ = readMovToSreg _ bs)) h (by decide) rfl
  case esc hi lo rm =>
    have hread (bs : List Byte) : decode (op 0b11011000 hi.code :: bs) =
        takeRM bs fun lo rm bs => .ok (.esc hi lo rm) bs := by cases hi <;> rfl
    exact decode_rm hread h lo.code_lt (by rw [RegNum.ofField_code])
  case lea | lds | les => exact decode_regMem (fun _ => rfl) _ h
  case movAccMem w a =>
    cases w
    · exact decode_word (mk := .movAccMem .byte) (fun _ => rfl) a
    · exact decode_word (mk := .movAccMem .word) (fun _ => rfl) a
  case movMemAcc w a =>
    cases w
    · exact decode_word (mk := .movMemAcc .byte) (fun _ => rfl) a
    · exact decode_word (mk := .movMemAcc .word) (fun _ => rfl) a
  case movRegImm r imm => rw [encode, List.cons_append, decode_movRegImm, takeImm_encodeImm]
  case callNear | jmpNear | retImm | retfImm => exact decode_word (fun _ => rfl) _
  case callFar | jmpFar => exact decode_far (fun _ => rfl) _ _
  case pushReg r | popReg r | xchgAxReg r | incReg r | decReg r => cases r <;> rfl
  case pushSreg sr | seg sr => cases sr <;> rfl
  case popSreg sr =>
    cases sr
    case cs => cases h
    all_goals rfl
  case inFixed w _ | outFixed w _ | inVariable w | outVariable w | movs w | cmps w | scas w | lods w | stos w =>
    cases w <;> rfl
  case rep z => cases z <;> rfl
  all_goals rfl

/-! ## Lengths -/

theorem encodeRM_length_le (reg : Nat) (rm : RM) : (encodeRM reg rm).length ≤ 3 := by
  cases rm with
  | reg r => exact Nat.le_of_ble_eq_true rfl
  | mem m =>
    cases m with
    | direct a => exact Nat.le_refl 3
    | based b d => cases d <;> exact Nat.le_of_ble_eq_true rfl

theorem encodeImm_length_le (imm : Imm) : (encodeImm imm).length ≤ 2 := by
  cases imm <;> exact Nat.le_of_ble_eq_true rfl

theorem encodeSImm_length_le (imm : SImm) : (encodeSImm imm).length ≤ 2 := by
  cases imm <;> exact Nat.le_of_ble_eq_true rfl

/-- Six bytes are enough for an instruction (R100). -/
theorem encode_length_le (i : Instr) : (encode i).length ≤ 6 := by
  have hrm (reg : Nat) (rm : RM) := encodeRM_length_le reg rm
  have himm (imm : Imm) := encodeImm_length_le imm
  have hsimm (imm : SImm) := encodeSImm_length_le imm
  cases i <;>
    simp only [encode, encodeRmReg, encodeRmSImm, encodeRmImm, encodeAccImm, encodeShift, encodeUnary, encodeWord,
      List.length_cons, List.length_append, List.length_nil] <;>
    grind

end Sys2Proof
end

section
/-!
PROOF. What a fetch cycle does, and what a store finds out of the queue (O8): it holds the copies it held, and one more
at most, of the byte as it was before the store.
-/

namespace Sys2Proof.Machine

/-! ## Queued copies -/

section Copies

variable {b c : Bus} {v : View} {a : Addr} {x : Byte}

theorem Bus.copyAt_congr (h : c.queue = b.queue) (a : Addr) : c.copyAt a = b.copyAt a := by
  rw [Bus.copyAt, h, Bus.copyAt]

/-- A byte put at the end of the queue is the copy of its address, unless there is one before it. -/
theorem Bus.copyAt_append (h : c.queue = b.queue ++ [(a.toNat, x)]) (d : Addr) :
    c.copyAt d = (b.copyAt d).or (if d = a then some x else none) := by
  have hd : (a.toNat == d.toNat) = decide (d = a) := by
    rw [Bool.eq_iff_iff, beq_iff_eq, decide_eq_true_iff, BitVec.toNat_inj, eq_comm]
  rw [Bus.copyAt, h, List.find?_append, Bus.copyAt, List.find?_singleton, hd]
  cases b.queue.find? fun e => e.1 == d.toNat <;> by_cases e : d = a <;> simp [e]

theorem View.mayBeQueued_iff : v.mayBeQueued a = true ↔ ∃ k, k < 6 ∧ v.codeAt k = a := by
  simp [View.mayBeQueued]

/-! ## What a store finds out of the queue -/

/-- A store of `x` to `a` leaves the queue and the record, or one more byte proves to have been fetched before it: the
old one, of which no copy was held, and only where there is a queue and the byte is among the six to come. -/
theorem Bus.noteStore_cases (b : Bus) (v : View) (a : Addr) (x : Byte) :
    (∃ st n, b.noteStore v a x = { b with stale := st, draws := n }) ∨
    (∃ n, b.noteStore v a x = { b with
        queue := b.queue ++ [(a.toNat, b.readByte a)]
        log := .fetch a (.byte (b.readByte a)) :: b.log
        draws := n }) ∧
      b.copyAt a = none ∧ v.mayBeQueued a = true ∧ v.params.queueVisibility = .draw := by
  unfold Bus.noteStore
  split
  · next hc =>
    simp only [Bool.and_eq_true] at hc
    obtain ⟨⟨-, hsix⟩, -⟩ := hc
    split
    · exact .inl ⟨_, _, rfl⟩
    · exact .inl ⟨_, _, rfl⟩
    · next hvis =>
      split
      · exact .inl ⟨_, _, rfl⟩
      · next hq =>
        by_cases hfree : (Config.freeByte b.draws).getLsbD 0 = true
        · simp only [hfree, if_true]
          exact .inr ⟨⟨_, rfl⟩, by simpa [Bus.isQueued] using hq, hsix, hvis⟩
        · simp only [hfree]
          exact .inl ⟨_, _, rfl⟩
  · exact .inl ⟨_, _, rfl⟩

/-- Under `refuse` a store that changes one of the six bytes marks it (D6). -/
theorem Bus.noteStore_marks {b : Bus} (hvis : v.params.queueVisibility = .refuse) (hf : v.fetching = true)
    (hr : b.pins.reset = false) (hsix : v.mayBeQueued a = true) (hx : x ≠ b.readByte a) :
    a ∈ (b.noteStore v a x).stale := by
  have hx' : (b.readByte a != x) = true := bne_iff_ne.mpr hx.symm
  simp [Bus.noteStore, hvis, hf, hr, hsix, hx']

/-! ## Bytes fetched meanwhile -/

/-- From `b` to `c` the queue has kept its copies and may hold further ones, of bytes as memory holds them, each
fetched in a recorded cycle. -/
structure Bus.Prefetched (b c : Bus) : Prop where
  mem : c.mem = b.mem
  copy : ∀ a, c.copyAt a = b.copyAt a ∨ b.copyAt a = none ∧ c.copyAt a = some (b.readByte a)
  log : ∃ f, c.log = f ++ b.log ∧ ∀ d, d ∈ f → ∃ a x, d = .fetch a (.byte x)

theorem Bus.Prefetched.of_same (hm : c.mem = b.mem) (hq : c.queue = b.queue) (hl : c.log = b.log) :
    b.Prefetched c :=
  ⟨hm, fun a => .inl (Bus.copyAt_congr hq a), [], hl, by simp⟩

theorem Bus.Prefetched.trans {d : Bus} (h : b.Prefetched c) (k : c.Prefetched d) : b.Prefetched d := by
  obtain ⟨f, hf, hfetch⟩ := h.log
  obtain ⟨g, hg, hfetch'⟩ := k.log
  refine ⟨k.mem.trans h.mem, fun a => ?_, g ++ f, by rw [hg, hf, List.append_assoc], fun e he => ?_⟩
  · obtain hd | ⟨hc, hd⟩ := k.copy a
    · rw [hd]
      exact h.copy a
    · obtain hb | ⟨-, hb⟩ := h.copy a
      · exact .inr ⟨hb.symm.trans hc, by rw [hd, Bus.readByte, h.mem, Bus.readByte]⟩
      · exact absurd (hc.symm.trans hb) (by simp)
  · exact (List.mem_append.mp he).elim (hfetch' e) (hfetch e)

theorem Bus.noteStore_prefetched (b : Bus) (v : View) (a : Addr) (x : Byte) : b.Prefetched (b.noteStore v a x) := by
  obtain ⟨st, n, h⟩ | ⟨⟨n, h⟩, hnone, -, -⟩ := b.noteStore_cases v a x
  · rw [h]
    exact .of_same rfl rfl rfl
  · rw [h]
    refine ⟨rfl, fun d => ?_, [_], rfl, fun e he => ⟨_, _, List.mem_singleton.mp he⟩⟩
    rw [Bus.copyAt_append (b := b) rfl]
    by_cases hd : d = a
    · subst hd
      exact .inr ⟨hnone, by simp [hnone]⟩
    · exact .inl (by simp [hd])

theorem Bus.noteMaster_prefetched (b : Bus) (v : View) (c : MasterCycle) : b.Prefetched (b.noteMaster v c) := by
  unfold Bus.noteMaster
  split
  · split
    · exact b.noteStore_prefetched v _ _
    · exact .of_same rfl rfl rfl
    · exact .of_same rfl rfl rfl
  · exact .of_same rfl rfl rfl
  · exact .of_same rfl rfl rfl

theorem Bus.noteMasters_prefetched (b : Bus) (v : View) (l : List MasterCycle) :
    b.Prefetched (b.noteMasters v l) := by
  induction l generalizing b with
  | nil => exact .of_same rfl rfl rfl
  | cons c l ih => exact (b.noteMaster_prefetched v c).trans (ih _)

/-! ## Cycles of other masters -/

/-- A single store of another master is a store like the processor's, and its cycle (R84). -/
theorem Bus.serve_store (h : v.presence a = .ram) (b : Bus) : b.serve v [.write (.mem a) x] =
    { b.storeByte v a x with log := .master (.write (.mem a) x) :: (b.storeByte v a x).log } := by
  have hmem : (b.noteStore v a x).mem = b.mem := (b.noteStore_prefetched v a x).mem
  simp only [Bus.serve, Bus.noteMasters, Bus.noteMaster, h, Bus.doMasters, Bus.doMaster, Bus.keep, Bus.storeByte, hmem]

/-- Of the cycles of one grant no fetch comes between two: all come before the first. -/
theorem Bus.serve_queue (b : Bus) (v : View) (l : List MasterCycle) :
    let t := b.serve v l
    (∀ y, b.copyAt a = some y → t.copyAt a = some y) ∧
    (b.copyAt a = none → t.copyAt a = none ∨ t.copyAt a = some (b.readByte a)) ∧
    ∃ f, t.log = masterLog l ++ (f ++ b.log) ∧ ∀ c, c ∈ f → ∃ a x, c = .fetch a (.byte x) := by
  obtain ⟨-, hcopy, f, hlog, hf⟩ := b.noteMasters_prefetched v l
  obtain ⟨m, as, n, hserve⟩ := (b.noteMasters v l).doMasters_spec v l
  have ht : (b.serve v l).copyAt a = (b.noteMasters v l).copyAt a := by
    rw [Bus.serve, hserve]
    rfl
  simp only [ht]
  refine ⟨fun y hy => ?_, fun hnone => ?_, f, by rw [Bus.serve, hserve, hlog], hf⟩
  · obtain h | ⟨h, -⟩ := hcopy a
    · exact h.trans hy
    · exact absurd (h.symm.trans hy) (by simp)
  · obtain h | ⟨-, h⟩ := hcopy a
    · exact .inl (h.trans hnone)
    · exact .inr h

/-! ## Stores of the processor -/

/-- A store changes no copy held (R85). -/
theorem Bus.copyAt_storeByte_held (b : Bus) (v : View) (a : Addr) (x : Byte) {c : Addr} {y : Byte}
    (h : b.copyAt c = some y) : (b.storeByte v a x).copyAt c = some y := by
  obtain k | ⟨k, -⟩ := (b.noteStore_prefetched v a x).copy c
  · exact k.trans h
  · exact absurd (k.symm.trans h) (by simp)

theorem Bus.copyAt_storeByte_other (b : Bus) (v : View) (a : Addr) (x : Byte) {c : Addr} (h : c ≠ a) :
    (b.storeByte v a x).copyAt c = b.copyAt c := by
  change (b.noteStore v a x).copyAt c = b.copyAt c
  obtain ⟨st, n, k⟩ | ⟨⟨n, k⟩, -⟩ := b.noteStore_cases v a x
  · rw [k]
    rfl
  · rw [k, Bus.copyAt_append (b := b) rfl]
    simp [h]

/-- Of a byte not queued, the old one may prove to have been fetched just before the store. -/
theorem Bus.copyAt_storeByte_new (b : Bus) (v : View) (a : Addr) (x : Byte) (h : b.copyAt a = none) :
    ((b.storeByte v a x).copyAt a = none ∨
      (b.storeByte v a x).copyAt a = some (b.readByte a) ∧
        (b.storeByte v a x).log = .fetch a (.byte (b.readByte a)) :: b.log) ∧
    ((∀ k, k < 6 → v.codeAt k ≠ a) ∨ v.params.queueVisibility = .alwaysNew →
      (b.storeByte v a x).copyAt a = none) := by
  change ((b.noteStore v a x).copyAt a = none ∨ (b.noteStore v a x).copyAt a = some (b.readByte a) ∧
    (b.noteStore v a x).log = _) ∧ (_ → (b.noteStore v a x).copyAt a = none)
  obtain ⟨st, n, k⟩ | ⟨⟨n, k⟩, -, hsix, hvis⟩ := b.noteStore_cases v a x
  · have hcopy : (b.noteStore v a x).copyAt a = none := by
      rw [k]
      exact h
    exact ⟨.inl hcopy, fun _ => hcopy⟩
  · refine ⟨.inr ⟨by rw [k, Bus.copyAt_append (b := b) rfl]; simp [h], by rw [k]⟩, fun hno => ?_⟩
    obtain hno | hno := hno
    · obtain ⟨j, hj, ha⟩ := View.mayBeQueued_iff.mp hsix
      exact absurd ha (hno j hj)
    · exact absurd (hvis.symm.trans hno) (by decide)

/-! ## A fetch cycle -/

theorem getLsbD_zero_iff (a : Addr) : a.getLsbD 0 = true ↔ a.toNat % 2 = 1 := by
  rw [BitVec.getLsbD, Nat.testBit_zero, decide_eq_true_iff]

/-- Memory gives the code byte it holds. -/
theorem Bus.found_memory (b : Bus) (h : v.presence a = .ram ∨ v.presence a = .rom) :
    b.find v (.mem a) = b.readByte a ∧ b.found v (.mem a) = b := by
  obtain h | h := h <;> simp [Bus.find, Bus.found, h]

/-- A device gives its answer, which is used up (R73). -/
theorem Bus.found_device {rest : List (Location × Byte)} (h : v.presence a = .device)
    (ha : b.answers = (.mem a, x) :: rest) :
    b.find v (.mem a) = x ∧ b.found v (.mem a) = { b with answers := rest } := by
  simpa [Bus.find, Bus.found, h] using Bus.answer_head ha

/-- A fetch changes the queue, the answers and the record only. -/
theorem Bus.fetch_frame (b : Bus) (v : View) (w : Width) (k : Nat) :
    let c := b.fetch v w k
    c = { b with queue := c.queue, answers := c.answers, draws := c.draws, log := c.log } := by
  obtain ⟨q, as, n, f, h, -⟩ := b.fetch_spec v w k
  simp only [h]

/-- The fetch of a single byte. -/
theorem Bus.fetch_byte (b : Bus) (v : View) {w : Width} {k : Nat}
    (h : w = .byte ∨ (v.codeAt k).toNat % 2 = 1 ∨ 5 ≤ k ∨ b.isQueued (v.codeAt (k + 1)) = true) :
    b.fetch v w k =
      { b.fetchByte v (v.codeAt k) with
        log := .fetch (v.codeAt k) (.byte (b.find v (.mem (v.codeAt k)))) :: (b.fetchByte v (v.codeAt k)).log } := by
  refine if_neg fun hc => ?_
  simp only [Bool.and_eq_true, Bool.not_eq_true', beq_iff_eq, decide_eq_true_iff] at hc
  obtain ⟨⟨⟨hw, hodd⟩, hk⟩, hq⟩ := hc
  obtain h | h | h | h := h
  · exact absurd (hw.symm.trans h) (by decide)
  · exact absurd (((getLsbD_zero_iff _).mpr h).symm.trans hodd) (by decide)
  · omega
  · exact absurd (h.symm.trans hq) (by decide)

/-- The fetch of an aligned word. -/
theorem Bus.fetch_word (b : Bus) (v : View) {k : Nat} (he : (v.codeAt k).toNat % 2 = 0) (hk : k < 5)
    (hq : b.isQueued (v.codeAt (k + 1)) = false) :
    let lo := v.codeAt k
    let hi := v.codeAt (k + 1)
    let b1 := b.fetchByte v lo
    let b2 := b1.fetchByte v hi
    b.fetch v .word k =
      { b2 with log := .fetch lo (.word (joinBytes (b1.find v (.mem hi)) (b.find v (.mem lo)))) :: b2.log } := by
  refine if_pos ?_
  have hlo : (v.codeAt k).getLsbD 0 = false := by
    rw [Bool.eq_false_iff, Ne, getLsbD_zero_iff]
    omega
  simp only [hlo, hk, hq, beq_self_eq_true, Bool.not_false, decide_true, Bool.and_self]

theorem Bus.fetchByte_frame (b : Bus) (v : View) (a : Addr) :
    (b.fetchByte v a).queue = b.queue ++ [(a.toNat, b.find v (.mem a))] ∧ (b.fetchByte v a).log = b.log ∧
      (b.fetchByte v a).answers = (b.found v (.mem a)).answers ∧ (b.fetchByte v a).mem = b.mem := by
  obtain ⟨as, n, h⟩ := b.found_spec v (.mem a)
  rw [Bus.fetchByte, h]
  exact ⟨rfl, rfl, rfl, rfl⟩

end Copies

end Sys2Proof.Machine
end

section
/-!
PROOF. The fetch of an instruction when nothing comes from outside and nothing is queued, and what a fetch cycle reads
(O8).
-/

namespace Sys2Proof.Machine

/-! ## What a fetch cycle reads -/

section Cycle

variable (b : Bus) (v : View) {w : Width} {k : Nat}

/-- One code byte. -/
theorem Bus.fetch_byte_spec
    (h : w = .byte ∨ (v.codeAt k).toNat % 2 = 1 ∨ 5 ≤ k ∨ b.isQueued (v.codeAt (k + 1)) = true) :
    ∃ x, (b.fetch v w k).queue = b.queue ++ [((v.codeAt k).toNat, x)] ∧
      (b.fetch v w k).log = .fetch (v.codeAt k) (.byte x) :: b.log ∧
      match v.presence (v.codeAt k) with
      | .ram | .rom => x = b.readByte (v.codeAt k) ∧ (b.fetch v w k).answers = b.answers
      | .device => ∀ y rest, b.answers = (.mem (v.codeAt k), y) :: rest →
          x = y ∧ (b.fetch v w k).answers = rest := by
  obtain ⟨hqueue, hlog, hanswers, -⟩ := b.fetchByte_frame v (v.codeAt k)
  rw [b.fetch_byte v h]
  refine ⟨_, hqueue, congrArg _ hlog, ?_⟩
  simp only [hanswers]
  have hmemory (hp : v.presence (v.codeAt k) = .ram ∨ v.presence (v.codeAt k) = .rom) :
      b.find v (.mem (v.codeAt k)) = b.readByte (v.codeAt k) ∧
        (b.found v (.mem (v.codeAt k))).answers = b.answers := by
    obtain ⟨hfind, hfound⟩ := b.found_memory hp
    exact ⟨hfind, by rw [hfound]⟩
  split
  · next hp => exact hmemory (.inl hp)
  · next hp => exact hmemory (.inr hp)
  · next hp =>
    intro y rest ha
    obtain ⟨hfind, hfound⟩ := b.found_device hp ha
    exact ⟨hfind, by rw [hfound]⟩

/-- Or an aligned word. -/
theorem Bus.fetch_word_spec (he : (v.codeAt k).toNat % 2 = 0) (hk : k < 5)
    (hq : b.isQueued (v.codeAt (k + 1)) = false) :
    ∃ x y, (b.fetch v .word k).queue = b.queue ++ [((v.codeAt k).toNat, x), ((v.codeAt (k + 1)).toNat, y)] ∧
      (b.fetch v .word k).log = .fetch (v.codeAt k) (.word (joinBytes y x)) :: b.log ∧
      (v.params.map = [] → x = b.readByte (v.codeAt k) ∧ y = b.readByte (v.codeAt (k + 1)) ∧
        (b.fetch v .word k).answers = b.answers) := by
  obtain ⟨hqueue, hlog, hanswers, hmem⟩ := b.fetchByte_frame v (v.codeAt k)
  obtain ⟨hqueue', hlog', hanswers', -⟩ := (b.fetchByte v (v.codeAt k)).fetchByte_frame v (v.codeAt (k + 1))
  rw [b.fetch_word v he hk hq]
  refine ⟨_, _, hqueue'.trans (by rw [hqueue, List.append_assoc]; rfl), congrArg _ (hlog'.trans hlog), fun hmap => ?_⟩
  obtain ⟨hfind, hfound⟩ := b.found_memory (.inl (View.presence_ram hmap (v.codeAt k)))
  obtain ⟨hfind', hfound'⟩ :=
    (b.fetchByte v (v.codeAt k)).found_memory (.inl (View.presence_ram hmap (v.codeAt (k + 1))))
  refine ⟨hfind, hfind'.trans (by rw [Bus.readByte, hmem, Bus.readByte]), hanswers'.trans ?_⟩
  rw [hfound', hanswers, hfound]

end Cycle

/-! ## The bytes at CS:IP -/

/-- The bytes decoded are the queued copies. -/
theorem State.copyAt_of_codeFrom (s : State) (n j : Nat) {k : Nat} {x : Byte} (h : (s.codeFrom n j)[k]? = some x) :
    s.bus.copyAt (s.codeAddr (j + k)) = some x := by
  induction n generalizing j k with
  | zero => cases h
  | succ n ih =>
    rw [State.codeFrom] at h
    split at h
    · next y hy =>
      cases k with
      | zero => exact hy.trans h
      | succ k => simpa [Nat.add_assoc, Nat.add_comm 1 k] using ih (j + 1) h
    · cases h

/-- So many bytes are queued from the `j`-th at CS:IP on, and no more. -/
theorem State.codeFrom_eq (s : State) {f : Nat → Byte} {m : Nat} (n j : Nat) (hm : m ≤ j + n) (hj : j ≤ m)
    (h : ∀ k, j ≤ k → k < j + n → s.bus.copyAt (s.codeAddr k) = if k < m then some (f k) else none) :
    s.codeFrom n j = (List.range' j (m - j)).map f := by
  induction n generalizing j with
  | zero =>
    have : m - j = 0 := by omega
    rw [this]
    rfl
  | succ n ih =>
    rw [State.codeFrom, h j (Nat.le_refl j) (by omega)]
    by_cases hjm : j < m
    · have hlen : m - j = m - (j + 1) + 1 := by omega
      rw [if_pos hjm, hlen, List.range'_succ, List.map_cons]
      exact congrArg _ (ih (j + 1) (by omega) hjm fun k hk hkn => h k (by omega) (by omega))
    · have hlen : m - j = 0 := by omega
      rw [if_neg hjm, hlen]
      rfl

/-- The six bytes at CS:IP are at different addresses. -/
theorem State.codeAddr_inj (s : State) {j k : Nat} (hj : j < 6) (hk : k < 6) (h : s.codeAddr j = s.codeAddr k) :
    j = k := by
  have h := congrArg BitVec.toNat (add_left_cancel (phys_inj h))
  simp only [BitVec.toNat_ofNat] at h
  omega

/-! ## The queue filled byte by byte -/

/-- The state with the first `n` bytes at CS:IP fetched, one cycle each, into an empty queue. -/
def State.loaded (s : State) (n : Nat) : State :=
  { s with bus := { s.bus with
      queue := (List.range n).map fun k => ((s.codeAddr k).toNat, s.readByte (s.codeAddr k))
      log := ((List.range n).map fun k => BusCycle.fetch (s.codeAddr k) (.byte (s.readByte (s.codeAddr k)))).reverse ++
        s.bus.log } }

section Loaded

variable {s : State} {n : Nat}

theorem State.loaded_zero (h : s.bus.queue = []) : s.loaded 0 = s := by
  simp [State.loaded, ← h]

theorem State.loaded_copyAt {j : Nat} (hn : n ≤ 6) (hj : j < 6) :
    (s.loaded n).bus.copyAt (s.codeAddr j) = if j < n then some (s.readByte (s.codeAddr j)) else none := by
  induction n with
  | zero => rfl
  | succ n ih =>
    rw [Bus.copyAt_append (b := (s.loaded n).bus) (a := s.codeAddr n) (x := s.readByte (s.codeAddr n))
      (by simp [State.loaded, List.range_succ]), ih (by omega)]
    by_cases h : j = n
    · subst h
      simp
    · have hne : s.codeAddr j ≠ s.codeAddr n := fun e => h (s.codeAddr_inj hj (by omega) e)
      have hiff : j < n + 1 ↔ j < n := by omega
      simp [hne, hiff]

theorem State.loaded_codeBytes (hn : n ≤ 6) :
    (s.loaded n).codeBytes = (List.range n).map fun k => s.readByte (s.codeAddr k) := by
  rw [State.codeBytes, (s.loaded n).codeFrom_eq (m := n) 6 0 (by omega) (by omega)
    fun k _ hk => State.loaded_copyAt hn (by omega), List.range_eq_range']
  rfl

/-- When the next byte is needed, it is fetched. -/
theorem State.loaded_demand (hq : Quiet s) (hr : s.run = .running) (hn : n < 6) :
    (s.loaded n).setBus ((s.loaded n).bus.demand (s.loaded n).view n) = s.loaded (n + 1) := by
  have hcalm : (s.loaded n).bus.Calm := hq.calm.of_same rfl rfl rfl
  have hcode : (s.loaded n).view.codeAt n = s.codeAddr n := by
    simp [View.codeAt, State.view, State.queueStart, State.codeAddr, State.loaded, hr]
  have hnot : (s.loaded n).bus.isQueued (s.codeAddr n) = false := by
    simp [Bus.isQueued, State.loaded_copyAt hn.le hn]
  have hpresent : (s.loaded n).view.presence (s.codeAddr n) = .ram := View.presence_ram hq.map _
  obtain ⟨hfind, hfound⟩ := (s.loaded n).bus.found_memory (.inl hpresent)
  simp only [Bus.demand, hcalm.start, hcalm.reset, hcode, hnot, Bool.or_self, Bool.false_eq_true, if_false]
  rw [Bus.fetch_byte _ _ (.inl rfl), Bus.fetchByte, hcode, hfound, hfind]
  simp [State.setBus, State.loaded, List.range_succ, State.readByte, Bus.readByte]

theorem loaded_bytes {code : List Byte} (hbytes : ∀ k x, code[k]? = some x → s.readByte (s.codeAddr k) = x)
    (hn : n ≤ code.length) : ((List.range n).map fun k => s.readByte (s.codeAddr k)) = code.take n := by
  refine List.ext_getElem (by simp [hn]) fun k hk hk' => ?_
  simp only [List.getElem_map, List.getElem_range, List.getElem_take]
  exact hbytes k _ (List.getElem?_eq_getElem _)

/-- The fetch goes on until the bytes of the instruction are there: a proper part of them is a truncated one. -/
theorem State.loaded_fetchCode {i : Instr} (hq : Quiet s) (hr : s.run = .running) (hi : i.wf = true)
    (hbytes : ∀ k x, (encode i)[k]? = some x → s.readByte (s.codeAddr k) = x) (m : Nat)
    (hn : n ≤ (encode i).length) (hm : (encode i).length ≤ n + m) :
    (s.loaded n).fetchCode m = s.loaded (encode i).length := by
  have hsix := encode_length_le i
  have hdecode : decode (encode i) = .ok i [] := by simpa using decode_encode hi []
  induction m generalizing n with
  | zero => rw [State.fetchCode, Nat.le_antisymm hn hm]
  | succ m ih =>
    have hcode : (s.loaded n).codeBytes = (encode i).take n := by
      rw [State.loaded_codeBytes (hn.trans hsix), loaded_bytes hbytes hn]
    have hreset : (s.loaded n).bus.pins.reset = false := hq.reset
    rw [State.fetchCode, if_neg (by simp [hreset]), hcode]
    obtain hlt | rfl := hn.lt_or_eq
    · have hpart : decode ((encode i).take n) = .reject .truncated :=
        decode_part (x := (encode i).drop n) (by rwa [List.take_append_drop]) (by simpa using hlt)
      have hlen : ((encode i).take n).length = n := List.length_take_of_le hn
      simp only [hpart, hlen]
      rw [State.loaded_demand hq hr (by omega)]
      exact ih hlt (by omega)
    · rw [List.take_length, hdecode]

/-- The step fetches exactly the bytes of the instruction at CS:IP. -/
theorem Quiet.fetched {i : Instr} (hq : Quiet s) (hr : s.run = .running) (hempty : s.bus.queue = []) (hi : i.wf = true)
    (hbytes : ∀ k x, (encode i)[k]? = some x → s.readByte (s.codeAddr k) = x) :
    s.fetched = s.loaded (encode i).length ∧ s.fetched.codeBytes = encode i := by
  have hfetched : s.fetched = s.loaded (encode i).length := by
    have h := State.loaded_fetchCode (n := 0) hq hr hi hbytes 6 (Nat.zero_le _) (by simpa using encode_length_le i)
    rwa [State.loaded_zero hempty] at h
  refine ⟨hfetched, ?_⟩
  rw [hfetched, State.loaded_codeBytes (encode_length_le i), loaded_bytes hbytes (Nat.le_refl _), List.take_length]

end Loaded

/-- Settles O8: a fetch cycle by the two cases of its width, the fetch of an instruction by the queue filled byte by
byte, the stores by what a store finds out of the queue. -/
theorem fetchAndStoredCode : Obligations.FetchAndStoredCode := by
  refine ⟨fun b v w k => ⟨b.fetch_frame v w k, b.fetch_byte_spec v, ?_⟩, ?_, ?_,
    fun b v a x h => Bus.serve_store h b, fun b v l a => b.serve_queue v l, fun s a x => ⟨?_, ?_, ?_, ?_, ?_⟩⟩
  · rintro rfl he hk hq
    exact b.fetch_word_spec v he hk hq
  · intro s i hq hr hempty hi hbytes
    obtain ⟨hfetched, hcode⟩ := hq.fetched hr hempty hi hbytes
    exact ⟨hcode, hfetched⟩
  · intro s k x h
    simpa using s.copyAt_of_codeFrom 6 0 h
  · exact s.bus.readByte_storeByte_same s.view a x
  · exact fun c y h => s.bus.copyAt_storeByte_held s.view a x h
  · exact fun c h => s.bus.copyAt_storeByte_other s.view a x h
  · exact s.bus.copyAt_storeByte_new s.view a x
  · exact fun hvis hf hr hsix hx => Bus.noteStore_marks hvis hf hr (View.mayBeQueued_iff.mpr hsix) hx

end Sys2Proof.Machine
end

section
/-!
PROOF. Physical addresses (O17), and what reads and stores find and leave when nothing comes from outside (O18).
-/

namespace Sys2Proof.Machine

/-- Settles O17: an address is its number modulo the 2^20 addresses there are. -/
theorem physicalAddress : Obligations.PhysicalAddress := ⟨fun _ _ => BitVec.toNat_ofNat _ _, rfl⟩

/-! ## Operands held in memory -/

section Held

variable {s t : State} {w : Width} {seg off : Word}

/-- What is held depends on the addresses of the bytes only, not on the segment and offset that name them. -/
theorem heldAt_congr_phys (s : State) (w : Width) {seg' off' : Word} (hlo : phys seg' off' = phys seg off)
    (hhi : phys seg' (off' + 1) = phys seg (off + 1)) : heldAt s w seg' off' = heldAt s w seg off := by
  rw [heldAt_eq, heldAt_eq, hlo, hhi]

/-- An operand is held as before where each of its bytes is. -/
theorem heldAt_of_readByte (h : ∀ a, a ∈ storeAddrs seg off w → t.readByte a = s.readByte a) :
    heldAt t w seg off = heldAt s w seg off := by
  cases w with
  | byte => exact h _ (by simp [storeAddrs])
  | word =>
    have hlo : t.readByte (phys seg off) = s.readByte (phys seg off) := h _ (by simp [storeAddrs])
    have hhi : t.readByte (phys seg (off + 1)) = s.readByte (phys seg (off + 1)) := h _ (by simp [storeAddrs])
    simp only [heldAt, hlo, hhi]

/-- The bytes of a word held are its low and its high one (R65, R66). -/
theorem readByte_of_heldAt {x : Word} (h : heldAt t .word seg off = x) :
    t.readByte (phys seg off) = lowByte x ∧ t.readByte (phys seg (off + 1)) = highByte x := by
  subst h
  exact ⟨(lowByte_joinBytes _ _).symm, (highByte_joinBytes _ _).symm⟩

end Held

/-- Settles O18: each clause from what a read and a store do in quiet. -/
theorem storesAndReads : Obligations.StoresAndReads := by
  intro s w sr off v x seg' off'
  refine ⟨⟨rfl, rfl⟩, fun hq => ?_⟩
  obtain ⟨hread, hafter⟩ := hq.read w sr off
  obtain ⟨hbus, hlog, hheld, hother⟩ := hq.write w sr off v
  obtain ⟨-, -, hword, -⟩ := hq.write .word sr off x
  refine ⟨⟨hread, by rw [hafter]; rfl⟩, readByte_of_heldAt hword, fun hlo hhi => ?_, fun w' hdisj => ?_, hlog, ?_⟩
  · exact (heldAt_congr_phys _ w hlo hhi).trans hheld
  · exact heldAt_of_readByte fun a ha => hother a (hdisj a ha)
  · rw [hbus]
    exact ⟨rfl, rfl, rfl⟩

end Sys2Proof.Machine
end

section
/-!
PROOF. What comes from outside between the bus cycles of an instruction (O10, O11): what other masters do in one grant,
what one sampling point brings, and the operand reads and stores that follow it.
-/

namespace Sys2Proof.Machine

/-! ## The cycles of one grant -/

section Grants

variable {b : Bus} {v : View}

theorem Bus.doMaster_readByte (h : v.params.map = []) (b : Bus) (c : MasterCycle) (a : Addr) :
    (b.doMaster v c).readByte a = afterMasters [c] a (b.readByte a) := by
  cases c with
  | read l =>
    obtain ⟨as, n, hf⟩ := b.found_spec v l
    simp only [Bus.doMaster, hf]
    rfl
  | write l x =>
    cases l with
    | port p => rfl
    | mem d =>
      simp only [Bus.doMaster, Bus.keep, View.presence_ram h, afterMasters, List.foldl_cons, List.foldl_nil]
      split
      · next hd =>
        subst hd
        exact b.mem.read_write_same _ _
      · next hd => exact b.mem.read_write_other _ fun e => hd (BitVec.eq_of_toNat_eq e.symm)

/-- Where memory is all RAM, a byte holds the last store to it, or what it held. -/
theorem Bus.doMasters_readByte (h : v.params.map = []) (b : Bus) (l : List MasterCycle) (a : Addr) :
    (b.doMasters v l).readByte a = afterMasters l a (b.readByte a) := by
  induction l generalizing b with
  | nil => rfl
  | cons c l ih =>
    rw [Bus.doMasters, ih, Bus.doMaster_readByte h]
    rfl

theorem Bus.serve_readByte (h : v.params.map = []) (b : Bus) (l : List MasterCycle) (a : Addr) :
    (b.serve v l).readByte a = afterMasters l a (b.readByte a) := by
  have hmem : (b.noteMasters v l).readByte a = b.readByte a := by
    rw [Bus.readByte, (b.noteMasters_prefetched v l).mem, Bus.readByte]
  rw [Bus.serve, Bus.doMasters_readByte h, hmem]

/-- The record of a grant is the cycles served, in order, after fetches (R84, log 9); pins, samples and latch stay. -/
theorem Bus.serve_record (b : Bus) (v : View) (l : List MasterCycle) :
    (∃ f, (b.serve v l).log = masterLog l ++ (f ++ b.log) ∧ withoutFetches f = []) ∧
      (b.serve v l).pins = b.pins ∧ (b.serve v l).env = b.env ∧ (b.serve v l).nmiLatch = b.nmiLatch := by
  obtain ⟨m, q, st, as, n, f, h, hf⟩ := b.serve_spec v l
  rw [h]
  exact ⟨⟨f, rfl, hf⟩, rfl, rfl, rfl⟩

/-- Between the two cycles of an access only the system bus is served; under the lock nothing is (R71, R82). -/
theorem Bus.grantSystem_spec (b : Bus) (v : View) :
    (v.locked = true → b.grantSystem v = b) ∧
    (v.locked = false → b.grantSystem v =
      { b.serve v b.requests.system with requests := { b.requests with system := [] } }) := by
  constructor <;> intro h <;> simp [Bus.grantSystem, h]

/-- Settles O10: both grants serve a list of cycles, or do nothing. -/
theorem lockHoldsOffOtherMasters : Obligations.LockHoldsOffOtherMasters := by
  intro b v
  obtain ⟨hwait, hgrant⟩ := b.grant_spec v
  obtain ⟨hwait', hgrant'⟩ := b.grantSystem_spec v
  refine ⟨fun h => ⟨hwait h, hwait' h⟩, fun h => ?_, fun h => ?_⟩
  · obtain ⟨hlog, hpins, henv, hlatch⟩ := b.serve_record v (b.requests.rq0 ++ b.requests.rq1 ++ b.requests.system)
    rw [hgrant h]
    exact ⟨hlog, rfl, hpins, henv, hlatch, fun hm a => Bus.serve_readByte hm b _ a⟩
  · obtain ⟨hlog, hpins, henv, hlatch⟩ := b.serve_record v b.requests.system
    rw [hgrant' h]
    exact ⟨hlog, rfl, hpins, henv, hlatch, fun hm a => Bus.serve_readByte hm b _ a⟩

end Grants

/-! ## One sampling point -/

theorem Requests.none_append (r : Requests) : Requests.none.append r = r := rfl

theorem withoutFetches_append (l m : List BusCycle) :
    withoutFetches (l ++ m) = withoutFetches l ++ withoutFetches m := List.filter_append ..

theorem withoutFetches_masterLog (l : List MasterCycle) : withoutFetches (masterLog l) = masterLog l := by
  refine List.filter_eq_self.mpr fun c hc => ?_
  simp only [masterLog, List.mem_reverse, List.mem_map] at hc
  obtain ⟨m, -, rfl⟩ := hc
  rfl

/-- From `b` to `c` the sample `x` has been taken, the cycles `l` of other masters have been done, memory being all RAM,
and after them the reads `own`, the last first; `r` is recorded and still waits, `rest` is still to come. -/
structure Bus.Sampled (x : Sample) (l : List MasterCycle) (own : List BusCycle) (r : Requests) (rest : List Sample)
    (b c : Bus) : Prop where
  readByte : ∀ a, c.readByte a = afterMasters l a (b.readByte a)
  log : withoutFetches c.log = own ++ (masterLog l ++ withoutFetches b.log)
  requests : c.requests = r
  env : c.env = rest
  pins : c.pins = x.pins

section Points

variable {b : Bus} {v : View} {x : Sample} {rest : List Sample}

theorem Bus.sample_sampled (he : b.env = x :: rest) :
    Bus.Sampled x [] [] (b.requests.append x.requests) rest b b.sample := by
  rw [b.sample_spec x rest he]
  exact ⟨fun _ => rfl, rfl, rfl, rfl, rfl⟩

/-- A sample, and then the grant of a list of cycles. -/
theorem Bus.Sampled.serve {c : Bus} {r : Requests} (h : Bus.Sampled x [] [] r rest b c) (hm : v.params.map = [])
    (l : List MasterCycle) (q : Requests) : Bus.Sampled x l [] q rest b { c.serve v l with requests := q } := by
  obtain ⟨⟨f, hlog, hf⟩, hpins, henv, -⟩ := c.serve_record v l
  refine ⟨fun a => ?_, ?_, rfl, henv.trans h.env, hpins.trans h.pins⟩
  · exact (Bus.serve_readByte hm c l a).trans (congrArg _ (h.readByte a))
  · have hc : withoutFetches c.log = withoutFetches b.log := h.log
    change withoutFetches (c.serve v l).log = _
    rw [hlog, withoutFetches_append, withoutFetches_append, withoutFetches_masterLog, hf, hc]
    rfl

theorem Bus.start_of_no_fetch (hr : b.pins.reset = false) (he : b.env = x :: rest) (hf : x.fetch = none) :
    b.start v = b.sample.grant v := by
  rw [Bus.start, if_neg (by simp [hr])]
  refine b.tick_of_no_fetch v fun y rest' hy => ?_
  rw [he] at hy
  cases hy
  exact hf

/-- Under the lock what is asked for waits (R82, R393). -/
theorem Bus.start_sampled_locked (hr : b.pins.reset = false) (he : b.env = x :: rest) (hf : x.fetch = none)
    (hl : v.locked = true) : Bus.Sampled x [] [] (b.requests.append x.requests) rest b (b.start v) := by
  rw [Bus.start_of_no_fetch hr he hf, (b.sample.grant_spec v).1 hl]
  exact b.sample_sampled he

/-- Without it all that is asked for is done (R84). -/
theorem Bus.start_sampled (hr : b.pins.reset = false) (he : b.env = x :: rest) (hf : x.fetch = none)
    (hl : v.locked = false) (hm : v.params.map = []) (hq : b.requests = Requests.none) :
    Bus.Sampled x (asked x) [] Requests.none rest b (b.start v) := by
  have hs := b.sample_sampled he
  have hreq : b.sample.requests = x.requests := by rw [hs.requests, hq, Requests.none_append]
  rw [Bus.start_of_no_fetch hr he hf, (b.sample.grant_spec v).2 hl, hreq]
  exact hs.serve hm (asked x) _

/-- Between the two cycles of an access, only what is asked for on the system bus (R71). -/
theorem Bus.between_sampled (hr : b.pins.reset = false) (he : b.env = x :: rest) (hl : v.locked = false)
    (hm : v.params.map = []) (hq : b.requests = Requests.none) :
    Bus.Sampled x x.requests.system [] { x.requests with system := [] } rest b (b.between v) := by
  have hs := b.sample_sampled he
  have hreq : b.sample.requests = x.requests := by rw [hs.requests, hq, Requests.none_append]
  rw [Bus.between, if_neg (by simp [hr]), (b.sample.grantSystem_spec v).2 hl, hreq]
  exact hs.serve hm _ _

end Points

/-! ## The cycles that follow a sampling point -/

section Cycles

variable {b : Bus} {v : View}

theorem Bus.record_of_low (h : b.pins.reset = false) (c : BusCycle) : b.record c = { b with log := c :: b.log } := by
  simp [Bus.record, h]

/-- While RESET is LOW and memory is all RAM, a byte read is the byte memory holds, and nothing changes. -/
theorem Bus.take_ram (h : b.pins.reset = false) (hm : v.params.map = []) (a : Addr) :
    b.take v (.mem a) = b.readByte a ∧ b.taken v (.mem a) = b := by
  obtain ⟨hfind, hfound⟩ := b.found_memory (.inl (View.presence_ram hm a))
  simp [Bus.take, Bus.taken, h, hfind, hfound]

theorem Bus.put_ram {a : Addr} (h : v.presence a = .ram) (b : Bus) (u : Byte) :
    b.put v (.mem a) u = b.storeByte v a u := by
  simp only [Bus.put, h]

theorem Bus.put_not_ram {a : Addr} (h : v.presence a = .rom ∨ v.presence a = .device) (b : Bus) (u : Byte) :
    b.put v (.mem a) u = b := by
  obtain h | h := h <;> simp only [Bus.put, h]

/-- All a write of one byte leaves alone: of memory every other byte, of the rest all but the queue and fetches. -/
theorem Bus.put_frame (b : Bus) (v : View) (a : Addr) (u : Byte) :
    let c := b.put v (.mem a) u
    c.pins = b.pins ∧ c.requests = b.requests ∧ c.answers = b.answers ∧
      withoutFetches c.log = withoutFetches b.log ∧ ∀ d, d ≠ a → c.readByte d = b.readByte d := by
  cases h : v.presence a with
  | ram =>
    obtain ⟨hrest, hlog, -, hother⟩ := b.storeByte_stored v a u
    rw [Bus.put_ram h]
    exact ⟨by rw [hrest], by rw [hrest], by rw [hrest], hlog, hother⟩
  | rom =>
    rw [Bus.put_not_ram (.inl h)]
    exact ⟨rfl, rfl, rfl, rfl, fun _ _ => rfl⟩
  | device =>
    rw [Bus.put_not_ram (.inr h)]
    exact ⟨rfl, rfl, rfl, rfl, fun _ _ => rfl⟩

/-- A byte is read in one cycle. -/
theorem Bus.read_byte (h : (b.start v).pins.reset = false) (x : Access) :
    b.read v .byte x = (b.start v).find v x.lo ∧
    b.afterRead v .byte x = { (b.start v).found v x.lo with
      log := .read x.seg x.lo (.byte ((b.start v).find v x.lo)) :: (b.start v).log } := by
  obtain ⟨as, n, hf⟩ := (b.start v).found_spec v x.lo
  simp only [Bus.read, Bus.afterRead, Bus.take, Bus.taken, h, hf, Bool.false_eq_true, if_false, true_and]
  exact Bus.record_of_low (b := { b.start v with answers := as, draws := n }) h _

/-- A byte is written in one cycle. -/
theorem Bus.write_byte (h : (b.start v).pins.reset = false) (seg : Option SReg) (a : Addr) (hi : Location) (u : Byte) :
    b.write v .byte ⟨seg, .mem a, hi⟩ u = { (b.start v).put v (.mem a) u with
      log := .write seg (.mem a) (.byte u) :: ((b.start v).put v (.mem a) u).log } := by
  obtain ⟨hpins, -⟩ := (b.start v).put_frame v a u
  simp only [Bus.write, Bus.give, h, Bool.false_eq_true, if_false]
  exact Bus.record_of_low (by rw [hpins, h]) _

/-- A word at an even address of RAM is read in one cycle (R68). -/
theorem Bus.read_word_even (h : (b.start v).pins.reset = false) (hm : v.params.map = []) (seg : Option SReg)
    {lo : Addr} (hi : Addr) (he : lo.toNat % 2 = 0) :
    let u := joinBytes ((b.start v).readByte hi) ((b.start v).readByte lo)
    b.read v .word ⟨seg, .mem lo, .mem hi⟩ = u ∧
    b.afterRead v .word ⟨seg, .mem lo, .mem hi⟩ =
      { b.start v with log := .read seg (.mem lo) (.word u) :: (b.start v).log } := by
  have hodd : (Location.mem lo).isOdd = false := by
    rw [Location.isOdd, Bool.eq_false_iff, Ne, getLsbD_zero_iff]
    omega
  obtain ⟨hlo, hlo'⟩ := Bus.take_ram h hm lo
  obtain ⟨hhi, hhi'⟩ := Bus.take_ram h hm hi
  simp only [Bus.read, Bus.afterRead, Bus.takenLow, hodd, hlo, hlo', hhi, hhi', Bool.false_eq_true, if_false,
    Bus.record_of_low h, and_self]

/-- The bus when the low byte of a word at an odd address has been read: what comes between the two cycles has come. -/
def Bus.midRead (v : View) (seg : Option SReg) (lo : Addr) (b : Bus) : Bus :=
  ({ b.start v with log := .read seg (.mem lo) (.byte ((b.start v).readByte lo)) :: (b.start v).log } : Bus).between v

/-- A word at an odd address of RAM is read in two cycles (R68). -/
theorem Bus.read_word_odd (h : (b.start v).pins.reset = false) (hm : v.params.map = []) (seg : Option SReg)
    {lo : Addr} (hi : Addr) (ho : lo.toNat % 2 = 1) (hmid : (b.midRead v seg lo).pins.reset = false) :
    b.read v .word ⟨seg, .mem lo, .mem hi⟩ = joinBytes ((b.midRead v seg lo).readByte hi) ((b.start v).readByte lo) ∧
    b.afterRead v .word ⟨seg, .mem lo, .mem hi⟩ = { b.midRead v seg lo with
      log := .read seg (.mem hi) (.byte ((b.midRead v seg lo).readByte hi)) :: (b.midRead v seg lo).log } := by
  have hodd : (Location.mem lo).isOdd = true := (getLsbD_zero_iff lo).mpr ho
  obtain ⟨hlo, hlo'⟩ := Bus.take_ram h hm lo
  have hlow : (b.start v).takenLow v ⟨seg, .mem lo, .mem hi⟩ = b.midRead v seg lo := by
    simp only [Bus.takenLow, hodd, if_true, hlo, hlo', Bus.record_of_low h, Bus.midRead]
  obtain ⟨hhi, hhi'⟩ := Bus.take_ram hmid hm hi
  simp only [Bus.read, Bus.afterRead, hlow, hodd, hlo, hhi, hhi', if_true, Bus.record_of_low hmid, and_self]

end Cycles

/-! ## Operands read and written after a sampling point -/

section Operands

variable {b c : Bus} {v : View} {x : Sample} {l : List MasterCycle} {own : List BusCycle} {r : Requests}
  {rest : List Sample}

theorem Bus.Sampled.record (h : Bus.Sampled x l own r rest b c) {d : BusCycle}
    (hd : withoutFetches [d] = [d]) : Bus.Sampled x l (d :: own) r rest b { c with log := d :: c.log } := by
  refine ⟨h.readByte, ?_, h.requests, h.env, h.pins⟩
  change withoutFetches ([d] ++ c.log) = _
  rw [withoutFetches_append, hd, h.log]
  rfl

theorem Bus.Sampled.low (h : Bus.Sampled x l own r rest b c) (hx : x.pins.reset = false) : c.pins.reset = false := by
  rw [h.pins, hx]

/-- A byte read is what the cycles of the sample have left. -/
theorem Bus.Sampled.read_byte (h : Bus.Sampled x l [] r rest b (b.start v)) (hx : x.pins.reset = false)
    (hm : v.params.map = []) (seg : Option SReg) (a : Addr) (hi : Location) :
    let u := afterMasters l a (b.readByte a)
    b.read v .byte ⟨seg, .mem a, hi⟩ = u ∧
      Bus.Sampled x l [.read seg (.mem a) (.byte u)] r rest b (b.afterRead v .byte ⟨seg, .mem a, hi⟩) := by
  obtain ⟨hread, hafter⟩ := Bus.read_byte (h.low hx) ⟨seg, .mem a, hi⟩
  obtain ⟨hfind, hfound⟩ := (b.start v).found_memory (.inl (View.presence_ram hm a))
  rw [hfind, h.readByte] at hread hafter
  rw [hfound] at hafter
  exact ⟨hread, hafter ▸ h.record rfl⟩

/-- So is an aligned word. -/
theorem Bus.Sampled.read_word (h : Bus.Sampled x l [] r rest b (b.start v)) (hx : x.pins.reset = false)
    (hm : v.params.map = []) (seg : Option SReg) {lo : Addr} (hi : Addr) (he : lo.toNat % 2 = 0) :
    let u := joinBytes (afterMasters l hi (b.readByte hi)) (afterMasters l lo (b.readByte lo))
    b.read v .word ⟨seg, .mem lo, .mem hi⟩ = u ∧
      Bus.Sampled x l [.read seg (.mem lo) (.word u)] r rest b (b.afterRead v .word ⟨seg, .mem lo, .mem hi⟩) := by
  obtain ⟨hread, hafter⟩ := Bus.read_word_even (h.low hx) hm seg hi he
  rw [h.readByte, h.readByte] at hread hafter
  exact ⟨hread, hafter ▸ h.record rfl⟩

/-- A byte written is held after it, the others are what the cycles of the sample have left. -/
theorem Bus.Sampled.write_byte (h : Bus.Sampled x l [] r rest b (b.start v)) (hx : x.pins.reset = false)
    (hm : v.params.map = []) (seg : Option SReg) (a : Addr) (hi : Location) (u : Byte) :
    let c := b.write v .byte ⟨seg, .mem a, hi⟩ u
    c.readByte a = u ∧ (∀ d, d ≠ a → c.readByte d = afterMasters l d (b.readByte d)) ∧ c.requests = r ∧
      withoutFetches c.log = .write seg (.mem a) (.byte u) :: (masterLog l ++ withoutFetches b.log) := by
  obtain ⟨-, hreq, -, hlog, hother⟩ := (b.start v).put_frame v a u
  have hsame : ((b.start v).put v (.mem a) u).readByte a = u := by
    rw [Bus.put_ram (View.presence_ram hm a)]
    exact (b.start v).readByte_storeByte_same v a u
  simp only [Bus.write_byte (h.low hx)]
  refine ⟨hsame, fun d hd => (hother d hd).trans (h.readByte d), hreq.trans h.requests, ?_⟩
  exact congrArg _ (hlog.trans h.log)

/-- A byte is read, and after the next sample one is written there: the cycles of the first sample come before both,
those of the second between them. -/
theorem Bus.Sampled.exchange {y : Sample} {m : List MasterCycle} {q : Requests} {seg : Option SReg} {a : Addr}
    {hi : Location} (h : Bus.Sampled x l [] r [y] b (b.start v))
    (k : ∀ {c : Bus}, c.pins = x.pins → c.env = [y] → c.requests = r → Bus.Sampled y m [] q [] c (c.start v))
    (hx : x.pins.reset = false) (hy : y.pins.reset = false) (hm : v.params.map = []) (u : Byte) :
    let at_ : Access := ⟨seg, .mem a, hi⟩
    let old := afterMasters l a (b.readByte a)
    let c := (b.afterRead v .byte at_).write v .byte at_ u
    b.read v .byte at_ = old ∧ c.readByte a = u ∧
      (∀ d, d ≠ a → c.readByte d = afterMasters m d (afterMasters l d (b.readByte d))) ∧ c.requests = q ∧
      withoutFetches c.log = .write seg (.mem a) (.byte u) :: (masterLog m ++
        .read seg (.mem a) (.byte old) :: (masterLog l ++ withoutFetches b.log)) := by
  obtain ⟨hread, hafter⟩ := h.read_byte hx hm seg a hi
  obtain ⟨hsame, hother, hreq, hlog⟩ := (k hafter.pins hafter.env hafter.requests).write_byte hy hm seg a hi u
  refine ⟨hread, hsame, fun d hd => (hother d hd).trans ?_, hreq, hlog.trans ?_⟩
  · rw [hafter.readByte]
  · rw [hafter.log]
    rfl

end Operands

/-! ## The instructions of the statement -/

/-- What an exchange of a byte register with memory does to the bus and the register (R170). -/
theorem exec_xchg_byte_mem (s : State) (r : RegNum) (m : Mem) :
    let at_ := s.operandAt (s.segRm m) (s.ea m)
    ∃ t, exec (.xchgRmReg .byte r (.mem m)) s = .next t ∧ t.reg8 r.reg8 = s.bus.read s.view .byte at_ ∧
      t.bus = (s.bus.afterRead s.view .byte at_).write s.view .byte at_ (s.reg8 r.reg8) :=
  ⟨_, rfl, (State.setReg8_spec _ _ _).1, rfl⟩

/-- What LDS loads: two words, the second read after the first (R178). -/
theorem exec_lds_mem (s : State) (r : Reg16) (m : Mem) :
    let first := s.operandAt (s.segRm m) (s.ea m)
    ∃ t, exec (.lds r m) s = .next t ∧ t.reg16 r = s.bus.read s.view .word first ∧
      t.segs.ds = (s.bus.afterRead s.view .word first).read s.view .word (s.operandAt (s.segRm m) (s.ea m + 2)) :=
  ⟨_, rfl, State.setReg16_same _ _ _, rfl⟩

/-- Two samples are to come, neither with a RESET nor a fetch ahead; nothing else is asked for yet, RESET is LOW. -/
structure Bus.Awaits (x y : Sample) (b : Bus) : Prop where
  env : b.env = [x, y]
  requests : b.requests = Requests.none
  reset : b.pins.reset = false
  low : x.pins.reset = false ∧ y.pins.reset = false
  fetch : x.fetch = none ∧ y.fetch = none

section Awaits

variable {b : Bus} {v : View} {x y : Sample} {seg : Option SReg}

/-- Unlocked, the stores of the first sample come before the read, those of the second between read and write. -/
theorem Bus.Awaits.exchange (h : b.Awaits x y) (hl : v.locked = false) (hm : v.params.map = []) (a : Addr)
    (hi : Location) (u : Byte) :
    let at_ : Access := ⟨seg, .mem a, hi⟩
    let old := afterMasters (asked x) a (b.readByte a)
    let c := (b.afterRead v .byte at_).write v .byte at_ u
    b.read v .byte at_ = old ∧ c.readByte a = u ∧
      (∀ d, d ≠ a → c.readByte d = afterMasters (asked y) d (afterMasters (asked x) d (b.readByte d))) ∧
      c.requests = Requests.none ∧
      withoutFetches c.log = .write seg (.mem a) (.byte u) :: (masterLog (asked y) ++
        .read seg (.mem a) (.byte old) :: (masterLog (asked x) ++ withoutFetches b.log)) := by
  obtain ⟨hx, hy⟩ := h.low
  obtain ⟨hfx, hfy⟩ := h.fetch
  refine (Bus.start_sampled h.reset h.env hfx hl hm h.requests).exchange (fun hp he hq => ?_) hx hy hm u
  exact Bus.start_sampled (by rw [hp, hx]) he hfy hl hm hq

/-- Under the lock no store comes before either, and both lots of requests wait. -/
theorem Bus.Awaits.exchange_locked (h : b.Awaits x y) (hl : v.locked = true) (hm : v.params.map = []) (a : Addr)
    (hi : Location) (u : Byte) :
    let at_ : Access := ⟨seg, .mem a, hi⟩
    let c := (b.afterRead v .byte at_).write v .byte at_ u
    b.read v .byte at_ = b.readByte a ∧ c.readByte a = u ∧ (∀ d, d ≠ a → c.readByte d = b.readByte d) ∧
      c.requests = x.requests.append y.requests ∧
      withoutFetches c.log =
        .write seg (.mem a) (.byte u) :: .read seg (.mem a) (.byte (b.readByte a)) :: withoutFetches b.log := by
  obtain ⟨hx, hy⟩ := h.low
  obtain ⟨hfx, hfy⟩ := h.fetch
  have hstart := Bus.start_sampled_locked h.reset h.env hfx hl
  rw [h.requests, Requests.none_append] at hstart
  refine hstart.exchange (m := []) (q := x.requests.append y.requests) (fun hp he hq => ?_) hx hy hm u
  exact hq ▸ Bus.start_sampled_locked (by rw [hp, hx]) he hfy hl

/-- Two aligned words read one after the other: each is what the stores of its own sample have left. -/
theorem Bus.Awaits.read_words (h : b.Awaits x y) (hl : v.locked = false) (hm : v.params.map = []) {lo lo' : Addr}
    (hi hi' : Addr) (he : lo.toNat % 2 = 0) (he' : lo'.toNat % 2 = 0) :
    let first := fun a => afterMasters (asked x) a (b.readByte a)
    let second := fun a => afterMasters (asked y) a (first a)
    let c := b.afterRead v .word ⟨seg, .mem lo, .mem hi⟩
    b.read v .word ⟨seg, .mem lo, .mem hi⟩ = joinBytes (first hi) (first lo) ∧ c.env = [y] ∧
      c.read v .word ⟨seg, .mem lo', .mem hi'⟩ = joinBytes (second hi') (second lo') := by
  obtain ⟨hx, hy⟩ := h.low
  obtain ⟨hfx, hfy⟩ := h.fetch
  obtain ⟨hread, hafter⟩ := (Bus.start_sampled h.reset h.env hfx hl hm h.requests).read_word hx hm seg hi he
  obtain ⟨hread', -⟩ := (Bus.start_sampled (hafter.low hx) hafter.env hfy hl hm hafter.requests).read_word hy hm seg
    hi' he'
  rw [hafter.readByte, hafter.readByte] at hread'
  exact ⟨hread, hafter.env, hread'⟩

/-- A word at an odd address: between its bytes come the stores of the second sample on the system bus, and those asked
for otherwise wait (R71). -/
theorem Bus.Awaits.read_word_odd (h : b.Awaits x y) (hl : v.locked = false) (hm : v.params.map = []) {lo : Addr}
    (hi : Addr) (ho : lo.toNat % 2 = 1) :
    let first := fun a => afterMasters (asked x) a (b.readByte a)
    b.read v .word ⟨seg, .mem lo, .mem hi⟩ = joinBytes (afterMasters y.requests.system hi (first hi)) (first lo) ∧
      (b.afterRead v .word ⟨seg, .mem lo, .mem hi⟩).requests = { y.requests with system := [] } := by
  obtain ⟨hx, hy⟩ := h.low
  obtain ⟨hfx, hfy⟩ := h.fetch
  have hstart := Bus.start_sampled h.reset h.env hfx hl hm h.requests
  have hlow := hstart.record (d := .read seg (.mem lo) (.byte ((b.start v).readByte lo))) rfl
  have hmid : Bus.Sampled y y.requests.system [] { y.requests with system := [] } [] _ (b.midRead v seg lo) :=
    Bus.between_sampled (hlow.low hx) hlow.env hl hm hlow.requests
  obtain ⟨hread, hafter⟩ := Bus.read_word_odd (hstart.low hx) hm seg hi ho (hmid.low hy)
  rw [hmid.readByte, hlow.readByte, hstart.readByte] at hread
  exact ⟨hread, by rw [hafter]; exact hmid.requests⟩

end Awaits

/-- Settles O11: the cycles an instruction runs, each after the sampling point it starts with. -/
theorem interleaving : Obligations.Interleaving := by
  intro s x y hr hq hm he hx hy hfx hfy
  have h : s.bus.Awaits x y := ⟨he, hq, hr, ⟨hx, hy⟩, hfx, hfy⟩
  refine ⟨fun r m => ?_, fun hl r m => ?_, fun hl sr off => ?_⟩
  · obtain ⟨t, ht, hreg, hbus⟩ := exec_xchg_byte_mem s r m
    refine ⟨t, ht, ?_⟩
    simp only [State.readByte, hreg, hbus]
    cases hl : s.locked with
    | true =>
      obtain ⟨hread, hsame, hother, hreq, hlog⟩ := h.exchange_locked (v := s.view) hl hm _ _ _
      exact ⟨hsame, by rw [if_pos rfl]; exact ⟨hread, hother, hreq, hlog⟩⟩
    | false =>
      obtain ⟨hread, hsame, hother, -, hlog⟩ := h.exchange (v := s.view) hl hm _ _ _
      exact ⟨hsame, by rw [if_neg (by decide)]; exact ⟨hread, hother, hlog⟩⟩
  · intro at_ h0 h2
    obtain ⟨t, ht, hreg, hds⟩ := exec_lds_mem s r m
    obtain ⟨hread, -, hread'⟩ := h.read_words (v := s.view) (seg := some (s.segRm m)) hl hm (at_ 1) (at_ 3) h0 h2
    have hfirst : s.operandAt (s.segRm m) (s.ea m) = ⟨some (s.segRm m), .mem (at_ 0), .mem (at_ 1)⟩ := by
      simp [at_, State.operandAt]
    have hsecond : s.operandAt (s.segRm m) (s.ea m + 2) = ⟨some (s.segRm m), .mem (at_ 2), .mem (at_ 3)⟩ := by
      simp [at_, State.operandAt, add_assoc]
    rw [hfirst] at hreg hds
    rw [hsecond] at hds
    exact ⟨t, ht, hreg.trans hread, hds.trans hread'⟩
  · intro lo hi first
    refine ⟨fun heven => ?_, fun hodd => h.read_word_odd hl hm hi hodd⟩
    obtain ⟨hread, henv, -⟩ := h.read_words (v := s.view) (seg := some sr) hl hm hi hi heven heven
    exact ⟨hread, henv⟩

end Sys2Proof.Machine
end

section
/-!
PROOF. The memory map (O12), and that every instruction completes (O23).
-/

namespace Sys2Proof.Machine

/-! ## The memory map -/

/-- The first region that holds the address counts (log 13). -/
theorem View.presence_cons {v : View} {r : Region} {rest : List Region} (h : v.params.map = r :: rest) (a : Addr) :
    v.presence a = if r.base ≤ a.toNat ∧ a.toNat < r.base + r.size then r.kind
      else View.presence { v with params := { v.params with map := rest } } a := by
  by_cases hr : r.base ≤ a.toNat ∧ a.toNat < r.base + r.size
  · simp [View.presence, h, hr]
  · rw [if_neg hr, View.presence, h, List.find?_cons_of_neg (by simpa using hr)]
    rfl

/-- Settles O12: the map by its first region; a byte read or written by what is present there. -/
theorem platform : Obligations.Platform := by
  refine ⟨fun v a => ⟨fun h => View.presence_ram h a, fun r rest h => View.presence_cons h a⟩, fun s sr off u hs => ?_⟩
  intro a r t
  have hstart : s.bus.start s.view = s.bus := hs.calm.start s.view
  have hlow : (s.bus.start s.view).pins.reset = false := by rw [hstart, hs.reset]
  obtain ⟨hread, hafter⟩ := Bus.read_byte hlow (s.operandAt sr off)
  have hwrite := Bus.write_byte hlow (some sr) a (.mem (phys (s.sreg sr) (off + 1))) u
  rw [hstart] at hread hafter hwrite
  obtain ⟨-, -, hanswers, hlog, hother⟩ := s.bus.put_frame s.view a u
  obtain ⟨as, n, hfound⟩ := s.bus.found_spec s.view (.mem a)
  have hr : r.bus = _ := hafter
  have ht : t.bus = _ := hwrite
  simp only [State.readByte, hr, ht]
  refine ⟨fun c => ?_, congrArg (fun x => BusCycle.read _ _ (.byte x) :: _) hread.symm, congrArg _ hlog, hanswers,
    hother, ?_⟩
  · change (s.bus.found s.view (.mem a)).readByte c = _
    rw [hfound]
    rfl
  · have hmemory (h : s.view.presence a = .ram ∨ s.view.presence a = .rom) :
        s.readSeg .byte sr off = s.bus.readByte a ∧ (s.bus.found s.view (.mem a)).answers = s.bus.answers := by
      obtain ⟨hfind, hsame⟩ := s.bus.found_memory h
      exact ⟨hread.trans hfind, congrArg Bus.answers hsame⟩
    cases hp : s.view.presence a with
    | ram =>
      obtain ⟨hvalue, hkept⟩ := hmemory (.inl hp)
      rw [Bus.put_ram hp]
      exact ⟨hvalue, hkept, s.bus.readByte_storeByte_same s.view a u⟩
    | rom =>
      obtain ⟨hvalue, hkept⟩ := hmemory (.inr hp)
      exact ⟨hvalue, hkept, congrArg Bus.mem (Bus.put_not_ram (.inl hp) s.bus u)⟩
    | device =>
      refine ⟨congrArg Bus.mem (Bus.put_not_ram (.inr hp) s.bus u), fun y rest ha => ?_⟩
      obtain ⟨hfind, hused⟩ := s.bus.found_device hp ha
      exact ⟨hread.trans hfind, congrArg Bus.answers hused⟩

/-! ## Completion -/

/-- Settles O23: every meaning answers a next state but for the loads of CS, which are not well formed (R121). -/
theorem everyInstructionCompletes : Obligations.EveryInstructionCompletes := by
  intro i s h
  cases i
  case movRmReg d w r rm => cases d <;> exact ⟨_, rfl⟩
  case pushRm rm => cases rm <;> exact ⟨_, rfl⟩
  case movSregRm sr rm | popSreg sr =>
    cases sr
    case cs => cases h
    all_goals exact ⟨_, rfl⟩
  case wait =>
    simp only [exec, execWait]
    split <;> exact ⟨_, rfl⟩
  all_goals exact ⟨_, rfl⟩

end Sys2Proof.Machine
end

section
/-!
PROOF. The decoder answers only well-formed instructions and drops no bit (O15), and gives back what was encoded (O14,
O16): a reader entered after some bytes answers instructions whose encoding is those bytes and the ones it took. This
is shown of every reader, then of every row of the opcode map.
-/

namespace Sys2Proof

open Sys2Proof.Machine (joinBytes lowByte highByte field2 field3)

/-! ## Fields -/

theorem RegNum.code_ofField {n : Nat} (h : n < 8) : (RegNum.ofField n).code = n := by
  interval_cases n <;> rfl

theorem EaBase.code_ofField {n : Nat} (h : n < 8) : (EaBase.ofField n).code = n := by
  interval_cases n <;> rfl

theorem SReg.code_ofField {n : Nat} (h : n < 4) : (SReg.ofField n).code = n := by
  interval_cases n <;> rfl

/-- The number of a 16-bit register is the one that names it (R106). -/
theorem RegNum.num_reg16 : Function.LeftInverse Reg16.num RegNum.reg16 := fun r => by cases r <;> rfl

theorem RegNum.reg8_injective : Function.Injective RegNum.reg8 := fun q r h => by
  cases q <;> cases r <;> first | rfl | cases h

theorem Width.bit_ofBit (b : Bool) : (Width.ofBit b).bit = b.toNat := by cases b <;> rfl

theorem Dir.bit_ofBit (b : Bool) : (Dir.ofBit b).bit = b.toNat := by cases b <;> rfl

theorem Count.bit_ofBit (b : Bool) : (Count.ofBit b).bit = b.toNat := by cases b <;> rfl

theorem field3_lt (b : Byte) (lo : Nat) : field3 b lo < 8 := Nat.mod_lt _ (by decide)

theorem field2_lt (b : Byte) (lo : Nat) : field2 b lo < 4 := Nat.mod_lt _ (by decide)

/-- The three fields of an operand byte are all of it (R104). -/
theorem modRmByte_of_fields (b : Byte) : modRmByte (field2 b 6) (field3 b 3) (field3 b 0) = b := by
  apply BitVec.eq_of_toNat_eq
  have := b.isLt
  simp only [field2, field3, modRmByte, BitVec.toNat_ofNat]
  omega

/-- Only (BP) without a displacement is no formula (R108). -/
theorem Mem.wf_based {b : EaBase} {d : Disp} (h : d = .none → b ≠ .bp) : (Mem.based b d).wf = true := by
  cases d with
  | none =>
    cases b
    case bp => exact absurd rfl (h rfl)
    all_goals rfl
  | d8 v | d16 v => cases b <;> rfl

/-- CS alone cannot be loaded (R121). -/
theorem SReg.loadable_of_ne {sr : SReg} (h : sr ≠ .cs) : sr.loadable = true := by
  cases sr
  case cs => exact absurd rfl h
  all_goals rfl

theorem encodeWord_joinBytes (hi lo : Byte) : encodeWord (joinBytes hi lo) = [lo, hi] := by
  simp [encodeWord]

/-! ## The first byte -/

/-- A first byte is the bits a row fixes and the bits it leaves open (R103). -/
theorem eq_op_of_masked {b mask : Byte} {fixed field : Nat} (h : b &&& mask = BitVec.ofNat 8 fixed)
    (hf : b &&& ~~~mask = BitVec.ofNat 8 field) : b = op fixed field := by
  have hdisjoint : (b &&& mask) &&& (b &&& ~~~mask) = 0#8 := by
    ext i hi
    cases hm : mask[i] <;> simp [hm]
  have hcover : (b &&& mask) ||| (b &&& ~~~mask) = b := by
    ext i hi
    cases hm : mask[i] <;> simp [hm]
  calc
    b = (b &&& mask) ||| (b &&& ~~~mask) := hcover.symm
    _ = (b &&& mask) + (b &&& ~~~mask) := (BitVec.add_eq_or_of_and_eq_zero _ _ hdisjoint).symm
    _ = op fixed field := by rw [h, hf, op, BitVec.ofNat_add]

/-! The bits that the masks of the opcode map leave open, as the fields they hold. -/

theorem openBits_none : ∀ b : Byte, b &&& ~~~0b11111111 = BitVec.ofNat 8 0 := by decide

theorem openBits_0 : ∀ b : Byte, b &&& ~~~0b11111110 = BitVec.ofNat 8 (b.getLsbD 0).toNat := by decide

theorem openBits_10 :
    ∀ b : Byte, b &&& ~~~0b11111100 = BitVec.ofNat 8 (2 * (b.getLsbD 1).toNat + (b.getLsbD 0).toNat) := by decide

theorem openBits_210 : ∀ b : Byte, b &&& ~~~0b11111000 = BitVec.ofNat 8 (field3 b 0) := by decide

theorem openBits_3210 :
    ∀ b : Byte, b &&& ~~~0b11110000 = BitVec.ofNat 8 (8 * (b.getLsbD 3).toNat + field3 b 0) := by decide

theorem openBits_43 : ∀ b : Byte, b &&& ~~~0b11100111 = BitVec.ofNat 8 (8 * field2 b 3) := by decide

/-! ## Reading back -/

/-- A reader entered after the bytes `pre`: each instruction it answers is well formed, and its encoding is `pre` and
the bytes taken. -/
def Retraces (pre : List Byte) (f : List Byte → Decoded) : Prop :=
  ∀ bs i rest, f bs = .ok i rest → i.wf = true ∧ encode i ++ rest = pre ++ bs

theorem retraces_ok {pre : List Byte} {i : Instr} (hwf : i.wf = true) (henc : encode i = pre) :
    Retraces pre fun bs => .ok i bs := by
  rintro bs _ _ ⟨⟩
  exact ⟨hwf, by rw [henc]⟩

theorem retraces_reject (pre : List Byte) (e : DecodeError) : Retraces pre fun _ => .reject e := by
  intro bs i rest h
  cases h

section Readers

variable {pre : List Byte}

theorem retraces_takeByte {k : Byte → List Byte → Decoded} (h : ∀ b, Retraces (pre ++ [b]) (k b)) :
    Retraces pre fun bs => takeByte bs k := by
  intro bs i rest hd
  cases bs with
  | nil => cases hd
  | cons b bs => simpa using h b bs i rest hd

theorem retraces_takeWord {k : Word → List Byte → Decoded} (h : ∀ v, Retraces (pre ++ encodeWord v) (k v)) :
    Retraces pre fun bs => takeWord bs k :=
  retraces_takeByte fun lo => retraces_takeByte fun hi => by
    simpa [encodeWord_joinBytes] using h (joinBytes hi lo)

/-- The operand byte, its fields, and the displacement they ask for; (BP) without one is never answered (R108). -/
theorem retraces_takeRM {k : RegNum → RM → List Byte → Decoded}
    (h : ∀ reg rm, rm.wf = true → Retraces (pre ++ encodeRM reg.code rm) (k reg rm)) :
    Retraces pre fun bs => takeRM bs k := by
  refine retraces_takeByte fun b => ?_
  have hmodRm := modRmByte_of_fields b
  have hrm := field3_lt b 0
  have answer : ∀ rm tail, rm.wf = true → encodeRM (field3 b 3) rm = b :: tail →
      Retraces (pre ++ [b] ++ tail) (k (RegNum.ofField (field3 b 3)) rm) := fun rm tail hwf henc => by
    have := h (RegNum.ofField (field3 b 3)) rm hwf
    rwa [RegNum.code_ofField (field3_lt b 3), henc, List.append_cons] at this
  simp only []
  split
  next hmod =>
    rw [hmod] at hmodRm
    split
    next hbp =>
      rw [hbp] at hmodRm
      exact retraces_takeWord fun a => answer (.mem (.direct a)) _ rfl (by rw [encodeRM, hmodRm])
    next hbp =>
      have hwf : (Mem.based (EaBase.ofField (field3 b 0)) .none).wf = true :=
        Mem.wf_based fun _ e => absurd (EaBase.code_ofField hrm) (by rw [e]; exact Ne.symm hbp)
      simpa using answer (.mem (.based _ .none)) [] hwf (by rw [encodeRM, EaBase.code_ofField hrm, hmodRm])
  next hmod =>
    rw [hmod] at hmodRm
    exact retraces_takeByte fun d => answer (.mem (.based _ (.d8 d))) _ (Mem.wf_based nofun)
      (by rw [encodeRM, EaBase.code_ofField hrm, hmodRm])
  next hmod =>
    rw [hmod] at hmodRm
    exact retraces_takeWord fun d => answer (.mem (.based _ (.d16 d))) _ (Mem.wf_based nofun)
      (by rw [encodeRM, EaBase.code_ofField hrm, hmodRm])
  next h0 h1 h2 =>
    have hmod : field2 b 6 = 3 := by
      have := field2_lt b 6
      simp only [imp_false] at h0 h1 h2
      omega
    rw [hmod] at hmodRm
    simpa using answer (.reg _) [] rfl (by rw [encodeRM, RegNum.code_ofField hrm, hmodRm])

theorem retraces_needMem (b0 : Byte) {rm : RM} {k : Mem → List Byte → Decoded}
    (h : ∀ m, rm = .mem m → Retraces pre (k m)) : Retraces pre fun bs => needMem b0 rm fun m => k m bs := by
  cases rm with
  | reg r => exact retraces_reject _ _
  | mem m => exact h m rfl

theorem retraces_takeImm (w : Width) {k : Imm → List Byte → Decoded}
    (h : ∀ imm, imm.width = w → Retraces (pre ++ encodeImm imm) (k imm)) : Retraces pre fun bs => takeImm w bs k := by
  cases w with
  | byte => exact retraces_takeByte fun v => h (.b v) rfl
  | word => exact retraces_takeWord fun v => h (.w v) rfl

theorem retraces_takeSImm (s : Bool) (w : Width) {k : SImm → List Byte → Decoded}
    (h : ∀ imm, imm.swBits = 2 * s.toNat + w.bit → Retraces (pre ++ encodeSImm imm) (k imm)) :
    Retraces pre fun bs => takeSImm s w bs k := by
  cases w with
  | byte => exact retraces_takeByte fun v => h (.byte s v) (by cases s <;> rfl)
  | word =>
    cases s with
    | false => exact retraces_takeWord fun v => h (.word v) rfl
    | true => exact retraces_takeByte fun v => h (.signed v) rfl

end Readers

/-! ## The rows of the opcode map -/

/-- What a row answers for a first byte that selects it is encoded by the bytes read. -/
def Row.Retraced (r : Row) : Prop := ∀ b0, r.selects b0 = true → Retraces [b0] (r.read b0)

namespace Row.Retraced

/-! The forms: what a row fixes are the fixed bits of the encoding. -/

/-- A row by the fields that the bits left open hold. -/
theorem of_openBits {mask : Byte} {fixed : Nat} {read : Byte → List Byte → Decoded} {field : Byte → Nat}
    (hopen : ∀ b, b &&& ~~~mask = BitVec.ofNat 8 (field b))
    (h : ∀ b0, Retraces [op fixed (field b0)] (read b0)) : Retraced ⟨mask, BitVec.ofNat 8 fixed, read⟩ := by
  intro b0 hsel
  have hb : b0 = op fixed (field b0) := eq_op_of_masked (beq_iff_eq.mp hsel) (hopen b0)
  have hread := h b0
  rwa [← hb] at hread

/-- A row that fixes every bit. -/
theorem of_fixed {fixed : Nat} {read : Byte → List Byte → Decoded} (h : ∀ b0, Retraces [op fixed] (read b0)) :
    Retraced ⟨0b11111111, BitVec.ofNat 8 fixed, read⟩ := of_openBits openBits_none h

/-- A row that leaves `w` open. -/
theorem of_w {fixed : Nat} {read : Byte → List Byte → Decoded} (h : ∀ b0, Retraces [op fixed (wBit b0).bit] (read b0)) :
    Retraced ⟨0b11111110, BitVec.ofNat 8 fixed, read⟩ :=
  of_openBits (fun b => by rw [wBit, Width.bit_ofBit, openBits_0]) h

/-- A row that leaves `w` and the bit before it open: `s`, `d` or `v`. -/
theorem of_sw {fixed : Nat} {read : Byte → List Byte → Decoded}
    (h : ∀ b0, Retraces [op fixed (2 * (b0.getLsbD 1).toNat + (wBit b0).bit)] (read b0)) :
    Retraced ⟨0b11111100, BitVec.ofNat 8 fixed, read⟩ :=
  of_openBits (fun b => by rw [wBit, Width.bit_ofBit, openBits_10]) h

/-- A row that leaves a register number open. -/
theorem of_reg {fixed : Nat} {read : Byte → List Byte → Decoded}
    (h : ∀ b0, Retraces [op fixed (RegNum.ofField (field3 b0 0)).code] (read b0)) :
    Retraced ⟨0b11111000, BitVec.ofNat 8 fixed, read⟩ :=
  of_openBits (fun b => by rw [RegNum.code_ofField (field3_lt b 0), openBits_210]) h

/-- A row that leaves a segment register open. -/
theorem of_sreg {fixed : Nat} {read : Byte → List Byte → Decoded}
    (h : ∀ b0, Retraces [op fixed (8 * (SReg.ofField (field2 b0 3)).code)] (read b0)) :
    Retraced ⟨0b11100111, BitVec.ofNat 8 fixed, read⟩ :=
  of_openBits (fun b => by rw [SReg.code_ofField (field2_lt b 3), openBits_43]) h

section Forms

variable {fixed : Nat}

theorem plain {i : Instr} (hwf : i.wf = true := by rfl) (henc : encode i = [op fixed] := by rfl) :
    Retraced ⟨0b11111111, BitVec.ofNat 8 fixed, readPlain i⟩ :=
  of_fixed fun _ => retraces_ok hwf henc

theorem width {mk : Width → Instr} (hwf : ∀ w, (mk w).wf = true := by intros; rfl)
    (henc : ∀ w, encode (mk w) = [op fixed w.bit] := by intros; rfl) :
    Retraced ⟨0b11111110, BitVec.ofNat 8 fixed, readWidth mk⟩ :=
  of_w fun _ => retraces_ok (hwf _) (henc _)

theorem reg16 {mk : Reg16 → Instr} (hwf : ∀ r, (mk r).wf = true := by intros; rfl)
    (henc : ∀ r, encode (mk r) = [op fixed r.num.code] := by intros; rfl) :
    Retraced ⟨0b11111000, BitVec.ofNat 8 fixed, readReg16 mk⟩ :=
  of_reg fun _ => retraces_ok (hwf _) (by rw [henc, RegNum.num_reg16])

theorem sreg {mk : SReg → Instr} (hwf : ∀ r, (mk r).wf = true := by intros; rfl)
    (henc : ∀ r, encode (mk r) = [op fixed (8 * r.code)] := by intros; rfl) :
    Retraced ⟨0b11100111, BitVec.ofNat 8 fixed, fun b0 bs => .ok (mk (SReg.ofField (field2 b0 3))) bs⟩ :=
  of_sreg fun _ => retraces_ok (hwf _) (henc _)

theorem disp8 {mk : Byte → Instr} (hwf : ∀ v, (mk v).wf = true := by intros; rfl)
    (henc : ∀ v, encode (mk v) = [op fixed, v] := by intros; rfl) :
    Retraced ⟨0b11111111, BitVec.ofNat 8 fixed, readDisp8 mk⟩ :=
  of_fixed fun _ => retraces_takeByte fun _ => retraces_ok (hwf _) (henc _)

theorem port {mk : Width → Byte → Instr} (hwf : ∀ w p, (mk w p).wf = true := by intros; rfl)
    (henc : ∀ w p, encode (mk w p) = [op fixed w.bit, p] := by intros; rfl) :
    Retraced ⟨0b11111110, BitVec.ofNat 8 fixed, fun b0 bs => takeByte bs fun p bs => .ok (mk (wBit b0) p) bs⟩ :=
  of_w fun _ => retraces_takeByte fun _ => retraces_ok (hwf _ _) (henc _ _)

theorem word {mk : Word → Instr} (hwf : ∀ v, (mk v).wf = true := by intros; rfl)
    (henc : ∀ v, encode (mk v) = op fixed :: encodeWord v := by intros; rfl) :
    Retraced ⟨0b11111111, BitVec.ofNat 8 fixed, readWord mk⟩ :=
  of_fixed fun _ => retraces_takeWord fun _ => retraces_ok (hwf _) (henc _)

/-- The accumulator and a direct address. -/
theorem accMem {mk : Width → Word → Instr} (hwf : ∀ w a, (mk w a).wf = true := by intros; rfl)
    (henc : ∀ w a, encode (mk w a) = op fixed w.bit :: encodeWord a := by intros; rfl) :
    Retraced ⟨0b11111110, BitVec.ofNat 8 fixed, fun b0 bs => takeWord bs fun a bs => .ok (mk (wBit b0) a) bs⟩ :=
  of_w fun _ => retraces_takeWord fun _ => retraces_ok (hwf _ _) (henc _ _)

theorem far {mk : Word → Word → Instr} (hwf : ∀ off sel, (mk off sel).wf = true := by intros; rfl)
    (henc : ∀ off sel, encode (mk off sel) = op fixed :: (encodeWord off ++ encodeWord sel) := by intros; rfl) :
    Retraced ⟨0b11111111, BitVec.ofNat 8 fixed, readFar mk⟩ :=
  of_fixed fun _ => retraces_takeWord fun _ => retraces_takeWord fun _ => retraces_ok (hwf _ _) (henc _ _)

theorem accImm {mk : Imm → Instr} (hwf : ∀ v, (mk v).wf = true := by intros; rfl)
    (henc : ∀ v, encode (mk v) = encodeAccImm fixed v := by intros; rfl) :
    Retraced ⟨0b11111110, BitVec.ofNat 8 fixed, readAccImm mk⟩ :=
  of_w fun _ => retraces_takeImm _ fun v h => retraces_ok (hwf v) (by rw [henc, encodeAccImm, h]; rfl)

/-- The form with a `d` bit. -/
theorem rmReg {mk : Dir → Width → RegNum → RM → Instr} (hwf : ∀ d w r rm, (mk d w r rm).wf = rm.wf := by intros; rfl)
    (henc : ∀ d w r rm, encode (mk d w r rm) = encodeRmReg fixed d w r rm := by intros; rfl) :
    Retraced ⟨0b11111100, BitVec.ofNat 8 fixed, readRmReg mk⟩ :=
  of_sw fun _ => retraces_takeRM fun _ _ h => retraces_ok ((hwf _ _ _ _).trans h) (by
    rw [henc, encodeRmReg, dBit, Dir.bit_ofBit]; rfl)

theorem regRm {mk : Width → RegNum → RM → Instr} (hwf : ∀ w r rm, (mk w r rm).wf = rm.wf := by intros; rfl)
    (henc : ∀ w r rm, encode (mk w r rm) = op fixed w.bit :: encodeRM r.code rm := by intros; rfl) :
    Retraced ⟨0b11111110, BitVec.ofNat 8 fixed, readRegRm mk⟩ :=
  of_w fun _ => retraces_takeRM fun _ _ h => retraces_ok ((hwf _ _ _).trans h) (henc _ _ _)

theorem regMem {mk : Reg16 → Mem → Instr} (hwf : ∀ r m, (mk r m).wf = m.wf := by intros; rfl)
    (henc : ∀ r m, encode (mk r m) = op fixed :: encodeRM r.num.code (.mem m) := by intros; rfl) :
    Retraced ⟨0b11111111, BitVec.ofNat 8 fixed, readRegMem mk⟩ :=
  of_fixed fun b0 => retraces_takeRM fun r rm h => retraces_needMem b0 fun m e => retraces_ok
    ((hwf _ _).trans (by rwa [e] at h)) (by rw [henc, RegNum.num_reg16, e]; rfl)

theorem adjust {i : Instr} (hwf : i.wf = true := by rfl) (henc : encode i = [op fixed, 0x0A] := by rfl) :
    Retraced ⟨0b11111111, BitVec.ofNat 8 fixed, readAdjust i⟩ :=
  of_fixed fun b0 => retraces_takeByte fun b1 => by
    split
    next h => exact retraces_ok hwf (by rw [henc, h]; rfl)
    next => exact retraces_reject _ _

end Forms

/-! The rows of their own. -/

theorem movRegImm : Retraced ⟨0b11110000, 0b10110000, fun b0 bs =>
    takeImm (Width.ofBit (b0.getLsbD 3)) bs fun v bs => .ok (.movRegImm (RegNum.ofField (field3 b0 0)) v) bs⟩ :=
  of_openBits openBits_3210 fun b0 => retraces_takeImm _ fun v h => retraces_ok rfl (by
    rw [encode, h, Width.bit_ofBit, RegNum.code_ofField (field3_lt b0 0)]; rfl)

theorem rep : Retraced ⟨0b11111110, 0b11110010, fun b0 bs => .ok (.rep (b0.getLsbD 0)) bs⟩ :=
  of_openBits openBits_0 fun _ => retraces_ok rfl rfl

theorem esc : Retraced ⟨0b11111000, 0b11011000, fun b0 bs =>
    takeRM bs fun lo rm bs => .ok (.esc (RegNum.ofField (field3 b0 0)) lo rm) bs⟩ :=
  of_reg fun _ => retraces_takeRM fun _ _ h => retraces_ok h rfl

theorem popSreg : Retraced ⟨0b11100111, 0b00000111, readPopSreg⟩ :=
  of_sreg fun b0 bs i rest => by
    unfold readPopSreg
    split
    next => exact retraces_reject _ _ bs i rest
    next h => exact retraces_ok (i := .popSreg _) (SReg.loadable_of_ne h) rfl bs i rest

/-! The groups: bits 5:3 of the second byte name the instruction, or none (R119). -/

theorem immGroup : Retraced ⟨0b11111100, 0b10000000, readImmGroup⟩ := by
  refine of_sw fun b0 => retraces_takeRM fun ext rm hwf => ?_
  have arith (mk : RM → SImm → Instr) (hmk : ∀ imm, (mk rm imm).wf = rm.wf)
      (henc : ∀ imm, encode (mk rm imm) = encodeRmSImm ext.code rm imm) :
      Retraces ([op 0b10000000 (2 * (b0.getLsbD 1).toNat + (wBit b0).bit)] ++ encodeRM ext.code rm)
        fun bs => takeSImm (b0.getLsbD 1) (wBit b0) bs fun v bs => .ok (mk rm v) bs :=
    retraces_takeSImm _ _ fun imm h => retraces_ok ((hmk imm).trans hwf) (by rw [henc, encodeRmSImm, h]; rfl)
  have logic (mk : RM → Imm → Instr) (hmk : ∀ imm, (mk rm imm).wf = rm.wf)
      (henc : ∀ imm, encode (mk rm imm) = encodeRmImm 0b10000000 ext.code rm imm) :
      Retraces ([op 0b10000000 (2 * (b0.getLsbD 1).toNat + (wBit b0).bit)] ++ encodeRM ext.code rm)
        fun bs => if b0.getLsbD 1 then .reject (.undefinedExtension b0 ext)
          else takeImm (wBit b0) bs fun v bs => .ok (mk rm v) bs := by
    split
    next => exact retraces_reject _ _
    next hs =>
      refine retraces_takeImm _ fun imm h => retraces_ok ((hmk imm).trans hwf) ?_
      rw [henc, encodeRmImm, h, Bool.eq_false_iff.mpr hs]
      simp
  cases ext
  case r000 => exact arith .addRmImm (fun _ => rfl) (fun _ => rfl)
  case r001 => exact logic .orRmImm (fun _ => rfl) (fun _ => rfl)
  case r010 => exact arith .adcRmImm (fun _ => rfl) (fun _ => rfl)
  case r011 => exact arith .sbbRmImm (fun _ => rfl) (fun _ => rfl)
  case r100 => exact logic .andRmImm (fun _ => rfl) (fun _ => rfl)
  case r101 => exact arith .subRmImm (fun _ => rfl) (fun _ => rfl)
  case r110 => exact logic .xorRmImm (fun _ => rfl) (fun _ => rfl)
  case r111 => exact arith .cmpRmImm (fun _ => rfl) (fun _ => rfl)

theorem popGroup : Retraced ⟨0b11111111, 0b10001111, readPopGroup⟩ := by
  refine of_fixed fun b0 => retraces_takeRM fun ext rm hwf => ?_
  cases ext
  case r000 => exact retraces_ok hwf rfl
  all_goals exact retraces_reject _ _

theorem movGroup : Retraced ⟨0b11111110, 0b11000110, readMovGroup⟩ := by
  refine of_w fun b0 => retraces_takeRM fun ext rm hwf => ?_
  cases ext
  case r000 => exact retraces_takeImm _ fun v h => retraces_ok hwf (by rw [encode, encodeRmImm, h]; rfl)
  all_goals exact retraces_reject _ _

theorem shiftGroup : Retraced ⟨0b11111100, 0b11010000, readShiftGroup⟩ := by
  refine of_sw fun b0 => ?_
  rw [← Count.bit_ofBit]
  refine retraces_takeRM fun ext rm hwf => ?_
  cases ext
  case r110 => exact retraces_reject _ _
  all_goals exact retraces_ok hwf rfl

theorem unaryGroup : Retraced ⟨0b11111110, 0b11110110, readUnaryGroup⟩ := by
  refine of_w fun b0 => retraces_takeRM fun ext rm hwf => ?_
  cases ext
  case r000 => exact retraces_takeImm _ fun v h => retraces_ok hwf (by rw [encode, encodeRmImm, h]; rfl)
  case r001 => exact retraces_reject _ _
  all_goals exact retraces_ok hwf rfl

theorem incGroup8 : Retraced ⟨0b11111111, 0b11111110, readIncGroup8⟩ := by
  refine of_fixed fun b0 => retraces_takeRM fun ext rm hwf => ?_
  cases ext
  case r000 | r001 => exact retraces_ok hwf rfl
  all_goals exact retraces_reject _ _

theorem incGroup16 : Retraced ⟨0b11111111, 0b11111111, readIncGroup16⟩ := by
  refine of_fixed fun b0 => retraces_takeRM fun ext rm hwf => ?_
  cases ext
  case r011 | r101 =>
    refine retraces_needMem b0 fun m e => ?_
    subst e
    exact retraces_ok hwf rfl
  case r111 => exact retraces_reject _ _
  all_goals exact retraces_ok hwf rfl

theorem movFromSreg : Retraced ⟨0b11111111, 0b10001100, readMovFromSreg⟩ := by
  refine of_fixed fun b0 => retraces_takeRM fun ext rm hwf => ?_
  cases ext
  case r000 | r001 | r010 | r011 => exact retraces_ok hwf rfl
  all_goals exact retraces_reject _ _

theorem movToSreg : Retraced ⟨0b11111111, 0b10001110, readMovToSreg⟩ := by
  refine of_fixed fun b0 => retraces_takeRM fun ext rm hwf => ?_
  cases ext
  case r000 | r010 | r011 => exact retraces_ok hwf rfl
  all_goals exact retraces_reject _ _

end Row.Retraced

/-! ## The decoder -/

theorem rows00_retraced : ∀ r ∈ rows00, r.Retraced := by
  simp only [rows00, List.forall_mem_cons]
  exact ⟨.rmReg, .accImm, .rmReg, .accImm, .rmReg, .accImm, .rmReg, .accImm, .rmReg, .accImm, .rmReg, .accImm, .rmReg,
    .accImm, .regRm, .regRm, .accImm, .sreg, .popSreg, .sreg, .plain, .plain, .plain, .plain, List.forall_mem_nil _⟩

theorem rows40_retraced : ∀ r ∈ rows40, r.Retraced := by
  simp only [rows40, List.forall_mem_cons]
  exact ⟨.reg16, .reg16, .reg16, .reg16, .disp8, .disp8, .disp8, .disp8, .disp8, .disp8, .disp8, .disp8, .disp8, .disp8,
    .disp8, .disp8, .disp8, .disp8, .disp8, .disp8, List.forall_mem_nil _⟩

theorem rows80_retraced : ∀ r ∈ rows80, r.Retraced := by
  simp only [rows80, List.forall_mem_cons]
  exact ⟨.immGroup, .regRm, .regRm, .rmReg, .movFromSreg, .regMem, .movToSreg, .popGroup, .reg16, .plain, .plain, .far,
    .plain, .plain, .plain, .plain, .plain, .accMem, .accMem, .width, .width, .accImm, .width, .width, .width,
    .movRegImm, List.forall_mem_nil _⟩

theorem rowsC0_retraced : ∀ r ∈ rowsC0, r.Retraced := by
  simp only [rowsC0, List.forall_mem_cons]
  exact ⟨.word, .plain, .regMem, .regMem, .movGroup, .word, .plain, .plain, .disp8, .plain, .plain, .shiftGroup, .adjust,
    .adjust, .plain, .esc, .disp8, .disp8, .disp8, .disp8, .port, .port, .word, .word, .far, .disp8, .width, .width,
    .plain, .rep, .plain, .plain, .unaryGroup, .plain, .plain, .plain, .plain, .plain, .plain, .incGroup8, .incGroup16,
    List.forall_mem_nil _⟩

/-- The row found for a first byte is one of those above, and the byte selects it. -/
theorem opcodeRow_retraced {b0 : Byte} {r : Row} (h : opcodeRow b0 = some r) : Retraces [b0] (r.read b0) := by
  have found {rows : List Row} (hrows : ∀ r ∈ rows, r.Retraced) (hf : rows.find? (·.selects b0) = some r) :
      Retraces [b0] (r.read b0) :=
    hrows r (List.mem_of_find?_eq_some hf) b0 (List.find?_some (p := fun r : Row => r.selects b0) hf)
  unfold opcodeRow at h
  split at h
  · exact found rows00_retraced h
  · exact found rows40_retraced h
  · exact found rows80_retraced h
  · exact found rowsC0_retraced h

/-- The decoder, entered with nothing read. -/
theorem retraces_decode : Retraces [] decode :=
  retraces_takeByte fun b0 => by
    split
    next r h => exact opcodeRow_retraced h
    next => exact retraces_reject _ _

/-- Settles O15: what the whole decoder answers is encoded by the bytes it took. -/
theorem encodeOfDecode : Obligations.EncodeOfDecode := fun bs rest i h => retraces_decode bs i rest h

/-- Settles O14, field by field. -/
theorem decodeOfEncode : Obligations.DecodeOfEncode := fun _ rest h => decode_encode h rest

/-- Bytes that are the encoding of an instruction, with others behind. -/
theorem decode_of_encode_append {i : Instr} {bs rest : List Byte} (h : i.wf = true) (hbs : encode i ++ rest = bs) :
    decode bs = .ok i rest := hbs ▸ decode_encode h rest

/-- Settles O16: each of the ten is the encoding of its instruction, the two prefixes with the bytes behind them. -/
theorem specWordsDecode : Obligations.SpecWordsDecode := by
  and_intros <;> exact decode_of_encode_append rfl rfl

end Sys2Proof
end

section
/-!
PROOF. The EA formulas and the default segment (O20, O21), and the exchanges (O29), by the rules of the register and
operand writes.
-/

namespace Sys2Proof.Machine

/-! ## Effective addresses and segments -/

/-- Without an override the default segment is used (R129). -/
theorem State.segRm_of_no_override {s : State} (h : s.segOverride = none) (m : Mem) : s.segRm m = defaultSegment m := by
  simp [State.segRm, State.dataSegment, h]

/-- An override replaces the default, whatever the formula (R77). -/
theorem State.segRm_of_override {s : State} {sr : SReg} (h : s.segOverride = some sr) (m : Mem) : s.segRm m = sr := by
  simp [State.segRm, State.dataSegment, h]

/-- The formulas that contain (BP) are in SS, the others in DS (R129). -/
theorem defaultSegment_based (b : EaBase) (d : Disp) :
    defaultSegment (.based b d) = if b = .bpSi ∨ b = .bpDi ∨ b = .bp then .ss else .ds := by
  cases b <;> rfl

/-- Settles O21: by the default segment of each formula. -/
theorem defaultSegments : Obligations.DefaultSegment := by
  refine ⟨⟨rfl, rfl, rfl⟩, fun s => ⟨fun h => ⟨fun b x => ?_, fun a => ?_⟩, fun m sr h => ?_, fun w m => ?_⟩⟩
  · exact (State.segRm_of_no_override h _).trans (defaultSegment_based b x)
  · exact State.segRm_of_no_override h _
  · exact State.segRm_of_override h m
  · exact ⟨rfl, fun v => rfl⟩

/-- Settles O20: the formulas are those of the definition, and the segments are those of O21. -/
theorem effectiveAddresses : Obligations.EffectiveAddresses := by
  intro s d a x sr
  refine ⟨⟨rfl, rfl, rfl, rfl, rfl, rfl, rfl, rfl, rfl⟩, fun b => ⟨rfl, rfl⟩, fun h => ⟨fun b hb => ?_, fun b hb => ?_, ?_⟩,
    fun m h => State.segRm_of_override h m⟩
  · rw [State.segRm_of_no_override h, defaultSegment_based, if_pos (by simpa using hb)]
  · rw [State.segRm_of_no_override h, defaultSegment_based, if_neg (by rintro (rfl | rfl | rfl) <;> simp at hb)]
  · exact State.segRm_of_no_override h _

/-! ## Exchanges -/

/-- What is left unchanged when `reg_w[r]` is written, by number: two numbers name two registers (R106). -/
theorem OtherReg.reg {w : Width} {r : RegNum} {s t : State} (h : OtherReg w r s t) {q : RegNum} (hq : q ≠ r) :
    t.reg w q = s.reg w q := by
  cases w with
  | byte => exact h.1 _ (RegNum.reg8_injective.ne hq)
  | word => exact h _ (RegNum.num_reg16.injective.ne hq)

/-- What is stored is a matter of the bus. -/
theorem Stored.of_bus {w : Width} {sr : SReg} {off : Word} {v : Operand w} {u s t t' : State} (h : Stored w sr off v u s t)
    (hb : t'.bus = t.bus) : Stored w sr off v u s t' := by
  refine ⟨hb.trans h.1, fun hq => ?_⟩
  obtain ⟨hheld, hrest⟩ := h.2 hq
  constructor
  · simpa only [heldAt, State.readByte, hb] using hheld
  · simpa only [State.readByte, hb] using hrest

/-- Two registers exchanged (R170): each holds what the other held, no third one changes. -/
theorem State.exchangeReg_spec (s : State) (w : Width) (r q : RegNum) :
    let t := (s.setReg w q (s.reg w r)).setReg w r (s.reg w q)
    t.reg w r = s.reg w q ∧ t.reg w q = s.reg w r ∧ (∀ p, p ≠ r → p ≠ q → t.reg w p = s.reg w p) ∧
      (w = .byte → t.reg16 .sp = s.reg16 .sp ∧ t.reg16 .bp = s.reg16 .bp ∧ t.reg16 .si = s.reg16 .si ∧
        t.reg16 .di = s.reg16 .di) := by
  intro t
  obtain ⟨hq, hq'⟩ := s.setReg_spec w q (s.reg w r)
  obtain ⟨hr, hr'⟩ := (s.setReg w q (s.reg w r)).setReg_spec w r (s.reg w q)
  refine ⟨hr, ?_, fun p hpr hpq => (hr'.reg hpr).trans (hq'.reg hpq), ?_⟩
  · by_cases e : q = r
    · subst e
      exact hr
    · exact (hr'.reg e).trans hq
  · rintro rfl
    obtain ⟨-, hsp, hbp, hsi, hdi⟩ := hq'
    obtain ⟨-, hsp', hbp', hsi', hdi'⟩ := hr'
    exact ⟨hsp'.trans hsp, hbp'.trans hbp, hsi'.trans hsi, hdi'.trans hdi⟩

/-- Settles O29: what is written to memory and to the registers, by the rules of the two writes; the NOP writes AX to
itself (R122). -/
theorem exchanges : Obligations.Exchanges := by
  refine ⟨fun w r m s => ?_, fun w r q s => ?_, fun r s => ?_, fun s => ?_⟩
  · obtain ⟨hkept, hstored⟩ := s.writeRM_afterRM_spec w (.mem m) (s.reg w r) (.afterRM s w (.mem m)) rfl
    have hsame : SameOperands s ((s.afterRM w (.mem m)).writeRM w (.mem m) (s.reg w r)) :=
      ⟨hkept, by simp, by simp, by simp⟩
    obtain ⟨hreg, hother⟩ := State.setReg_spec _ w r (s.readMem w m)
    exact ⟨_, rfl, ⟨by simp, by simp, by simp⟩, by simp, hreg, hsame.otherReg hother, hstored.of_bus (by simp)⟩
  · exact ⟨_, rfl, ⟨by simp, by simp, by simp⟩, by simp, by simp [State.afterRM], s.exchangeReg_spec w r q⟩
  · refine ⟨_, rfl, ⟨rfl, rfl, rfl⟩, rfl, rfl, ?_, State.setReg16_same _ _ _, fun p ha hr => ?_⟩
    · by_cases e : Reg16.ax = r
      · subst e
        exact State.setReg16_same _ _ _
      · exact (State.setReg16_other _ _ e).trans (s.setReg16_same _ _)
    · exact (State.setReg16_other _ _ hr).trans (s.setReg16_other _ ha)
  · exact ⟨_, rfl, ⟨rfl, rfl, rfl⟩, rfl, rfl, s.onlyRead_self⟩

end Sys2Proof.Machine
end

section
/-!
PROOF. What a step refuses (O7): bytes that are no instruction, code that may be stale, and REP before an instruction
that is no string primitive.
-/

namespace Sys2Proof

/-- A first byte that selects no row is rejected, whatever follows (R120). -/
theorem decode_of_no_row {b0 : Byte} (h : (opcodeRow b0).isNone = true) (rest : List Byte) :
    decode (b0 :: rest) = .reject (.undefinedOpcode b0) := by
  rw [decode, takeByte, Option.isNone_iff_eq_none.mp h]

end Sys2Proof

namespace Sys2Proof.Machine

theorem State.isStale_iff (s : State) (len : Nat) : s.isStale len = true ↔ ∃ k, k < len ∧ s.codeAddr k ∈ s.bus.stale := by
  simp [State.isStale]

/-- Code bytes are those of the state before the fetch, which moves no register. -/
theorem State.codeAddr_fetched (s : State) (k : Nat) : s.tick.fetched.codeAddr k = s.codeAddr k := by
  simp [State.codeAddr]

section Refused

variable {s : State} {i : Instr} {rest : List Byte}

theorem State.runFetched_reject {e : DecodeError} (hd : decode s.codeBytes = .reject e) :
    s.runFetched = .refused (.undefinedEncoding e) := by
  rw [State.runFetched, hd]

/-- Stale code is refused where the parameter says so (D6). -/
theorem State.runFetched_stale (hd : decode s.codeBytes = .ok i rest) (hv : s.params.queueVisibility = .refuse)
    (hstale : s.isStale (s.codeBytes.length - rest.length) = true) : s.runFetched = .refused .staleCode := by
  rw [State.runFetched, hd]
  exact if_pos ⟨hv, hstale⟩

/-- Otherwise REP before an instruction that is no string primitive is (R308). -/
theorem State.runFetched_rep (hd : decode s.codeBytes = .ok i rest)
    (hstale : ¬(s.params.queueVisibility = .refuse ∧ s.isStale (s.codeBytes.length - rest.length) = true))
    (hrep : s.rep.isSome = true) (hprefix : i.isPrefixByte = false) (hstring : i.isString = false) :
    s.runFetched = .refused .repBeforeNonString := by
  rw [State.runFetched, hd]
  exact (if_neg hstale).trans (if_pos ⟨hrep, hprefix, hstring⟩)

end Refused

/-- Settles O7: the first bytes by the opcode map, the step by what it does with the bytes it has fetched. -/
theorem stepRefusesUndefined : Obligations.StepRefusesUndefined := by
  refine ⟨⟨fun b hb => decode_of_no_row ?_, fun _ => rfl⟩, ?_⟩
  · revert b
    decide
  intro s u hr hrun
  refine ⟨fun e hd => ?_, ?_⟩
  · rw [step_running_fetched hrun hr, State.runFetched_reject hd]
  · intro i rest hd stale
    have hiff : u.isStale (u.codeBytes.length - rest.length) = true ↔ stale := by
      simp only [u, State.isStale_iff, State.codeAddr_fetched, stale]
    rw [step_running_fetched hrun hr]
    refine ⟨fun hv hs => State.runFetched_stale hd hv (hiff.mpr hs), fun hs hrep hprefix hstring => ?_⟩
    exact State.runFetched_rep hd (fun ⟨hv, hx⟩ => hs hv (hiff.mp hx)) hrep hprefix hstring

end Sys2Proof.Machine
end

section
/-!
PROOF. Data transfer (O25 to O28, O30 to O32): MOV, the stack, input and output, the address instructions and the flag
transfers, each from one lemma about the shared operation: what it writes and what it leaves alone.
-/

namespace Sys2Proof.Machine

variable (s : State)

/-! ## MOV -/

/-- A register loaded from the register-or-memory operand (R150, R153). -/
theorem State.loadReg_spec (w : Width) (r : RegNum) (rm : RM) :
    let t := (s.afterRM w rm).setReg w r (s.readRM w rm)
    SameFlow s t ∧ t.flags = s.flags ∧ WroteReg w r (s.readRM w rm) (s.afterRM w rm) s t :=
  ⟨⟨by simp, by simp, by simp⟩, by simp,
    SameOperands.wroteReg (s.onlyRead_afterRM w rm) (.afterRM s w rm) rfl w r _⟩

/-- A value stored to the register-or-memory operand without reading it first (R150, R151, R154, R156). -/
theorem State.storeRM_spec (w : Width) (rm : RM) (v : Operand w) :
    let t := s.writeRM w rm v
    SameFlow s t ∧ t.flags = s.flags ∧ WroteRM w rm v s s t :=
  ⟨⟨by simp, by simp, by simp⟩, by simp, s.writeRM_spec w rm v⟩

/-- Settles O25: every form loads a register or stores to an operand; an immediate register form is the store to a
register operand, and the accumulator forms are those of an operand with a direct address. -/
theorem movGeneral : Obligations.MovGeneral := by
  refine ⟨fun d w r rm s => ?_, fun rm imm s => ?_, fun r imm s => ?_, fun w addr s => ⟨?_, ?_⟩⟩
  · cases d with
    | fromReg => exact ⟨_, rfl, s.storeRM_spec w rm _⟩
    | toReg => exact ⟨_, rfl, s.loadReg_spec w r rm⟩
  · exact ⟨_, rfl, s.storeRM_spec imm.width rm imm.val⟩
  · exact ⟨_, rfl, s.storeRM_spec imm.width (.reg r) imm.val⟩
  · exact ⟨_, rfl, s.loadReg_spec w .r000 (.mem (.direct addr))⟩
  · exact ⟨_, rfl, s.storeRM_spec w (.mem (.direct addr)) (s.acc w)⟩

/-! ## Segment registers -/

/-- All a load of a segment register does: the inhibit follows where the part has it (D17). -/
theorem State.loadSreg_spec (sr : SReg) (v : Word) :
    (s.loadSreg sr v).sreg sr = v ∧ (∀ q, q ≠ sr → (s.loadSreg sr v).sreg q = s.sreg q) ∧
    (s.loadSreg sr v).control = { s.control with inhibit := s.inhibit || s.params.inhibitAfterSegLoad } := by
  obtain ⟨hsame, -⟩ := s.setSreg_spec sr v
  exact ⟨hsame, fun _ h => s.loadSreg_other v h, rfl⟩

/-- MOV to a segment register but CS (R155). -/
theorem exec_movSregRm {sr : SReg} (h : sr ≠ .cs) (rm : RM) :
    exec (.movSregRm sr rm) s = .next ((s.afterRM .word rm).loadSreg sr (s.readRM .word rm)) := by
  cases sr with
  | cs => exact absurd rfl h
  | es | ss | ds => rfl

/-- POP of a segment register but CS (R167). -/
theorem exec_popSreg {sr : SReg} (h : sr ≠ .cs) : exec (.popSreg sr) s = .next (s.dropTop.loadSreg sr s.top16) := by
  cases sr with
  | cs => exact absurd rfl h
  | es | ss | ds => rfl

/-- Settles O26: the load after the read of its operand, the store, and the two encodings refused (D10). -/
theorem segmentRegisterMoves : Obligations.SegmentRegisterMoves := by
  refine ⟨fun sr rm s h => ?_, fun rm sr s => ⟨_, rfl, s.storeRM_spec .word rm (s.sreg sr)⟩, fun rm s => ⟨rfl, rfl⟩⟩
  obtain ⟨hsame, hother, hcontrol⟩ := (s.afterRM .word rm).loadSreg_spec sr (s.readRM .word rm)
  refine ⟨_, exec_movSregRm s h rm, hsame, fun q hq => (hother q hq).trans (by simp), by simp, by simp,
    ⟨by simp, ?_⟩, ?_⟩
  · exact (s.onlyRead_afterRM .word rm).of_bus rfl
  · simpa using hcontrol

/-! ## Pushes -/

/-- The value a push of a register stores: PUSH SP is the one that asks the parameter (R162, D22). -/
theorem State.pushValue_eq (r : RegNum) :
    s.pushValue r.reg16 = if r = .r100 then s.pushSpValue else s.reg16 r.reg16 := by
  cases r <;> rfl

/-- Settles O27: the push, after the read of a memory operand (R161) or with nothing before it. -/
theorem pushes : Obligations.Pushes := by
  refine ⟨fun m s => ?_, fun r s => ?_, fun sr s => ?_, fun s => ?_⟩
  · exact ⟨_, rfl, ⟨rfl, rfl, rfl⟩, rfl, Pushed.after (s.onlyRead_afterRM .word (.mem m))
      (fun h => h.afterRM .word (.mem m)) (.afterRM s .word (.mem m)) _⟩
  · have hx : exec (.pushReg r.reg16) s = .next (s.push16 (if r = .r100 then s.pushSpValue else s.reg16 r.reg16)) :=
      s.pushValue_eq r ▸ rfl
    exact ⟨_, hx, hx, ⟨rfl, rfl, rfl⟩, rfl, s.push16_spec _⟩
  · exact ⟨_, rfl, ⟨rfl, rfl, rfl⟩, rfl, s.push16_spec _⟩
  · exact ⟨_, rfl, ⟨rfl, rfl, rfl⟩, rfl, s.push16_spec _⟩

/-! ## Pops -/

/-- No formula of an effective address contains SP, so that a pop leaves the address of its operand (R108, R165). -/
theorem State.ea_dropTop (m : Mem) : s.dropTop.ea m = s.ea m := by
  cases m with
  | direct a => rfl
  | based b d => cases b <;> rfl

/-- POP to memory: the operand is the one addressed before SP has risen (R165). -/
theorem exec_popRm_mem (m : Mem) :
    exec (.popRm (.mem m)) s = .next (s.dropTop.writeSeg .word (s.segRm m) (s.ea m) s.top16) := by
  rw [← s.ea_dropTop m]
  rfl

/-- A store to a segment of `s` after reads that lead to `u`. -/
theorem Stored.after {s u : State} (hr : OnlyRead u s u) (hq : Quiet s → Quiet u) (hs : u.segs = s.segs) (w : Width)
    (sr : SReg) (off : Word) (v : Operand w) : Stored w sr off v u s (u.writeSeg w sr off v) := by
  refine ⟨rfl, fun h => ?_⟩
  obtain ⟨-, -, hheld, hrest⟩ := (hq h).write w sr off v
  rw [show u.sreg sr = s.sreg sr by rw [State.sreg, hs, State.sreg]] at hheld hrest
  exact ⟨hheld, fun a ha => (hrest a ha).trans ((hr.2 h).1 a)⟩

/-- Settles O28: the destination is written in the state after the pop (R165, R166). -/
theorem pops : Obligations.Pops := by
  refine ⟨fun r s => ?_, fun r s => rfl, fun m s => ?_, fun sr s h => ?_, fun s => ?_⟩ <;>
    obtain ⟨hsp, hother, hread⟩ := s.dropTop_spec
  · obtain ⟨hsame, hkept⟩ := s.dropTop.setReg16_spec r s.top16
    exact ⟨_, rfl, ⟨rfl, rfl, rfl⟩, rfl, hread.of_bus rfl, hsame, fun h => (hkept _ h.symm).trans hsp,
      fun q hr hq => (hkept q hr).trans (hother q hq)⟩
  · exact ⟨_, exec_popRm_mem s m, ⟨rfl, rfl, rfl⟩, rfl, hsp, hother,
      Stored.after hread (fun h => h.dropTop) rfl .word (s.segRm m) (s.ea m) s.top16⟩
  · obtain ⟨hsame, hkept, hcontrol⟩ := s.dropTop.loadSreg_spec sr s.top16
    exact ⟨_, exec_popSreg s h, hsame, hkept, rfl, rfl, ⟨hsp, hother, hread.of_bus rfl⟩, hcontrol⟩
  · exact ⟨_, rfl, ⟨rfl, rfl, rfl⟩, rfl, hsp, hother, hread.of_bus rfl⟩

/-! ## Input and output -/

/-- All an input does (R172, R173). -/
theorem State.input_spec (w : Width) (port : Word) :
    InputDone w port s ((s.afterPort w port).setAcc w (s.readPort w port)) := by
  obtain ⟨hacc, hother⟩ := (s.afterPort w port).setAcc_spec w (s.readPort w port)
  have hsame : SameOperands s (s.afterPort w port) := ⟨rfl, rfl, rfl, rfl⟩
  refine ⟨⟨by simp, by simp, by simp⟩, by simp, hacc, hsame.otherReg hother, by simp, fun h => ?_⟩
  have hbus := h.calm.read_port s.view w port
  rw [← portCyclesOf_eq, ← State.afterPort_bus] at hbus
  refine ⟨h.answers w port, fun a => ?_, ?_⟩
  · rw [State.setAcc_readByte, State.readByte, hbus]
    rfl
  · rw [State.setAcc_bus]
    exact hbus

/-- All an output does (R174, R175). -/
theorem State.output_spec (w : Width) (port : Word) : OutputDone w port s (s.writePort w port (s.acc w)) := by
  refine ⟨⟨rfl, rfl, rfl⟩, rfl, rfl, rfl, fun h => ?_⟩
  rw [portCyclesOf_eq]
  exact h.calm.write_port s.view w port (s.acc w)

/-- Settles O30: a fixed port is the byte of the instruction, zero-extended (R115). -/
theorem inputOutput : Obligations.InputOutput := fun w port s =>
  ⟨⟨_, rfl, s.input_spec w (zeroExtend16 port)⟩, ⟨_, rfl, s.input_spec w (s.reg16 .dx)⟩,
    ⟨_, rfl, s.output_spec w (zeroExtend16 port)⟩, ⟨_, rfl, s.output_spec w (s.reg16 .dx)⟩⟩

/-! ## XLAT, LEA, LDS, LES -/

/-- The two words of a pointer operand, when nothing comes from outside: the first read changes only the record
(R66). -/
theorem Quiet.readPointer {s : State} (h : Quiet s) (m : Mem) :
    s.readMem .word m = heldAt s .word (s.sreg (s.segRm m)) (s.ea m) ∧
    s.readMemHigh m = heldAt s .word (s.sreg (s.segRm m)) (s.ea m + 2) := by
  obtain ⟨hlow, hafter⟩ := h.read .word (s.segRm m) (s.ea m)
  obtain ⟨hhigh, -⟩ := (h.afterRead .word (s.segRm m) (s.ea m)).read .word (s.segRm m) (s.ea m + 2)
  refine ⟨hlow, hhigh.trans ?_⟩
  rw [hafter]
  rfl

/-- A register and a segment register loaded from a pointer operand (R178, R179). -/
theorem State.loadPointer_spec (r : Reg16) (sr : SReg) (m : Mem) :
    let t := ((s.afterPointer m).setReg16 r (s.readMem .word m)).setSreg sr (s.readMemHigh m)
    t.reg16 r = s.readMem .word m ∧ OtherReg16 r s t ∧ t.segs = s.segs.set sr (s.readMemHigh m) ∧ t.ip = s.ip ∧
      t.flags = s.flags ∧ t.control = s.control ∧ OnlyRead (s.afterPointer m) s t := by
  obtain ⟨hsame, hother⟩ := (s.afterPointer m).setReg16_spec r (s.readMem .word m)
  exact ⟨hsame, hother, rfl, rfl, rfl, rfl, (s.onlyRead_afterPointer m).of_bus rfl⟩

/-- Settles O31: the register writes, after the reads of memory. -/
theorem addressInstructions : Obligations.AddressInstructions := by
  refine ⟨fun s => ?_, fun r m s => ?_, fun m s h => h.readPointer m,
    fun r m s => ⟨_, rfl, s.loadPointer_spec r .ds m⟩, fun r m s => ⟨_, rfl, s.loadPointer_spec r .es m⟩⟩
  · obtain ⟨hsame, hother⟩ := State.setReg8_spec _ .al _
    exact ⟨_, rfl, ⟨rfl, rfl, rfl⟩, rfl, hother, hsame, (s.onlyRead_afterRead .byte _ _).of_bus rfl⟩
  · obtain ⟨hsame, hother⟩ := s.setReg16_spec r (s.ea m)
    exact ⟨_, rfl, ⟨rfl, rfl, rfl⟩, rfl, rfl, hsame, hother⟩

/-! ## Flag transfers -/

theorem lowByte_getLsbD (v : Word) {i : Nat} (h : i < 8) : (lowByte v).getLsbD i = v.getLsbD i := by
  simp [lowByte, h]

/-- The low half of the FLAGS image, as LAHF takes it (R32, R180). -/
theorem Flags.lowByte_toWord (x : Word) (f : Flags) :
    let ah := lowByte (f.toWord x)
    ah.getLsbD 7 = f.SF ∧ ah.getLsbD 6 = f.ZF ∧ ah.getLsbD 5 = x.getLsbD 5 ∧ ah.getLsbD 4 = f.AF ∧
    ah.getLsbD 3 = x.getLsbD 3 ∧ ah.getLsbD 2 = f.PF ∧ ah.getLsbD 1 = x.getLsbD 1 ∧ ah.getLsbD 0 = f.CF := by
  intro ah
  have hlow : ∀ i, i < 8 → ah.getLsbD i = (f.toWord x).getLsbD i := fun i hi => lowByte_getLsbD _ hi
  have hx : ∀ i, i < 8 → flagsXMask.getLsbD i = true → ah.getLsbD i = x.getLsbD i := fun i hi hm => by
    rw [hlow i hi, f.toWord_getLsbD x i (by omega), if_pos hm]
  obtain ⟨hCF, hPF, hAF, hZF, hSF, -⟩ := f.toWord_flags x
  exact ⟨(hlow 7 (by decide)).trans hSF, (hlow 6 (by decide)).trans hZF, hx 5 (by decide) (by decide),
    (hlow 4 (by decide)).trans hAF, hx 3 (by decide) (by decide), (hlow 2 (by decide)).trans hPF,
    hx 1 (by decide) (by decide), (hlow 0 (by decide)).trans hCF⟩

/-- Settles O32: LAHF writes AH by the bits of the image, SAHF the flags and nothing else. -/
theorem flagTransfers : Obligations.FlagTransfers := by
  refine ⟨fun s => ?_, fun s => ⟨_, rfl, ⟨rfl, rfl, rfl⟩, ⟨rfl, s.onlyRead_self⟩, rfl⟩⟩
  obtain ⟨hah, hother⟩ := s.setReg8_spec .ah (lowByte s.flagsWord)
  refine ⟨_, rfl, ⟨rfl, rfl, rfl⟩, rfl, rfl, hother, ?_⟩
  rw [hah]
  exact s.flags.lowByte_toWord s.params.flagsX

end Sys2Proof.Machine
end

section
/-!
PROOF. CMP (O35), INC, DEC and NEG (O36): the flags of the shared sum and difference, and the frame of an operand that
is written back or not.
-/

namespace Sys2Proof.Machine

/-! ## Operations that write nothing -/

section FlagForms

variable {o : AluOp} {rel : AluRel} {i : Instr} {s : State}

/-- An operation on the register-or-memory operand that only sets flags. -/
theorem AluOp.Gives.flagsOnly_toRM (h : o.Gives rel) (ho : o.writes = false) {w : Width} {rm : RM} {src : Operand w}
    (hx : exec i s = .next (aluToRM o w rm src s)) : FlagsOnly i rel w (s.readRM w rm) src (s.afterRM w rm) s := by
  obtain ⟨hflow, hflags, hsame⟩ := aluToRM_spec s o w rm src
  rw [ho] at hsame
  exact ⟨_, _, hx, hflow, hsame, hflags ▸ h w _ _ _ s.freeFlags⟩

/-- An operation on a register that only sets flags, after its source has been read. -/
theorem AluOp.Gives.flagsOnly_toReg (h : o.Gives rel) (ho : o.writes = false) {w : Width} {r : RegNum} {src : Operand w}
    {rm : RM} (hx : exec i s = .next (aluToReg o w r src (s.afterRM w rm))) :
    FlagsOnly i rel w (s.reg w r) src (s.afterRM w rm) s := by
  obtain ⟨hflow, hflags, hsame⟩ := aluToReg_spec s o w r src rm
  rw [ho] at hsame
  exact ⟨_, _, hx, hflow, hsame, hflags ▸ h w _ _ _ s.freeFlags⟩

end FlagForms

theorem AluOp.cmp_gives : AluOp.cmp.Gives (DiffRel fun _ => false) := fun w a b f free =>
  (AluOp.eval_diff w a b f free).2.1

/-! ## What the flags of a difference say -/

section Differences

variable {w : Width} {a b r : Operand w} {f g : Flags}

/-- ZF of a difference: its operands are equal. -/
theorem IsDiff.zf (h : IsDiff a b false r g) : g.ZF = decide (a = b) := by
  obtain ⟨hr, -, -, -, hz, -⟩ := h
  have ha := a.isLt
  have hb := b.isLt
  rw [hz, decide_eq_decide, ← BitVec.toNat_inj, ← BitVec.toNat_inj]
  cases w <;> simp only [Width.bits, Nat.reducePow, Int.reducePow, BitVec.ofNat_eq_ofNat, BitVec.toNat_zero,
    Bool.toNat_false] at * <;> omega

/-- SF of a difference is not its OF exactly where the left operand is less, signed. -/
theorem IsDiff.sf_bne_of (h : IsDiff a b false r g) : (g.SF != g.OF) = decide (a.toInt < b.toInt) := by
  obtain ⟨hr, -, ho, hs, -⟩ := h
  have ha := a.isLt
  have hb := b.isLt
  rw [hs, ho, msb_toNat, outOfRange, toInt_msb, toInt_msb, msb_toNat, msb_toNat, Bool.eq_iff_iff]
  simp only [bne_iff_ne, ne_eq, decide_eq_decide, decide_eq_true_eq]
  cases w <;> simp only [Width.bits, Nat.reducePow, Nat.reduceSub, Int.reducePow, Bool.toNat_false] at * <;>
    split <;> split <;> omega

end Differences

/-- Settles O35: the form `RM_R` by its two directions, the immediate forms, and the flags of the difference read. -/
theorem compares : Obligations.Compares := by
  have regRm : ∀ w r rm s, FlagsOnly (.cmpRegRm w r rm) (DiffRel fun _ => false) w (s.reg w r) (s.readRM w rm)
      (s.afterRM w rm) s := fun _ _ _ _ => AluOp.cmp_gives.flagsOnly_toReg rfl rfl
  refine ⟨regRm, fun w r rm s => AluOp.cmp_gives.flagsOnly_toRM rfl rfl,
    fun rm imm s => AluOp.cmp_gives.flagsOnly_toRM rfl rfl,
    fun imm s => AluOp.cmp_gives.flagsOnly_toReg (rm := .reg .r000) rfl rfl, fun w r rm s => ?_⟩
  obtain ⟨t, v, hx, -, -, hdiff, hcf, -⟩ := regRm w r rm s
  exact ⟨t, hx, hdiff.zf, hcf, hdiff.sf_bne_of⟩

/-! ## INC, DEC and NEG -/

/-- A register-or-memory operand read, flags set, and the operand written. -/
theorem State.updateRM_spec (s : State) (w : Width) (rm : RM) (v : Operand w) (f : Flags) :
    let t := ((s.afterRM w rm).setFlags f).writeRM w rm v
    SameFlow s t ∧ WroteRM w rm v (s.afterRM w rm) s t ∧ t.flags = f :=
  ⟨⟨by simp, by simp, by simp⟩,
    s.writeRM_afterRM_spec w rm v ⟨by simp, by simp, by simp, by simp⟩ (by simp), by simp⟩

section Counts

variable {i : Instr} {s : State}

/-- INC and DEC of a register-or-memory operand: the result and its flags stand in a relation, and CF is kept. -/
theorem countRM_done {w : Width} {rm : RM} {o : ArithOut w.bits} {R : Operand w → Flags → Prop}
    (hx : exec i s = .next (((s.afterRM w rm).countFlags o).writeRM w rm o.r)) (hR : R o.r (s.flags.arithKeepCF o)) :
    ∃ t v, exec i s = .next t ∧ SameFlow s t ∧ WroteRM w rm v (s.afterRM w rm) s t ∧ R v t.flags ∧
      t.flags.CF = s.flags.CF ∧ SameControlFlags s.flags t.flags := by
  rw [State.countFlags, State.afterRM_flags] at hx
  obtain ⟨hflow, hwrote, hflags⟩ := s.updateRM_spec w rm o.r (s.flags.arithKeepCF o)
  refine ⟨_, _, hx, hflow, hwrote, ?_⟩
  rw [hflags]
  exact ⟨hR, rfl, rfl, rfl, rfl⟩

/-- INC and DEC of a 16-bit register: the same. -/
theorem countReg16_done {r : Reg16} {o : ArithOut 16} {R : Word → Flags → Prop}
    (hx : exec i s = .next ((s.countFlags o).setReg16 r o.r)) (hR : R o.r (s.flags.arithKeepCF o)) :
    ∃ t v, exec i s = .next t ∧ SameFlow s t ∧ t.bus = s.bus ∧ t.reg16 r = v ∧ OtherReg16 r s t ∧ R v t.flags ∧
      t.flags.CF = s.flags.CF ∧ SameControlFlags s.flags t.flags := by
  obtain ⟨hsame, hother⟩ := (s.countFlags o).setReg16_spec r o.r
  exact ⟨_, _, hx, ⟨rfl, rfl, rfl⟩, rfl, hsame, hother, hR, rfl, rfl, rfl, rfl⟩

end Counts

/-- CF of a subtraction from 0: the operand was not 0 (R209). -/
theorem subN_zero_cf {n : Nat} (a : BitVec n) : (subN 0 a false).cf = decide (a ≠ 0) := by
  simp [subN, Nat.pos_iff_ne_zero, ← BitVec.toNat_inj]

/-- OF of a subtraction from 0: the operand was the most negative number (R209). -/
theorem outOfRange_neg (w : Width) (a : Operand w) :
    outOfRange w.bits ((0 : Operand w).toInt - a.toInt - false.toNat) = decide (a.toInt = -2 ^ (w.bits - 1)) := by
  have hlo := a.le_toInt
  have hhi := a.toInt_lt
  rw [outOfRange, decide_eq_decide]
  cases w <;> simp only [Width.bits, Nat.reduceSub, Int.reducePow, Bool.toNat_false, BitVec.ofNat_eq_ofNat,
    BitVec.toInt_zero] at * <;> omega

/-- Settles O36: INC and DEC by the sum and the difference with 1, NEG by the difference from 0. -/
theorem incDecNeg : Obligations.IncDecNeg := by
  refine ⟨fun w rm s => countRM_done (R := IsSum _ _ false) rfl (addN_isSum_keepCF w _ _ _ _),
    fun r s => countReg16_done (R := IsSum _ 1 false) rfl (addN_isSum_keepCF .word _ _ _ _),
    fun w rm s => countRM_done (R := IsDiff _ _ false) rfl (subN_isDiff_keepCF w _ _ _ _),
    fun r s => countReg16_done (R := IsDiff _ 1 false) rfl (subN_isDiff_keepCF .word _ _ _ _), fun w rm s => ?_⟩
  obtain ⟨hflow, hwrote, hflags⟩ := s.updateRM_spec w rm (subN 0 (s.readRM w rm) false).r
    (s.flags.arith (subN 0 (s.readRM w rm) false))
  refine ⟨_, _, rfl, hflow, hwrote, ?_⟩
  rw [hflags]
  exact ⟨subN_isDiff w _ _ _ _, subN_zero_cf _, (subN_of w _ _ _).trans (outOfRange_neg w _), rfl, rfl, rfl⟩

end Sys2Proof.Machine
end

section
/-!
PROOF. The decimal adjustments (O37), their exactness (O38), and AAM, AAD, CBW and CWD (O42): AL and AH written one
after the other, and the arithmetic of digits.
-/

namespace Sys2Proof.Machine

/-! ## The halves of AX, written one after the other -/

section Halves

variable {s t u : State}

theorem OtherReg16.trans {r : Reg16} (h : OtherReg16 r s t) (k : OtherReg16 r t u) : OtherReg16 r s u :=
  fun q hq => (k q hq).trans (h q hq)

/-- A write to a half leaves the registers that do not hold it (R22). -/
theorem State.setReg8_otherReg16 (s : State) (r : Reg8) (v : Byte) : OtherReg16 (byteHolder r) s (s.setReg8 r v) :=
  fun _ hq => s.setReg16_other _ hq

theorem State.setReg8_same (s : State) (r : Reg8) (v : Byte) : (s.setReg8 r v).reg8 r = v := (s.setReg8_spec r v).1

theorem State.setReg8_other (s : State) {r q : Reg8} (v : Byte) (h : q ≠ r) : (s.setReg8 r v).reg8 q = s.reg8 q :=
  (s.setReg8_spec r v).2.1 q h

end Halves

/-! ## The digit tests -/

theorem toNat_lowDigit (b : Byte) : (b &&& 0x0F).toNat = b.toNat % 16 := by
  rw [BitVec.toNat_and]
  exact Nat.and_two_pow_sub_one_eq_mod b.toNat 4

theorem adjustLow_eq (al : Byte) (af : Bool) : adjustLow al af = (decide (9 < al.toNat % 16) || af) := by
  rw [adjustLow, toNat_lowDigit]

/-! ## AAA and AAS -/

/-- The state after AAA or AAS: where the digit test says so AL and AH are `al` and `ah` first, and then only the low
digit of AL is left (R204, R211). -/
def State.asciiAdjusted (al ah : Byte) (s : State) : State :=
  let c := adjustLow (s.reg8 .al) s.flags.AF
  let s1 := if c then (s.setReg8 .al al).setReg8 .ah ah else s
  (s1.setReg8 .al (s1.reg8 .al &&& 0x0F)).setFreeFlags (s.flags.asciiAdjust c s.freeFlags)

theorem exec_aaa (s : State) : exec .aaa s = .next (s.asciiAdjusted (s.reg8 .al + 6) (s.reg8 .ah + 1)) := rfl

theorem exec_aas (s : State) : exec .aas s = .next (s.asciiAdjusted (s.reg8 .al - 6) (s.reg8 .ah - 1)) := rfl

/-- Both move AL by 6 and AH by 1, in the direction of `sign`. -/
theorem State.asciiAdjusted_spec {s : State} {sign : Int} {al ah : Byte}
    (hal : (al.toNat : Int) = ((s.reg8 .al).toNat + sign * 6) % 256)
    (hah : (ah.toNat : Int) = ((s.reg8 .ah).toNat + sign) % 256) : AsciiAdjusted sign s (s.asciiAdjusted al ah) := by
  have hdigit (u : State) : ((u.setReg8 .al (u.reg8 .al &&& 0x0F)).reg8 .al).toNat = (u.reg8 .al).toNat % 16 := by
    rw [State.setReg8_same, toNat_lowDigit]
  have hlow := adjustLow_eq (s.reg8 .al) s.flags.AF
  unfold AsciiAdjusted State.asciiAdjusted
  split
  case isTrue h =>
    have hc : adjustLow (s.reg8 .al) s.flags.AF = true := by simpa [hlow] using h
    simp only [hc, if_true]
    refine ⟨⟨rfl, rfl, rfl⟩, rfl, ?_, ⟨rfl, rfl, rfl⟩, ?_, ?_, rfl, rfl⟩
    · exact ((s.setReg8_otherReg16 .al al).trans (State.setReg8_otherReg16 _ .ah ah)).trans
        (State.setReg8_otherReg16 _ .al _)
    · rw [State.setFreeFlags_reg8, hdigit, State.setReg8_other _ ah (by decide), State.setReg8_same]
      omega
    · rw [State.setFreeFlags_reg8, State.setReg8_other _ _ (by decide), State.setReg8_same, hah]
  case isFalse h =>
    have hc : adjustLow (s.reg8 .al) s.flags.AF = false := by simpa [hlow] using h
    simp only [hc, Bool.false_eq_true, if_false]
    exact ⟨⟨rfl, rfl, rfl⟩, rfl, s.setReg8_otherReg16 .al _, ⟨rfl, rfl, rfl⟩, hdigit s,
      s.setReg8_other _ (by decide), rfl, rfl⟩

/-! ## DAA and DAS -/

/-- Both leave `r` in AL, its flags, and the two digit tests in AF and CF. -/
theorem decimalAdjusted_of {s : State} {sign : Int} {r : Byte} (hr : (r.toNat : Int) = ((s.reg8 .al).toNat +
      sign * ((if adjustLow (s.reg8 .al) s.flags.AF then 0x06 else 0) +
        (if adjustHigh (s.reg8 .al) s.flags.CF then 0x60 else 0))) % 256) :
    DecimalAdjusted sign s ((s.setReg8 .al r).setFreeFlags (s.flags.decimalAdjust r (adjustHigh (s.reg8 .al) s.flags.CF)
      (adjustLow (s.reg8 .al) s.flags.AF) s.freeFlags)) := by
  rw [DecimalAdjusted, ← adjustLow_eq]
  obtain ⟨hsame, hother⟩ := s.setReg8_spec .al r
  refine ⟨⟨rfl, rfl, rfl⟩, rfl, hother, ⟨rfl, rfl, rfl⟩, ?_, rfl, rfl, ?_⟩
  · rw [State.setFreeFlags_reg8, hsame]
    exact hr
  · rw [State.setFreeFlags_reg8, hsame]
    exact Flags.szp_result r s.flags

/-- Settles O37: two bytes moved by AAA and AAS, one by DAA and DAS, modulo 256. -/
theorem decimalAdjusts : Obligations.DecimalAdjusts := by
  intro s
  have hal := (s.reg8 .al).isLt
  have hah := (s.reg8 .ah).isLt
  refine ⟨⟨_, exec_aaa s, State.asciiAdjusted_spec ?_ ?_⟩, ⟨_, exec_aas s, State.asciiAdjusted_spec ?_ ?_⟩,
    ⟨_, rfl, decimalAdjusted_of ?_⟩, ⟨_, rfl, decimalAdjusted_of ?_⟩⟩
  · simp only [BitVec.toNat_add, BitVec.reduceToNat]; omega
  · simp only [BitVec.toNat_add, BitVec.reduceToNat]; omega
  · simp only [BitVec.toNat_sub, BitVec.reduceToNat]; omega
  · simp only [BitVec.toNat_sub, BitVec.reduceToNat]; omega
  · split <;> split <;> simp only [BitVec.toNat_add, BitVec.reduceToNat] <;> omega
  · split <;> split <;> simp only [BitVec.toNat_sub, BitVec.reduceToNat] <;> omega

/-! ## Exactness -/

/-- Settles O38: the digit tests of O37, on the sums and differences of two digits each. -/
theorem decimalAdjustIsExact : Obligations.DecimalAdjustIsExact := by
  intro s a b c ⟨hahi, halo⟩ ⟨hbhi, hblo⟩
  obtain ⟨-, -, ⟨t, ht, -, -, -, -, htal, -, htcf, -⟩, ⟨u, hu, -, -, -, -, hual, -, hucf, -⟩⟩ := decimalAdjusts s
  have hc := Bool.toNat_lt c
  simp only [IsPacked, packedValue]
  generalize c.toNat = k at *
  refine ⟨fun hal hcf haf => ⟨t, ht, ?_⟩, fun hal hcf haf => ⟨u, hu, ?_⟩⟩
  · simp only [hcf, haf, ← Bool.decide_or, decide_eq_true_eq] at htal htcf
    simp only [htcf, Bool.toNat, Bool.cond_decide]
    clear hual hucf
    split_ifs at htal ⊢ <;> omega
  · simp only [hcf, haf, ← Bool.decide_or, decide_eq_true_eq] at hual hucf
    simp only [hucf, Bool.toNat, Bool.cond_decide]
    clear htal htcf
    split_ifs at hual ⊢ <;> omega

/-! ## AAM, AAD, CBW and CWD -/

theorem Flags.digits_result (r : Byte) (f free : Flags) : ResultFlags r (f.digits r free) := f.szp_result r

/-- Settles O42: the two halves of AX, or one register, and the flags of the digit left in AL. -/
theorem conversions : Obligations.Conversions := by
  intro s
  have hlt := (s.reg8 .al).isLt
  have twoHalves (q r : Reg8) (hq : byteHolder q = .ax) (hr : byteHolder r = .ax) (x y : Byte) :
      OtherReg16 .ax s ((s.setReg8 q x).setReg8 r y) :=
    OtherReg16.trans (hq ▸ s.setReg8_otherReg16 q x) (hr ▸ State.setReg8_otherReg16 _ r y)
  refine ⟨⟨_, rfl, ⟨rfl, rfl, rfl⟩, rfl, twoHalves .ah .al rfl rfl _ _, ?_, ?_, ?_, rfl, rfl, rfl⟩,
    ⟨_, rfl, ⟨rfl, rfl, rfl⟩, rfl, twoHalves .al .ah rfl rfl _ _, ?_, ?_, ?_, rfl, rfl, rfl⟩,
    ⟨_, rfl, ⟨rfl, rfl, rfl⟩, rfl, (s.setReg16_spec .ax _).2, rfl, ?_⟩,
    ⟨_, rfl, ⟨rfl, rfl, rfl⟩, rfl, (s.setReg16_spec .dx _).2, rfl, ?_⟩⟩
  · rw [State.setFreeFlags_reg8, State.setReg8_other _ _ (by decide), State.setReg8_same, BitVec.toNat_ofNat]
    omega
  · rw [State.setFreeFlags_reg8, State.setReg8_same, BitVec.toNat_ofNat]
    omega
  · rw [State.setFreeFlags_flags, State.setFreeFlags_reg8, State.setReg8_same]
    exact Flags.digits_result _ s.flags s.freeFlags
  · rw [State.setFreeFlags_reg8, State.setReg8_other _ _ (by decide), State.setReg8_same, BitVec.toNat_ofNat]
  · rw [State.setFreeFlags_reg8, State.setReg8_same]
  · rw [State.setFreeFlags_flags, State.setFreeFlags_reg8, State.setReg8_other _ _ (by decide), State.setReg8_same]
    exact Flags.digits_result _ s.flags s.freeFlags
  · rw [State.setReg16_same]
    exact BitVec.toInt_signExtend_of_le (by decide)
  · rw [State.setReg16_same, State.setReg16_other _ _ (by decide), toInt_msb (s.reg16 .ax)]
    split
    · rw [show (0xFFFF : Word).toInt = -1 from rfl]
      omega
    · rw [BitVec.ofNat_eq_ofNat, BitVec.toInt_zero]
      omega

end Sys2Proof.Machine
end

section
/-!
PROOF. MUL and IMUL (O39), DIV and IDIV (O40, O41): double-width numbers and their halves, the products and quotients
that fit, and the two ways a division ends.
-/

namespace Sys2Proof.Machine

/-! ## Double-width numbers -/

theorem toNat_highByte (v : Word) : (highByte v).toNat = v.toNat / 256 := by
  have hlt := v.isLt
  rw [highByte, BitVec.extractLsb'_toNat, Nat.shiftRight_eq_div_pow]
  omega

theorem toNat_append_words (hi lo : Word) : (hi ++ lo).toNat = hi.toNat * 65536 + lo.toNat := by
  rw [BitVec.toNat_append, ← Nat.shiftLeft_add_eq_or_of_lt lo.isLt, Nat.shiftLeft_eq]

theorem toInt_append_words (hi lo : Word) : (hi ++ lo).toInt = hi.toInt * 65536 + lo.toNat := by
  rw [BitVec.toInt_append]
  simp [mul_comm]

/-- An upper half is not 0 exactly where the whole number does not fit the lower half (R213). -/
theorem highByte_ne_zero_iff (v : Word) : highByte v ≠ 0 ↔ 256 ≤ v.toNat := by
  rw [Ne, ← BitVec.toNat_inj, toNat_highByte, BitVec.ofNat_eq_ofNat, BitVec.toNat_zero]
  omega

theorem upper_ne_zero_iff (hi lo : Word) : hi ≠ 0 ↔ 65536 ≤ (hi ++ lo).toNat := by
  have hlt := lo.isLt
  rw [Ne, ← BitVec.toNat_inj, toNat_append_words, BitVec.ofNat_eq_ofNat, BitVec.toNat_zero]
  omega

/-- A signed number does not fit its width exactly where it is not its own residue. -/
theorem ne_bmod_iff_outOfRange (w : Width) (x : Int) : x ≠ x.bmod (2 ^ w.bits) ↔ outOfRange w.bits x = true := by
  rw [outOfRange, decide_eq_true_eq, ne_comm, Ne, Int.bmod_eq_iff (by positivity)]
  cases w <;> simp only [Width.bits, Nat.reducePow, Nat.reduceSub, Int.reducePow, Nat.cast_ofNat] <;> omega

/-- A double-width number is not the sign extension of its lower half exactly where it does not fit there (R214). -/
theorem ne_signExtend_low (w : Width) (p : BitVec (2 * w.bits)) :
    (p != (p.setWidth w.bits).signExtend (2 * w.bits)) = outOfRange w.bits p.toInt := by
  have hlow : ((p.setWidth w.bits).signExtend (2 * w.bits)).toInt = p.toInt.bmod (2 ^ w.bits) := by
    rw [BitVec.toInt_signExtend_of_le (Nat.le_mul_of_pos_left _ (by decide)), BitVec.toInt_setWidth,
      BitVec.toInt_eq_toNat_bmod, Int.bmod_bmod_of_dvd (pow_dvd_pow 2 (Nat.le_mul_of_pos_left _ (by decide)))]
  rw [Bool.eq_iff_iff, ← ne_bmod_iff_outOfRange, bne_iff_ne, Ne, ← BitVec.toInt_inj, hlow]

/-! ## Products -/

/-- The product of two operands fits twice their width. -/
theorem toNat_product (w : Width) (a b : Operand w) :
    (BitVec.ofNat (2 * w.bits) (a.toNat * b.toNat)).toNat = a.toNat * b.toNat := by
  have hlt : a.toNat * b.toNat < 2 ^ (2 * w.bits) := by
    rw [two_mul, pow_add]
    exact Nat.mul_lt_mul'' a.isLt b.isLt
  rw [BitVec.toNat_ofNat, Nat.mod_eq_of_lt hlt]

theorem toInt_product (w : Width) (a b : Operand w) :
    (BitVec.ofInt (2 * w.bits) (a.toInt * b.toInt)).toInt = a.toInt * b.toInt := by
  have hle := BitVec.toInt_mul_toInt_le (x := a) (y := b)
  have hge := BitVec.le_toInt_mul_toInt (x := a) (y := b)
  rw [BitVec.toInt_ofInt_eq_self] <;> cases w <;>
    simp only [Width.bits, Nat.reduceMul, Nat.reduceSub, Int.reducePow] at * <;> omega

section Products

variable {i : Instr} {s : State} {rm : RM} {c : Bool}

/-- A byte product written to AX, with CF and OF given. -/
theorem product_byte {p : Word} (hx : exec i s = .next (((s.afterRM .byte rm).setProduct .byte p).setFreeFlags
      (s.flags.multiply c s.freeFlags))) :
    ∃ t, exec i s = .next t ∧ SameFlow s t ∧ OtherReg16 .ax s t ∧ OnlyRead (s.afterRM .byte rm) s t ∧ t.reg16 .ax = p ∧
      t.flags.CF = c ∧ t.flags.OF = t.flags.CF ∧ SameControlFlags s.flags t.flags := by
  obtain ⟨hax, hother⟩ := (s.afterRM .byte rm).setProduct_byte p
  exact ⟨_, hx, ⟨by simp, by simp, by simp⟩, fun q hq => (hother q hq).trans (s.afterRM_reg16 .byte rm q),
    (s.onlyRead_afterRM .byte rm).of_bus (by simp), hax, rfl, rfl, Flags.multiply_control c s.flags s.freeFlags⟩

/-- A word product written to DX:AX, the same. -/
theorem product_word {p : BitVec 32} (hx : exec i s = .next (((s.afterRM .word rm).setProduct .word p).setFreeFlags
      (s.flags.multiply c s.freeFlags))) :
    ∃ t, exec i s = .next t ∧ SameFlow s t ∧ OnlyRead (s.afterRM .word rm) s t ∧
      (∀ q, q ≠ .ax → q ≠ .dx → t.reg16 q = s.reg16 q) ∧ t.reg16 .dx ++ t.reg16 .ax = p ∧
      t.flags.CF = c ∧ t.flags.OF = t.flags.CF ∧ SameControlFlags s.flags t.flags := by
  obtain ⟨hax, hdx, hother⟩ := (s.afterRM .word rm).setProduct_word p
  refine ⟨_, hx, ⟨by simp, by simp, by simp⟩, (s.onlyRead_afterRM .word rm).of_bus (by simp),
    fun q ha hd => (hother q ha hd).trans (s.afterRM_reg16 .word rm q), ?_, rfl, rfl,
    Flags.multiply_control c s.flags s.freeFlags⟩
  rw [State.setFreeFlags_reg16, State.setFreeFlags_reg16, hax, hdx]
  exact BitVec.extractLsb'_append_extractLsb'

end Products

/-- Settles O39: the product fits its registers; CF is the test on its upper half, or on the range of its lower one. -/
theorem products : Obligations.Products := by
  refine ⟨fun rm s => ⟨?_, ?_⟩, fun rm s => ⟨?_, ?_⟩⟩
  · obtain ⟨t, hx, hflow, hother, hread, hax, hcf, hof, hctl⟩ := product_byte (i := .mulRm .byte rm) (s := s) rfl
    have hp := (congrArg BitVec.toNat hax).trans (toNat_product .byte (s.reg8 .al) _)
    have hah := highByte_ne_zero_iff (t.reg16 .ax)
    rw [hp] at hah
    exact ⟨t, hx, hflow, hother, hread, hp, hcf.trans (decide_eq_decide.mpr hah.symm), hof, hctl⟩
  · obtain ⟨t, hx, hflow, hread, hother, hdxax, hcf, hof, hctl⟩ := product_word (i := .mulRm .word rm) (s := s) rfl
    have hp := (congrArg BitVec.toNat hdxax).trans (toNat_product .word (s.reg16 .ax) _)
    have hdx := upper_ne_zero_iff (t.reg16 .dx) (t.reg16 .ax)
    rw [hp] at hdx
    exact ⟨t, hx, hflow, hread, hother, (toNat_append_words _ _).symm.trans hp,
      hcf.trans (decide_eq_decide.mpr hdx.symm), hof, hctl⟩
  · obtain ⟨t, hx, hflow, hother, hread, hax, hcf, hof, hctl⟩ := product_byte (i := .imulRm .byte rm) (s := s) rfl
    have hp := toInt_product .byte (s.reg8 .al) (s.readRM .byte rm)
    exact ⟨t, hx, hflow, hother, hread, (congrArg BitVec.toInt hax).trans hp,
      hcf.trans ((ne_signExtend_low .byte _).trans (congrArg (outOfRange 8) hp)), hof, hctl⟩
  · obtain ⟨t, hx, hflow, hread, hother, hdxax, hcf, hof, hctl⟩ := product_word (i := .imulRm .word rm) (s := s) rfl
    have hp := toInt_product .word (s.reg16 .ax) (s.readRM .word rm)
    exact ⟨t, hx, hflow, hread, hother,
      (toInt_append_words _ _).symm.trans ((congrArg BitVec.toInt hdxax).trans hp),
      hcf.trans ((ne_signExtend_low .word _).trans (congrArg (outOfRange 16) hp)), hof, hctl⟩

/-! ## The two ways a division ends -/

/-- A division that fits, after its operand has been read, changes the registers of its result and the status flags
only. -/
theorem State.finishDivision_afterRM_frame (s : State) (w : Width) (rm : RM) (q r : Operand w) :
    let t := (s.afterRM w rm).finishDivision w (some (q, r))
    SameFlow s t ∧ OnlyRead (s.afterRM w rm) s t ∧ SameControlFlags s.flags t.flags := by
  obtain ⟨hflow, hbus, hctl⟩ := (s.afterRM w rm).finishDivision_some w q r
  exact ⟨by simpa [SameFlow] using hflow, (s.onlyRead_afterRM w rm).of_bus hbus, by simpa using hctl⟩

section Divisions

variable {i : Instr} {s : State} {rm : RM} {p : Prop} [Decidable p]

/-- A byte division: the divide error where nothing fits, else quotient and remainder in AL and AH. -/
theorem division_byte {Q R : Byte → Prop} {out : Division .byte}
    (hx : exec i s = .next ((s.afterRM .byte rm).finishDivision .byte out)) (hnone : out = none → p)
    (hsome : ∀ q r, out = some (q, r) → ¬p ∧ Q q ∧ R r) :
    if p then ∃ t, exec i s = .next t ∧ DivideErrorTaken (s.afterRM .byte rm) s t
    else ∃ t, exec i s = .next t ∧ SameFlow s t ∧ OnlyRead (s.afterRM .byte rm) s t ∧ OtherReg16 .ax s t ∧
      Q (t.reg8 .al) ∧ R (t.reg8 .ah) ∧ SameControlFlags s.flags t.flags := by
  cases out with
  | none =>
    rw [if_pos (hnone rfl)]
    exact ⟨_, hx, s.finishDivision_none .byte rm⟩
  | some qr =>
    obtain ⟨q, r⟩ := qr
    obtain ⟨hp, hQ, hR⟩ := hsome q r rfl
    obtain ⟨hflow, hread, hctl⟩ := s.finishDivision_afterRM_frame .byte rm q r
    obtain ⟨hal, hah, hother⟩ := State.setQuotient_byte ((s.afterRM .byte rm).setFreeFlags _) q r
    rw [if_neg hp]
    exact ⟨_, hx, hflow, hread, fun x hax => (hother x hax).trans (s.afterRM_reg16 .byte rm x), hal.symm ▸ hQ,
      hah.symm ▸ hR, hctl⟩

/-- A word division: the same in AX and DX. -/
theorem division_word {Q R : Word → Prop} {out : Division .word}
    (hx : exec i s = .next ((s.afterRM .word rm).finishDivision .word out)) (hnone : out = none → p)
    (hsome : ∀ q r, out = some (q, r) → ¬p ∧ Q q ∧ R r) :
    if p then ∃ t, exec i s = .next t ∧ DivideErrorTaken (s.afterRM .word rm) s t
    else ∃ t, exec i s = .next t ∧ SameFlow s t ∧ OnlyRead (s.afterRM .word rm) s t ∧
      (∀ x, x ≠ .ax → x ≠ .dx → t.reg16 x = s.reg16 x) ∧
      Q (t.reg16 .ax) ∧ R (t.reg16 .dx) ∧ SameControlFlags s.flags t.flags := by
  cases out with
  | none =>
    rw [if_pos (hnone rfl)]
    exact ⟨_, hx, s.finishDivision_none .word rm⟩
  | some qr =>
    obtain ⟨q, r⟩ := qr
    obtain ⟨hp, hQ, hR⟩ := hsome q r rfl
    obtain ⟨hflow, hread, hctl⟩ := s.finishDivision_afterRM_frame .word rm q r
    obtain ⟨hax, hdx, hother⟩ := State.setQuotient_word ((s.afterRM .word rm).setFreeFlags _) q r
    rw [if_neg hp]
    exact ⟨_, hx, hflow, hread, fun x ha hd => (hother x ha hd).trans (s.afterRM_reg16 .word rm x), hax.symm ▸ hQ,
      hdx.symm ▸ hR, hctl⟩

end Divisions

/-! ## Quotients -/

section Quotients

variable {w : Width} {d q r : Operand w}

/-- Nothing for DIV where the divisor is 0 or the quotient does not fit (R216). -/
theorem divideUnsigned_none {n : Nat} (h : divideUnsigned w n d = none) : d.toNat = 0 ∨ 2 ^ w.bits ≤ n / d.toNat := by
  simpa only [h] using divideUnsigned_spec w n d

/-- Else both fit, and are quotient and remainder. -/
theorem divideUnsigned_some {n : Nat} (h : divideUnsigned w n d = some (q, r)) :
    ¬(d.toNat = 0 ∨ 2 ^ w.bits ≤ n / d.toNat) ∧ q.toNat = n / d.toNat ∧ r.toNat = n % d.toNat := by
  obtain ⟨hd, hq, hr⟩ : d.toNat ≠ 0 ∧ q.toNat = n / d.toNat ∧ r.toNat = n % d.toNat := by
    simpa only [h] using divideUnsigned_spec w n d
  exact ⟨not_or.mpr ⟨hd, not_le.mpr (hq ▸ q.isLt)⟩, hq, hr⟩

/-- Nothing for IDIV where the divisor is 0 or the quotient is out of the range accepted (R217, D21). -/
theorem divideSigned_none {least n : Int} (h : divideSigned w least n d = none) :
    d.toInt = 0 ∨ 2 ^ (w.bits - 1) ≤ n.tdiv d.toInt ∨ n.tdiv d.toInt < least := by
  unfold divideSigned at h
  split at h
  case isTrue hd => exact .inl hd
  case isFalse hd =>
    simp only at h
    split at h
    · exact .inr ‹_›
    · cases h

/-- A remainder is smaller than its divisor, so it fits the divisor's width. -/
theorem toInt_ofInt_tmod (n : Int) (hd : d.toInt ≠ 0) :
    (BitVec.ofInt w.bits (n.tmod d.toInt)).toInt = n.tmod d.toInt := by
  have hlo := d.le_toInt
  have hhi := d.toInt_lt
  have hlt : (n.tmod d.toInt).natAbs < d.toInt.natAbs := by
    rw [Int.natAbs_tmod]
    exact Nat.mod_lt _ (Int.natAbs_pos.mpr hd)
  rw [BitVec.toInt_ofInt_eq_self] <;> cases w <;> simp only [Width.bits, Nat.reduceSub, Int.reducePow] at * <;> omega

/-- Else the truncated quotient and its remainder, where the least quotient accepted is a number of the operand's
width (log 5). -/
theorem divideSigned_some {least n : Int} (hleast : -2 ^ (w.bits - 1) ≤ least)
    (h : divideSigned w least n d = some (q, r)) :
    ¬(d.toInt = 0 ∨ 2 ^ (w.bits - 1) ≤ n.tdiv d.toInt ∨ n.tdiv d.toInt < least) ∧ q.toInt = n.tdiv d.toInt ∧
      r.toInt = n.tmod d.toInt := by
  unfold divideSigned at h
  split at h
  case isTrue hd => cases h
  case isFalse hd =>
    simp only at h
    split at h
    case isTrue => cases h
    case isFalse hrange =>
      obtain ⟨hlt, hge⟩ := not_or.mp hrange
      cases h
      refine ⟨not_or.mpr ⟨hd, hrange⟩, ?_, ?_⟩
      · exact BitVec.toInt_ofInt_eq_self (by cases w <;> decide) (hleast.trans (not_lt.mp hge)) (not_le.mp hlt)
      · rw [mul_comm, ← Int.tmod_def, toInt_ofInt_tmod n hd]

end Quotients

/-- Settles O40: the dividend of the word form is DX:AX, unsigned; that a quotient is above the greatest is, by what `<`
means, that it is at least `2 ^ N`. -/
theorem divQuotient : Obligations.DivQuotient := by
  refine ⟨fun rm s => division_byte (Q := (BitVec.toNat · = _)) (R := (BitVec.toNat · = _)) rfl divideUnsigned_none
    fun _ _ => divideUnsigned_some, fun rm s => ?_⟩
  have hx : exec (.divRm .word rm) s = .next ((s.afterRM .word rm).finishDivision .word
      (divideUnsigned .word ((s.reg16 .dx).toNat * 65536 + (s.reg16 .ax).toNat) (s.readRM .word rm))) := by
    rw [← toNat_append_words]
    rfl
  exact division_word (Q := (BitVec.toNat · = _)) (R := (BitVec.toNat · = _)) hx divideUnsigned_none
    fun _ _ => divideUnsigned_some

/-- Settles O41: the same with DX:AX signed, and the least quotient a number of the operand's width. -/
theorem idivQuotient : Obligations.IdivQuotient := by
  refine ⟨fun rm s hleast => division_byte (Q := (BitVec.toInt · = _)) (R := (BitVec.toInt · = _)) rfl
    divideSigned_none fun _ _ => divideSigned_some hleast, fun rm s hleast => ?_⟩
  have hx : exec (.idivRm .word rm) s = .next ((s.afterRM .word rm).finishDivision .word
      (divideSigned .word s.params.idivMin16 ((s.reg16 .dx).toInt * 65536 + (s.reg16 .ax).toNat)
        (s.readRM .word rm))) := by
    rw [← toInt_append_words]
    rfl
  exact division_word (Q := (BitVec.toInt · = _)) (R := (BitVec.toInt · = _)) hx divideSigned_none
    fun _ _ => divideSigned_some hleast

end Sys2Proof.Machine
end

section
/-!
PROOF. The logic operations (O43), TEST and NOT (O44), the shifts (O45) and the rotates (O46): the forms of the
two-operand operations, and the single-bit steps of a shift or rotate in closed form.
-/

namespace Sys2Proof.Machine

/-! ## AND, OR, XOR and TEST -/

/-- The form `RM_IMM` without an `s` bit. -/
theorem AluOp.Gives.rmImmForm {o : AluOp} {rel : AluRel} {mk : RM → Imm → Instr} (h : o.Gives rel)
    (ho : o.writes = true) (hx : ∀ rm imm s, exec (mk rm imm) s = .next (aluRmImm o rm imm s)) : RmImmForm mk rel := by
  intro rm imm s
  obtain ⟨hflow, hflags, hwrote⟩ := aluToRM_spec s o imm.width rm imm.val
  rw [if_pos ho] at hwrote
  exact ⟨_, _, hx _ _ _, hflow, hflags ▸ h _ _ _ _ s.freeFlags, hwrote⟩

theorem AluOp.and_gives : AluOp.and.Gives (LogicRel (· && ·)) := fun w a b f free =>
  (AluOp.eval_logic w a b f free).1

theorem AluOp.test_gives : AluOp.test.Gives (LogicRel (· && ·)) := fun w a b f free =>
  (AluOp.eval_logic w a b f free).2.1

theorem AluOp.or_gives : AluOp.or.Gives (LogicRel (· || ·)) := fun w a b f free =>
  (AluOp.eval_logic w a b f free).2.2.1

theorem AluOp.xor_gives : AluOp.xor.Gives (LogicRel (· ^^ ·)) := fun w a b f free =>
  (AluOp.eval_logic w a b f free).2.2.2

/-- Settles O43: AND, OR and XOR work bit by bit, in each form. -/
theorem logicOperations : Obligations.LogicOperations :=
  ⟨⟨AluOp.and_gives.rmRegForm rfl fun _ _ _ _ _ => rfl, AluOp.and_gives.rmImmForm rfl fun _ _ _ => rfl,
      AluOp.and_gives.accImmForm rfl fun _ _ => rfl⟩,
    ⟨AluOp.or_gives.rmRegForm rfl fun _ _ _ _ _ => rfl, AluOp.or_gives.rmImmForm rfl fun _ _ _ => rfl,
      AluOp.or_gives.accImmForm rfl fun _ _ => rfl⟩,
    AluOp.xor_gives.rmRegForm rfl fun _ _ _ _ _ => rfl, AluOp.xor_gives.rmImmForm rfl fun _ _ _ => rfl,
    AluOp.xor_gives.accImmForm rfl fun _ _ => rfl⟩

/-- Settles O44: TEST as the operations that only set flags; NOT writes the complement back after the read. -/
theorem testAndNot : Obligations.TestAndNot := by
  refine ⟨fun w r rm s => AluOp.test_gives.flagsOnly_toRM rfl rfl,
    fun rm imm s => AluOp.test_gives.flagsOnly_toRM rfl rfl,
    fun imm s => AluOp.test_gives.flagsOnly_toReg (rm := .reg .r000) rfl rfl, fun w rm s => ?_⟩
  have hwrote := s.writeRM_afterRM_spec w rm (~~~(s.readRM w rm)) (.afterRM s w rm) rfl
  exact ⟨_, _, rfl, ⟨by simp, by simp, by simp⟩, by simp, hwrote, fun i hi => by simp [hi]⟩

/-! ## Shifts and rotates by their closed form -/

theorem State.shiftCount_eq (s : State) (v : Count) : s.shiftCount v = countOf s v := by cases v <;> rfl

theorem width_bits_pos (w : Width) : 0 < w.bits := by cases w <;> decide

section ClosedForms

variable {o : ShiftOp} {i : Instr} {v : Count} {w : Width} {rm : RM} {s : State} {x : Operand w} {cf ov : Bool}

/-- All a shift or rotate does, where its steps have the closed form `(x, cf)` for a count above 0. -/
theorem shiftRM_closed (hx : exec i s = .next (shiftRM o v w rm s))
    (hout : countOf s v ≠ 0 → o.iterate (countOf s v) (s.readRM w rm) s.flags.CF = (x, cf)) :
    ∃ t, exec i s = .next t ∧ SameFlow s t ∧
      if countOf s v = 0 then t.flags = s.flags ∧ Untouched (s.afterRM w rm) s t
      else WroteRM w rm x (s.afterRM w rm) s t ∧
        t.flags = o.flags (countOf s v) (s.readRM w rm) x cf s.flags s.freeFlags := by
  obtain ⟨hflow, hdone⟩ := shiftRM_spec o v w rm s
  refine ⟨_, hx, hflow, ?_⟩
  rw [s.shiftCount_eq] at hdone
  split
  · next hc => rwa [if_pos hc] at hdone
  · next hc => rwa [if_neg hc, hout hc] at hdone

/-- A shift by its closed form; OF for a count of 1. -/
theorem shifted_of_iterate (ho : o.isRotate = false) (hx : exec i s = .next (shiftRM o v w rm s))
    (hout : countOf s v ≠ 0 → o.iterate (countOf s v) (s.readRM w rm) s.flags.CF = (x, cf))
    (hov : countOf s v = 1 → o.overflow (s.readRM w rm) x cf = ov) : Shifted i v w rm s x cf ov := by
  obtain ⟨t, hnext, hflow, hdone⟩ := shiftRM_closed hx hout
  refine ⟨t, hnext, hflow, ?_⟩
  split
  · next hc => rwa [if_pos hc] at hdone
  · next hc =>
    obtain ⟨hwrote, hflags⟩ := if_neg hc ▸ hdone
    obtain ⟨hcf, hres, hctl, hof⟩ := ShiftOp.flags_shift ho (countOf s v) (s.readRM w rm) x cf s.flags s.freeFlags
    rw [hflags]
    exact ⟨hwrote, hcf, hres, hctl, fun h1 => (hof h1).trans (hov h1)⟩

/-- A rotate by its closed form; OF for a count of 1 is the operation's own. -/
theorem rotated_of_iterate (ho : o.isRotate = true) (hx : exec i s = .next (shiftRM o v w rm s))
    (hout : countOf s v ≠ 0 → o.iterate (countOf s v) (s.readRM w rm) s.flags.CF = (x, cf)) :
    Rotated i v w rm s x cf (o.overflow (s.readRM w rm) x cf) := by
  obtain ⟨t, hnext, hflow, hdone⟩ := shiftRM_closed hx hout
  refine ⟨t, hnext, hflow, ?_⟩
  split
  · next hc => rwa [if_pos hc] at hdone
  · next hc =>
    obtain ⟨hwrote, hflags⟩ := if_neg hc ▸ hdone
    rw [hflags]
    exact ⟨hwrote, ShiftOp.flags_rotate ho (countOf s v) (s.readRM w rm) x cf s.flags s.freeFlags⟩

end ClosedForms

/-- A bit past the width is 0: with a count above it, the last bit shifted out to the right is 0. -/
theorem getLsbD_pred_eq_and {n : Nat} (x : BitVec n) (c : Nat) :
    x.getLsbD (c - 1) = (decide (c ≤ n) && x.getLsbD (c - 1)) := by
  by_cases h : c ≤ n
  · simp [h]
  · simp [h, BitVec.getLsbD_of_ge x (c - 1) (by omega)]

/-- Settles O45: the closed forms of the repeated steps; OF for a count of 1 by the bit shifted out, the sign before,
or 0. -/
theorem shifts : Obligations.Shifts := by
  intro v w rm s c x
  refine ⟨shifted_of_iterate (o := .shl) rfl rfl (fun hc => ?_) fun h1 => ?_,
    shifted_of_iterate (o := .shr) rfl rfl (fun hc => ?_) fun _ => rfl,
    shifted_of_iterate (o := .sar) rfl rfl (fun hc => ?_) fun _ => rfl⟩
  · rw [ShiftOp.iterate_shl (width_bits_pos w), if_neg hc]
  · have hc : c = 1 := h1
    have hmsb : (decide (1 ≤ w.bits) && x.getLsbD (w.bits - 1)) = x.msb := by
      rw [BitVec.msb_eq_getLsbD_last, decide_eq_true (show 1 ≤ w.bits from width_bits_pos w), Bool.true_and]
    rw [hc, hmsb]
    rfl
  · rw [ShiftOp.iterate_shr, if_neg hc]
    exact congrArg _ (getLsbD_pred_eq_and x c)
  · rw [ShiftOp.iterate_sar (width_bits_pos w), if_neg hc]

/-- An operand and a CF are the two parts of the bits CF:x they make up. -/
theorem eq_parts_of_withCarry {n : Nat} {p : BitVec n × Bool} {y : BitVec (1 + n)} (h : withCarry p.2 p.1 = y) :
    p = (y.setWidth n, y.msb) := by
  obtain ⟨hx, hcf⟩ := withCarry_parts p.2 p.1
  rw [← h, hx, hcf]

/-- Settles O46: ROL and ROR by their closed forms, RCL and RCR by the two parts of the rotated bits CF:x; OF for a
count of 1 by its definition. -/
theorem rotates : Obligations.Rotates := by
  intro v w rm s c x left right
  have hpos := width_bits_pos w
  refine ⟨rotated_of_iterate (o := .rol) rfl rfl fun hc => ?_, rotated_of_iterate (o := .ror) rfl rfl fun hc => ?_,
    rotated_of_iterate (o := .rcl) rfl rfl fun _ => eq_parts_of_withCarry (ShiftOp.iterate_rcl hpos c x _),
    rotated_of_iterate (o := .rcr) rfl rfl fun _ => eq_parts_of_withCarry (ShiftOp.iterate_rcr hpos c x _)⟩
  · rw [ShiftOp.iterate_rol hpos, if_neg hc]
  · rw [ShiftOp.iterate_ror hpos, if_neg hc]

end Sys2Proof.Machine
end

section
/-!
PROOF. The string instructions on one element (O47, O48) and the repeat loop (O49): what one element stores, reads and
compares, said once for each primitive, and how the loop uses it.
-/

namespace Sys2Proof.Machine

variable (s : State)

/-! ## The index registers after an element (R300) -/

section Indices

variable {s} {t u : State} {r : Reg16}

/-- A register that is not written keeps its halves (R22). -/
theorem OtherReg16.reg8 (h : OtherReg16 r s t) {q : Reg8} (hq : byteHolder q ≠ r) : t.reg8 q = s.reg8 q := by
  simp only [State.reg8, h _ hq]

/-- The accumulator where AX is not the register written. -/
theorem OtherReg16.acc (h : OtherReg16 r s t) (hr : .ax ≠ r) (w : Width) : t.reg w .r000 = s.reg w .r000 := by
  cases w with
  | byte => exact h.reg8 (q := .al) hr
  | word => exact h .ax hr

/-- One index register stepped once the element is handled, which leaves that register and DF. -/
theorem State.stepIndex_after (hr : u.reg16 r = s.reg16 r) (hd : u.flags.DF = s.flags.DF) (w : Width) :
    (u.stepIndex w r).reg16 r = s.reg16 r + elementStep s w := by
  obtain ⟨hstep, -⟩ := u.stepIndex_spec w r
  rw [hstep, hr, elementStep_congr hd]

/-- Both index registers stepped once the element is handled, which leaves the registers and DF. -/
theorem State.stepBoth_after (hr : u.regs = s.regs) (hd : u.flags.DF = s.flags.DF) (w : Width) :
    let t := (u.stepIndex w .si).stepIndex w .di
    t.reg16 .si = s.reg16 .si + elementStep s w ∧ t.reg16 .di = s.reg16 .di + elementStep s w ∧
      ∀ q, q ≠ .si → q ≠ .di → t.reg16 q = s.reg16 q := by
  have h : ∀ q, u.reg16 q = s.reg16 q := fun q => by simp only [State.reg16, hr]
  obtain ⟨hsi, hdi, hother⟩ := u.stepBoth_spec w
  rw [elementStep_congr hd, h] at hsi hdi
  exact ⟨hsi, hdi, fun q hqs hqd => (hother q hqs hqd).trans (h q)⟩

end Indices

/-! ## The elements (R302 to R306) -/

theorem State.onlyRead_afterSource (w : Width) : OnlyRead (afterSource s w) s (afterSource s w) :=
  s.onlyRead_afterRead w (sourceSegment s) (s.reg16 .si)

theorem Quiet.afterSource {s : State} (h : Quiet s) (w : Width) : Quiet (afterSource s w) :=
  h.afterRead w (sourceSegment s) (s.reg16 .si)

/-- The flags of a difference without borrow (R206). -/
theorem Flags.arith_subN_diffRel (w : Width) (a b : Operand w) (f : Flags) :
    DiffRel (fun _ => false) w a b f (subN a b false).r (f.arith (subN a b false)) :=
  AluOp.cmp_gives w a b f f

/-- All MOVS does on one element (R302). -/
theorem movsOnce_spec (w : Width) :
    let t := movsOnce w s
    t.flags = s.flags ∧ Stored w .es (s.reg16 .di) (sourceElement s w) (afterSource s w) s t ∧
      t.reg16 .si = s.reg16 .si + elementStep s w ∧ t.reg16 .di = s.reg16 .di + elementStep s w ∧
      ∀ q, q ≠ .si → q ≠ .di → t.reg16 q = s.reg16 q :=
  have hstored := Stored.after (s.onlyRead_afterSource w) (fun h => h.afterSource w) rfl w .es (s.reg16 .di)
    (sourceElement s w)
  ⟨rfl, hstored.of_bus rfl, State.stepBoth_after rfl rfl w⟩

/-- All CMPS does on one element (R303). -/
theorem cmpsOnce_spec (w : Width) :
    let t := cmpsOnce w s
    let a := sourceElement s w
    let b := (afterSource s w).readSeg w .es (s.reg16 .di)
    OnlyRead ((afterSource s w).afterRead w .es (s.reg16 .di)) s t ∧
      DiffRel (fun _ => false) w a b s.flags (subN a b false).r t.flags ∧
      t.reg16 .si = s.reg16 .si + elementStep s w ∧ t.reg16 .di = s.reg16 .di + elementStep s w ∧
      ∀ q, q ≠ .si → q ≠ .di → t.reg16 q = s.reg16 q :=
  have hread := (s.onlyRead_afterSource w).trans ((afterSource s w).onlyRead_afterRead w .es (s.reg16 .di))
    fun h => h.afterSource w
  ⟨hread.of_bus rfl, Flags.arith_subN_diffRel w _ _ _, State.stepBoth_after rfl rfl w⟩

/-- All SCAS does on one element (R304). -/
theorem scasOnce_spec (w : Width) :
    let t := scasOnce w s
    let a := s.reg w .r000
    let b := s.readSeg w .es (s.reg16 .di)
    OnlyRead (s.afterRead w .es (s.reg16 .di)) s t ∧
      DiffRel (fun _ => false) w a b s.flags (subN a b false).r t.flags ∧
      t.reg16 .di = s.reg16 .di + elementStep s w ∧ OtherReg16 .di s t :=
  have hread := s.onlyRead_afterRead w .es (s.reg16 .di)
  ⟨hread.of_bus rfl, Flags.arith_subN_diffRel w _ _ _, State.stepIndex_after rfl rfl w, (State.stepIndex_spec _ w .di).2⟩

/-- A write of the accumulator leaves every other 16-bit register. -/
theorem State.setAcc_otherReg16 (w : Width) (v : Operand w) : OtherReg16 .ax s (s.setAcc w v) := by
  cases w with
  | byte => exact s.setReg8_otherReg16 .al v
  | word => exact (s.setReg16_spec .ax v).2

/-- All LODS does on one element (R305): the byte form leaves AH. -/
theorem lodsOnce_spec (w : Width) :
    let t := lodsOnce w s
    t.flags = s.flags ∧ OnlyRead (afterSource s w) s t ∧ t.reg w .r000 = sourceElement s w ∧
      (w = .byte → t.reg8 .ah = s.reg8 .ah) ∧ t.reg16 .si = s.reg16 .si + elementStep s w ∧
      ∀ q, q ≠ .si → q ≠ .ax → t.reg16 q = s.reg16 q := by
  obtain ⟨hacc, -⟩ := (afterSource s w).setAcc_spec w (sourceElement s w)
  have hax := (afterSource s w).setAcc_otherReg16 w (sourceElement s w)
  have hflags : ((afterSource s w).setAcc w (sourceElement s w)).flags = s.flags := State.setAcc_flags _ _ _
  obtain ⟨-, hsi⟩ := ((afterSource s w).setAcc w (sourceElement s w)).stepIndex_spec w .si
  refine ⟨hflags, (s.onlyRead_afterSource w).of_bus (State.setAcc_bus _ _ _), (hsi.acc (by decide) w).trans hacc, ?_,
    State.stepIndex_after (hax .si (by decide)) (congrArg Flags.DF hflags) w,
    fun q hqs hqa => (hsi q hqs).trans (hax q hqa)⟩
  rintro rfl
  exact (hsi.reg8 (q := .ah) (by decide)).trans (State.setReg8_other _ _ (by decide))

/-- All STOS does on one element (R306). -/
theorem stosOnce_spec (w : Width) :
    let t := stosOnce w s
    t.flags = s.flags ∧ Stored w .es (s.reg16 .di) (s.reg w .r000) s s t ∧
      t.reg16 .di = s.reg16 .di + elementStep s w ∧ OtherReg16 .di s t :=
  have hstored := s.stored_writeSeg w .es (s.reg16 .di) (s.reg w .r000)
  ⟨rfl, hstored.of_bus rfl, State.stepIndex_after rfl rfl w, (State.stepIndex_spec _ w .di).2⟩

/-! ## The primitive by its name -/

/-- The element of a string primitive. -/
def stringOnce : StringOp → Width → State → State
  | .movs => movsOnce
  | .cmps => cmpsOnce
  | .scas => scasOnce
  | .lods => lodsOnce
  | .stos => stosOnce

/-- Every string instruction is the repeat loop around its element (R301). -/
theorem exec_stringInstr (op : StringOp) (w : Width) :
    exec (op.instr w) s = .next (repeatString op w (stringOnce op w) s) := by
  cases op <;> rfl

/-- Without REP it is the element alone (R301). -/
theorem exec_stringInstr_of_no_rep {s : State} (h : s.rep = none) (op : StringOp) (w : Width) :
    exec (op.instr w) s = .next { stringOnce op w s with run := .running } := by
  rw [exec_stringInstr, (repeatString_spec s op w (stringOnce op w)).1 h]

theorem stringOnce_sameFlow (op : StringOp) (w : Width) : SameFlow s (stringOnce op w s) := by
  obtain ⟨hmovs, hcmps, hscas, hlods, hstos⟩ := once_sameFlow s w
  cases op <;> assumption

/-- No element writes CX. -/
theorem stringOnce_cx (op : StringOp) (w : Width) : (stringOnce op w s).reg16 .cx = s.reg16 .cx := by
  cases op with
  | movs =>
    obtain ⟨-, -, -, -, hother⟩ := movsOnce_spec s w
    exact hother .cx (by decide) (by decide)
  | cmps =>
    obtain ⟨-, -, -, -, hother⟩ := cmpsOnce_spec s w
    exact hother .cx (by decide) (by decide)
  | scas =>
    obtain ⟨-, -, -, hother⟩ := scasOnce_spec s w
    exact hother .cx (by decide)
  | lods =>
    obtain ⟨-, -, -, -, -, hother⟩ := lodsOnce_spec s w
    exact hother .cx (by decide) (by decide)
  | stos =>
    obtain ⟨-, -, -, hother⟩ := stosOnce_spec s w
    exact hother .cx (by decide)

/-- No element looks at REP. -/
theorem stringOnce_without_rep (op : StringOp) (w : Width) :
    stringOnce op w { s with rep := none } = { stringOnce op w s with rep := none } := by
  cases op with
  | movs | cmps | scas | stos => rfl
  | lods => cases w <;> rfl

/-! ## One element without REP -/

/-- An element that leaves segments, IP and hidden state is, with the end of the instruction, a string instruction
done. -/
theorem SameFlow.stringDone {s u : State} (h : SameFlow s u) : StringDone s { u with run := .running } := by
  obtain ⟨hsegs, hip, hcontrol⟩ := h
  exact ⟨hsegs, hip, congrArg (fun c : Control => { c with run := .running }) hcontrol⟩

/-- A string instruction without REP is done with its element. -/
theorem exec_stringInstr_done {s : State} (h : s.rep = none) (op : StringOp) (w : Width) :
    let t := { stringOnce op w s with run := .running }
    exec (op.instr w) s = .next t ∧ StringDone s t :=
  ⟨exec_stringInstr_of_no_rep h op w, (stringOnce_sameFlow s op w).stringDone⟩

/-- Settles O47: the element of each primitive that moves data, and the end of the instruction. -/
theorem stringTransfers : Obligations.StringTransfers := by
  intro w s hrep
  obtain ⟨hmovs, hmovsDone⟩ := exec_stringInstr_done hrep .movs w
  obtain ⟨hlods, hlodsDone⟩ := exec_stringInstr_done hrep .lods w
  obtain ⟨hstos, hstosDone⟩ := exec_stringInstr_done hrep .stos w
  exact ⟨⟨_, hmovs, hmovsDone, movsOnce_spec s w⟩, ⟨_, hlods, hlodsDone, lodsOnce_spec s w⟩,
    ⟨_, hstos, hstosDone, stosOnce_spec s w⟩⟩

/-- Settles O48: the element of each primitive that compares, and the end of the instruction. -/
theorem stringComparisons : Obligations.StringComparisons := by
  intro w s hrep
  obtain ⟨hcmps, hcmpsDone⟩ := exec_stringInstr_done hrep .cmps w
  obtain ⟨hscas, hscasDone⟩ := exec_stringInstr_done hrep .scas w
  exact ⟨⟨_, _, hcmps, hcmpsDone, cmpsOnce_spec s w⟩, ⟨_, _, hscas, hscasDone, scasOnce_spec s w⟩⟩

/-! ## The repeat loop (R301) -/

theorem comparesZF_iff (op : StringOp) : comparesZF op = true ↔ op = .cmps ∨ op = .scas := by
  cases op <;> decide

/-- The loop's test for its last turn, in the words of R301. -/
theorem turnIsLast_iff (op : StringOp) (cx : Word) (zf z : Bool) :
    (cx = 1 ∨ (comparesZF op = true ∧ zf ≠ z)) ↔ (cx - 1 = 0 ∨ ((op = .cmps ∨ op = .scas) ∧ zf ≠ z)) := by
  rw [comparesZF_iff, sub_eq_zero]

/-- Settles O49: a turn by the rule of the loop, beside the element without REP; a later turn by the step of a
repeating processor. -/
theorem repeatedStrings : Obligations.RepeatedStrings := by
  refine fun op w s => ⟨fun z hz => ?_, fun hrun hreset => step_repeating s hreset hrun⟩
  obtain ⟨-, hloop⟩ := repeatString_spec s op w (stringOnce op w)
  obtain ⟨hzero, hturn⟩ := hloop z hz
  refine ⟨fun hcx => by rw [exec_stringInstr, hzero hcx], fun hcx => ?_⟩
  have hexec := exec_stringInstr s op w
  rw [hturn hcx] at hexec
  have hbare := exec_stringInstr_of_no_rep (s := { s with rep := none }) rfl op w
  rw [stringOnce_without_rep] at hbare
  obtain ⟨hsegs, hip, hcontrol⟩ := stringOnce_sameFlow s op w
  obtain ⟨hcount, hother⟩ := (stringOnce op w s).setReg16_spec .cx ((stringOnce op w s).reg16 .cx - 1)
  refine ⟨_, _, hexec, hbare, ?_, hother, rfl, rfl, hsegs, hip, ?_⟩
  · rw [← stringOnce_cx s op w]
    exact hcount
  · rw [← hcontrol]
    exact congrArg (fun r => { (stringOnce op w s).control with run := r })
      (if_congr (turnIsLast_iff op ((stringOnce op w s).reg16 .cx) (stringOnce op w s).flags.ZF z) rfl rfl)

end Sys2Proof.Machine
end

section
/-!
PROOF. Control transfer (O50 to O54) and IRET (O56): what the reads that find a target lead to, how a transfer leaves
for its target, and the stack traffic before it.
-/

namespace Sys2Proof.Machine

variable (s : State)

/-! ## The reads that find a target -/

/-- Only reads of operands, or nothing at all, lead from `s` to `u`: they are on the bus alone. -/
structure ReadsLeadTo (s u : State) : Prop where
  read : OnlyRead u s u
  quiet : Quiet s → Quiet u
  regs : u.regs = s.regs
  flags : u.flags = s.flags
  flow : SameFlow s u

theorem readsLeadTo_self : ReadsLeadTo s s := ⟨s.onlyRead_self, id, rfl, rfl, rfl, rfl, rfl⟩

theorem readsLeadTo_afterRM (w : Width) (rm : RM) : ReadsLeadTo s (s.afterRM w rm) :=
  ⟨s.onlyRead_afterRM w rm, fun h => h.afterRM w rm, by simp, by simp, by simp, by simp, by simp⟩

theorem readsLeadTo_afterPointer (m : Mem) : ReadsLeadTo s (s.afterPointer m) :=
  ⟨s.onlyRead_afterPointer m, fun h => (h.afterRead _ _ _).afterRead _ _ _, rfl, rfl, rfl, rfl, rfl⟩

/-- The bus sees the same of the processor where segments, IP and hidden state are the same. -/
theorem SameFlow.view {s u : State} (h : SameFlow s u) : u.view = s.view := by
  obtain ⟨hsegs, hip, hcontrol⟩ := h
  have hlocked : u.locked = s.locked := congrArg Control.locked hcontrol
  have hrun : u.run = s.run := congrArg Control.run hcontrol
  have hparams : u.params = s.params := congrArg Control.params hcontrol
  simp only [State.view, State.queueStart, State.fetching, hsegs, hip, hlocked, hrun, hparams]

theorem ReadsLeadTo.sameOperands {s u : State} (h : ReadsLeadTo s u) : SameOperands s u := by
  obtain ⟨hsegs, -, hcontrol⟩ := h.flow
  exact ⟨h.regs, hsegs, congrArg Control.segOverride hcontrol, h.flow.view⟩

/-! ## Leaving for a target (R320, R359) -/

theorem State.jumpFar_leftFor (sel off : Word) : LeftFor sel off s (s.jumpFar sel off) := rfl

theorem State.jump_leftFor (off : Word) : LeftFor s.segs.cs off s (s.jump off) := rfl

/-- When nothing comes from outside, leaving does not touch memory. -/
theorem readByte_leaving {s : State} (h : Still s) (a : Addr) : (leaving s).readByte a = s.readByte a := by
  rw [h.leaving]
  rfl

section Transfers

variable {s} {u t : State} {sel off : Word}

/-- A transfer after no more than reads changes CS and IP only. -/
theorem ReadsLeadTo.wentFar (h : ReadsLeadTo s u) (ht : LeftFor sel off u t) : WentFar sel off u s t := by
  obtain ⟨hread, hquiet, hregs, hflags, hsegs, -, hcontrol⟩ := h
  unfold LeftFor at ht
  subst ht
  refine ⟨rfl, by rw [hsegs], hregs, hflags, hcontrol, rfl, fun hq a => ?_⟩
  obtain ⟨-, hunchanged⟩ := hread
  obtain ⟨hsame, -⟩ := hunchanged hq
  exact (readByte_leaving (hquiet hq).toStill a).trans (hsame a)

/-- A transfer within the segment changes IP only. -/
theorem ReadsLeadTo.wentTo (h : ReadsLeadTo s u) (off : Word) : WentTo off u s (u.jump off) := by
  obtain ⟨hsegs, -, -⟩ := h.flow
  exact h.wentFar (hsegs ▸ u.jump_leftFor off)

end Transfers

/-- Settles O51: each form is a transfer after the reads of its operand, if it has one. -/
theorem jumps : Obligations.Jumps := by
  refine ⟨fun disp s => ?_, fun disp s => ?_, fun rm s => ?_, fun off sel s => ?_, fun m s => ?_⟩
  · exact ⟨_, rfl, (readsLeadTo_self s).wentTo (s.ip + disp)⟩
  · exact ⟨_, rfl, (readsLeadTo_self s).wentTo (s.ip + disp.signExtend 16)⟩
  · exact ⟨_, rfl, (readsLeadTo_afterRM s .word rm).wentTo _⟩
  · exact ⟨_, rfl, (readsLeadTo_self s).wentFar (s.jumpFar_leftFor sel off)⟩
  · exact ⟨_, rfl, (readsLeadTo_afterPointer s m).wentFar (State.jumpFar_leftFor _ _ _)⟩

/-! ## Conditional jumps and loops -/

/-- All a conditional jump does (R334). -/
theorem State.jumpIf_branched (c : Bool) (d : Byte) : Branched c d s (s.jumpIf c d) := by
  cases c with
  | true => exact (readsLeadTo_self s).wentTo (s.ip + d.signExtend 16)
  | false => exact rfl

theorem branches_of_exec {s u : State} {i : Instr} {c : Bool} {d : Byte} (h : exec i s = .next (u.jumpIf c d)) :
    ∃ t, exec i s = .next t ∧ Branched c d u t :=
  ⟨_, h, u.jumpIf_branched c d⟩

/-- Settles O53: each is the jump under its condition; that of JNBE is stated as the negation of that of JBE. -/
theorem conditionalJumps : Obligations.ConditionalJumps := by
  intro d s f
  have hnbe : exec (.jnbe d) s = .next (s.jumpIf (!(f.CF || f.ZF)) d) := by
    rw [Bool.not_or]
    rfl
  exact ⟨branches_of_exec rfl, branches_of_exec rfl, branches_of_exec rfl, branches_of_exec rfl, branches_of_exec rfl,
    branches_of_exec rfl, branches_of_exec rfl, branches_of_exec hnbe, branches_of_exec rfl, branches_of_exec rfl,
    branches_of_exec rfl, branches_of_exec rfl, branches_of_exec rfl, branches_of_exec rfl, branches_of_exec rfl,
    branches_of_exec rfl⟩

/-- The count left is not 0 where CX was not 1. -/
theorem State.countCx_ne_zero : (s.countCx.reg16 .cx != 0) = decide (s.reg16 .cx ≠ 1) := by
  have hcount : s.countCx.reg16 .cx = s.reg16 .cx - 1 := rfl
  rw [hcount, Bool.eq_iff_iff, bne_iff_ne, decide_eq_true_iff]
  exact not_congr sub_eq_zero

/-- Settles O54: the loops jump in the state in which CX has been counted down, JCXZ in the state as it was. -/
theorem loops : Obligations.Loops := by
  intro d s u
  have hcx := s.countCx_ne_zero
  refine ⟨branches_of_exec (u := u) ?_, branches_of_exec (u := u) ?_, branches_of_exec (u := u) ?_,
    branches_of_exec rfl⟩
  all_goals
    rw [← hcx]
    rfl

/-! ## CALL -/

section Calls

variable {s} {r : State}

/-- A call within the segment after the reads that find its target (R321, R322). -/
theorem ReadsLeadTo.call (h : ReadsLeadTo s r) (off : Word) :
    let u := r.push16 s.ip
    Pushed s.ip r s u ∧ SameFlow s u ∧ u.flags = s.flags ∧ LeftFor s.segs.cs off u (u.jump off) := by
  obtain ⟨hsegs, hip, hcontrol⟩ := h.flow
  refine ⟨.after h.read h.quiet h.sameOperands s.ip, ⟨hsegs, hip, hcontrol⟩, h.flags, ?_⟩
  rw [← hsegs]
  exact State.jump_leftFor _ off

/-- An intersegment call after the reads that find its target (R323, R324). -/
theorem ReadsLeadTo.callFar (h : ReadsLeadTo s r) (sel off : Word) :
    let u := r.pushFar
    PushedTwo s.segs.cs s.ip r s u ∧ SameFlow s u ∧ u.flags = s.flags ∧ LeftFor sel off u (u.jumpFar sel off) := by
  obtain ⟨hsegs, hip, hcontrol⟩ := h.flow
  have hpushed := PushedTwo.after h.read h.quiet h.sameOperands r.segs.cs r.ip
  refine ⟨?_, ⟨hsegs, hip, hcontrol⟩, h.flags, State.jumpFar_leftFor _ sel off⟩
  rw [← hsegs, ← hip]
  exact hpushed

end Calls

/-- Settles O50: each form is a call after the reads of its operand, if it has one. -/
theorem calls : Obligations.Calls := by
  refine ⟨fun disp s => ?_, fun rm s => ?_, fun off sel s => ?_, fun m s => ?_⟩
  · exact ⟨_, _, rfl, (readsLeadTo_self s).call (s.ip + disp)⟩
  · exact ⟨_, _, rfl, (readsLeadTo_afterRM s .word rm).call _⟩
  · exact ⟨_, _, rfl, (readsLeadTo_self s).callFar sel off⟩
  · exact ⟨_, _, rfl, (readsLeadTo_afterPointer s m).callFar _ _⟩

/-! ## RET and IRET -/

/-- The pops change the general registers and the bus only. -/
theorem afterPops_frame (k : Nat) : SameFlow s (afterPops s k) ∧ (afterPops s k).flags = s.flags := by
  induction k with
  | zero => exact ⟨⟨rfl, rfl, rfl⟩, rfl⟩
  | succ k ih => exact ih

/-- That the bus has only read says nothing of the registers. -/
theorem OnlyRead.congr_bus {s u t t' : State} (h : OnlyRead u s t) (hb : t'.bus = t.bus) : OnlyRead u s t' := by
  simpa only [OnlyRead, State.readByte, hb] using h

/-- SP raised once more after the pops (R331, R333). -/
theorem Popped.release {s u : State} {k : Nat} {n : Word} (h : Popped k n s u) (m : Word) :
    Popped k (n + m) s (u.release m) := by
  obtain ⟨hsp, hother, hread⟩ := h
  obtain ⟨hset, hkept⟩ := u.setReg16_spec .sp (u.reg16 .sp + m)
  refine ⟨?_, fun q hq => (hkept q hq).trans (hother q hq), hread.congr_bus rfl⟩
  rw [← BitVec.add_assoc, ← hsp]
  exact hset

/-- SP may as well be raised before the transfer as after it. -/
theorem State.release_jumpFar (sel off n : Word) :
    (s.jumpFar sel off).release n = (s.release n).jumpFar sel off := rfl

theorem State.release_jump (off n : Word) : (s.jump off).release n = (s.release n).jump off := rfl

/-- Settles O52: the pops, SP raised by the immediate, then the transfer. -/
theorem returns : Obligations.Returns := by
  have hpopped : ∀ s k, Popped k (BitVec.ofNat 16 (2 * k)) s (afterPops s k) := fun s k => (afterPops_spec s k).1
  refine ⟨fun s => ?_, fun n s => ?_, fun s => ?_, fun n s => ?_⟩
  · exact ⟨_, _, rfl, hpopped s 1, ⟨rfl, rfl, rfl⟩, rfl, State.jump_leftFor s.dropTop _⟩
  · have hexec : exec (.retImm n) s = .next ((s.dropTop.release n).jump s.top16) :=
      congrArg Host.Outcome.next (s.dropTop.release_jump s.top16 n)
    exact ⟨_, _, hexec, (hpopped s 1).release n, ⟨rfl, rfl, rfl⟩, rfl, State.jump_leftFor _ _⟩
  · exact ⟨_, _, rfl, hpopped s 2, ⟨rfl, rfl, rfl⟩, rfl, State.jumpFar_leftFor _ _ _⟩
  · have hexec : exec (.retfImm n) s = .next ((s.dropTop.dropTop.release n).jumpFar s.dropTop.top16 s.top16) :=
      congrArg Host.Outcome.next (s.dropTop.dropTop.release_jumpFar s.dropTop.top16 s.top16 n)
    exact ⟨_, _, hexec, (hpopped s 2).release n, ⟨rfl, rfl, rfl⟩, rfl, State.jumpFar_leftFor _ _ _⟩

/-- Settles O56: the three pops, the flags from the third word, then the transfer. -/
theorem interruptReturn : Obligations.InterruptReturn := by
  intro s
  obtain ⟨⟨hsp, hother, hread⟩, -⟩ := afterPops_spec s 3
  exact ⟨(afterPops s 3).setFlags (Flags.ofWord (stackWord s 2)), _, rfl, ⟨hsp, hother, hread.of_bus rfl⟩,
    ⟨rfl, rfl, rfl⟩, rfl, State.jumpFar_leftFor _ _ _⟩

end Sys2Proof.Machine
end

section
/-!
PROOF. Software interrupts (O55), and the IRET right after an entry (O57): in quiet the entry is one, its frame is
what the three pops read, and the pops bring SP back.
-/

namespace Sys2Proof.Machine

variable (s : State)

/-! ## Software interrupts -/

/-- Settles O55: each is the entry of its type with the next instruction's offset saved; INTO looks at OF first. -/
theorem softwareInterrupts : Obligations.SoftwareInterrupts := by
  intro ty s
  refine ⟨⟨_, rfl, s.interruptEntry_spec ty s.ip⟩, ⟨_, rfl, s.interruptEntry_spec 3 s.ip⟩, ⟨_, rfl, ?_⟩⟩
  cases hof : s.flags.OF with
  | true => exact s.interruptEntry_spec 4 s.ip
  | false => exact rfl

/-! ## An entry in quiet -/

section Quietly

variable {s}

theorem Quiet.afterVector (h : Quiet s) {a : Addr} (ha : a.toNat % 2 = 0) : Quiet (s.afterVector a) := by
  obtain ⟨-, hafter⟩ := h.vector ha
  rw [hafter]
  exact h.congr rfl rfl rfl rfl

/-- A state whose bus is that of a quiet state on leaving is quiet. -/
theorem Quiet.of_leaving {t : State} (h : Quiet s) (hb : t.bus = leaving s) (hp : t.params = s.params) : Quiet t := by
  rw [h.toStill.leaving] at hb
  exact h.congr (by rw [hb]) (by rw [hb]) (by rw [hb]) hp

theorem Quiet.enterOnce (h : Quiet s) (ty : Byte) (saved : Word) : Quiet (s.enterOnce ty saved) := by
  obtain ⟨-, -, hframe⟩ := s.pushFrame_spec saved
  obtain ⟨-, -, -, -, hpushed⟩ := hframe h
  have hip := hpushed.afterVector (a := vectorAddr ty) (by rw [vectorAddr_toNat]; omega)
  have hcs := hip.afterVector (a := vectorAddr ty + 2) (by rw [vectorAddr_two_toNat]; omega)
  exact hcs.of_leaving (s.enterOnce_bus ty saved) (by simp)

/-- Where no sample comes, no NMI is latched meanwhile. -/
theorem Still.enterOnce_nmiLatch (h : Still s) (hn : s.bus.nmiLatch = false) (ty : Byte) (saved : Word) :
    (s.enterOnce ty saved).bus.nmiLatch = false := by
  have hbudget := (s.enterOnce_later ty saved).budget
  rw [hn, h.env] at hbudget
  simpa using Nat.eq_zero_of_add_eq_zero_right (Nat.le_zero.mp hbudget)

/-- With no NMI latched or coming and TF clear, step 7 of R410 adds nothing. -/
theorem Still.interruptEntry (h : Still s) (hn : s.bus.nmiLatch = false) (ht : s.flags.TF = false) (ty : Byte)
    (saved : Word) : s.interruptEntry ty saved = s.enterOnce ty saved := by
  have hlatch := h.enterOnce_nmiLatch hn ty saved
  simp only [State.interruptEntry, State.entryBound, State.enterWithin, hlatch, ht, Bool.false_eq_true, if_false]

/-! ## A return in quiet -/

/-- A word popped is the word held there before the pops. -/
theorem stackWord_eq_heldAt (h : Quiet s) (k : Nat) :
    stackWord s k = heldAt s .word s.segs.ss (s.reg16 .sp + BitVec.ofNat 16 (2 * k)) := by
  obtain ⟨⟨hsp, -, hread⟩, hquiet⟩ := afterPops_spec s k
  obtain ⟨⟨hsegs, -, -⟩, -⟩ := afterPops_frame s k
  obtain ⟨hsame, -⟩ := hread.2 h
  obtain ⟨hword, -⟩ := (hquiet h).read .word .ss ((afterPops s k).reg16 .sp)
  have hss : (afterPops s k).sreg .ss = s.segs.ss := congrArg SegRegs.ss hsegs
  calc stackWord s k
      = heldAt (afterPops s k) .word ((afterPops s k).sreg .ss) ((afterPops s k).reg16 .sp) := hword
    _ = heldAt (afterPops s k) .word s.segs.ss (s.reg16 .sp + BitVec.ofNat 16 (2 * k)) := by rw [hss, hsp]
    _ = heldAt s .word s.segs.ss (s.reg16 .sp + BitVec.ofNat 16 (2 * k)) := heldAt_congr (hsame _) (hsame _)

/-- An interrupt return leaves memory alone. -/
theorem Quiet.readByte_interruptReturn (h : Quiet s) (a : Addr) : s.interruptReturn.readByte a = s.readByte a := by
  obtain ⟨⟨-, -, hread⟩, hquiet⟩ := afterPops_spec s 3
  obtain ⟨-, -, -, -, hbus⟩ := s.interruptReturn_spec
  obtain ⟨hsame, -⟩ := hread.2 h
  calc s.interruptReturn.readByte a
      = (leaving (afterPops s 3)).readByte a := congrArg (fun b : Bus => b.readByte a) hbus
    _ = (afterPops s 3).readByte a := readByte_leaving (hquiet h).toStill a
    _ = s.readByte a := hsame a

/-- An interrupt return raises SP by 6 and leaves the other general registers. -/
theorem State.interruptReturn_reg16 (s : State) :
    s.interruptReturn.reg16 .sp = s.reg16 .sp + 6 ∧ OtherReg16 .sp s s.interruptReturn := by
  obtain ⟨⟨hsp, hother, -⟩, -⟩ := afterPops_spec s 3
  exact ⟨hsp, hother⟩

end Quietly

/-! ## The return right after the entry -/

/-- States that agree in each 16-bit register agree in the general registers. -/
theorem State.regs_eq_of_reg16 {s t : State} (h : ∀ q, t.reg16 q = s.reg16 q) : t.regs = s.regs := by
  have heq : ∀ {g k : Regs}, (∀ q, g.get q = k.get q) → g = k := fun {g k} e => by
    cases g
    cases k
    simp only [Regs.mk.injEq]
    exact ⟨e .ax, e .cx, e .dx, e .bx, e .sp, e .bp, e .si, e .di⟩
  exact heq h

/-- In quiet the return finds the frame of the entry: IP, CS and FLAGS as they were pushed, and SP where it was. -/
theorem Quiet.interruptReturn_enterOnce {s : State} (h : Quiet s) (ty : Byte) :
    let t := (s.enterOnce ty s.ip).interruptReturn
    t.ip = s.ip ∧ t.segs = s.segs ∧ t.regs = s.regs ∧ t.flags = s.flags ∧
      ∀ a, a ∉ frameAddrs s → t.readByte a = s.readByte a := by
  obtain ⟨⟨hsp, hother⟩, -, ⟨hes, hss, hds⟩, -, -, -, hframe⟩ := s.enterOnce_spec ty s.ip
  obtain ⟨⟨hflags, hcs, hip, hrest⟩, -⟩ := hframe h
  have hm : Quiet (s.enterOnce ty s.ip) := h.enterOnce ty s.ip
  generalize s.enterOnce ty s.ip = m at *
  obtain ⟨tip, tsegs, tflags, -, -⟩ := m.interruptReturn_spec
  obtain ⟨tsp, tother⟩ := m.interruptReturn_reg16
  have hword : ∀ k o, s.reg16 .sp - 6 + BitVec.ofNat 16 (2 * k) = o → stackWord m k = heldAt m .word s.segs.ss o :=
    fun k o e => by rw [stackWord_eq_heldAt hm k, hss, hsp, e]
  have w0 : stackWord m 0 = s.ip := (hword 0 _ (by bv_omega)).trans hip
  have w1 : stackWord m 1 = s.segs.cs := (hword 1 _ (by bv_omega)).trans hcs
  have w2 : stackWord m 2 = s.flagsWord := (hword 2 _ (by bv_omega)).trans hflags
  refine ⟨tip.trans w0, ?_, State.regs_eq_of_reg16 fun q => ?_, ?_, fun a ha => ?_⟩
  · simp only [tsegs, w1, hes, hss, hds]
  · by_cases hq : q = .sp
    · subst hq
      rw [tsp, hsp]
      bv_omega
    · exact (tother q hq).trans (hother q hq)
  · rw [tflags, w2]
    exact s.flags.ofWord_toWord s.params.flagsX
  · exact (hm.readByte_interruptReturn a).trans (hrest a ha)

/-- Settles O57: in quiet, with no NMI latched and TF clear, the entry is one, and the return undoes it. -/
theorem returnUndoesEntry : Obligations.ReturnUndoesEntry := by
  intro ty s hq hn ht
  have hentry : exec (.intType ty) s = .next (s.enterOnce ty s.ip) :=
    congrArg _ (hq.toStill.interruptEntry hn ht ty s.ip)
  exact ⟨_, _, hentry, rfl, hq.interruptReturn_enterOnce ty⟩

end Sys2Proof.Machine
end

section
/-!
PROOF. What a halted and a waiting processor do in a step (O59), and the processor control instructions (O60): the end
of such a step by what there is to recognise, the halt cycle issued again, and the extra fetch of the WAIT.
-/

namespace Sys2Proof.Machine

variable (s : State)

/-! ## The end of a step that executes nothing -/

section Recognised

variable {s}

/-- With RESET LOW, what is recognised stands unless RESET comes meanwhile (R450). -/
theorem State.recogniseUnlessReset_of_recognise {t : State} (h : s.recognise = t) (hr : s.bus.pins.reset = false) :
    s.recogniseUnlessReset = t.settle := by
  simp only [State.recogniseUnlessReset, hr, h, Bool.false_eq_true, if_false]

/-- With nothing to recognise, only TF is no longer noted. -/
theorem State.recogniseUnlessReset_idle (hr : s.bus.pins.reset = false) (hi : s.inhibit = false)
    (hn : s.bus.nmiLatch = false) (h : s.flags.IF = false ∨ s.bus.pins.intr = none) :
    ({ s with trap := false } : State).recogniseUnlessReset = { s with trap := false } := by
  have hidle : ({ s with trap := false } : State).recognise = { s with trap := false } :=
    State.recognise_trap { s with trap := false } hi hn h
  exact (State.recogniseUnlessReset_of_recognise hidle hr).trans ((State.settle_spec _).2 hr)

/-- TF noted is taken as single-step where there is nothing else (R413). -/
theorem State.recogniseUnlessReset_singleStep (hr : s.bus.pins.reset = false) (hi : s.inhibit = false)
    (hn : s.bus.nmiLatch = false) (h : s.flags.IF = false ∨ s.bus.pins.intr = none) :
    ∃ t, SingleStepTaken s.savedIp (interruptedAt s) t ∧
      ({ s with trap := true } : State).recogniseUnlessReset = t.settle := by
  have htaken : ({ s with trap := true } : State).recognise =
      ({ interruptedAt s with trap := true } : State).singleStepEntry s.savedIp := by
    rw [← interruptedAt_trap]
    exact State.recognise_trap { s with trap := true } hi hn h
  exact ⟨_, SingleStepTaken.of_trap (State.singleStepEntry_spec _ _),
    State.recogniseUnlessReset_of_recognise htaken hr⟩

/-- A latched NMI is taken, whatever TF is noted (R405, R413). -/
theorem State.recogniseUnlessReset_nmi (hr : s.bus.pins.reset = false) (hi : s.inhibit = false)
    (hn : s.bus.nmiLatch = true) (b : Bool) :
    ∃ t, InterruptSequence 2 s.savedIp (interruptedAt { s with bus := { s.bus with nmiLatch := false } }) t ∧
      ({ s with trap := b } : State).recogniseUnlessReset = t.settle := by
  have htaken : ({ s with trap := b } : State).recognise =
      ({ interruptedAt s.takeNmi with trap := b } : State).interruptEntry 2 s.savedIp := by
    rw [← interruptedAt_trap]
    exact State.recognise_nmi { s with trap := b } hi hn
  exact ⟨_, InterruptSequence.of_trap (State.interruptEntry_spec _ _ _),
    State.recogniseUnlessReset_of_recognise htaken hr⟩

/-- INTR with IF = 1 is taken after its acknowledge cycles, whatever TF is noted (R408, R409, R413). -/
theorem State.recogniseUnlessReset_intr (hr : s.bus.pins.reset = false) (hi : s.inhibit = false)
    (hn : s.bus.nmiLatch = false) (hf : s.flags.IF = true) {ty : Byte} (ht : s.bus.pins.intr = some ty) (b : Bool) :
    ∃ t, InterruptSequence ty s.savedIp ((interruptedAt s).acknowledge ty) t ∧
      ({ s with trap := b } : State).recogniseUnlessReset = t.settle := by
  have htaken : ({ s with trap := b } : State).recognise =
      ({ (interruptedAt s).acknowledge ty with trap := b } : State).interruptEntry ty s.savedIp := by
    rw [State.recognise_intr { s with trap := b } hi hn hf ht, interruptedAt_trap]
    rfl
  exact ⟨_, InterruptSequence.of_trap (State.interruptEntry_spec _ _ _),
    State.recogniseUnlessReset_of_recognise htaken hr⟩

/-! ## Halted and waiting -/

/-- What a halted processor begins an interrupt with: nothing but its prefixes end. -/
theorem interruptedAt_of_halted (hrun : s.run = .halted) : interruptedAt s = unprefixed s := by
  simp only [interruptedAt, hrun]

/-- Only a repeated string instruction saves anything but IP (R414). -/
theorem State.savedIp_of_halted (hrun : s.run = .halted) : s.savedIp = s.ip := by
  simp only [State.savedIp, hrun]

theorem State.savedIp_of_waiting {next : Word} (hrun : s.run = .waiting next) : s.savedIp = s.ip := by
  simp only [State.savedIp, hrun]

/-- One extra fetch, when nothing comes from outside: one cycle, and the byte is not queued (R388). -/
theorem Still.refetched_one (h : Still s) : refetched s 1 = { s.bus.found s.view (.mem (s.codeAddr 0)) with
    log := .fetch (s.codeAddr 0) (.byte (s.bus.find s.view (.mem (s.codeAddr 0)))) :: s.bus.log } := by
  have hreset : ¬s.bus.pins.reset = true := by simp [h.reset]
  simp only [refetched, h.calm.start, hreset]
  rfl

/-- Interrupted behind a WAIT of one byte, the processor fetches that byte once more (R388). -/
theorem Still.interruptedAt_waiting (h : Still s) (hrun : s.run = .waiting (s.ip + 1)) :
    let p := unprefixed s
    interruptedAt s = { p with bus := { p.bus.found p.view (.mem (s.codeAddr 0)) with
      log := .fetch (s.codeAddr 0) (.byte (p.bus.find p.view (.mem (s.codeAddr 0)))) :: s.bus.log } } := by
  have hlen : (s.ip + 1 - s.ip).toNat = 1 := by bv_omega
  have hstill : Still (unprefixed s) := ⟨h.env, h.requests, h.reset⟩
  simp only [interruptedAt, hrun, hlen, hstill.refetched_one]
  rfl

end Recognised

/-- A halted processor after the sampling point of its step: the halt cycle is issued again where the local
bus has been given away (R387, R431). -/
def haltedAfterTick : State :=
  if givesBusAway s then { s.tick with bus := { s.tick.bus with log := .halt :: s.tick.bus.log } } else s.tick

/-- All that can differ there from the state after the tick is the record. -/
theorem haltedAfterTick_eq : ∃ l, haltedAfterTick s = { s.tick with bus := { s.tick.bus with log := l } } := by
  unfold haltedAfterTick
  split <;> exact ⟨_, rfl⟩

theorem State.reissueHalt_tick (hr : s.tick.bus.pins.reset = false) (hrun : s.run = .halted) :
    s.tick.reissueHalt s.bus.sample.requests = haltedAfterTick s := by
  rw [State.reissueHalt_spec, State.tick_run, hrun, hr]
  simp only [true_and, and_true]
  rfl

/-- The step of a halted processor. -/
theorem step_halted_spec (hr : s.tick.bus.pins.reset = false) (hi : s.inhibit = false) (hrun : s.run = .halted) :
    let u := s.tick
    let h := haltedAfterTick s
    (u.bus.nmiLatch = false → s.flags.IF = false ∨ u.bus.pins.intr = none →
      step s = .next { h with trap := false }) ∧
    (u.bus.nmiLatch = true →
      ∃ t, InterruptSequence 2 s.ip { unprefixed h with bus := { h.bus with nmiLatch := false } } t ∧
        step s = .next t.settle) ∧
    ∀ ty, u.bus.nmiLatch = false → s.flags.IF = true → u.bus.pins.intr = some ty →
      ∃ t, InterruptSequence ty s.ip ((unprefixed h).acknowledge ty) t ∧ step s = .next t.settle := by
  intro u h
  have hstep : step s = .next ({ h with trap := false } : State).recogniseUnlessReset := by
    rw [step_halted s hr hrun, s.reissueHalt_tick hr hrun]
  obtain ⟨l, hl⟩ : ∃ l, h = { u with bus := { u.bus with log := l } } := haltedAfterTick_eq s
  have hhrun : h.run = .halted := by rw [hl]; exact hrun
  have hip : h.savedIp = s.ip := by rw [State.savedIp_of_halted hhrun, hl]; rfl
  have hhr : h.bus.pins.reset = false := by rw [hl]; exact hr
  have hhi : h.inhibit = false := by rw [hl]; exact hi
  have hlatch : h.bus.nmiLatch = u.bus.nmiLatch := by rw [hl]
  have hflags : h.flags = s.flags := by rw [hl]; rfl
  have hpins : h.bus.pins = u.bus.pins := by rw [hl]
  rw [hstep, ← hlatch, ← hflags, ← hpins, ← hip]
  refine ⟨fun hn hq => ?_, fun hn => ?_, fun ty hn hf ht => ?_⟩
  · rw [State.recogniseUnlessReset_idle hhr hhi hn hq]
  · obtain ⟨t, hseq, ht⟩ := State.recogniseUnlessReset_nmi hhr hhi hn false
    rw [interruptedAt_of_halted (s := { h with bus := { h.bus with nmiLatch := false } }) hhrun] at hseq
    exact ⟨t, hseq, congrArg _ ht⟩
  · obtain ⟨t, hseq, ht⟩ := State.recogniseUnlessReset_intr hhr hhi hn hf ht false
    rw [interruptedAt_of_halted hhrun] at hseq
    exact ⟨t, hseq, congrArg _ ht⟩

/-- The step of a waiting processor with TEST HIGH. -/
theorem step_waiting_high_spec {next : Word} (hr : s.tick.bus.pins.reset = false) (hi : s.inhibit = false)
    (hrun : s.run = .waiting next) (htest : s.tick.bus.pins.testHigh = true) :
    let u := s.tick
    (u.bus.nmiLatch = false → s.flags.IF = false ∨ u.bus.pins.intr = none → s.flags.TF = false →
      step s = .next { u with trap := false }) ∧
    (u.bus.nmiLatch = false → s.flags.IF = false ∨ u.bus.pins.intr = none → s.flags.TF = true →
      ∃ t, SingleStepTaken s.ip (interruptedAt u) t ∧ step s = .next t.settle) ∧
    (u.bus.nmiLatch = true →
      ∃ t, InterruptSequence 2 s.ip (interruptedAt { u with bus := { u.bus with nmiLatch := false } }) t ∧
        step s = .next t.settle) ∧
    ∀ ty, u.bus.nmiLatch = false → s.flags.IF = true → u.bus.pins.intr = some ty →
      ∃ t, InterruptSequence ty s.ip ((interruptedAt u).acknowledge ty) t ∧ step s = .next t.settle := by
  intro u
  have hstep : step s = .next ({ u with trap := s.flags.TF } : State).recogniseUnlessReset := by
    rw [step_waiting s hr hrun, if_pos htest]
  have hip : u.savedIp = s.ip := State.savedIp_of_waiting (s := u) hrun
  rw [hstep, ← hip]
  refine ⟨fun hn hq hf => ?_, fun hn hq hf => ?_, fun hn => ?_, fun ty hn hf ht => ?_⟩
  · rw [hf, State.recogniseUnlessReset_idle hr hi hn hq]
  · obtain ⟨t, hseq, ht⟩ := State.recogniseUnlessReset_singleStep hr hi hn hq
    rw [hf]
    exact ⟨t, hseq, congrArg _ ht⟩
  · obtain ⟨t, hseq, ht⟩ := State.recogniseUnlessReset_nmi hr hi hn s.flags.TF
    exact ⟨t, hseq, congrArg _ ht⟩
  · obtain ⟨t, hseq, ht⟩ := State.recogniseUnlessReset_intr hr hi hn hf ht s.flags.TF
    exact ⟨t, hseq, congrArg _ ht⟩

/-- Settles O59: the extra fetch, the halted step, and the waiting step by the level of TEST. -/
theorem haltedAndWaiting : Obligations.HaltedAndWaiting := by
  refine ⟨fun s h hrun => h.interruptedAt_waiting hrun, fun s => ?_⟩
  intro u settled undisturbed entered hr hi
  refine ⟨fun hrun => ?_, fun next hrun => ⟨fun htest => ?_, fun htest => ?_⟩⟩
  · obtain ⟨hidle, hnmi, hintr⟩ := step_halted_spec s hr hi hrun
    exact ⟨fun ⟨hn, hq⟩ => hidle hn hq, hnmi, hintr⟩
  · obtain ⟨hidle, hsingle, hnmi, hintr⟩ := step_waiting_high_spec s hr hi hrun htest
    exact ⟨fun ⟨hn, hq⟩ => hidle hn hq, fun ⟨hn, hq⟩ => hsingle hn hq, hnmi, hintr⟩
  · have hlow : ¬s.tick.bus.pins.testHigh = true := by rw [htest]; decide
    rw [step_waiting s hr hrun, if_neg hlow]

/-! ## Processor control -/

/-- When nothing comes from outside, the halt cycle is recorded and nothing else happens (R387). -/
theorem Bus.Calm.haltCycle {b : Bus} (h : b.Calm) (v : View) : b.haltCycle v = { b with log := .halt :: b.log } := by
  rw [Bus.haltCycle, h.start, h.record]

/-- WAIT goes on with TEST LOW and otherwise waits with IP at the WAIT (R388). -/
theorem exec_wait : exec .wait s =
    .next (if s.bus.pins.testHigh then { s with run := .waiting s.ip, ip := s.ipStart } else s) := by
  show execWait s = _
  unfold execWait
  split <;> rfl

/-- ESC only reads its operand (R392). -/
theorem exec_esc (hi lo : RegNum) (rm : RM) : ∃ t, exec (.esc hi lo rm) s = .next t ∧ SameFlow s t ∧
    t.flags = s.flags ∧ Untouched (s.afterRM .word rm) s t := by
  obtain ⟨hread, -, hregs, hflags, hflow⟩ := readsLeadTo_afterRM s .word rm
  exact ⟨_, rfl, hflow, hflags, hregs, hread⟩

/-- HLT halts and issues its halt cycle (R387). -/
theorem exec_hlt : exec .hlt s = .next { s with run := .halted, bus := s.bus.haltCycle s.view } := rfl

/-- Settles O60: each instruction by its meaning, which for all but WAIT and ESC is one update of the state. -/
theorem processorControl : Obligations.ProcessorControl := by
  refine ⟨by and_intros <;> exact decode_of_encode_append rfl rfl, fun s => ?_⟩
  refine ⟨⟨rfl, rfl, rfl, rfl, rfl, rfl, rfl⟩, ⟨_, exec_hlt s, rfl, rfl, fun h => h.calm.haltCycle s.view⟩,
    exec_wait s, exec_esc s, rfl, fun _ => rfl, fun _ => rfl⟩

end Sys2Proof.Machine
end

section
/-!
PROOF. RESET: the entry point after it (O1), its two levels (O4), and its effect on what is in progress (O5).
-/

namespace Sys2Proof.Machine

/-! ## The entry point and the pulse -/

/-- With CS FFFFH and IP 0 the first code byte is at physical FFFF0H (R63, R452). -/
theorem State.codeAddr_of_entryPoint {s : State} (hcs : s.segs.cs = 0xFFFF) (hip : s.ip = 0x0000) :
    s.codeAddr 0 = 0xFFFF0 := by
  rw [State.codeAddr, hcs, hip]
  decide

/-- Settles O1: `State.reset` and the reset sequence set CS and IP to the same values. -/
theorem resetEntryPoint : Obligations.ResetEntryPoint := by
  refine ⟨rfl, rfl, State.codeAddr_of_entryPoint rfl rfl, fun s => ?_⟩
  obtain ⟨hsegs, hip, -⟩ := s.resetSequence_spec
  have hcs : s.resetSequence.segs.cs = 0xFFFF := congrArg SegRegs.cs hsegs
  exact ⟨hcs, hip, State.codeAddr_of_entryPoint hcs hip⟩

/-- Settles O4: the HIGH level is the first branch of a step, the edge to LOW the reset sequence. -/
theorem resetPulse : Obligations.ResetPulse := by
  intro s u
  refine ⟨step_reset s, fun hlow hrun => ⟨_, step_inReset s hlow hrun, ?_⟩⟩
  obtain ⟨hsegs, hip, hflags, hbus, hcontrol⟩ := u.resetSequence_spec
  exact ⟨congrArg Control.run hcontrol, hsegs, hip, hflags, congrArg Control.inhibit hcontrol,
    congrArg Control.locked hcontrol, congrArg Control.segOverride hcontrol, congrArg Control.rep hcontrol,
    congrArg Control.trap hcontrol, hbus⟩

/-! ## The end of a step in which RESET comes -/

/-- Where RESET is HIGH after the end of a step, the processor is in reset (R450). -/
theorem State.settle_of_reset (s : State) (h : s.settle.bus.pins.reset = true) : s.settle = intoReset s.settle := by
  obtain ⟨hhigh, hlow⟩ := s.settle_spec
  cases hr : s.bus.pins.reset with
  | true => rw [hhigh hr]; rfl
  | false =>
    rw [hlow hr] at h
    exact absurd (hr.symm.trans h) (by decide)

/-- A step that ends with RESET HIGH ends in reset: it ends by settling, or RESET was seen before anything ran; the
reset sequence and a `prefixByte` leave RESET as it was, LOW. -/
theorem Stepped.intoReset_of_reset {s t : State} (h : Stepped s t) (hr : t.bus.pins.reset = true) :
    t = intoReset t := by
  cases h with
  | reset | fetchReset => rfl
  | halted | waits | endsWait | element | instruction => exact State.settle_of_reset _ hr
  | resetSequence hlow => exact absurd (hlow.symm.trans hr) (by decide)
  | prefixByte _ hlow _ hp hu =>
    obtain ⟨hbus, -⟩ := exec_prefixByte hu hp
    rw [hbus] at hr
    exact absurd (hlow.symm.trans hr) (by decide)

/-! ## A bus with RESET HIGH -/

section Dormant

variable {b c d : Bus}

theorem Bus.start_of_reset (h : b.pins.reset = true) (v : View) : b.start v = b := by
  simp only [Bus.start, h, if_true]

theorem Bus.between_of_reset (h : b.pins.reset = true) (v : View) : b.between v = b := by
  simp only [Bus.between, h, if_true]

theorem Bus.record_of_reset (h : b.pins.reset = true) (x : BusCycle) : b.record x = b := by
  simp only [Bus.record, h, if_true]

theorem Bus.taken_of_reset (h : b.pins.reset = true) (v : View) (l : Location) :
    b.taken v l = { b with draws := b.draws + 1 } := by
  simp only [Bus.taken, h, if_true]

/-- Once RESET has come a store finds nothing out of the queue: no instruction is fetched any more (R451). -/
theorem Bus.storeByte_of_reset (h : b.pins.reset = true) (v : View) (a : Addr) (x : Byte) :
    b.storeByte v a x = { b with mem := b.mem.write a.toNat x } := by
  simp [Bus.storeByte, Bus.noteStore, h]

/-- Once RESET has come a read changes nothing but the count of free values (R451). -/
theorem Bus.afterRead_of_reset (h : b.pins.reset = true) (v : View) (w : Width) (x : Access) :
    b.afterRead v w x = { b with draws := (b.afterRead v w x).draws } := by
  have hdrawn : ∀ n, ({ b with draws := n } : Bus).pins.reset = true := fun _ => h
  have hlow : b.takenLow v x = { b with draws := b.draws + 1 } := by
    simp only [Bus.takenLow, b.taken_of_reset h, Bus.record_of_reset (hdrawn _), Bus.between_of_reset (hdrawn _),
      ite_self]
  cases w with
  | byte => simp only [Bus.afterRead, b.start_of_reset h, b.taken_of_reset h, Bus.record_of_reset (hdrawn _)]
  | word =>
    simp only [Bus.afterRead, b.start_of_reset h, hlow, Bus.taken_of_reset (hdrawn _), Bus.record_of_reset (hdrawn _)]

/-- From `b` to `c` nothing has changed but the count of free values and bytes of memory at the locations `l`. -/
structure Bus.Spoils (l : List Location) (b c : Bus) : Prop where
  rest : c = { b with mem := c.mem, draws := c.draws }
  other : ∀ a, .mem a ∉ l → c.readByte a = b.readByte a

theorem Bus.Spoils.reset {l : List Location} (h : Bus.Spoils l b c) (hb : b.pins.reset = true) :
    c.pins.reset = true := by
  rw [h.rest]
  exact hb

theorem Bus.Spoils.log {l : List Location} (h : Bus.Spoils l b c) : c.log = b.log := by
  rw [h.rest]

theorem Bus.Spoils.trans {l m : List Location} (h : Bus.Spoils l b c) (k : Bus.Spoils m c d) :
    Bus.Spoils (l ++ m) b d := by
  refine ⟨by rw [k.rest, h.rest], fun a ha => ?_⟩
  rw [List.mem_append, not_or] at ha
  exact (k.other a ha.2).trans (h.other a ha.1)

/-- What the processor still had to write at a location is any value (R456, U17). -/
theorem Bus.give_of_reset (h : b.pins.reset = true) (v : View) (l : Location) (x : Byte) :
    Bus.Spoils [l] b (b.give v l x) := by
  simp only [Bus.give, h, if_true]
  cases l with
  | port p => exact ⟨rfl, fun _ _ => rfl⟩
  | mem a =>
    simp only [Bus.put]
    split
    · rw [Bus.storeByte_of_reset (b := { b with draws := b.draws + 1 }) h]
      refine ⟨rfl, fun c hc => Memory.read_write_other _ _ fun e => hc ?_⟩
      rw [BitVec.eq_of_toNat_eq e]
      exact List.mem_singleton_self _
    all_goals exact ⟨rfl, fun _ _ => rfl⟩

/-- Once RESET has come a write changes nothing but the count of free values and the bytes it names (R456, U17). -/
theorem Bus.write_of_reset (h : b.pins.reset = true) (v : View) (w : Width) (x : Access) (u : Operand w) :
    Bus.Spoils (match w with | .byte => [x.lo] | .word => [x.lo, x.hi]) b (b.write v w x u) := by
  cases w with
  | byte =>
    have hlow := Bus.give_of_reset h v x.lo u
    simpa only [Bus.write, b.start_of_reset h, Bus.record_of_reset (hlow.reset h)] using hlow
  | word =>
    have hlow := Bus.give_of_reset h v x.lo (lowByte u)
    have hboth : Bus.Spoils [x.lo, x.hi] b _ := hlow.trans (Bus.give_of_reset (hlow.reset h) v x.hi (highByte u))
    simpa only [Bus.write, b.start_of_reset h, Bus.record_of_reset (hlow.reset h), Bus.between_of_reset (hlow.reset h),
      Bus.record_of_reset (hboth.reset h), ite_self] using hboth

end Dormant

/-! ## A word at an odd address, cut between its two cycles -/

section Cut

variable {b : Bus} {v : View} {x y : Sample} {rest : List Sample}

/-- A sample with which nobody asks for the bus: nothing comes before the cycle it opens, locked or not. -/
theorem Bus.start_sampled_unasked (hr : b.pins.reset = false) (he : b.env = x :: rest) (hf : x.fetch = none)
    (hm : v.params.map = []) (hq : b.requests = Requests.none) (hx : x.requests = Requests.none) :
    Bus.Sampled x [] [] Requests.none rest b (b.start v) := by
  cases hl : v.locked with
  | true => simpa [hq, hx, Requests.none_append] using Bus.start_sampled_locked hr he hf hl
  | false => simpa [asked, hx, Requests.none] using Bus.start_sampled hr he hf hl hm hq

/-- The same between the two cycles of an access. -/
theorem Bus.between_sampled_unasked (hr : b.pins.reset = false) (he : b.env = x :: rest) (hm : v.params.map = [])
    (hq : b.requests = Requests.none) (hx : x.requests = Requests.none) :
    Bus.Sampled x [] [] Requests.none rest b (b.between v) := by
  cases hl : v.locked with
  | true =>
    rw [Bus.between, if_neg (by simp [hr]), (b.sample.grantSystem_spec v).1 hl]
    simpa [hq, hx, Requests.none_append] using b.sample_sampled he
  | false => simpa [hx, Requests.none] using Bus.between_sampled hr he hl hm hq

/-- A write of one byte uses up no sample. -/
theorem Bus.put_env (b : Bus) (v : View) (l : Location) (u : Byte) : (b.put v l u).env = b.env := by
  cases l with
  | port p => rfl
  | mem a =>
    simp only [Bus.put]
    split
    · rw [(b.storeByte_stored v a u).rest]
    all_goals rfl

/-- After a byte written the pins are still those of the sample it began with, and no further one is used up. -/
theorem Bus.Sampled.write_byte_frame {l : List MasterCycle} {r : Requests}
    (h : Bus.Sampled x l [] r rest b (b.start v)) (hx : x.pins.reset = false) (seg : Option SReg) (a : Addr)
    (hi : Location) (u : Byte) :
    let c := b.write v .byte ⟨seg, .mem a, hi⟩ u
    c.pins = x.pins ∧ c.env = rest := by
  obtain ⟨hpins, -⟩ := (b.start v).put_frame v a u
  rw [Bus.write_byte (h.low hx)]
  exact ⟨hpins.trans h.pins, (Bus.put_env _ v _ u).trans h.env⟩

/-- A word at an odd address is written low byte first; then the outside world comes in, then the high byte is
written (R68, R71). -/
theorem Bus.write_word_odd (b : Bus) (v : View) (seg : Option SReg) {lo : Addr} (hi : Addr)
    (ho : lo.toNat % 2 = 1) (u : Word) :
    let at_ : Access := ⟨seg, .mem lo, .mem hi⟩
    b.write v .word at_ u = (((b.write v .byte at_ (lowByte u)).between v).give v (.mem hi) (highByte u)).record
      (.write seg (.mem hi) (.byte (highByte u))) :=
  if_pos ((getLsbD_zero_iff lo).mpr ho)

/-- RESET that comes between the two cycles: the low byte is stored and its cycle recorded, the high byte is any value
(R450, R456, U17). -/
theorem Bus.write_word_cut (hr : b.pins.reset = false) (hq : b.requests = Requests.none) (hm : v.params.map = [])
    (he : b.env = [x, y]) (hx : x.requests = Requests.none) (hy : y.requests = Requests.none) (hf : x.fetch = none)
    (hlow : x.pins.reset = false) (hhigh : y.pins.reset = true) (seg : Option SReg) {lo hi : Addr} (hne : hi ≠ lo)
    (ho : lo.toNat % 2 = 1) (u : Word) :
    let c := b.write v .word ⟨seg, .mem lo, .mem hi⟩ u
    c.pins.reset = true ∧ c.readByte lo = lowByte u ∧ (∀ a, a ≠ lo → a ≠ hi → c.readByte a = b.readByte a) ∧
      withoutFetches c.log = .write seg (.mem lo) (.byte (lowByte u)) :: withoutFetches b.log := by
  intro c
  have hc : c = _ := b.write_word_odd v seg hi ho u
  have hstart := Bus.start_sampled_unasked hr he hf hm hq hx
  obtain ⟨hsame, hother, hreq, hlog⟩ := hstart.write_byte hlow hm seg lo (.mem hi) (lowByte u)
  obtain ⟨hpins, henv⟩ := hstart.write_byte_frame hlow seg lo (.mem hi) (lowByte u)
  clear_value c
  generalize b.write v .byte _ (lowByte u) = low at hc hsame hother hreq hlog hpins henv
  have hmid := Bus.between_sampled_unasked (by rw [hpins, hlow]) henv hm hreq hy
  have hreset : (low.between v).pins.reset = true := by rw [hmid.pins, hhigh]
  have hspoils := Bus.give_of_reset hreset v (.mem hi) (highByte u)
  rw [Bus.record_of_reset (hspoils.reset hreset)] at hc
  rw [← hc] at hspoils
  have hread : ∀ a, a ≠ hi → c.readByte a = low.readByte a := fun a ha =>
    (hspoils.other a (by simpa using ha)).trans (hmid.readByte a)
  refine ⟨hspoils.reset hreset, (hread lo hne.symm).trans hsame,
    fun a hlo hhi => (hread a hhi).trans (hother a hlo), ?_⟩
  rw [hspoils.log, hmid.log, hlog]
  rfl

end Cut

/-- What MOV of AX to memory does to the bus (R154). -/
theorem exec_mov_mem_ax (s : State) (off : Word) :
    ∃ t, exec (.movMemAcc .word off) s = .next t ∧
      t.bus = s.bus.write s.view .word (s.operandAt (s.segOverride.getD .ds) off) (s.reg16 .ax) :=
  ⟨_, rfl, rfl⟩

/-- Settles O5: what a step can end with, the bus with RESET HIGH, and the store cut between its two cycles. -/
theorem resetDuringInstruction : Obligations.ResetDuringInstruction := by
  refine ⟨fun s t h hr => ?_, fun b v w x u hr => ?_, fun s off x y => ?_⟩
  · have hreset := (stepped_of_step h).intoReset_of_reset hr
    exact ⟨congrArg State.run hreset, hreset⟩
  · obtain ⟨hrest, hother⟩ := Bus.write_of_reset hr v w x u
    refine ⟨Bus.afterRead_of_reset hr v w x, hrest, fun a hlo hhi => hother a ?_⟩
    cases w with
    | byte => simpa using hlo
    | word => simpa using ⟨hlo, hhi rfl⟩
  · intro lo hi hr hq hm he hx hy hf hlow hhigh ho
    obtain ⟨t, ht, hbus⟩ := exec_mov_mem_ax s off
    have hcut := Bus.write_word_cut (v := s.view) hr hq hm he hx hy hf hlow hhigh
      (some (s.segOverride.getD .ds)) (phys_succ_ne _ off) ho (s.reg16 .ax)
    refine ⟨t, ht, ?_⟩
    simp only [State.readByte, hbus]
    exact hcut

end Sys2Proof.Machine
end
